-- ==== Sys2Proof/Word.lean ====
section
/-! DEFINITION. The word types of the ADT protocol engine (00_scope.md R13, R14). -/

namespace Sys2Proof

/-- A byte: an unsigned 8-bit value (R13). -/
abbrev Byte := BitVec 8

/-- A host register: an unsigned 32-bit word (R13, 10_state.md R31). -/
abbrev Word := BitVec 32

/-- A byte sequence (R14). -/
abbrev Bytes := List Byte

end Sys2Proof
end

