-- ==== Sys2Proof/Machine/Sequences.lean ====
section
/-! DEFINITION. Byte sequences and byte order (00_scope.md R14). -/

namespace Sys2Proof.Machine

/-- `s[i..j)` (R14): empty when `j <= i`, cut short at the end of `s`. -/
def slice (s : Bytes) (i j : Nat) : Bytes := (s.drop i).take (j - i)

/-- The least position at which the rest of the sequence satisfies `p`, if any. -/
def firstSuffix (p : Bytes → Bool) : Bytes → Option Nat
  | [] => if p [] then some 0 else none
  | b :: s => if p (b :: s) then some 0 else (firstSuffix p s).map (· + 1)

/-- `find(pat, s)` (R14): the least position where `pat` stands whole in `s`. -/
def find (pat s : Bytes) : Option Nat := firstSuffix pat.isPrefixOf s

/-- `be16(v)` (R14). -/
def be16 (v : BitVec 16) : Bytes := [v.extractLsb' 8 8, v.extractLsb' 0 8]

/-- `be32(v)` (R14). -/
def be32 (v : Word) : Bytes := [v.extractLsb' 24 8, v.extractLsb' 16 8, v.extractLsb' 8 8, v.extractLsb' 0 8]

/-- A 64-bit value as 8 bytes, least significant first (46_decode.md R340). -/
def le64 (v : BitVec 64) : Bytes :=
  [v.extractLsb' 0 8, v.extractLsb' 8 8, v.extractLsb' 16 8, v.extractLsb' 24 8, v.extractLsb' 32 8,
    v.extractLsb' 40 8, v.extractLsb' 48 8, v.extractLsb' 56 8]

/-- The value of a byte sequence, most significant byte first (R14). -/
def beNat (s : Bytes) : Nat := s.foldl (fun n b => n * 256 + b.toNat) 0

/-- The value of a byte sequence, least significant byte first (R14). -/
def leNat (s : Bytes) : Nat := beNat s.reverse

/-- `BE16(s, i)` (R14). -/
def be16At (s : Bytes) (i : Nat) : Nat := beNat (slice s i (i + 2))

/-- `BE32(s, i)` (R14). -/
def be32At (s : Bytes) (i : Nat) : Nat := beNat (slice s i (i + 4))

/-- `zeros(n)` (45_upgrade.md R291). -/
def zeros (n : Nat) : Bytes := List.replicate n 0

end Sys2Proof.Machine
end

