-- ==== Sys2Proof/Syntax.lean ====
section
/-! DEFINITION. The host operations (30_encoding.md R101), the packet tags (R103) and the device regions (R104). -/

namespace Sys2Proof

/-- The seven packet tags, in the order of their codes 0 to 6 (30_encoding.md R103). -/
inductive Tag where
  | s1 | s2 | a1 | a2 | fm | s3 | at
deriving DecidableEq, Repr

/-- The three regions of the device, in the order of their codes 0 to 2 (30_encoding.md R104). -/
inductive Region where
  | eeprom | app | boot
deriving DecidableEq, Repr

/-- The 22 host operations: one constructor per row of opcode_table.json, holding the argument fields the
operation reads (30_encoding.md R101, R105). A tag or region code stands as the number in field A, valid or not:
an invalid one is the operation's `BAD_ARG` (R103, R104), not an undecodable word. Argument bytes an operation
does not read are no part of it (R100). -/
inductive Instr where
  /-- CRC16, 41_crc.md R143 -/
  | crc16
  /-- SUM8, 41_crc.md R144 -/
  | sum8
  /-- VALIDATE, 42_registry.md R167: A is a tag code -/
  | validate (tag : Nat)
  /-- DESC, 42_registry.md R168: A is a tag code -/
  | desc (tag : Nat)
  /-- FM_SET, 42_registry.md R169: B is a frame length -/
  | fmSet (length : Nat)
  /-- DECODE, 46_decode.md R330: A is a tag code -/
  | decode (tag : Nat)
  /-- STREAM_START, 43_synchronizer.md R190: A is a tag code, B[0] the watchdog enable -/
  | streamStart (tag : Nat) (watchdog : Bool)
  /-- STREAM_STOP, 43_synchronizer.md R191 -/
  | streamStop
  /-- QPOP, 43_synchronizer.md R197 -/
  | qpop
  /-- GET_PRODUCT_INFO, 44_correlator.md R248 -/
  | getProductInfo
  /-- GET_FIELDS, 44_correlator.md R249 -/
  | getFields
  /-- READ_FIELDS, 44_correlator.md R250 -/
  | readFields
  /-- WRITE_FIELDS_TEMP, 44_correlator.md R251 -/
  | writeFieldsTemp
  /-- WRITE_FIELDS_PERM, 44_correlator.md R252 -/
  | writeFieldsPerm
  /-- SET_QUIET, 44_correlator.md R253 -/
  | setQuiet
  /-- RESTART, 44_correlator.md R254 -/
  | restart
  /-- JUMP_BOOT, 44_correlator.md R255 -/
  | jumpBoot
  /-- JUMP_APP, 44_correlator.md R256 -/
  | jumpApp
  /-- LOCK, 44_correlator.md R257: A is a region code -/
  | lock (region : Nat)
  /-- UNLOCK, 44_correlator.md R258: A is a region code -/
  | unlock (region : Nat)
  /-- UPG_START, 45_upgrade.md R290 -/
  | upgStart
  /-- RESET, 70_reset_and_hazards.md R401 -/
  | reset
deriving DecidableEq, Repr

end Sys2Proof
end

