-- ==== Sys2Proof/Config.lean ====
section
/-! DEFINITION. The implementation parameters of 00_scope.md R12.

Three kinds stand apart. A parameter with a value in R12 is a plain definition here. A parameter R12 leaves `OPEN`
is a field of the structure `Config`; its value in the machine at hand is an opaque constant, so that nothing proved of
it rests on a value (log 5; Machine/Parameters.lean makes the configuration of them). A value that no rule fixes and no
parameter names, the bits of a NaN, is an opaque function (log 12). -/

namespace Sys2Proof

/-! ## Parameters with a value (00_scope.md R12) -/

namespace Config

/-- `POLL_MS` -/
def pollMs : Nat := 10
/-- `RESP_TIMEOUT_MS` -/
def respTimeoutMs : Nat := 3000
/-- `WD_TIMEOUT_MS` -/
def wdTimeoutMs : Nat := 3000
/-- `WD_ATTEMPTS` -/
def wdAttempts : Nat := 3
/-- `ACK_TIMEOUT_MS` -/
def ackTimeoutMs : Nat := 3000
/-- `T_PRE_JI_MS` -/
def preJiMs : Nat := 2000
/-- `T_POST_JI_MS` -/
def postJiMs : Nat := 2000
/-- `T_ERASE_MS` -/
def eraseMs : Nat := 26000
/-- `T_BLOCK_MS` -/
def blockMs : Nat := 100
/-- `T_PRE_JA_MS` -/
def preJaMs : Nat := 1000
/-- `CHUNK_MAX` -/
def chunkMax : Nat := 192
/-- `PAD_ALIGN` -/
def padAlign : Nat := 16
/-- `JI_ACK_LEN` -/
def jiAckLen : Nat := 7
/-- `WA_ACK_LEN` -/
def waAckLen : Nat := 12
/-- `JA_ACK_LEN` -/
def jaAckLen : Nat := 7
/-- `BAUD_BOOT` -/
def baudBoot : Word := 230400
/-- `BAUD_EEPROM_UNLOCK` -/
def baudEepromUnlock : Word := 115200
/-- `BAUD_BLOCK` -/
def baudBlock : Word := 57600
/-- `ODR_RESET` -/
def odrReset : BitVec 16 := 1
/-- `SUM8_FIRST` -/
def sum8First : Nat := 2
/-- `FM_FIXED_OVERHEAD` -/
def fmFixedOverhead : Nat := 11
/-- `FM_LEN_RESET` -/
def fmLenReset : Byte := 95

end Config

/-! ## The shapes of the OPEN parameters -/

/-- The correlation rule for GP/"ID" (`GPID_MATCH`, 44_correlator.md R242). -/
inductive GpidMatch where
  /-- `LITERAL_5_7`, the value R12 gives -/
  | literal57
  /-- `TAG_2_3`, the alternative of 90_conflicts.md C4 -/
  | tag23
deriving DecidableEq, Repr

/-- The two ASCII bytes that name a command (30_encoding.md R109). -/
abbrev Code := Byte × Byte

/-- One value for each region of the device (30_encoding.md R104). -/
structure PerRegion (α : Type) where
  eeprom : α
  app : α
  boot : α
deriving DecidableEq, Repr

/-- The value of a region. -/
def PerRegion.get {α : Type} (p : PerRegion α) : Region → α
  | .eeprom => p.eeprom
  | .app => p.app
  | .boot => p.boot

/-- The kind of a field of a frame's payload (46_decode.md R332). -/
inductive FieldKind where
  | i16 | u16 | i32 | u32 | f32
deriving DecidableEq, Repr

/-- The width of a field in bytes (46_decode.md R332). -/
def FieldKind.width : FieldKind → Nat
  | .i16 => 2
  | .u16 => 2
  | .i32 => 4
  | .u32 => 4
  | .f32 => 4

/-- The byte order of a field (46_decode.md R332). -/
inductive ByteOrder where
  | be | le
deriving DecidableEq, Repr

/-- The operation of one scale step (46_decode.md R332). -/
inductive ScaleOp where
  | mul | div
deriving DecidableEq, Repr

/-- One scale step: an operation and its binary64 constant (46_decode.md R332). -/
abbrev ScaleStep := ScaleOp × BitVec 64

/-- A scale: its steps in written order (46_decode.md R332). -/
abbrev Scale := List ScaleStep

/-- What a layout names an entry as (46_decode.md R333, R335, R338, R339; DESIGN CHOICE, log 21: the spec reads it off
the entry's name). -/
inductive Quantity where
  | acceleration | rate | angle | temperature | timeOfWeek
  /-- anything else: a timer, a status word, a header field -/
  | other
deriving DecidableEq, Repr

/-- A layout entry `{name, off, kind, order, scale}` (46_decode.md R332), and what its name names (log 21). -/
structure FieldEntry where
  name : String
  quantity : Quantity
  off : Nat
  kind : FieldKind
  order : ByteOrder
  scale : Scale
deriving DecidableEq, Repr

/-- The scales of the seven fields of an FM chip block (`FM_SCALE`, 46_decode.md R337; log 16). -/
structure FmScale where
  accelX : Scale
  accelY : Scale
  accelZ : Scale
  rateX : Scale
  rateY : Scale
  rateZ : Scale
  temp : Scale
deriving DecidableEq, Repr

/-- The OPEN parameters of 00_scope.md R12, and `GPID_MATCH`, which R12 gives two values. `none` is "not configured"
(92_eei_decisions.md section 7). -/
structure Config where
  /-- `N_READ` -/
  nRead : Nat
  /-- `INIT_BAUD` -/
  initBaud : Word
  /-- `MAX_IMAGE` -/
  maxImage : Nat
  /-- `HBUF_SIZE` -/
  hbufSize : Nat
  /-- `GPID_MATCH` -/
  gpidMatch : GpidMatch
  /-- `QUIET_PAYLOAD` -/
  quietPayload : Option Bytes
  /-- `LOCK_CODE(r)` -/
  lockCode : PerRegion (Option Code)
  /-- `UNLOCK_CODE(r)` -/
  unlockCode : PerRegion (Option Code)
  /-- `LOCK_PAYLOAD(r)` -/
  lockPayload : PerRegion (Option Bytes)
  /-- `UNLOCK_KEY`, 8 bytes -/
  unlockKey : Option (Vector Byte 8)
  /-- `SPECIAL_FIELD_ID` -/
  specialFieldId : Option (BitVec 16)
  /-- `FIELD_LAYOUT(S2)` -/
  layoutS2 : Option (List FieldEntry)
  /-- `FIELD_LAYOUT(A1)` -/
  layoutA1 : Option (List FieldEntry)
  /-- `FIELD_LAYOUT(A2)` -/
  layoutA2 : Option (List FieldEntry)
  /-- `FIELD_LAYOUT(S3)` -/
  layoutS3 : Option (List FieldEntry)
  /-- `FIELD_LAYOUT(AT)` -/
  layoutAT : Option (List FieldEntry)
  /-- `FM_SCALE` -/
  fmScale : Option FmScale
  /-- `S1_TEMP_SCALE` -/
  s1TempScale : Option Scale
deriving DecidableEq, Repr

/-! ## The OPEN parameters of the machine at hand, unknown (log 5) -/

namespace Config

/-- `N_READ`, less 1 -/
opaque nReadLessOne : Nat
/-- `INIT_BAUD` -/
opaque initBaudValue : Word
/-- `MAX_IMAGE`, less 1, modulo its largest value -/
opaque maxImageSeed : Nat
/-- `HBUF_SIZE`, less the least size R12 allows -/
opaque hbufSlack : Nat
/-- `QUIET_PAYLOAD` -/
opaque quietPayloadValue : Option Bytes
/-- `LOCK_CODE(r)` -/
opaque lockCodeValue : Region → Option Code
/-- `UNLOCK_CODE(r)` -/
opaque unlockCodeValue : Region → Option Code
/-- `LOCK_PAYLOAD(r)` -/
opaque lockPayloadValue : Region → Option Bytes
/-- `UNLOCK_KEY` -/
opaque unlockKeyValue : Option (Vector Byte 8)
/-- `SPECIAL_FIELD_ID` -/
opaque specialFieldIdValue : Option (BitVec 16)
/-- `FIELD_LAYOUT(tag)` for S2, A1, A2, S3 and AT -/
opaque layoutValue : Tag → Option (List FieldEntry)
/-- `FM_SCALE` of the seven chip fields, in order -/
opaque fmScaleValue : Option (Nat → Scale)
/-- `S1_TEMP_SCALE` -/
opaque s1TempScaleValue : Option Scale

/-! ## Free values (log 12): the sign and fraction of a NaN that an operation delivers -/

/-- The sign (bit 52) and fraction bits of a NaN product of two binary64 operands. -/
opaque nanOfMul : BitVec 64 → BitVec 64 → BitVec 53
/-- The sign (bit 52) and fraction bits of a NaN quotient of two binary64 operands. -/
opaque nanOfDiv : BitVec 64 → BitVec 64 → BitVec 53
/-- The sign (bit 52) and fraction bits of a binary32 NaN converted to binary64. -/
opaque nanOfWiden : BitVec 32 → BitVec 53

end Config

end Sys2Proof
end

