-- ==== Sys2Proof/Machine/Binary64.lean ====
section
/-! DEFINITION. IEEE 754 binary64 multiplication and division, rounded to nearest with ties to even, and the exact
conversions to binary64 that the decoder uses (46_decode.md R332; the meaning of the arithmetic is general knowledge
by 93_implementation_defined.md G4, log 15). A finite nonzero operand is its exact value, a natural number times a
power of two; a result is computed exactly and rounded once. -/

namespace Sys2Proof.Machine

/-- The encoding of plus infinity, without the sign bit. -/
def infBits : Nat := 0x7FF * 2 ^ 52

/-- A binary64 value from its sign and the 63 bits below it. -/
def withSign (neg : Bool) (magnitude : Nat) : BitVec 64 := BitVec.ofNat 64 (neg.toNat * 2 ^ 63 + magnitude)

/-- A NaN with the free sign and fraction bits `free` (log 12). Every NaN encoding is one of these: the exponent is
all ones and the fraction is not 0. -/
def nanWith (free : BitVec 53) : BitVec 64 :=
  let fraction := free.toNat % 2 ^ 52
  withSign free.msb (infBits + if fraction = 0 then 1 else fraction)

/-- `num / den` rounded to the nearest natural number, ties to even. -/
def roundQuotient (num den : Nat) : Nat :=
  let q := num / den
  let r := num % den
  if den < 2 * r || (den == 2 * r && q % 2 == 1) then q + 1 else q

/-- The exponent of the unit in the last place of `num / den`: the quotient, divided by 2 to that power, is at least
2^52 and less than 2^53, unless the least exponent -1074 applies. -/
def ulpExponent (num den : Nat) : Int :=
  let e : Int := (Nat.log2 num : Int) - (Nat.log2 den : Int) - 53
  let fits : Bool := num * 2 ^ (-e).toNat < 2 ^ 53 * (den * 2 ^ e.toNat)
  max (if fits then e else e + 1) (-1074)

/-- `round64` of `num / den`, `den` not 0 (46_decode.md R332): binary64, to nearest, ties to even; subnormal and zero
results and overflow to infinity as IEEE 754 has them. -/
def roundRational (neg : Bool) (num den : Nat) : BitVec 64 :=
  if num = 0 then withSign neg 0
  else
    let e := ulpExponent num den
    let m := roundQuotient (num * 2 ^ (-e).toNat) (den * 2 ^ e.toNat)
    withSign neg (min ((e + 1074).toNat * 2 ^ 52 + m) infBits)

/-- `round64` of `num / den` times 2 to the power `e`. -/
def roundScaled (neg : Bool) (num den : Nat) (e : Int) : BitVec 64 :=
  roundRational neg (num * 2 ^ e.toNat) (den * 2 ^ (-e).toNat)

/-- What a binary64 or binary32 encoding stands for. -/
inductive FloatClass where
  | nan
  | inf (neg : Bool)
  /-- `mant` times 2 to the power `exp`; a zero has `mant = 0` -/
  | finite (neg : Bool) (mant : Nat) (exp : Int)
deriving DecidableEq, Repr

/-- The class of an encoding given by its fields: `p` fraction bits, largest exponent field `emax`, bias `bias`. -/
def classifyFields (p emax bias : Nat) (neg : Bool) (expField fraction : Nat) : FloatClass :=
  if expField = emax then if fraction = 0 then .inf neg else .nan
  else if expField = 0 then .finite neg fraction (1 - (bias : Int) - p)
  else .finite neg (2 ^ p + fraction) ((expField : Int) - bias - p)

/-- The class of a binary64 encoding. -/
def classify64 (x : BitVec 64) : FloatClass :=
  classifyFields 52 0x7FF 1023 x.msb (x.extractLsb' 52 11).toNat (x.extractLsb' 0 52).toNat

/-- The class of a binary32 encoding. -/
def classify32 (x : BitVec 32) : FloatClass :=
  classifyFields 23 0xFF 127 x.msb (x.extractLsb' 23 8).toNat (x.extractLsb' 0 23).toNat

/-- `round64(x * y)` (46_decode.md R332). Infinity times zero, and any NaN operand, give a NaN. -/
def mul64 (x y : BitVec 64) : BitVec 64 :=
  match classify64 x, classify64 y with
  | .finite n1 m1 e1, .finite n2 m2 e2 => roundScaled (n1 != n2) (m1 * m2) 1 (e1 + e2)
  | .inf n1, .inf n2 => withSign (n1 != n2) infBits
  | .inf n1, .finite n2 m2 _ =>
    if m2 = 0 then nanWith (Config.nanOfMul x y) else withSign (n1 != n2) infBits
  | .finite n1 m1 _, .inf n2 =>
    if m1 = 0 then nanWith (Config.nanOfMul x y) else withSign (n1 != n2) infBits
  | .nan, _ => nanWith (Config.nanOfMul x y)
  | _, .nan => nanWith (Config.nanOfMul x y)

/-- `round64(x / y)` (46_decode.md R332). Zero by zero, infinity by infinity, and any NaN operand, give a NaN; a
finite nonzero value by zero gives an infinity. -/
def div64 (x y : BitVec 64) : BitVec 64 :=
  match classify64 x, classify64 y with
  | .finite n1 m1 e1, .finite n2 m2 e2 =>
    if m2 = 0 then if m1 = 0 then nanWith (Config.nanOfDiv x y) else withSign (n1 != n2) infBits
    else roundScaled (n1 != n2) m1 m2 (e1 - e2)
  | .inf _, .inf _ => nanWith (Config.nanOfDiv x y)
  | .inf n1, .finite n2 _ _ => withSign (n1 != n2) infBits
  | .finite n1 _ _, .inf n2 => withSign (n1 != n2) 0
  | .nan, _ => nanWith (Config.nanOfDiv x y)
  | _, .nan => nanWith (Config.nanOfDiv x y)

/-- `binary64(raw)` of an integer, exact below 2^53 in magnitude (46_decode.md R332). -/
def ofInt64 (i : Int) : BitVec 64 := roundRational (decide (i < 0)) i.natAbs 1

/-- A binary32 converted to binary64, exact but for the bits of a NaN (46_decode.md R332). -/
def widen32 (x : BitVec 32) : BitVec 64 :=
  match classify32 x with
  | .finite n m e => roundScaled n m 1 e
  | .inf n => withSign n infBits
  | .nan => nanWith (Config.nanOfWiden x)

/-- The binary64 nearest to a decimal literal `num / 10^places` (46_decode.md R332). -/
def decimal64 (num places : Nat) : BitVec 64 := roundRational false num (10 ^ places)

end Sys2Proof.Machine
end

