-- ==== Sys2Proof/Machine/Parameters.lean ====
section
/-! DEFINITION. The scales of 46_decode.md, the conditions the spec sets on the OPEN parameters, and the parameters of
the machine at hand (00_scope.md R12). -/

namespace Sys2Proof.Machine

/-! ## The scales the source gives (46_decode.md R333, R335, R338, R339) -/

/-- Acceleration in g: raw x 20 / 65536 (R333). -/
def scaleAccel : Scale := [(.mul, decimal64 20 0), (.div, decimal64 65536 0)]

/-- Rate in deg/s: raw x 1260 / 65536 (R333). -/
def scaleRate : Scale := [(.mul, decimal64 1260 0), (.div, decimal64 65536 0)]

/-- The S1 timer in ms: raw x 15.259022 (R333). -/
def scaleTimer : Scale := [(.mul, decimal64 15259022 6)]

/-- Angle in deg: raw x 360 / 65536, for the fields a configured A1 or A2 layout names as angles (R335, R336). -/
def scaleAngle : Scale := [(.mul, decimal64 360 0), (.div, decimal64 65536 0)]

/-- S3 acceleration: raw x 0.000001 x 0.1 (R338). -/
def scaleS3Accel : Scale := [(.mul, decimal64 1 6), (.mul, decimal64 1 1)]

/-- S3 rate: raw x 0.000001 (R338). -/
def scaleS3Rate : Scale := [(.mul, decimal64 1 6)]

/-- S3 temperature: raw x 0.008 (R338). -/
def scaleS3Temp : Scale := [(.mul, decimal64 8 3)]

/-- AT rate in deg/s: raw x 300 / 32768 (R339). -/
def scaleAtRate : Scale := [(.mul, decimal64 300 0), (.div, decimal64 32768 0)]

/-- AT acceleration in g: raw x 12 / 32768 (R339). -/
def scaleAtAccel : Scale := [(.mul, decimal64 12 0), (.div, decimal64 32768 0)]

/-- AT temperature in °C: raw x 200 / 32768 (R339). -/
def scaleAtTemp : Scale := [(.mul, decimal64 200 0), (.div, decimal64 32768 0)]

/-- AT time of week in s: raw x 0.001 (R339). -/
def scaleAtTow : Scale := [(.mul, decimal64 1 3)]

/-- The scale the spec gives a quantity of a format, if it gives one: the angles of A1 and A2 (R335, R336), and the
quantities of S3 (R338) and AT (R339). The accelerations and rates of A1 and A2 have none, since the source does not say
which fields use the scales of R333 (R335). -/
def formatScale (t : Tag) (q : Quantity) : Option Scale :=
  match t, q with
  | .a1, .angle | .a2, .angle => some scaleAngle
  | .s3, .acceleration => some scaleS3Accel
  | .s3, .rate => some scaleS3Rate
  | .s3, .temperature => some scaleS3Temp
  | .at, .rate => some scaleAtRate
  | .at, .acceleration => some scaleAtAccel
  | .at, .temperature => some scaleAtTemp
  | .at, .timeOfWeek => some scaleAtTow
  | _, _ => none

/-- One scale step, rounded (46_decode.md R332). -/
def scaleStep (x : BitVec 64) (st : ScaleStep) : BitVec 64 :=
  match st.1 with
  | .mul => mul64 x st.2
  | .div => div64 x st.2

/-- A scale applied to a value: its steps from left to right (46_decode.md R332). -/
def applyScale (sc : Scale) (x : BitVec 64) : BitVec 64 := sc.foldl scaleStep x

end Sys2Proof.Machine

namespace Sys2Proof

/-! ## The conditions the spec sets on the OPEN parameters -/

/-- The entries lie within a payload of `size` bytes (46_decode.md R332, R340). -/
def entriesInside (size : Nat) (l : List FieldEntry) : Bool :=
  l.all fun e => e.off + e.kind.width ≤ size

/-- No entry overlaps an entry after it (46_decode.md R340). -/
def entriesDisjoint : List FieldEntry → Bool
  | [] => true
  | e :: l =>
    (l.all fun e' => e.off + e.kind.width ≤ e'.off || e'.off + e'.kind.width ≤ e.off) && entriesDisjoint l

/-- Every entry has the byte order of its format (46_decode.md R334 to R336, R338, R339). -/
def entriesOrdered (o : ByteOrder) (l : List FieldEntry) : Bool :=
  l.all fun e => e.order == o

/-- A layout fits a payload of `size` bytes in byte order `o`. -/
def layoutFits (size : Nat) (o : ByteOrder) (l : List FieldEntry) : Bool :=
  entriesInside size l && entriesDisjoint l && entriesOrdered o l

/-- An S2 layout has two integer entries first, then `f32` entries (46_decode.md R334). DESIGN CHOICE (log 17): the rule
gives no count of `f32` entries, and none at all is admitted. -/
def layoutFitsS2 (l : List FieldEntry) : Bool :=
  layoutFits 38 .le l && decide (2 ≤ l.length) && ((l.take 2).all fun e => e.kind != .f32) &&
    ((l.drop 2).all fun e => e.kind == .f32)

/-- Every entry whose quantity has a scale of the spec in this format has that scale: "they are not configurable"
(46_decode.md R332, R335, R336, R338, R339; log 21). -/
def scalesFit (t : Tag) (l : List FieldEntry) : Bool :=
  l.all fun e => (Machine.formatScale t e.quantity).all (e.scale == ·)

/-- What the spec asks of a configured layout of a format (46_decode.md R334 to R336, R338, R339). S1 and FM have the
layouts of R333 and R337. -/
def layoutLegal (t : Tag) (l : List FieldEntry) : Bool :=
  match t with
  | .s2 => layoutFitsS2 l
  | .a1 => layoutFits 32 .be l && scalesFit .a1 l
  | .a2 => layoutFits 30 .be l && scalesFit .a2 l
  | .s3 => layoutFits 36 .le l && scalesFit .s3 l
  | .at => layoutFits 36 .le l && scalesFit .at l
  | .s1 => false
  | .fm => false

/-- A scale takes +0.0 to +0.0: what 46_decode.md R342 says of `S1_TEMP_SCALE` "whatever" it is (DEDUCED, log 22). -/
def keepsZero (sc : Scale) : Bool := Machine.applyScale sc 0#64 == 0#64

/-- A payload fits the length byte of an envelope (30_encoding.md R106). -/
def fitsEnvelope (p : Bytes) : Bool := p.length ≤ 255

/-- The conditions of 00_scope.md R12, 30_encoding.md R106 and 46_decode.md R332, R334 to R342 on the parameters. DESIGN
CHOICE (log 17): a configured `LOCK_CODE` or `UNLOCK_CODE` may be any two bytes, ASCII (30_encoding.md R109) or not. -/
def Config.wf (c : Config) : Bool :=
  decide (1 ≤ c.nRead) && decide (1 ≤ c.maxImage) && decide (c.maxImage ≤ 2 ^ 32 - 16) &&
    decide (max c.maxImage 1024 ≤ c.hbufSize) && c.quietPayload.all fitsEnvelope &&
    c.lockPayload.eeprom.all fitsEnvelope && c.lockPayload.app.all fitsEnvelope &&
    c.lockPayload.boot.all fitsEnvelope && c.layoutS2.all (layoutLegal .s2) && c.layoutA1.all (layoutLegal .a1) &&
    c.layoutA2.all (layoutLegal .a2) && c.layoutS3.all (layoutLegal .s3) && c.layoutAT.all (layoutLegal .at) &&
    c.s1TempScale.all keepsZero

/-! ## The parameters of the machine at hand (log 5) -/

namespace Config

/-- An unknown value for each region. -/
def perRegion {α : Type} (f : Region → α) : PerRegion α := ⟨f .eeprom, f .app, f .boot⟩

/-- The OPEN parameters of the machine at hand. A value outside the conditions of R12 is taken as its nearest legal
reading (a number) or as not configured (a payload too long, a layout or scale that is not legal), so that every legal
configuration, and no other, may be this one (log 5, log 17, log 22). `GPID_MATCH` has the value R12 gives it. -/
def machine : Config where
  nRead := nReadLessOne + 1
  initBaud := initBaudValue
  maxImage := maxImageSeed % (2 ^ 32 - 16) + 1
  hbufSize := max (maxImageSeed % (2 ^ 32 - 16) + 1) 1024 + hbufSlack
  gpidMatch := .literal57
  quietPayload := quietPayloadValue.filter fitsEnvelope
  lockCode := perRegion lockCodeValue
  unlockCode := perRegion unlockCodeValue
  lockPayload := perRegion fun r => (lockPayloadValue r).filter fitsEnvelope
  unlockKey := unlockKeyValue
  specialFieldId := specialFieldIdValue
  layoutS2 := (layoutValue .s2).filter (layoutLegal .s2)
  layoutA1 := (layoutValue .a1).filter (layoutLegal .a1)
  layoutA2 := (layoutValue .a2).filter (layoutLegal .a2)
  layoutS3 := (layoutValue .s3).filter (layoutLegal .s3)
  layoutAT := (layoutValue .at).filter (layoutLegal .at)
  fmScale := fmScaleValue.map fun f => ⟨f 0, f 1, f 2, f 3, f 4, f 5, f 6⟩
  s1TempScale := s1TempScaleValue.filter keepsZero

end Config

end Sys2Proof
end

