-- ==== Sys2Proof/Machine/State.lean ====
section
/-! DEFINITION. The architectural state of the block (10_state.md) and its reset values (70_reset_and_hazards.md
R401). Plain data throughout. -/

namespace Sys2Proof.Machine

/-- A byte space held sparsely: (index, byte) pairs with indexes strictly rising and no byte 0 listed. An unlisted
index reads 0, the reset value of `HIN` and `HOUT` (20_memory.md R81, R82). -/
abbrev Memory := List Host.Cell

/-- The error codes, in the order of their numbers 0 to 12 (60_exceptions.md R360). -/
inductive ErrorCode where
  | none | sourceUnavailable | integrityMismatch | responseTimeout | bootloaderEntryFailed | blockWriteFailed
  | queueOverflow | malformedFieldResponse | resourceOwned | badArg | illegalOp | initFailure | notConfigured
deriving DecidableEq, Repr

/-- The link owner, `STATUS.OWNER`, in the order of its codes 0 to 3 (10_state.md R33). -/
inductive Owner where
  | none | stream | exchange | upgrade
deriving DecidableEq, Repr

/-- The `STATUS` register's fields (10_state.md R33). -/
structure Status where
  busy : Bool
  done : Bool
  err : Bool
  rej : Bool
  errcode : ErrorCode
  owner : Owner
deriving DecidableEq, Repr

/-- The synchronizer and its queue: `SYNC_STATE` (10_state.md R43), `s_len`, `next_poll`, `wd_start` (R57), `acc`
(R52), `Q` (R53), `Q_EVICT` (R41) and `CRC_FAIL` (R42). -/
structure Stream where
  /-- `SYNC_STATE.ACTIVE` -/
  active : Bool
  /-- `SYNC_STATE.TAG` -/
  tag : Tag
  /-- `SYNC_STATE.WD_EN` -/
  wdEn : Bool
  /-- `SYNC_STATE.WD_ARMED` -/
  wdArmed : Bool
  /-- `SYNC_STATE.WD_ATTEMPT` -/
  wdAttempt : BitVec 2
  /-- `SYNC_STATE.INIT_FAIL` -/
  initFail : Bool
  /-- `s_len` -/
  len : Nat
  /-- `next_poll` -/
  nextPoll : Nat
  /-- `wd_start` -/
  wdStart : Nat
  /-- `acc` -/
  acc : Bytes
  /-- `Q`, oldest first -/
  q : List Bytes
  /-- `Q_EVICT` -/
  evicted : Word
  /-- `CRC_FAIL` -/
  crcFail : Word
deriving DecidableEq, Repr

/-- The exchange operations, the `opc` of `HOSTOP(opc)` (10_state.md R54, 44_correlator.md R246). -/
inductive ExchangeOp where
  | getProductInfo | getFields | readFields | writeFieldsTemp | writeFieldsPerm | setQuiet | restart | jumpBoot
  | jumpApp | lock | unlock
deriving DecidableEq, Repr

/-- `c_client`, the requester that gets the result of an exchange (10_state.md R54). -/
inductive Client where
  | none
  | hostOp (op : ExchangeOp)
  | upg
deriving DecidableEq, Repr

/-- `c_mode` (10_state.md R54). -/
inductive MatchMode where
  | std | gpid
deriving DecidableEq, Repr

/-- `c_phase` and `a_phase` (10_state.md R54, R55). -/
inductive WaitPhase where
  | idle | wait
deriving DecidableEq, Repr

/-- The correlator (10_state.md R54). -/
structure Corr where
  /-- `c_phase` -/
  phase : WaitPhase
  /-- `c_req` -/
  req : Bytes
  /-- `c_mode` -/
  mode : MatchMode
  /-- `c_deadline` -/
  deadline : Nat
  /-- `cbuf` -/
  buf : Bytes
  /-- `c_client` -/
  client : Client
deriving DecidableEq, Repr

/-- The acknowledgement reader (10_state.md R55). -/
structure Ackr where
  /-- `a_phase` -/
  phase : WaitPhase
  /-- `a_need` -/
  need : Nat
  /-- `a_deadline` -/
  deadline : Nat
  /-- `abuf` -/
  buf : Bytes
deriving DecidableEq, Repr

/-- `UPG_STATE.STATE`, in the order of its codes 0 to 6 (10_state.md R45). -/
inductive Stage where
  | idle | quietSet | bootloaderEntered | writing | complete | appResumed | failed
deriving DecidableEq, Repr

/-- `u_phase` (45_upgrade.md R294). -/
inductive UpgPhase where
  | none | q1 | q2 | w1 | w2 | jiAck | be | bw | back | pj | jaAck
deriving DecidableEq, Repr

/-- The upgrade session (10_state.md R45 to R48, R56). -/
structure Upg where
  /-- `UPG_STATE.STATE` -/
  stage : Stage
  /-- `UPG_STATE.SESSION` -/
  session : Bool
  /-- `UPG_STATE.FAIL_STAGE` -/
  failStage : Stage
  /-- `UPG_WRITTEN` -/
  written : Word
  /-- `UPG_TOTAL` -/
  total : Word
  /-- `UPG_PROGRESS` -/
  progress : BitVec 7
  /-- `IMG` -/
  img : Bytes
  /-- `u_phase` -/
  phase : UpgPhase
  /-- `u_deadline` -/
  deadline : Nat
  /-- `u_chunk` -/
  chunk : Nat
deriving DecidableEq, Repr

/-- The events of the history `H` (10_state.md R59); the last argument is the time. -/
inductive Event where
  | tx (s : Bytes) (baud : Word) (t : Nat)
  | baud (v : Word) (t : Nat)
  | push (f : Bytes) (t : Nat)
  | evict (f : Bytes) (t : Nat)
  | pop (f : Bytes) (t : Nat)
  | progress (p : Nat) (t : Nat)
  | done (opc : Byte) (code : ErrorCode) (t : Nat)
  | wdRestart (k : Nat) (t : Nat)
  | initFail (t : Nat)
deriving DecidableEq, Repr

/-- The agents of the block that take steps of their own (00_scope.md R11). -/
inductive Agent where
  | sync | corr | ackr | upg
deriving DecidableEq, Repr

/-- One entry of the schedule: what happens next at the block's boundary, or which agent is to move (00_scope.md R10,
60_exceptions.md R373; log 1). -/
inductive Action where
  /-- the host writes register `num` (10_state.md R31); register 0x00 is `CMD` -/
  | regWrite (num : Byte) (v : Word)
  /-- the host reads register `num` (10_state.md R31) -/
  | regRead (num : Byte)
  /-- the host writes byte `i` of `HIN` (20_memory.md R81) -/
  | hinWrite (i : Nat) (b : Byte)
  /-- the host reads byte `i` of `HIN` (20_memory.md R81) -/
  | hinRead (i : Nat)
  /-- the host writes byte `i` of `HOUT` (20_memory.md R82) -/
  | houtWrite (i : Nat) (b : Byte)
  /-- the host reads byte `i` of `HOUT` (20_memory.md R82) -/
  | houtRead (i : Nat)
  /-- `Rx(b)` (00_scope.md R15) -/
  | rx (b : Byte)
  /-- `Tick(d)` (00_scope.md R15, 60_exceptions.md R373) -/
  | tick (d : Nat)
  /-- `Link(v)` (00_scope.md R15) -/
  | link (v : Bool)
  /-- the agent takes its step now, before the rest of the schedule (60_exceptions.md R373) -/
  | agent (a : Agent)
  /-- the enabled agent steps are taken until none is enabled (70_reset_and_hazards.md R413) -/
  | settle
deriving DecidableEq, Repr

/-- The state of the block (10_state.md R30), and last the model's own three fields (log 1, log 5, log 7). -/
structure State where
  /-- `STATUS` (R33) -/
  status : Status
  /-- `RES0` (R34) -/
  res0 : Word
  /-- `RES1` (R34) -/
  res1 : Word
  /-- `HIN_LEN` (R35) -/
  hinLen : Word
  /-- `HOUT_LEN` (R36) -/
  houtLen : Word
  /-- `BAUD` (R37) -/
  baud : Word
  /-- `FM_LEN` (R38) -/
  fmLen : Byte
  /-- `ODR` (R39) -/
  odr : BitVec 16
  /-- `HIN` (20_memory.md R81) -/
  hin : Memory
  /-- `HOUT` (20_memory.md R82) -/
  hout : Memory
  /-- `rxq` (R51) -/
  rxq : Bytes
  /-- the synchronizer and `Q` (R41 to R43, R52, R53, R57) -/
  stream : Stream
  /-- the correlator (R54) -/
  corr : Corr
  /-- the acknowledgement reader (R55) -/
  ackr : Ackr
  /-- the upgrade session (R45 to R48, R56) -/
  upg : Upg
  /-- `now` (R49) -/
  now : Nat
  /-- `link_ok` (R58) -/
  linkOk : Bool
  /-- `H` (R59), in step order -/
  hist : List Event
  /-- the parameters of 00_scope.md R12; no step writes them (log 5) -/
  cfg : Config
  /-- what is still to happen at the block's boundary, next first (log 1) -/
  schedule : List Action
  /-- what the last host read returned (log 7) -/
  hostData : Word
deriving DecidableEq, Repr

/-- Why a step stops. The block itself has no fault (60_exceptions.md R367); this one says that the schedule is no
schedule of the block. -/
inductive Fault where
  /-- Raised by `step` when the next action is an agent step, or a `Tick`, that the spec does not enable: a step of
  an agent whose condition does not hold (R192, R241, R294, R295), or `Tick(0)` (R15 asks d >= 1). Safe: the block
  has no such step, so no behaviour of the block is lost (log 4). -/
  | stepNotEnabled (a : Action)
deriving DecidableEq, Repr

/-- Why an instruction has no meaning in the model. No meaning answers with it: every operation is modelled. -/
inductive Refusal where
  /-- Raised by an arm of `exec` for an operation without a meaning; no arm is. Safe: nothing is claimed of it. -/
  | notModelled (mnemonic : String)
deriving DecidableEq, Repr

/-! ## Reset (70_reset_and_hazards.md R401) -/

/-- `STATUS` after reset. -/
def Status.reset : Status := ⟨false, false, false, false, .none, .none⟩

/-- The synchronizer after reset. -/
def Stream.reset : Stream := ⟨false, .s1, false, false, 0, false, 0, 0, 0, [], [], 0, 0⟩

/-- The correlator after reset. -/
def Corr.reset : Corr := ⟨.idle, [], .std, 0, [], .none⟩

/-- The acknowledgement reader after reset. -/
def Ackr.reset : Ackr := ⟨.idle, 0, 0, []⟩

/-- The upgrade session after reset. -/
def Upg.reset : Upg := ⟨.idle, false, .idle, 0, 0, 0, [], .none, 0, 0⟩

/-- The reset state of R401 for given parameters; `link_ok` is the environment's (R58). -/
def State.resetFor (cfg : Config) (linkOk : Bool) : State where
  status := .reset
  res0 := 0
  res1 := 0
  hinLen := 0
  houtLen := 0
  baud := cfg.initBaud
  fmLen := Config.fmLenReset
  odr := Config.odrReset
  hin := []
  hout := []
  rxq := []
  stream := .reset
  corr := .reset
  ackr := .reset
  upg := .reset
  now := 0
  linkOk := linkOk
  hist := []
  cfg := cfg
  schedule := []
  hostData := 0

/-- The machine at power-on (R400): the reset state of R401, `H` empty, the parameters unknown (log 5), and the link
available (DESIGN CHOICE, unsafe: the spec leaves it to the environment, log 6). -/
def State.reset : State := State.resetFor Config.machine true

end Sys2Proof.Machine
end

