-- ==== Sys2Proof/Machine/Ops.lean ====
section
/-! DEFINITION. The named operations over the byte spaces, the link, the result registers and `STATUS`, and the issue
and the completion of a host operation: `raise`, the block's only exception entry, and what ends its effect, `issue`
of the next command (60_exceptions.md R361, R362, R367, R368). -/

namespace Sys2Proof.Machine

/-! ## Byte spaces (20_memory.md R81, R82) -/

/-- The byte at an index; an unlisted one reads 0. -/
def Memory.read : Memory → Nat → Byte
  | [], _ => 0#8
  | (x, v) :: m, a => if x = a then v else Memory.read m a

/-- Storing a byte, keeping the canonical form: indexes rising, no byte 0 listed. -/
def Memory.write : Memory → Nat → Byte → Memory
  | [], a, b => if b = 0#8 then [] else [(a, b)]
  | (x, v) :: m, a, b =>
    if a < x then if b = 0#8 then (x, v) :: m else (a, b) :: (x, v) :: m
    else if a = x then if b = 0#8 then m else (a, b) :: m
    else (x, v) :: Memory.write m a b

/-- The canonical form: every index at least `lo`, indexes strictly rising, no byte 0 listed. -/
def Memory.wfFrom (lo : Nat) : Memory → Bool
  | [] => true
  | (x, v) :: m => decide (lo ≤ x) && decide (v ≠ 0#8) && Memory.wfFrom (x + 1) m

/-- The canonical form of a byte space. -/
def Memory.wf (m : Memory) : Bool := Memory.wfFrom 0 m

/-- The space that holds `s` from index `k` on and 0 elsewhere. -/
def Memory.ofBytesAt (k : Nat) : Bytes → Memory
  | [] => []
  | b :: s => if b = 0#8 then Memory.ofBytesAt (k + 1) s else (k, b) :: Memory.ofBytesAt (k + 1) s

/-- The space that holds `s` from index 0 on and 0 elsewhere (R82). -/
def Memory.ofBytes (s : Bytes) : Memory := Memory.ofBytesAt 0 s

/-- The first `n` bytes of a space (R81). -/
def Memory.readBytes (m : Memory) (n : Nat) : Bytes := (List.range n).map m.read

namespace State

/-! ## The history, the link and the results -/

/-- `emit(ev)` (00_scope.md R15). -/
def emit (e : Event) (s : State) : State := { s with hist := s.hist ++ [e] }

/-- `flush_in()` (00_scope.md R15). -/
def flushIn (s : State) : State := { s with rxq := [] }

/-- `TX(b)` (00_scope.md R15). -/
def transmit (b : Bytes) (s : State) : State := s.emit (.tx b s.baud s.now)

/-- `reg[BAUD] <- v; emit(Baud(v, now))` (10_state.md R37). -/
def switchBaud (v : Word) (s : State) : State := { s with baud := v }.emit (.baud v s.now)

/-- `reg[RES0] <- v` (10_state.md R34). -/
def setRes0 (v : Word) (s : State) : State := { s with res0 := v }

/-- `reg[RES1] <- v` (10_state.md R34). -/
def setRes1 (v : Word) (s : State) : State := { s with res1 := v }

/-- `HOUT <- r`: the bytes, zeros after them, and `HOUT_LEN` (20_memory.md R82). -/
def setHout (r : Bytes) (s : State) : State :=
  { s with hout := Memory.ofBytes r, houtLen := BitVec.ofNat 32 r.length }

/-- The byte-sequence argument `HIN[0..HIN_LEN)` (20_memory.md R81). -/
def arg (s : State) : Bytes := s.hin.readBytes s.hinLen.toNat

/-! ## Issue and completion (60_exceptions.md R361, R362) -/

/-- `finish`: the operation `opc` ends with no error (R361). -/
def finish (opc : Byte) (s : State) : State :=
  { s with status := { s.status with done := true, err := false, errcode := .none } }.emit (.done opc .none s.now)

/-- `raise E`: the operation `opc` ends with the error `e` (R361, R367). This is the block's one exception entry: it
saves no return address and transfers control nowhere. -/
def raise (opc : Byte) (e : ErrorCode) (s : State) : State :=
  { s with status := { s.status with done := true, err := true, errcode := e } }.emit (.done opc e s.now)

/-- The first line of `issue(w)`: `REJ`, `DONE`, `ERR` and `ERRCODE` are cleared (R361, R368). -/
def clearStatus (s : State) : State :=
  { s with status := { s.status with rej := false, done := false, err := false, errcode := .none } }

/-- A command dropped because `BUSY` is 1 (R362). -/
def reject (s : State) : State := { s with status := { s.status with rej := true } }

/-- A command word meets the block: dropped with `REJ` while `BUSY` is 1, else issued (R361, R362). -/
def issue (body : State → State) (s : State) : State :=
  if s.status.busy then s.reject else body s.clearStatus

/-- A session or an exchange takes the link (10_state.md R33). -/
def claimLink (o : Owner) (busy : Bool) (s : State) : State :=
  { s with status := { s.status with owner := o, busy := busy } }

/-- `OWNER <- NONE; BUSY <- 0` (44_correlator.md R259, 45_upgrade.md R300). -/
def releaseLink (s : State) : State := s.claimLink .none false

/-- The two checks every operation that opens the link makes last, in this order: the link has no owner, the byte
source opens (60_exceptions.md R365, 44_correlator.md R247). -/
def openLink (opc : Byte) (body : State → State) (s : State) : State :=
  if s.status.owner ≠ .none then s.raise opc .resourceOwned
  else if s.linkOk then body s
  else s.raise opc .sourceUnavailable

end State

/-- A word of R102: it ends at once with `ILLEGAL_OP`, and while `BUSY` is 1 it is dropped (30_encoding.md R102,
60_exceptions.md R362). -/
def illegalOp (opc : Byte) (s : State) : State := s.issue (State.raise opc .illegalOp)

end Sys2Proof.Machine
end

