-- ==== Sys2Proof/Machine/Operands.lean ====
section
/-! DEFINITION. The operand forms of the host operations: tag and region codes (30_encoding.md R103, R104), FM lengths
(42_registry.md R162) and the byte-sequence arguments of the field operations (44_correlator.md R249, R251). -/

namespace Sys2Proof.Machine

/-- The tag of a code; none for a code above 6 (30_encoding.md R103). -/
def tagOfCode : Nat → Option Tag
  | 0 => some .s1
  | 1 => some .s2
  | 2 => some .a1
  | 3 => some .a2
  | 4 => some .fm
  | 5 => some .s3
  | 6 => some .at
  | _ => none

/-- The code of a tag (30_encoding.md R103). -/
def tagCode : Tag → Nat
  | .s1 => 0
  | .s2 => 1
  | .a1 => 2
  | .a2 => 3
  | .fm => 4
  | .s3 => 5
  | .at => 6

/-- The region of a code; none for a code above 2 (30_encoding.md R104). -/
def regionOfCode : Nat → Option Region
  | 0 => some .eeprom
  | 1 => some .app
  | 2 => some .boot
  | _ => none

/-- The chip count `n` of an FM length (42_registry.md R162). -/
def fmChips (len : Nat) : Nat := (len - Config.fmFixedOverhead) / 28

/-- The number `s` of trailing status fields of an FM length (42_registry.md R162). -/
def fmStatusFields (len : Nat) : Nat := (len - 7 - 28 * fmChips len) / 2

/-- A legal FM length: 1 to 4 chips, and 4 or 6 bytes of status fields (42_registry.md R162). -/
def fmLegal (len : Nat) : Bool :=
  decide (1 ≤ fmChips len) && decide (fmChips len ≤ 4) &&
    (len == 7 + 28 * fmChips len + 4 || len == 7 + 28 * fmChips len + 6)

/-- The argument of GF and RF: 1 to 63 ids of 2 bytes (44_correlator.md R249). -/
def idsArgOk (a : Bytes) : Bool := a.length % 2 == 0 && decide (2 ≤ a.length) && decide (a.length ≤ 126)

/-- The argument of SF and WF: 1 to 63 pairs of 4 bytes (44_correlator.md R251). -/
def pairsArgOk (a : Bytes) : Bool := a.length % 4 == 0 && decide (4 ≤ a.length) && decide (a.length ≤ 252)

/-- Some pair of the argument names the field `id` (44_correlator.md R251). -/
def namesField (id : BitVec 16) (a : Bytes) : Bool :=
  (List.range (a.length / 4)).any fun k => be16At a (4 * k) == id.toNat

/-- The queue capacity `CAP` = `ODR` x 1000 (10_state.md R39). -/
def State.cap (s : State) : Nat := s.odr.toNat * 1000

end Sys2Proof.Machine
end

