-- ==== Sys2Proof/Machine/Checksum.lean ====
section
/-! DEFINITION. The CRC-16 and 8-bit-sum generators and the operations CRC16 and SUM8 (41_crc.md). -/

namespace Sys2Proof.Machine

/-- One round of `crc16`: shift left by 1; if the bit shifted out was set, XOR with 0x1021 (41_crc.md R140). -/
def crcRound (r : BitVec 16) : BitVec 16 := if r.msb then (r <<< 1) ^^^ 0x1021#16 else r <<< 1

/-- One byte of `crc16`: XOR into the high byte, then 8 rounds (41_crc.md R140). -/
def crcByte (r : BitVec 16) (b : Byte) : BitVec 16 := Nat.repeat crcRound 8 (r ^^^ (b.setWidth 16 <<< 8))

/-- `crc16` continued from a register value (41_crc.md R141 (c)). -/
def crc16From (r : BitVec 16) (s : Bytes) : BitVec 16 := s.foldl crcByte r

/-- `crc16(s)` (41_crc.md R140). -/
def crc16 (s : Bytes) : BitVec 16 := crc16From 0x1D0F#16 s

/-- `sum8(s)` (41_crc.md R142). -/
def sum8 (s : Bytes) : Byte := s.foldl (· + ·) 0

/-- CRC16 (41_crc.md R143). -/
def execCrc16 (s : State) : Host.Outcome State Fault Refusal :=
  .next <| s.issue fun s =>
    let r := crc16 s.arg
    ((s.setRes0 (r.setWidth 32)).setHout (be16 r)).finish 0x01

/-- SUM8 (41_crc.md R144). -/
def execSum8 (s : State) : Host.Outcome State Fault Refusal :=
  .next <| s.issue fun s =>
    let a := sum8 s.arg
    ((s.setRes0 (a.setWidth 32)).setHout [a]).finish 0x02

end Sys2Proof.Machine
end

