-- ==== Sys2Proof/Machine/Registry.lean ====
section
/-! DEFINITION. The packet registry, frame validation, and the operations VALIDATE, DESC and FM_SET
(42_registry.md). -/

namespace Sys2Proof.Machine

/-- The integrity kinds (42_registry.md R160). -/
inductive Integrity where
  | none | crc16 | sum8
deriving DecidableEq, Repr

/-- The field byte orders of the formats (42_registry.md R160). -/
inductive FrameOrder where
  | bigEndian | littleEndian | mixed
deriving DecidableEq, Repr

/-- A packet-format descriptor: one row of the table of R160. -/
structure Descriptor where
  sync : Bytes
  len : Nat
  integrity : Integrity
  headerLen : Nat
  trailerLen : Nat
  order : FrameOrder
deriving DecidableEq, Repr

/-- `Desc(t)`, with the FM length to use for FM (42_registry.md R160, R161). -/
def descriptor (t : Tag) (fmLen : Nat) : Descriptor :=
  match t with
  | .s1 => ⟨[0x55, 0x55, 0x53, 0x31], 31, .crc16, 5, 2, .bigEndian⟩
  | .s2 => ⟨[0x55, 0x55, 0x53, 0x32], 45, .crc16, 5, 2, .mixed⟩
  | .a1 => ⟨[0x55, 0x55, 0x41, 0x31], 39, .crc16, 5, 2, .bigEndian⟩
  | .a2 => ⟨[0x55, 0x55, 0x41, 0x32], 37, .crc16, 5, 2, .bigEndian⟩
  | .fm => ⟨[0x55, 0x55, 0x46, 0x4D], fmLen, .crc16, 5, 2, .littleEndian⟩
  | .s3 => ⟨[0x55, 0xAA, 0x24], 40, .sum8, 3, 1, .littleEndian⟩
  | .at => ⟨[0xBD, 0xDB, 0x54], 39, .none, 3, 0, .littleEndian⟩

/-- `IntegrityOK` (42_registry.md R164 to R166). -/
def integrityOk (k : Integrity) (f : Bytes) : Bool :=
  match k with
  | .crc16 => (crc16 (slice f 2 (f.length - 2))).toNat == be16At f (f.length - 2)
  | .sum8 => sum8 (slice f Config.sum8First (f.length - 1)) == f.getD (f.length - 1) 0
  | .none => true

/-- The candidate has the length and the sync bytes of its format (42_registry.md R163). -/
def frameShapeOk (d : Descriptor) (f : Bytes) : Bool := f.length == d.len && d.sync.isPrefixOf f

/-- `Valid(t, f)` (42_registry.md R163), with the FM length to use for FM (R161). -/
def frameValid (t : Tag) (fmLen : Nat) (f : Bytes) : Bool :=
  let d := descriptor t fmLen
  frameShapeOk d f && integrityOk d.integrity f

/-- The code of an integrity kind in the result of DESC (42_registry.md R168). -/
def Integrity.code : Integrity → Nat
  | .none => 0
  | .crc16 => 1
  | .sum8 => 2

/-- The code of a byte order in the result of DESC (42_registry.md R168). -/
def FrameOrder.code : FrameOrder → Nat
  | .bigEndian => 0
  | .littleEndian => 1
  | .mixed => 2

/-- `RES1` of DESC (42_registry.md R168). -/
def Descriptor.word (d : Descriptor) : Word :=
  BitVec.ofNat 32 (d.trailerLen * 2 ^ 12 + d.headerLen * 2 ^ 8 + d.sync.length * 2 ^ 4 + d.order.code * 2 ^ 2 +
    d.integrity.code)

/-- VALIDATE (42_registry.md R167). -/
def execValidate (tag : Nat) (s : State) : Host.Outcome State Fault Refusal :=
  .next <| s.issue fun s =>
    match tagOfCode tag with
    | none => s.raise 0x03 .badArg
    | some t => (s.setRes0 (if frameValid t s.fmLen.toNat s.arg then 1 else 0)).finish 0x03

/-- DESC (42_registry.md R168). -/
def execDesc (tag : Nat) (s : State) : Host.Outcome State Fault Refusal :=
  .next <| s.issue fun s =>
    match tagOfCode tag with
    | none => s.raise 0x04 .badArg
    | some t =>
      let d := descriptor t s.fmLen.toNat
      (((s.setRes0 (BitVec.ofNat 32 d.len)).setRes1 d.word).setHout d.sync).finish 0x04

/-- FM_SET (42_registry.md R169). -/
def execFmSet (length : Nat) (s : State) : Host.Outcome State Fault Refusal :=
  .next <| s.issue fun s =>
    if !fmLegal length then s.raise 0x05 .badArg
    else if s.stream.active then s.raise 0x05 .resourceOwned
    else
      let s := { s with fmLen := BitVec.ofNat 8 length }
      ((s.setRes0 (BitVec.ofNat 32 (fmChips length))).setRes1 (BitVec.ofNat 32 (fmStatusFields length))).finish 0x05

end Sys2Proof.Machine
end

