-- ==== Sys2Proof/Machine/Synchronizer.lean ====
section
/-! DEFINITION. The frame synchronizer, the streaming queue, the liveness watchdog, and the operations STREAM_START,
STREAM_STOP and QPOP (43_synchronizer.md). -/

namespace Sys2Proof.Machine

/-! ## The scan (43_synchronizer.md R194, R195, R201) -/

/-- What a scan gives: the frames it pushes, in order, the count of failed candidates, and the residue of `acc`
(R201). -/
structure ScanResult where
  frames : List Bytes
  fails : Nat
  residue : Bytes
deriving DecidableEq, Repr

/-- The loop of R194 with R195, at most `fuel` rounds. Each round that goes on removes at least one byte. -/
def scanLoop (t : Tag) (len : Nat) : Nat → Bytes → ScanResult
  | 0, acc => ⟨[], 0, acc⟩
  | fuel + 1, acc =>
    if acc.length < len then ⟨[], 0, acc⟩
    else
      match find (descriptor t len).sync acc with
      | none => ⟨[], 0, acc⟩
      | some p =>
        if acc.length - p < len then ⟨[], 0, acc⟩
        else
          let f := slice acc p (p + len)
          if frameValid t len f then
            let r := scanLoop t len fuel (acc.drop (p + len))
            { r with frames := f :: r.frames }
          else
            let r := scanLoop t len fuel (acc.drop (p + 1))
            { r with fails := r.fails + 1 }

/-- `Scan(t, L, s)` (R201): the loop of R194 run to its end on `acc = s`. -/
def scan (t : Tag) (len : Nat) (s : Bytes) : ScanResult := scanLoop t len (s.length + 1) s

/-! ## The queue (43_synchronizer.md R196) -/

/-- `push(f)`: a full queue evicts its oldest frame first (R196). -/
def push (f : Bytes) (s : State) : State :=
  let s :=
    match s.stream.q with
    | g :: rest =>
      if s.stream.q.length = s.cap then
        { s with stream := { s.stream with q := rest, evicted := s.stream.evicted + 1 } }.emit (.evict g s.now)
      else s
    | [] => s
  { s with stream := { s.stream with q := s.stream.q ++ [f] } }.emit (.push f s.now)

/-- The pushes of one scan, in order (R194). -/
def pushAll (fs : List Bytes) (s : State) : State := fs.foldl (fun s f => push f s) s

/-! ## The iteration (43_synchronizer.md R192 to R199) -/

/-- The read: at most `N_READ` bytes move from `rxq` to `acc` (R193). -/
def readLink (s : State) : State :=
  { s with
    rxq := s.rxq.drop s.cfg.nRead
    stream := { s.stream with acc := s.stream.acc ++ s.rxq.take s.cfg.nRead } }

/-- The scan of the bytes in `acc` (R194 to R196). -/
def scanAcc (s : State) : State :=
  let r := scan s.stream.tag s.stream.len s.stream.acc
  pushAll r.frames
    { s with stream := { s.stream with acc := r.residue, crcFail := s.stream.crcFail + BitVec.ofNat 32 r.fails } }

/-- The scan of these bytes pushes a frame: the `pushed` of R194. -/
def scanPushes (s : State) : Bool := !(scan s.stream.tag s.stream.len s.stream.acc).frames.isEmpty

/-- `init_failure()` (R199). -/
def initFailure (s : State) : State :=
  ({ s with
    stream := { s.stream with active := false, wdArmed := false, initFail := true, q := [], acc := [] }
    status := { s.status with owner := .none } }).emit (.initFail s.now)

/-- The reopening of the byte source for the next watchdog attempt (R198). -/
def watchdogRestart (s : State) : State :=
  let k := s.stream.wdAttempt + 1
  { s.flushIn with stream := { s.stream with acc := [], wdAttempt := k, wdStart := s.now } }.emit
    (.wdRestart k.toNat s.now)

/-- The watchdog check at the end of an iteration (R198). -/
def watchdogCheck (pushed : Bool) (s : State) : State :=
  if s.stream.wdEn && s.stream.wdArmed then
    if pushed then { s with stream := { s.stream with wdArmed := false } }
    else if Config.wdTimeoutMs ≤ s.now - s.stream.wdStart then
      if s.stream.wdAttempt.toNat < Config.wdAttempts ∧ s.linkOk then watchdogRestart s
      else initFailure s
    else s
  else s

/-- A `SYNC` step is enabled (R192). -/
def syncEnabled (s : State) : Bool := s.stream.active && decide (s.stream.nextPoll ≤ s.now)

/-- One `SYNC` step: the whole iteration (R192). -/
def syncStep (s : State) : State :=
  let r := readLink s
  let s := watchdogCheck (scanPushes r) (scanAcc r)
  { s with stream := { s.stream with nextPoll := s.now + Config.pollMs } }

/-! ## Host operations -/

/-- The start of a streaming session bound to tag `t` (43_synchronizer.md R190, after its checks). -/
def startStream (t : Tag) (watchdog : Bool) (s : State) : State :=
  let len := (descriptor t s.fmLen.toNat).len
  let s := { s.flushIn with
    stream :=
      { active := true, tag := t, wdEn := watchdog, wdArmed := watchdog, wdAttempt := if watchdog then 1 else 0,
        initFail := false, len := len, nextPoll := s.now, wdStart := s.now, acc := [], q := [], evicted := 0,
        crcFail := 0 } }
  (((s.claimLink .stream s.status.busy).setRes0 (BitVec.ofNat 32 len)).setRes1 (BitVec.ofNat 32 s.cap)).finish 0x10

/-- STREAM_START (43_synchronizer.md R190). -/
def execStreamStart (tag : Nat) (watchdog : Bool) (s : State) : Host.Outcome State Fault Refusal :=
  .next <| s.issue fun s =>
    match tagOfCode tag with
    | none => s.raise 0x10 .badArg
    | some t => s.openLink 0x10 (startStream t watchdog)

/-- STREAM_STOP (43_synchronizer.md R191). -/
def execStreamStop (s : State) : Host.Outcome State Fault Refusal :=
  .next <| s.issue fun s =>
    if s.stream.active then
      let s := s.setRes0 (BitVec.ofNat 32 s.stream.q.length)
      { s with
        stream := { s.stream with active := false, wdArmed := false, q := [], acc := [] }
        status := { s.status with owner := .none } }.finish 0x11
    else (s.setRes0 0).finish 0x11

/-- QPOP (43_synchronizer.md R197). -/
def execQpop (s : State) : Host.Outcome State Fault Refusal :=
  .next <| s.issue fun s =>
    match s.stream.q with
    | [] => (((s.setRes0 0).setRes1 0).setHout []).finish 0x12
    | f :: rest =>
      let s := { s with stream := { s.stream with q := rest } }
      ((((s.setHout f).setRes0 (BitVec.ofNat 32 f.length)).setRes1 (BitVec.ofNat 32 rest.length)).emit
        (.pop f s.now)).finish 0x12

end Sys2Proof.Machine
end

