-- ==== Sys2Proof/Machine/Envelope.lean ====
section
/-! DEFINITION. The wire envelope and the command codes (30_encoding.md R106 to R114). -/

namespace Sys2Proof.Machine

/-- The preamble of every envelope (30_encoding.md R106). -/
def preamble : Bytes := [0x55, 0x55]

/-- The two bytes of a code, in reading order (20_memory.md R85, 30_encoding.md R109). -/
def codeBytes (c : Code) : Bytes := [c.1, c.2]

/-- GP (30_encoding.md R109). -/
def codeGP : Code := (0x47, 0x50)
/-- GF (30_encoding.md R109). -/
def codeGF : Code := (0x47, 0x46)
/-- RF (30_encoding.md R109). -/
def codeRF : Code := (0x52, 0x46)
/-- SF (30_encoding.md R109). -/
def codeSF : Code := (0x53, 0x46)
/-- WF (30_encoding.md R109). -/
def codeWF : Code := (0x57, 0x46)
/-- SR (30_encoding.md R109). -/
def codeSR : Code := (0x53, 0x52)
/-- JI (30_encoding.md R109). -/
def codeJI : Code := (0x4A, 0x49)
/-- JA (30_encoding.md R109). -/
def codeJA : Code := (0x4A, 0x41)
/-- WA (30_encoding.md R109). -/
def codeWA : Code := (0x57, 0x41)

/-- The payload "ID" of the GP request (30_encoding.md R109). -/
def payloadID : Bytes := [0x49, 0x44]

/-- `Envelope(c, p)` (30_encoding.md R106); `p` has at most 255 bytes (log 19). -/
def envelope (c : Code) (p : Bytes) : Bytes :=
  let body := codeBytes c ++ [BitVec.ofNat 8 p.length] ++ p
  preamble ++ body ++ be16 (crc16 body)

/-- `WA(o, ch)`, the block-write request (30_encoding.md R113). -/
def blockRequest (o : Nat) (ch : Bytes) : Bytes :=
  envelope codeWA (be32 (BitVec.ofNat 32 o) ++ [BitVec.ofNat 8 ch.length] ++ ch)

end Sys2Proof.Machine
end

