-- ==== Sys2Proof/Machine/Correlator.lean ====
section
/-! DEFINITION. The exchange engine, its completion, and the eleven exchange operations (44_correlator.md). -/

namespace Sys2Proof.Machine

/-! ## The exchange engine (44_correlator.md R240 to R243) -/

/-- `start_exchange(cl, c, p, mode)` (R240). -/
def startExchange (cl : Client) (c : Code) (p : Bytes) (mode : MatchMode) (s : State) : State :=
  let req := envelope c p
  (({ s with
    corr :=
      { phase := .wait, req := req, mode := mode, deadline := s.now + Config.respTimeoutMs, buf := [],
        client := cl } }).flushIn).transmit req

/-- The rest of a buffer opens with the header the request asks for (R242): the preamble and the request's own code;
for GP/"ID" in the literal reading the preamble and, at offset 5, bytes [5..7) of the request; in the other reading
the preamble and those two bytes as the code. -/
def headerAt (gm : GpidMatch) (mode : MatchMode) (req rest : Bytes) : Bool :=
  match mode, gm with
  | .std, _ => (preamble ++ slice req 2 4).isPrefixOf rest
  | .gpid, .literal57 => decide (7 ≤ rest.length) && preamble.isPrefixOf rest && slice rest 5 7 == slice req 5 7
  | .gpid, .tag23 => (preamble ++ slice req 5 7).isPrefixOf rest

/-- `Correlate(req, mode, b)` (R242): `MATCH(p, Ld)`, or none for `PENDING`. -/
def correlate (gm : GpidMatch) (mode : MatchMode) (req b : Bytes) : Option (Nat × Nat) :=
  match firstSuffix (headerAt gm mode req) b with
  | none => none
  | some p =>
    match b[p + 4]? with
    | none => none
    | some ld => if p + ld.toNat + 7 ≤ b.length then some (p, ld.toNat) else none

/-- The declared length of a response (30_encoding.md R107). -/
def declaredLength (resp : Bytes) : Nat := (resp.getD 4 0).toNat

/-- The payload of a response (R243). -/
def responsePayload (resp : Bytes) : Bytes := slice resp 5 (5 + declaredLength resp)

/-! ## Host completion (44_correlator.md R259 to R261) -/

/-- The opcode of an exchange operation (30_encoding.md R101). -/
def ExchangeOp.opcode : ExchangeOp → Byte
  | .getProductInfo => 0x20
  | .getFields => 0x21
  | .readFields => 0x22
  | .writeFieldsTemp => 0x23
  | .writeFieldsPerm => 0x24
  | .setQuiet => 0x25
  | .restart => 0x26
  | .jumpBoot => 0x27
  | .jumpApp => 0x28
  | .lock => 0x29
  | .unlock => 0x2A

/-- The field count of a GF, RF, SF or WF request, the first payload byte of the request sent (30_encoding.md R111,
R112; log 10). -/
def requestCount (req : Bytes) : Nat := (req.getD 5 0).toNat

/-- The "on response" part without a parse: `RES0 <- Ld; HOUT <- resp; finish` (R259). -/
def plainResponse (opc : Byte) (resp : Bytes) (s : State) : State :=
  ((s.setRes0 (BitVec.ofNat 32 (declaredLength resp))).setHout resp).finish opc

/-- `parse_fields(c, P)` (R260). -/
def parseFields (opc : Byte) (resp : Bytes) (s : State) : State :=
  let c := requestCount s.corr.req
  let p := responsePayload resp
  if declaredLength resp ≠ 1 + 4 * c ∨ (p.getD 0 0).toNat ≠ c then s.raise opc .malformedFieldResponse
  else (((s.setHout (slice p 1 (1 + 4 * c))).setRes0 (BitVec.ofNat 32 c)).setRes1 0).finish opc

/-- The "on response" part of SF and WF (R251): the response echoes the count and the ids. -/
def parseWriteEcho (opc : Byte) (resp : Bytes) (s : State) : State :=
  let c := requestCount s.corr.req
  if declaredLength resp ≠ 1 + 2 * c then s.raise opc .malformedFieldResponse
  else ((s.setRes0 (BitVec.ofNat 32 c)).setHout resp).finish opc

/-- `k` of R261: the position of the first NUL at or after byte 4 of the payload, else its length. -/
def stringEnd (p : Bytes) : Nat :=
  match (p.drop 4).idxOf? 0 with
  | some j => j + 4
  | none => p.length

/-- `parse_product(P)` (R261). -/
def parseProduct (opc : Byte) (resp : Bytes) (s : State) : State :=
  let p := responsePayload resp
  if declaredLength resp < 4 then s.raise opc .malformedFieldResponse
  else
    let k := stringEnd p
    (((s.setRes0 (BitVec.ofNat 32 (be32At p 0))).setRes1 (BitVec.ofNat 32 (k - 4))).setHout (slice p 4 k)).finish opc

/-- The "on response" part of each operation (R248 to R258). -/
def onResponse (op : ExchangeOp) (resp : Bytes) (s : State) : State :=
  match op with
  | .getProductInfo => parseProduct 0x20 resp s
  | .getFields => parseFields 0x21 resp s
  | .readFields => parseFields 0x22 resp s
  | .writeFieldsTemp => parseWriteEcho 0x23 resp s
  | .writeFieldsPerm => parseWriteEcho 0x24 resp s
  | .setQuiet => plainResponse 0x25 resp s
  | .restart => plainResponse 0x26 resp s
  | .jumpBoot => plainResponse 0x27 resp s
  | .jumpApp => plainResponse 0x28 resp s
  | .lock => plainResponse 0x29 resp s
  | .unlock => plainResponse 0x2A resp s

/-- `deliver(HOSTOP(opc), r)` (R259): `none` is `TIMEOUT`. -/
def completeHostOp (op : ExchangeOp) (r : Option Bytes) (s : State) : State :=
  match r with
  | none => s.releaseLink.raise op.opcode .responseTimeout
  | some resp => onResponse op resp s.releaseLink

/-! ## Issue (44_correlator.md R247) -/

/-- The common issue, after the operation's own checks: the link checks, the claim of the link, the speed switch of
LOCK and UNLOCK, and the request (R247). -/
def issueExchange (op : ExchangeOp) (speed : Option Word) (c : Code) (p : Bytes) (mode : MatchMode) (s : State) :
    State :=
  s.openLink op.opcode fun s =>
    let s := s.claimLink .exchange true
    let s := match speed with
      | none => s
      | some v => s.switchBaud v
    startExchange (.hostOp op) c p mode s

/-- The issue of GF and RF (R249, R250). -/
def issueReadFields (op : ExchangeOp) (c : Code) (s : State) : State :=
  if idsArgOk s.arg then
    issueExchange op none c (BitVec.ofNat 8 (s.arg.length / 2) :: s.arg) .std s
  else s.raise op.opcode .badArg

/-- The issue of SF and WF (R251, R252). -/
def issueWriteFields (op : ExchangeOp) (c : Code) (s : State) : State :=
  if pairsArgOk s.arg && !(s.cfg.specialFieldId.any fun id => namesField id s.arg) then
    issueExchange op none c (BitVec.ofNat 8 (s.arg.length / 4) :: s.arg) .std s
  else s.raise op.opcode .badArg

/-- The issue of LOCK and UNLOCK once the region is read (R257, R258). -/
def issueRegion (op : ExchangeOp) (speed : Word) (code : Option Code) (payload : Option Bytes) (s : State) : State :=
  match code, payload with
  | some c, some p => issueExchange op (some speed) c p .std s
  | _, _ => s.raise op.opcode .notConfigured

/-! ## The operations -/

/-- GET_PRODUCT_INFO (44_correlator.md R248). -/
def execGetProductInfo (s : State) : Host.Outcome State Fault Refusal :=
  .next <| s.issue (issueExchange .getProductInfo none codeGP payloadID .gpid)

/-- GET_FIELDS (44_correlator.md R249). -/
def execGetFields (s : State) : Host.Outcome State Fault Refusal :=
  .next <| s.issue (issueReadFields .getFields codeGF)

/-- READ_FIELDS (44_correlator.md R250). -/
def execReadFields (s : State) : Host.Outcome State Fault Refusal :=
  .next <| s.issue (issueReadFields .readFields codeRF)

/-- WRITE_FIELDS_TEMP (44_correlator.md R251). -/
def execWriteFieldsTemp (s : State) : Host.Outcome State Fault Refusal :=
  .next <| s.issue (issueWriteFields .writeFieldsTemp codeSF)

/-- WRITE_FIELDS_PERM (44_correlator.md R252). -/
def execWriteFieldsPerm (s : State) : Host.Outcome State Fault Refusal :=
  .next <| s.issue (issueWriteFields .writeFieldsPerm codeWF)

/-- SET_QUIET (44_correlator.md R253). -/
def execSetQuiet (s : State) : Host.Outcome State Fault Refusal :=
  .next <| s.issue fun s =>
    match s.cfg.quietPayload with
    | none => s.raise 0x25 .notConfigured
    | some p => issueExchange .setQuiet none codeSF p .std s

/-- RESTART (44_correlator.md R254). -/
def execRestart (s : State) : Host.Outcome State Fault Refusal :=
  .next <| s.issue (issueExchange .restart none codeSR [] .std)

/-- JUMP_BOOT (44_correlator.md R255). -/
def execJumpBoot (s : State) : Host.Outcome State Fault Refusal :=
  .next <| s.issue (issueExchange .jumpBoot none codeJI [] .std)

/-- JUMP_APP (44_correlator.md R256). -/
def execJumpApp (s : State) : Host.Outcome State Fault Refusal :=
  .next <| s.issue (issueExchange .jumpApp none codeJA [] .std)

/-- LOCK (44_correlator.md R257). -/
def execLock (region : Nat) (s : State) : Host.Outcome State Fault Refusal :=
  .next <| s.issue fun s =>
    match regionOfCode region with
    | none => s.raise 0x29 .badArg
    | some r => issueRegion .lock Config.baudBoot (s.cfg.lockCode.get r) (s.cfg.lockPayload.get r) s

/-- The speed at which a region's unlock is sent (44_correlator.md R258). -/
def unlockSpeed : Region → Word
  | .eeprom => Config.baudEepromUnlock
  | .app => Config.baudBoot
  | .boot => Config.baudBoot

/-- UNLOCK (44_correlator.md R258). -/
def execUnlock (region : Nat) (s : State) : Host.Outcome State Fault Refusal :=
  .next <| s.issue fun s =>
    match regionOfCode region with
    | none => s.raise 0x2A .badArg
    | some r =>
      issueRegion .unlock (unlockSpeed r) (s.cfg.unlockCode.get r) (s.cfg.unlockKey.map fun k => k.toList) s

end Sys2Proof.Machine
end

