-- ==== Sys2Proof/Machine/Upgrade.lean ====
section
/-! DEFINITION. The firmware-upgrade state machine, the acknowledgement reader, and the operation UPG_START
(45_upgrade.md). -/

namespace Sys2Proof.Machine

/-- `pad16(img)` (45_upgrade.md R291). -/
def padImage (img : Bytes) : Bytes :=
  img ++ zeros ((Config.padAlign - img.length % Config.padAlign) % Config.padAlign)

/-- The opcode of UPG_START, the operation a session ends (45_upgrade.md R300). -/
def opcUpgStart : Byte := 0x30

/-- The set_quiet exchange of an upgrade (45_upgrade.md R290, R294). The payload is configured while a session runs
(R290). -/
def startQuiet (s : State) : State := startExchange .upg codeSF (s.cfg.quietPayload.getD []) .std s

/-- `start_ack(n)` (45_upgrade.md R295). -/
def startAck (n : Nat) (s : State) : State :=
  { s with ackr := { phase := .wait, need := n, deadline := s.now + Config.ackTimeoutMs, buf := [] } }

/-- `u_deadline <- now + d; u_phase <- ph` (45_upgrade.md R294). -/
def waitUntil (d : Nat) (ph : UpgPhase) (s : State) : State :=
  { s with upg := { s.upg with deadline := s.now + d, phase := ph } }

/-- `UPG_STATE.STATE <- st` (10_state.md R45). -/
def setStage (st : Stage) (s : State) : State := { s with upg := { s.upg with stage := st } }

/-- `u_phase <- ph` (45_upgrade.md R294). -/
def setPhase (ph : UpgPhase) (s : State) : State := { s with upg := { s.upg with phase := ph } }

/-- `send_block(o)` (45_upgrade.md R293). -/
def sendBlock (o : Nat) (s : State) : State :=
  let n := min Config.chunkMax (s.upg.total.toNat - o)
  let s := { s with upg := { s.upg with chunk := n } }
  let s := s.flushIn.transmit (blockRequest o (slice s.upg.img o (o + n)))
  waitUntil (if o = 0 then Config.eraseMs else Config.blockMs) .bw (setStage .writing s)

/-- `terminal(e)` up to its completion (45_upgrade.md R300). -/
def endSession (s : State) : State :=
  { s with
    upg := { s.upg with session := false, phase := .none }
    ackr := { s.ackr with phase := .idle } }.releaseLink

/-- `terminal(none)` (45_upgrade.md R300). -/
def completeUpgrade (s : State) : State :=
  let s := endSession s
  ((s.setRes0 s.upg.written).setRes1 s.upg.total).finish opcUpgStart

/-- `fail(e)` (45_upgrade.md R299, R300). -/
def failUpgrade (e : ErrorCode) (s : State) : State :=
  (endSession { s with upg := { s.upg with failStage := s.upg.stage, stage := .failed } }).raise opcUpgStart e

/-- The acknowledgement has the wanted length and begins with the preamble and the code (45_upgrade.md R296, R297). -/
def ackOk (len : Nat) (c : Code) (a : Bytes) : Bool := a.length == len && (preamble ++ codeBytes c).isPrefixOf a

/-- `ji_ok(a)` (45_upgrade.md R296). -/
def jiOk (a : Bytes) : Bool := ackOk Config.jiAckLen codeJI a

/-- `wa_ok(a)` (45_upgrade.md R297). -/
def waOk (a : Bytes) : Bool := ackOk Config.waAckLen codeWA a

/-- The progress of a session in percent (45_upgrade.md R298). -/
def progressOf (u : Upg) : Nat := 100 * u.written.toNat / u.total.toNat

/-- A block is acknowledged: `UPG_WRITTEN`, `UPG_PROGRESS` and the `Progress` event (45_upgrade.md R297, R298). -/
def recordBlock (s : State) : State :=
  let s := { s with upg := { s.upg with written := s.upg.written + BitVec.ofNat 32 s.upg.chunk } }
  let p := progressOf s.upg
  { s with upg := { s.upg with progress := BitVec.ofNat 7 p } }.emit (.progress p s.now)

/-- `deliver(UPG, r)`: the rows U_Q1 and U_Q2 (45_upgrade.md R294); `none` is `TIMEOUT`. -/
def deliverUpgrade (r : Option Bytes) (s : State) : State :=
  match s.upg.phase, r with
  | .q1, some _ => setPhase .q2 (startQuiet ((setStage .quietSet s).switchBaud Config.baudBoot))
  | .q1, none => failUpgrade .responseTimeout s
  | .q2, some _ => waitUntil Config.preJiMs .w1 s
  | .q2, none => failUpgrade .bootloaderEntryFailed s
  | _, _ => s

/-- `deliver_ack(a)`: the rows U_JIACK, U_BACK and U_JAACK (45_upgrade.md R294). -/
def deliverAck (a : Bytes) (s : State) : State :=
  match s.upg.phase with
  | .jiAck =>
    if jiOk a then waitUntil 0 .be (setStage .bootloaderEntered s) else failUpgrade .bootloaderEntryFailed s
  | .back =>
    if waOk a then
      let s := recordBlock s
      if s.upg.written = s.upg.total then waitUntil Config.preJaMs .pj (setStage .complete s)
      else sendBlock s.upg.written.toNat s
    else failUpgrade .blockWriteFailed s
  | .jaAck => completeUpgrade (setStage .appResumed s)
  | _ => s

/-- An `ACKR` step is enabled (45_upgrade.md R295). -/
def ackrEnabled (s : State) : Bool :=
  s.ackr.phase == .wait && (!s.rxq.isEmpty || decide (s.ackr.deadline ≤ s.now))

/-- The `ACKR` step (45_upgrade.md R295). -/
def ackrStep (s : State) : State :=
  let n := s.ackr.need - s.ackr.buf.length
  let s := { s with rxq := s.rxq.drop n, ackr := { s.ackr with buf := s.ackr.buf ++ s.rxq.take n } }
  if s.ackr.buf.length = s.ackr.need ∨ s.ackr.deadline ≤ s.now then
    deliverAck s.ackr.buf { s with ackr := { s.ackr with phase := .idle } }
  else s

/-- The phases of kind deadline (45_upgrade.md R294). -/
def UpgPhase.waitsForDeadline : UpgPhase → Bool
  | .w1 => true
  | .w2 => true
  | .be => true
  | .bw => true
  | .pj => true
  | .none => false
  | .q1 => false
  | .q2 => false
  | .jiAck => false
  | .back => false
  | .jaAck => false

/-- A `UPG` step is enabled (45_upgrade.md R294). -/
def upgEnabled (s : State) : Bool := s.upg.phase.waitsForDeadline && decide (s.upg.deadline ≤ s.now)

/-- The `UPG` step: the rows of kind deadline (45_upgrade.md R294). -/
def upgStep (s : State) : State :=
  match s.upg.phase with
  | .w1 => waitUntil Config.postJiMs .w2 (s.flushIn.transmit (envelope codeJI []))
  | .w2 => setPhase .jiAck (startAck Config.jiAckLen s)
  | .be => sendBlock 0 (s.switchBaud Config.baudBlock)
  | .bw => setPhase .back (startAck Config.waAckLen s)
  | .pj => setPhase .jaAck (startAck Config.jaAckLen (s.flushIn.transmit (envelope codeJA [])))
  | _ => s

/-- The session registers at the start of a session (45_upgrade.md R290). -/
def beginSession (img : Bytes) (s : State) : State :=
  let padded := padImage img
  { s with
    upg :=
      { stage := .idle, session := true, failStage := .idle, written := 0, total := BitVec.ofNat 32 padded.length,
        progress := 0, img := padded, phase := .q1, deadline := s.upg.deadline, chunk := s.upg.chunk } }

/-- UPG_START (45_upgrade.md R290). -/
def execUpgStart (s : State) : Host.Outcome State Fault Refusal :=
  .next <| s.issue fun s =>
    if s.hinLen = 0 ∨ s.cfg.maxImage < s.hinLen.toNat then s.raise opcUpgStart .badArg
    else
      match s.cfg.quietPayload with
      | none => s.raise opcUpgStart .notConfigured
      | some _ =>
        s.openLink opcUpgStart fun s => startQuiet ((beginSession s.arg s).claimLink .upgrade true)

end Sys2Proof.Machine
end

