-- ==== Sys2Proof/Machine/Agents.lean ====
section
/-! DEFINITION. The correlator's step with its deliveries (44_correlator.md R241, R246), and the agents' enabling
conditions together (60_exceptions.md R373). -/

namespace Sys2Proof.Machine

/-- `deliver(c_client, r)` (44_correlator.md R246). The exchange ends and its client is cleared before the client
handles the result, since the handling may start the next exchange in the same step (log 8). -/
def deliver (r : Option Bytes) (s : State) : State :=
  let ended := { s with corr := { s.corr with phase := .idle, client := .none } }
  match s.corr.client with
  | .none => ended
  | .hostOp op => completeHostOp op r ended
  | .upg => deliverUpgrade r ended

/-- A `CORR` step is enabled (44_correlator.md R241). -/
def corrEnabled (s : State) : Bool :=
  s.corr.phase == .wait && (!s.rxq.isEmpty || decide (s.corr.deadline ≤ s.now))

/-- From the first `k` of `len` waiting bytes on, `n` more at a time, until they complete a response or all are taken;
`fuel` bounds the rounds (44_correlator.md R241, R262; log 20). -/
def readUntil (complete : Nat → Bool) (n len : Nat) : Nat → Nat → Nat
  | 0, k => k
  | fuel + 1, k => if complete k || decide (len ≤ k) then k else readUntil complete n len fuel (k + n)

/-- How many bytes a `CORR` step takes: `N_READ` (44_correlator.md R241). In a step at the deadline the reading goes on
by `N_READ` until the response is complete or no byte waits, so that a response whose last byte arrived before that
step succeeds, whatever `N_READ` is (R262, 92_eei_decisions.md D23). DEDUCED (log 20): R241's pseudocode reads once. -/
def corrRead (s : State) : Nat :=
  if s.now < s.corr.deadline then s.cfg.nRead
  else
    readUntil
      (fun k => (correlate s.cfg.gpidMatch s.corr.mode s.corr.req (s.corr.buf ++ s.rxq.take k)).isSome)
      s.cfg.nRead s.rxq.length s.rxq.length s.cfg.nRead

/-- The `CORR` step (44_correlator.md R241, R243): the bytes are read, and completion is checked, before the deadline
is tested. -/
def corrStep (s : State) : State :=
  let n := corrRead s
  let s := { s with
    rxq := s.rxq.drop n
    corr := { s.corr with buf := s.corr.buf ++ s.rxq.take n } }
  match correlate s.cfg.gpidMatch s.corr.mode s.corr.req s.corr.buf with
  | some (p, ld) => deliver (some (slice s.corr.buf p (p + ld + 7))) s
  | none => if s.corr.deadline ≤ s.now then deliver none s else s

/-- The agent's step is enabled (43_synchronizer.md R192, 44_correlator.md R241, 45_upgrade.md R294, R295). -/
def agentEnabled (s : State) : Agent → Bool
  | .sync => syncEnabled s
  | .corr => corrEnabled s
  | .ackr => ackrEnabled s
  | .upg => upgEnabled s

/-- The agent's step. -/
def agentStep (s : State) : Agent → State
  | .sync => syncStep s
  | .corr => corrStep s
  | .ackr => ackrStep s
  | .upg => upgStep s

/-- The agent that moves when the schedule leaves the choice to the block: the first enabled one of SYNC, CORR, ACKR,
UPG. In the states a run reaches at most one is enabled (log 13). -/
def nextAgent (s : State) : Option Agent := [Agent.sync, .corr, .ackr, .upg].find? (agentEnabled s)

/-- The deadlines that wait, of 60_exceptions.md R370, R373. -/
def deadlines (s : State) : List Nat :=
  (if s.stream.active then [s.stream.nextPoll] else []) ++
    (if s.stream.wdArmed then [s.stream.wdStart + Config.wdTimeoutMs] else []) ++
    (if s.corr.phase = .wait then [s.corr.deadline] else []) ++
    (if s.ackr.phase = .wait then [s.ackr.deadline] else []) ++
    (if s.upg.phase.waitsForDeadline then [s.upg.deadline] else [])

/-- The earliest waiting deadline later than `now`, if any (60_exceptions.md R373). -/
def nextDeadline (s : State) : Option Nat := ((deadlines s).filter fun d => s.now < d).min?

end Sys2Proof.Machine
end

