-- ==== Sys2Proof/Machine/Environment.lean ====
section
/-! DEFINITION. The environment's events (00_scope.md R15), the passage of time under maximal progress
(60_exceptions.md R373), and the settling of the agents (70_reset_and_hazards.md R413). -/

namespace Sys2Proof.Machine

/-- `Rx(b)` (00_scope.md R15, 10_state.md R51). -/
def receive (b : Byte) (s : State) : State := { s with rxq := s.rxq ++ [b] }

/-- `Link(v)` (00_scope.md R15, 10_state.md R58). -/
def setLink (v : Bool) (s : State) : State := { s with linkOk := v }

/-- `now <- now + d` (00_scope.md R15, 10_state.md R49). -/
def advance (d : Nat) (s : State) : State := { s with now := s.now + d }

/-- An action put back at the head of the schedule. -/
def postpone (a : Action) (s : State) : State := { s with schedule := a :: s.schedule }

/-- `Tick(d)` under maximal progress (60_exceptions.md R373): an enabled agent step comes first; else time advances,
at most to the next waiting deadline, and the rest of the tick stays to be done (log 3). -/
def tick (d : Nat) (s : State) : Host.Outcome State Fault Refusal :=
  if d = 0 then .fault (.stepNotEnabled (.tick d))
  else
    match nextAgent s with
    | some a => .next (postpone (.tick d) (agentStep s a))
    | none =>
      match nextDeadline s with
      | none => .next (advance d s)
      | some t =>
        if s.now + d ≤ t then .next (advance d s)
        else .next (postpone (.tick (d - (t - s.now))) (advance (t - s.now) s))

/-- A step that the schedule gives to an agent, which must be enabled (60_exceptions.md R373). -/
def scheduledAgent (a : Agent) (s : State) : Host.Outcome State Fault Refusal :=
  if agentEnabled s a then .next (agentStep s a) else .fault (.stepNotEnabled (.agent a))

/-- One step of the settling of the agents: an enabled agent moves and the settling goes on, else it is done
(70_reset_and_hazards.md R413). -/
def settle (s : State) : State :=
  match nextAgent s with
  | some a => postpone .settle (agentStep s a)
  | none => s

/-- The block alone, with nothing left in the schedule: an enabled agent moves, else the block waits
(70_reset_and_hazards.md R403, R413). -/
def idleStep (s : State) : State :=
  match nextAgent s with
  | some a => agentStep s a
  | none => s

end Sys2Proof.Machine
end

