-- ==== Sys2Proof/WellFormed.lean ====
section
/-! DEFINITION. Which operations a command word can hold: each argument fits its 8-bit field of `HOSTCMD32`
(30_encoding.md R100). -/

namespace Sys2Proof

/-- An argument fits an 8-bit field of the command word: A or B (30_encoding.md R100). -/
def fitsByteField (n : Nat) : Bool := n < 256

/-- An operation is well formed when every argument fits its field (30_encoding.md R100). A tag code above 6 or a
region code above 2 is well formed: it encodes, and executing it is `BAD_ARG` (R103, R104). -/
def Instr.WellFormed : Instr → Bool
  | .validate tag => fitsByteField tag
  | .desc tag => fitsByteField tag
  | .fmSet length => fitsByteField length
  | .decode tag => fitsByteField tag
  | .streamStart tag _ => fitsByteField tag
  | .lock region => fitsByteField region
  | .unlock region => fitsByteField region
  | .crc16 | .sum8 | .streamStop | .qpop | .getProductInfo | .getFields | .readFields | .writeFieldsTemp
  | .writeFieldsPerm | .setQuiet | .restart | .jumpBoot | .jumpApp | .upgStart | .reset => true

end Sys2Proof
end

