-- ==== Sys2Proof/Decode.lean ====
section
/-! DEFINITION. The decoder of the command word `HOSTCMD32`, and its encoder (30_encoding.md R100 to R105). -/

namespace Sys2Proof

/-- Field OPC, bits [7:0] (30_encoding.md R100). -/
def fieldOpc (w : Word) : Byte := w.extractLsb' 0 8

/-- Field A, bits [15:8] (30_encoding.md R100). -/
def fieldA (w : Word) : Byte := w.extractLsb' 8 8

/-- Field B, bits [23:16] (30_encoding.md R100). -/
def fieldB (w : Word) : Byte := w.extractLsb' 16 8

/-- Field RSV, bits [31:24] (30_encoding.md R100). -/
def fieldRsv (w : Word) : Byte := w.extractLsb' 24 8

/-- Why a word is no host operation (30_encoding.md R102). Both end in `ILLEGAL_OP`. -/
inductive DecodeError where
  /-- RSV is not 0. -/
  | reservedBitsSet (rsv : Byte)
  /-- OPC is not in the map of R101. -/
  | reservedOpcode (opc : Byte)
deriving DecidableEq, Repr

/-- The opcode map (30_encoding.md R101), applied to the fields of a word whose RSV is 0. -/
def decodeOpcode (opc a b : Byte) : Except DecodeError Instr :=
  match opc.toNat with
  | 0x01 => .ok .crc16
  | 0x02 => .ok .sum8
  | 0x03 => .ok (.validate a.toNat)
  | 0x04 => .ok (.desc a.toNat)
  | 0x05 => .ok (.fmSet b.toNat)
  | 0x06 => .ok (.decode a.toNat)
  | 0x10 => .ok (.streamStart a.toNat (b.getLsbD 0))
  | 0x11 => .ok .streamStop
  | 0x12 => .ok .qpop
  | 0x20 => .ok .getProductInfo
  | 0x21 => .ok .getFields
  | 0x22 => .ok .readFields
  | 0x23 => .ok .writeFieldsTemp
  | 0x24 => .ok .writeFieldsPerm
  | 0x25 => .ok .setQuiet
  | 0x26 => .ok .restart
  | 0x27 => .ok .jumpBoot
  | 0x28 => .ok .jumpApp
  | 0x29 => .ok (.lock a.toNat)
  | 0x2A => .ok (.unlock a.toNat)
  | 0x30 => .ok .upgStart
  | 0x3F => .ok .reset
  | _ => .error (.reservedOpcode opc)

/-- The operation a command word encodes, or why it is illegal (30_encoding.md R100 to R102). -/
def decode (w : Word) : Except DecodeError Instr :=
  if fieldRsv w = 0 then decodeOpcode (fieldOpc w) (fieldA w) (fieldB w)
  else .error (.reservedBitsSet (fieldRsv w))

/-- The opcode of an operation (30_encoding.md R101). -/
def Instr.opcode : Instr → Byte
  | .crc16 => 0x01
  | .sum8 => 0x02
  | .validate _ => 0x03
  | .desc _ => 0x04
  | .fmSet _ => 0x05
  | .decode _ => 0x06
  | .streamStart _ _ => 0x10
  | .streamStop => 0x11
  | .qpop => 0x12
  | .getProductInfo => 0x20
  | .getFields => 0x21
  | .readFields => 0x22
  | .writeFieldsTemp => 0x23
  | .writeFieldsPerm => 0x24
  | .setQuiet => 0x25
  | .restart => 0x26
  | .jumpBoot => 0x27
  | .jumpApp => 0x28
  | .lock _ => 0x29
  | .unlock _ => 0x2A
  | .upgStart => 0x30
  | .reset => 0x3F

/-- The argument byte A an operation puts in its word; 0 where it reads none (30_encoding.md R122). -/
def Instr.argA : Instr → Byte
  | .validate tag => BitVec.ofNat 8 tag
  | .desc tag => BitVec.ofNat 8 tag
  | .decode tag => BitVec.ofNat 8 tag
  | .streamStart tag _ => BitVec.ofNat 8 tag
  | .lock region => BitVec.ofNat 8 region
  | .unlock region => BitVec.ofNat 8 region
  | .crc16 | .sum8 | .fmSet _ | .streamStop | .qpop | .getProductInfo | .getFields | .readFields
  | .writeFieldsTemp | .writeFieldsPerm | .setQuiet | .restart | .jumpBoot | .jumpApp | .upgStart | .reset => 0

/-- The argument byte B an operation puts in its word; 0 where it reads none (30_encoding.md R122). -/
def Instr.argB : Instr → Byte
  | .fmSet length => BitVec.ofNat 8 length
  | .streamStart _ watchdog => if watchdog then 1 else 0
  | .crc16 | .sum8 | .validate _ | .desc _ | .decode _ | .streamStop | .qpop | .getProductInfo | .getFields
  | .readFields | .writeFieldsTemp | .writeFieldsPerm | .setQuiet | .restart | .jumpBoot | .jumpApp | .lock _
  | .unlock _ | .upgStart | .reset => 0

/-- The command word of an operation: RSV, B, A, OPC from the top byte down (30_encoding.md R100, R122). -/
def encode (i : Instr) : Word := 0x00#8 ++ i.argB ++ i.argA ++ i.opcode

/-- The bits of a command word that decide which operation it is: OPC, RSV, and the argument bits the operation
reads (30_encoding.md R100, R105). The other bits are ignored. -/
def Instr.readMask : Instr → Word
  | .validate _ => 0xFF00FFFF
  | .desc _ => 0xFF00FFFF
  | .decode _ => 0xFF00FFFF
  | .lock _ => 0xFF00FFFF
  | .unlock _ => 0xFF00FFFF
  | .fmSet _ => 0xFFFF00FF
  | .streamStart _ _ => 0xFF01FFFF
  | .crc16 | .sum8 | .streamStop | .qpop | .getProductInfo | .getFields | .readFields | .writeFieldsTemp
  | .writeFieldsPerm | .setQuiet | .restart | .jumpBoot | .jumpApp | .upgStart | .reset => 0xFF0000FF

/-- The operation the decoder reads from an opcode-table row's bits. A command word is one whole 32-bit word, with
no byte order (20_memory.md R87), so the `nbits` bits of `w` are its low bits and the bits above them 0. -/
def decodeTableWord (nbits w : Nat) : Option Instr :=
  match decode (BitVec.ofNat 32 (w % 2 ^ nbits)) with
  | .ok i => some i
  | .error _ => none

end Sys2Proof
end

