-- ==== Sys2Proof/Machine/Decoder.lean ====
section
/-! DEFINITION. The physical-unit decoder and the operation DECODE (46_decode.md). -/

namespace Sys2Proof.Machine

/-! ## Layouts (46_decode.md R333 to R339) -/

/-- `FIELD_LAYOUT(S1)` (R333; the field list is the spec's general knowledge, log 14). The temperatures have an empty
scale until `S1_TEMP_SCALE` is configured. -/
def layoutS1 (c : Config) : List FieldEntry :=
  let temp := c.s1TempScale.getD []
  [⟨"xAccel", .acceleration, 0, .i16, .be, scaleAccel⟩, ⟨"yAccel", .acceleration, 2, .i16, .be, scaleAccel⟩,
    ⟨"zAccel", .acceleration, 4, .i16, .be, scaleAccel⟩, ⟨"xRate", .rate, 6, .i16, .be, scaleRate⟩,
    ⟨"yRate", .rate, 8, .i16, .be, scaleRate⟩, ⟨"zRate", .rate, 10, .i16, .be, scaleRate⟩,
    ⟨"xRateTemp", .temperature, 12, .i16, .be, temp⟩, ⟨"yRateTemp", .temperature, 14, .i16, .be, temp⟩,
    ⟨"zRateTemp", .temperature, 16, .i16, .be, temp⟩, ⟨"boardTemp", .temperature, 18, .i16, .be, temp⟩,
    ⟨"timer", .other, 20, .u16, .be, scaleTimer⟩, ⟨"BITstatus", .other, 22, .u16, .be, []⟩]

/-- The seven entries of the FM chip block at payload offset `o` (R337). -/
def fmChipEntries (k : FmScale) (o : Nat) : List FieldEntry :=
  [⟨"accelX", .acceleration, o, .i32, .le, k.accelX⟩, ⟨"accelY", .acceleration, o + 4, .i32, .le, k.accelY⟩,
    ⟨"accelZ", .acceleration, o + 8, .i32, .le, k.accelZ⟩, ⟨"rateX", .rate, o + 12, .i32, .le, k.rateX⟩,
    ⟨"rateY", .rate, o + 16, .i32, .le, k.rateY⟩, ⟨"rateZ", .rate, o + 20, .i32, .le, k.rateZ⟩,
    ⟨"temp", .temperature, o + 24, .i32, .le, k.temp⟩]

/-- The FM layout for a frame length (R337): the chip blocks, then the unsigned, unscaled status fields. -/
def layoutFm (k : FmScale) (len : Nat) : List FieldEntry :=
  ((List.range (fmChips len)).flatMap fun i => fmChipEntries k (28 * i)) ++
    (List.range (fmStatusFields len)).map fun j => ⟨"status", .other, 28 * fmChips len + 2 * j, .u16, .le, []⟩

/-- `FIELD_LAYOUT(t)`, none while not configured: a fixed table indexed by the tag (46_decode.md R341). -/
def fieldLayout (c : Config) (t : Tag) (fmLen : Nat) : Option (List FieldEntry) :=
  match t with
  | .s1 => some (layoutS1 c)
  | .s2 => c.layoutS2
  | .a1 => c.layoutA1
  | .a2 => c.layoutA2
  | .fm => c.fmScale.map fun k => layoutFm k fmLen
  | .s3 => c.layoutS3
  | .at => c.layoutAT

/-! ## Values (46_decode.md R331, R332) -/

/-- `payload(t, f)`: the frame without its header and trailer (R331). -/
def framePayload (d : Descriptor) (f : Bytes) : Bytes := slice f d.headerLen (d.len - d.trailerLen)

/-- The value of the bytes of a field in its byte order (R332). -/
def orderedNat (o : ByteOrder) (b : Bytes) : Nat :=
  match o with
  | .be => beNat b
  | .le => leNat b

/-- A field of `bits` bits read as a signed integer (R332). -/
def signedOf (bits n : Nat) : Int := if n < 2 ^ (bits - 1) then n else (n : Int) - 2 ^ bits

/-- The unscaled value of a field as a binary64 (R332). -/
def rawValue (k : FieldKind) (n : Nat) : BitVec 64 :=
  match k with
  | .i16 => ofInt64 (signedOf 16 n)
  | .u16 => ofInt64 n
  | .i32 => ofInt64 (signedOf 32 n)
  | .u32 => ofInt64 n
  | .f32 => widen32 (BitVec.ofNat 32 n)

/-- `value(e, P)` (R332): the raw value, then the scale steps from left to right. -/
def fieldValue (e : FieldEntry) (p : Bytes) : BitVec 64 :=
  applyScale e.scale (rawValue e.kind (orderedNat e.order (slice p e.off (e.off + e.kind.width))))

/-- DECODE (46_decode.md R330, R340). -/
def execDecode (tag : Nat) (s : State) : Host.Outcome State Fault Refusal :=
  .next <| s.issue fun s =>
    match tagOfCode tag with
    | none => s.raise 0x06 .badArg
    | some t =>
      let d := descriptor t s.fmLen.toNat
      let f := s.arg
      if !frameShapeOk d f then s.raise 0x06 .badArg
      else
        match fieldLayout s.cfg t s.fmLen.toNat with
        | none => s.raise 0x06 .notConfigured
        | some l =>
          let p := framePayload d f
          let vs := l.map fun e => fieldValue e p
          (((s.setHout (vs.flatMap le64)).setRes0 (BitVec.ofNat 32 vs.length)).setRes1
            (BitVec.ofNat 32 p.length)).finish 0x06

end Sys2Proof.Machine
end

