-- ==== Sys2Proof/Machine/System.lean ====
section
/-! DEFINITION. The operation RESET (70_reset_and_hazards.md R401). -/

namespace Sys2Proof.Machine

/-- RESET (70_reset_and_hazards.md R401, R402): accepted at any time. It keeps `link_ok`, `H` with its own `Done`, the
parameters, and the model's schedule and host data; it takes every other field to its reset value. -/
def execReset (s : State) : Host.Outcome State Fault Refusal :=
  .next
    { State.resetFor s.cfg s.linkOk with
      hist := (s.emit (.done 0x3F .none s.now)).hist
      schedule := s.schedule
      hostData := s.hostData }

end Sys2Proof.Machine
end

