-- ==== Sys2Proof/Machine/Dispatch.lean ====
section
/-! DEFINITION. The meaning of each host operation: one arm per constructor of Instr (30_encoding.md R101). -/

namespace Sys2Proof.Machine

def exec (i : Instr) (s : State) : Host.Outcome State Fault Refusal :=
  match i with
  | .crc16 => Sys2Proof.Machine.execCrc16 s
  | .sum8 => Sys2Proof.Machine.execSum8 s
  | .validate tag => Sys2Proof.Machine.execValidate tag s
  | .desc tag => Sys2Proof.Machine.execDesc tag s
  | .fmSet length => Sys2Proof.Machine.execFmSet length s
  | .decode tag => Sys2Proof.Machine.execDecode tag s
  | .streamStart tag watchdog => Sys2Proof.Machine.execStreamStart tag watchdog s
  | .streamStop => Sys2Proof.Machine.execStreamStop s
  | .qpop => Sys2Proof.Machine.execQpop s
  | .getProductInfo => Sys2Proof.Machine.execGetProductInfo s
  | .getFields => Sys2Proof.Machine.execGetFields s
  | .readFields => Sys2Proof.Machine.execReadFields s
  | .writeFieldsTemp => Sys2Proof.Machine.execWriteFieldsTemp s
  | .writeFieldsPerm => Sys2Proof.Machine.execWriteFieldsPerm s
  | .setQuiet => Sys2Proof.Machine.execSetQuiet s
  | .restart => Sys2Proof.Machine.execRestart s
  | .jumpBoot => Sys2Proof.Machine.execJumpBoot s
  | .jumpApp => Sys2Proof.Machine.execJumpApp s
  | .lock region => Sys2Proof.Machine.execLock region s
  | .unlock region => Sys2Proof.Machine.execUnlock region s
  | .upgStart => Sys2Proof.Machine.execUpgStart s
  | .reset => Sys2Proof.Machine.execReset s

end Sys2Proof.Machine
end

