-- ==== Sys2Proof/Machine/Flags.lean ====
section
/-! DEFINITION. The packed views of `STATUS`, `SYNC_STATE` and `UPG_STATE` (10_state.md R33, R43, R45) and the numbers
of their coded fields. Bits no field covers read 0. -/

namespace Sys2Proof.Machine

/-- The number of an error code (60_exceptions.md R360). -/
def ErrorCode.code : ErrorCode → Nat
  | .none => 0
  | .sourceUnavailable => 1
  | .integrityMismatch => 2
  | .responseTimeout => 3
  | .bootloaderEntryFailed => 4
  | .blockWriteFailed => 5
  | .queueOverflow => 6
  | .malformedFieldResponse => 7
  | .resourceOwned => 8
  | .badArg => 9
  | .illegalOp => 10
  | .initFailure => 11
  | .notConfigured => 12

/-- The number of a link owner (10_state.md R33). -/
def Owner.code : Owner → Nat
  | .none => 0
  | .stream => 1
  | .exchange => 2
  | .upgrade => 3

/-- The number of an upgrade state (10_state.md R45). -/
def Stage.code : Stage → Nat
  | .idle => 0
  | .quietSet => 1
  | .bootloaderEntered => 2
  | .writing => 3
  | .complete => 4
  | .appResumed => 5
  | .failed => 6

/-- A value placed with its lowest bit at bit `lo` of a register. -/
def field (lo v : Nat) : Word := BitVec.ofNat 32 (v * 2 ^ lo)

/-- `STATUS` as the host reads it (10_state.md R33). -/
def Status.word (x : Status) : Word :=
  field 0 x.busy.toNat ||| field 1 x.done.toNat ||| field 2 x.err.toNat ||| field 3 x.rej.toNat |||
    field 8 x.errcode.code ||| field 16 x.owner.code

/-- `SYNC_STATE` as the host reads it (10_state.md R43). -/
def Stream.word (x : Stream) : Word :=
  field 0 x.active.toNat ||| field 1 (tagCode x.tag) ||| field 4 x.wdEn.toNat ||| field 5 x.wdArmed.toNat |||
    field 6 x.wdAttempt.toNat ||| field 8 x.initFail.toNat

/-- `UPG_STATE` as the host reads it (10_state.md R45). -/
def Upg.word (x : Upg) : Word :=
  field 0 x.stage.code ||| field 3 x.session.toNat ||| field 8 x.failStage.code

end Sys2Proof.Machine
end

