-- ==== Sys2Proof/Machine/HostPort.lean ====
section
/-! DEFINITION. Host accesses: registers by number (10_state.md R31 to R49), bytes of `HIN` and `HOUT`
(20_memory.md R81, R82), and the command word (60_exceptions.md R361). -/

namespace Sys2Proof.Machine

/-- The word of a register as the host reads it: 0 for a number above 0x12 and for the write-only `CMD`
(10_state.md R31). -/
def regWord (s : State) (num : Byte) : Word :=
  match num.toNat with
  | 0x01 => s.status.word
  | 0x02 => s.res0
  | 0x03 => s.res1
  | 0x04 => s.hinLen
  | 0x05 => s.houtLen
  | 0x06 => s.baud
  | 0x07 => s.fmLen.setWidth 32
  | 0x08 => s.odr.setWidth 32
  | 0x09 => BitVec.ofNat 32 s.stream.q.length
  | 0x0A => s.stream.evicted
  | 0x0B => s.stream.crcFail
  | 0x0C => s.stream.word
  | 0x0D => BitVec.ofNat 32 (min s.stream.acc.length (2 ^ 32 - 1))
  | 0x0E => s.upg.word
  | 0x0F => s.upg.written
  | 0x10 => s.upg.total
  | 0x11 => s.upg.progress.setWidth 32
  | 0x12 => BitVec.ofNat 32 s.now
  | _ => 0

/-- `MemRead(HIN, i, 1)`: 0 outside the buffer (20_memory.md R81). -/
def hinByte (s : State) (i : Nat) : Byte := if i < s.cfg.hbufSize then s.hin.read i else 0

/-- `MemRead(HOUT, i, 1)`: 0 outside the buffer (20_memory.md R82). -/
def houtByte (s : State) (i : Nat) : Byte := if i < s.cfg.hbufSize then s.hout.read i else 0

/-- A host read of a register; it changes no state of the block (10_state.md R31). -/
def readReg (num : Byte) (s : State) : State := { s with hostData := regWord s num }

/-- A host read of a byte of `HIN`. -/
def readHin (i : Nat) (s : State) : State := { s with hostData := (hinByte s i).setWidth 32 }

/-- A host read of a byte of `HOUT`. -/
def readHout (i : Nat) (s : State) : State := { s with hostData := (houtByte s i).setWidth 32 }

/-- A host write of a byte of `HIN`, ignored outside the buffer (20_memory.md R81), accepted while `BUSY` is 1
(10_state.md R60). -/
def writeHin (i : Nat) (b : Byte) (s : State) : State :=
  if i < s.cfg.hbufSize then { s with hin := s.hin.write i b } else s

/-- A host write of a byte of `HOUT` is ignored (20_memory.md R82). -/
def writeHout (_i : Nat) (_b : Byte) (s : State) : State := s

/-- A host write of `HIN_LEN` (10_state.md R35, R60). -/
def writeHinLen (v : Word) (s : State) : State :=
  if s.status.busy then s else { s with hinLen := BitVec.ofNat 32 (min v.toNat s.cfg.hbufSize) }

/-- A host write of `BAUD` (10_state.md R37, R60). -/
def writeBaud (v : Word) (s : State) : State := if s.status.busy || v == 0 then s else s.switchBaud v

/-- A host write of `ODR` (10_state.md R39, R60). -/
def writeOdr (v : Word) (s : State) : State :=
  if s.status.busy || s.stream.active || v.setWidth 16 == (0 : BitVec 16) then s
  else { s with odr := v.setWidth 16 }

/-- A host write of `CMD` (10_state.md R32, 60_exceptions.md R361): the decoded operation is executed, and a word that
is none ends with `ILLEGAL_OP` (30_encoding.md R102). -/
def writeCmd (w : Word) (s : State) : Host.Outcome State Fault Refusal :=
  match decode w with
  | .ok i => exec i s
  | .error _ => .next (illegalOp (fieldOpc w) s)

/-- A host write of a register: read-only and undefined numbers ignore it (10_state.md R31). -/
def writeReg (num : Byte) (v : Word) (s : State) : Host.Outcome State Fault Refusal :=
  match num.toNat with
  | 0x00 => writeCmd v s
  | 0x04 => .next (writeHinLen v s)
  | 0x06 => .next (writeBaud v s)
  | 0x08 => .next (writeOdr v s)
  | _ => .next s

end Sys2Proof.Machine
end

