-- ==== Sys2Proof/Machine/Step.lean ====
section
/-! DEFINITION. One step of the machine: the next action of the schedule (00_scope.md R10, 20_memory.md R89). -/

namespace Sys2Proof.Machine

/-- An action taken from the head of the schedule. -/
def perform (a : Action) (s : State) : Host.Outcome State Fault Refusal :=
  match a with
  | .regWrite num v => writeReg num v s
  | .regRead num => .next (readReg num s)
  | .hinWrite i b => .next (writeHin i b s)
  | .hinRead i => .next (readHin i s)
  | .houtWrite i b => .next (writeHout i b s)
  | .houtRead i => .next (readHout i s)
  | .rx b => .next (receive b s)
  | .tick d => tick d s
  | .link v => .next (setLink v s)
  | .agent a => scheduledAgent a s
  | .settle => .next (settle s)

/-- One step: the first action of the schedule, or, with none left, a step of the block alone (log 1). -/
def step (s : State) : Host.Outcome State Fault Refusal :=
  match s.schedule with
  | [] => .next (idleStep s)
  | a :: rest => perform a { s with schedule := rest }

/-- The state whose very next step issues the command word: the block fetches no instruction (20_memory.md R94), so the
word is placed as the host's write of `CMD` at the head of the schedule (log 2). -/
def State.withFetchWord (s : State) (nbits w : Nat) : State :=
  { s with schedule := .regWrite 0x00 (BitVec.ofNat 32 (w % 2 ^ nbits)) :: s.schedule }

end Sys2Proof.Machine
end

