-- ==== Sys2Proof/Safety.lean ====
section
/-! DEFINITION. What the statements about the block are made of: the invariants of its state (10_state.md R61 and what
goes with it), and the states an operation leaves, written out from the spec's own words. -/

namespace Sys2Proof.Machine

/-! ## Invariants -/

/-- The client is a host operation (10_state.md R54). -/
def Client.isHost : Client → Bool
  | .hostOp _ => true
  | .none => false
  | .upg => false

/-- A phase that waits for an exchange (45_upgrade.md R294, "waits for: CORR"). -/
def UpgPhase.waitsForCorr (p : UpgPhase) : Bool := p == .q1 || p == .q2

/-- A phase that waits for an acknowledgement (45_upgrade.md R294, "waits for: ACKR"). -/
def UpgPhase.waitsForAckr (p : UpgPhase) : Bool := p == .jiAck || p == .back || p == .jaAck

/-- The link has at most one user, and `STATUS` says which: (a) to (g) of 10_state.md R61, then what carries them from
step to step. -/
structure LinkSafe (s : State) : Prop where
  /-- R61 (a) -/
  queue_le : s.stream.q.length ≤ s.cap
  /-- R61 (b) -/
  stream_iff : s.status.owner = .stream ↔ s.stream.active = true
  /-- R61 (c) -/
  upgrade_iff : s.status.owner = .upgrade ↔ s.upg.session = true
  /-- R61 (d) -/
  exchange_iff : s.status.owner = .exchange ↔ s.corr.phase = .wait ∧ s.corr.client.isHost = true
  /-- R61 (e) -/
  busy_iff : s.status.busy = true ↔ s.status.owner = .exchange ∨ s.status.owner = .upgrade
  /-- R61 (f) -/
  corr_wait : s.corr.phase = .wait → s.status.owner = .exchange ∨ s.status.owner = .upgrade
  /-- R61 (g) -/
  ackr_wait : s.ackr.phase = .wait → s.status.owner = .upgrade
  /-- `ODR` is at least 1, so `CAP` is at least 1000 (R39, 43_synchronizer.md R196) -/
  odr_pos : s.odr ≠ 0#16
  /-- outside a session the queue is empty (43_synchronizer.md R197) -/
  queue_empty : s.stream.active = false → s.stream.q = []
  /-- `c_client` is NONE exactly while the correlator is idle (44_correlator.md R240, R246) -/
  client_iff : s.corr.client = .none ↔ s.corr.phase = .idle
  /-- a session has a phase (45_upgrade.md R290, R300) -/
  phase_iff : s.upg.phase ≠ .none ↔ s.upg.session = true
  /-- the upgrade's exchange runs exactly in the phases that wait for one (45_upgrade.md R294) -/
  corr_upg : s.corr.client = .upg ↔ s.upg.phase.waitsForCorr = true
  /-- the acknowledgement reader runs exactly in the phases that wait for it (45_upgrade.md R294) -/
  ackr_upg : s.ackr.phase = .wait ↔ s.upg.phase.waitsForAckr = true

/-- A streaming session is bound to one descriptor, and its queue holds frames of it alone (10_state.md R38, R43,
42_registry.md R161, 43_synchronizer.md R194, R198). -/
structure StreamSafe (s : State) : Prop where
  /-- `FM_LEN` is legal (10_state.md R38) -/
  fm_legal : fmLegal s.fmLen.toNat = true
  /-- the session's length is the registry's (42_registry.md R161) -/
  len_bound : s.stream.active = true → s.stream.len = (descriptor s.stream.tag s.fmLen.toNat).len
  /-- every queued frame is valid for the session's tag (43_synchronizer.md R194) -/
  frames_valid : ∀ f ∈ s.stream.q, frameValid s.stream.tag s.stream.len f = true
  /-- `WD_ATTEMPT` is 0 without the watchdog, which is then not armed (10_state.md R43) -/
  wd_off : s.stream.wdEn = false → s.stream.wdAttempt = 0 ∧ s.stream.wdArmed = false
  /-- `WD_ATTEMPT` is 1, 2 or 3 with the watchdog (10_state.md R43) -/
  wd_on : s.stream.wdEn = true → s.stream.wdAttempt ≠ 0
  /-- while the watchdog waits for the first frame, the session runs and the queue is empty (43_synchronizer.md R198) -/
  wd_armed : s.stream.wdArmed = true → s.stream.active = true ∧ s.stream.q = []
  /-- `INIT_FAIL` belongs to a session that ended (10_state.md R43) -/
  init_fail : s.stream.initFail = true → s.stream.active = false
  /-- outside a session `acc` is empty (43_synchronizer.md R191, R199) -/
  acc_empty : s.stream.active = false → s.stream.acc = []

/-- The byte spaces are in canonical form and inside their size, and the parameters meet the spec's conditions
(20_memory.md R80 to R82, 00_scope.md R12). -/
structure MemorySafe (s : State) : Prop where
  hin_wf : s.hin.wf = true
  hout_wf : s.hout.wf = true
  hin_inside : ∀ c ∈ s.hin, c.1 < s.cfg.hbufSize
  /-- the bytes of `HOUT` from `HOUT_LEN` on are 0 (20_memory.md R82) -/
  hout_inside : ∀ c ∈ s.hout, c.1 < s.houtLen.toNat
  hinLen_le : s.hinLen.toNat ≤ s.cfg.hbufSize
  houtLen_le : s.houtLen.toNat ≤ s.cfg.hbufSize
  cfg_wf : s.cfg.wf = true

/-- The stage a phase shows (45_upgrade.md R294, column "STATE shown"); none outside a session. -/
def UpgPhase.stage : UpgPhase → Option Stage
  | .none => Option.none
  | .q1 => some .idle
  | .q2 => some .quietSet
  | .w1 => some .quietSet
  | .w2 => some .quietSet
  | .jiAck => some .quietSet
  | .be => some .bootloaderEntered
  | .bw => some .writing
  | .back => some .writing
  | .pj => some .complete
  | .jaAck => some .complete

/-- The upgrade session's counters and stage agree with its phase and its image (10_state.md R45 to R48,
45_upgrade.md R291 to R294, R297 to R300). -/
structure UpgradeSafe (s : State) : Prop where
  /-- `IMG` has `UPG_TOTAL` bytes (20_memory.md R83) -/
  img_length : s.upg.img.length = s.upg.total.toNat
  /-- the image is padded to 16 bytes (45_upgrade.md R291) -/
  total_aligned : s.upg.total.toNat % Config.padAlign = 0
  /-- `UPG_TOTAL` is at most `MAX_IMAGE` + 15 (20_memory.md R80) -/
  total_le : s.upg.total.toNat ≤ s.cfg.maxImage + 15
  written_le : s.upg.written.toNat ≤ s.upg.total.toNat
  /-- `UPG_PROGRESS` (10_state.md R48) -/
  progress_eq : s.upg.progress.toNat = 100 * s.upg.written.toNat / s.upg.total.toNat
  /-- the stage shown in a phase (45_upgrade.md R294) -/
  stage_eq : ∀ st, s.upg.phase.stage = some st → s.upg.stage = st
  /-- the terminal states (10_state.md R45); `Idle` before the first session -/
  stage_ended : s.upg.phase = .none → s.upg.stage = .idle ∨ s.upg.stage = .appResumed ∨ s.upg.stage = .failed
  /-- the stages at which a session can fail (45_upgrade.md R299) -/
  fail_stage : s.upg.stage = .failed →
    s.upg.failStage = .idle ∨ s.upg.failStage = .quietSet ∨ s.upg.failStage = .writing
  /-- a session has an image, and the payload its set_quiet needs (45_upgrade.md R290) -/
  session_ready : s.upg.phase ≠ .none → s.upg.total ≠ 0 ∧ s.cfg.quietPayload.isSome = true
  /-- nothing is written before the first block (45_upgrade.md R290) -/
  not_written : s.upg.stage = .idle ∨ s.upg.stage = .quietSet ∨ s.upg.stage = .bootloaderEntered → s.upg.written = 0
  /-- the block in flight is the next one of the image (45_upgrade.md R292, R293) -/
  block_eq : s.upg.stage = .writing → s.upg.written.toNat % Config.chunkMax = 0 ∧
    s.upg.written.toNat < s.upg.total.toNat ∧
    s.upg.chunk = min Config.chunkMax (s.upg.total.toNat - s.upg.written.toNat)
  /-- the whole image is acknowledged (45_upgrade.md R294, R300) -/
  all_written : s.upg.stage = .complete ∨ s.upg.stage = .appResumed → s.upg.written = s.upg.total

/-- No deadline is passed while it waits, and none lies further off than its own window (60_exceptions.md R370, R373). -/
structure TimeSafe (s : State) : Prop where
  poll : s.stream.active = true → s.now ≤ s.stream.nextPoll ∧ s.stream.nextPoll ≤ s.now + Config.pollMs
  /-- the iterations of a watchdog window stand at its start plus a multiple of `POLL_MS`, up to its end -/
  watchdog : s.stream.active = true → s.stream.wdEn = true → s.stream.wdArmed = true →
    ∃ k, k * Config.pollMs ≤ Config.wdTimeoutMs ∧ s.stream.nextPoll = s.stream.wdStart + k * Config.pollMs
  corr : s.corr.phase = .wait → s.now ≤ s.corr.deadline ∧ s.corr.deadline ≤ s.now + Config.respTimeoutMs
  ackr : s.ackr.phase = .wait → s.now ≤ s.ackr.deadline ∧ s.ackr.deadline ≤ s.now + Config.ackTimeoutMs ∧
    s.ackr.buf.length < s.ackr.need
  upg : s.upg.phase.waitsForDeadline = true → s.now ≤ s.upg.deadline ∧ s.upg.deadline ≤ s.now + Config.eraseMs

/-! ## What an operation leaves -/

/-- Every command word with this opcode and RSV 0 decodes to the operation its A and B bytes give (30_encoding.md R100,
R101). -/
def encodes (opc : Byte) (op : Byte → Byte → Instr) : Prop :=
  ∀ w : Word, fieldOpc w = opc → fieldRsv w = 0 → decode w = .ok (op (fieldA w) (fieldB w))

/-- While `BUSY` is 1 the operation is dropped: `REJ` is set and nothing else changes (60_exceptions.md R362). -/
def droppedWhileBusy (i : Instr) : Prop :=
  ∀ s : State, s.status.busy = true → exec i s = .next { s with status := { s.status with rej := true } }

/-- The state in which an operation has completed with a code and done nothing else (60_exceptions.md R361): `DONE` is
set, `ERR` and `ERRCODE` hold the code, and the event is in `H`. -/
def State.completed (opc : Byte) (e : ErrorCode) (s : State) : State :=
  { s with
    status := { s.status with done := true, err := e != .none, errcode := e }
    hist := s.hist ++ [.done opc e s.now] }

/-- The state in which an operation has ended with a code in its issue step and done nothing else: the issue also
cleared `REJ` (60_exceptions.md R361). -/
def State.ended (opc : Byte) (e : ErrorCode) (s : State) : State :=
  { s with status := { s.status with rej := false } }.completed opc e

/-- The state in which an exchange operation has claimed the link and sent its request (44_correlator.md R240, R247);
`base` is the state with the speed the request is sent at. -/
def State.requested (op : ExchangeOp) (mode : MatchMode) (req : Bytes) (base : State) : State :=
  { base with
    status := ⟨true, false, false, false, .none, .exchange⟩
    rxq := []
    corr :=
      { phase := .wait, req := req, mode := mode, deadline := base.now + 3000, buf := [], client := .hostOp op }
    hist := base.hist ++ [.tx req base.baud base.now] }

/-- The state in which a `CORR` step has read its bytes and ended the exchange of a host operation, and the link is
free again (44_correlator.md R241, R246, R259). -/
def State.exchanged (s : State) : State :=
  { s with
    status := { s.status with owner := .none, busy := false }
    rxq := s.rxq.drop (corrRead s)
    corr := { s.corr with phase := .idle, buf := s.corr.buf ++ s.rxq.take (corrRead s), client := .none } }

/-- What the correlator finds once a `CORR` step has read its bytes (44_correlator.md R241, R242). -/
def State.found (s : State) : Option (Nat × Nat) :=
  correlate s.cfg.gpidMatch s.corr.mode s.corr.req (s.corr.buf ++ s.rxq.take (corrRead s))

/-- The response of length `ld + 7` at position `p` of the correlator's buffer (44_correlator.md R243). -/
def State.response (p ld : Nat) (s : State) : Bytes :=
  slice (s.corr.buf ++ s.rxq.take (corrRead s)) p (p + ld + 7)

/-- The state with the link speed changed and the change in `H` (10_state.md R37). -/
def State.atSpeed (v : Word) (s : State) : State := { s with baud := v, hist := s.hist ++ [.baud v s.now] }

/-- `HOUT` reads as the bytes of `r` and 0 after them, 0 outside the buffer (20_memory.md R82). -/
def houtHolds (r : Bytes) (s : State) : Prop := ∀ i, houtByte s i = if i < s.cfg.hbufSize then r.getD i 0 else 0

/-- The two link checks that end the issue of an operation that opens the link, in their order (60_exceptions.md R365):
with an owner it ends with `RESOURCE_OWNED`, else without a link with `SOURCE_UNAVAILABLE`. -/
def refusedByLink (opc : Byte) (i : Instr) (s : State) : Prop :=
  (s.status.owner ≠ .none → exec i s = .next (s.ended opc .resourceOwned)) ∧
    (s.status.owner = .none → s.linkOk = false → exec i s = .next (s.ended opc .sourceUnavailable))

/-- The encoding of a finite binary64 number: the exponent field is not all ones (46_decode.md R332; IEEE 754, log 15). -/
def isFinite64 (x : BitVec 64) : Prop := (x.extractLsb' 52 11).toNat ≠ 0x7FF

/-- The encoding of an infinity with this sign (log 15). -/
def isInf64 (neg : Bool) (x : BitVec 64) : Prop :=
  x.msb = neg ∧ (x.extractLsb' 52 11).toNat = 0x7FF ∧ (x.extractLsb' 0 52).toNat = 0

/-- The encoding of a NaN, whatever its sign and fraction (log 12, log 15). -/
def isNan64 (x : BitVec 64) : Prop := (x.extractLsb' 52 11).toNat = 0x7FF ∧ (x.extractLsb' 0 52).toNat ≠ 0

/-- The number of which a finite binary64 is the encoding (log 15). -/
def value64 (x : BitVec 64) : ℚ :=
  (if x.msb then -1 else 1) *
    if (x.extractLsb' 52 11).toNat = 0 then ((x.extractLsb' 0 52).toNat : ℚ) * 2 ^ (-1074 : ℤ)
    else (2 ^ 52 + (x.extractLsb' 0 52).toNat : ℚ) * 2 ^ (((x.extractLsb' 52 11).toNat : ℤ) - 1075)

/-- The number of the `n` that the bytes of an integer field hold: two's complement for `i16` and `i32` (46_decode.md
R332). -/
def rawNumber (k : FieldKind) (n : Nat) : ℤ :=
  match k with
  | .i16 => if n < 2 ^ 15 then n else n - 2 ^ 16
  | .i32 => if n < 2 ^ 31 then n else n - 2 ^ 32
  | _ => n

/-- `r` is the binary32 with the encoding `n`, converted to binary64 exactly (46_decode.md R332; log 12, log 15). -/
def widens32 (n : Nat) (r : BitVec 64) : Prop :=
  if n / 2 ^ 23 % 2 ^ 8 = 255 then if n % 2 ^ 23 = 0 then isInf64 (decide (2 ^ 31 ≤ n)) r else isNan64 r
  else r.msb = decide (2 ^ 31 ≤ n) ∧ isFinite64 r ∧
    value64 r = (if 2 ^ 31 ≤ n then -1 else 1) *
      if n / 2 ^ 23 % 2 ^ 8 = 0 then ((n % 2 ^ 23 : Nat) : ℚ) * 2 ^ (-149 : ℤ)
      else (2 ^ 23 + (n % 2 ^ 23 : Nat) : ℚ) * 2 ^ (((n / 2 ^ 23 % 2 ^ 8 : Nat) : ℤ) - 150)

/-- `r` is `round64(q)`, with this sign bit: the nearest finite binary64, of two equally near the one with an even
fraction, and an infinity from halfway above the largest finite number on (46_decode.md R332; log 15). -/
def rounds64 (q : ℚ) (neg : Bool) (r : BitVec 64) : Prop :=
  if |q| < 2 ^ 1024 - 2 ^ 970 then
    r.msb = neg ∧ isFinite64 r ∧
      ∀ z, isFinite64 z → |value64 r - q| ≤ |value64 z - q| ∧
        (|value64 r - q| = |value64 z - q| → value64 z ≠ value64 r → r.getLsbD 0 = false)
  else isInf64 neg r

/-- `r` is what one scale step makes of `x`: the exact product or quotient rounded once, and infinities, zero divisors and
NaNs as IEEE 754 has them (46_decode.md R332; log 12, log 15). -/
def scaledBy (op : ScaleOp) (x c r : BitVec 64) : Prop :=
  match op with
  | .mul =>
    (isFinite64 x → isFinite64 c → rounds64 (value64 x * value64 c) (x.msb != c.msb) r) ∧
      (isInf64 x.msb x ∧ (isInf64 c.msb c ∨ isFinite64 c ∧ value64 c ≠ 0) ∨
        isFinite64 x ∧ value64 x ≠ 0 ∧ isInf64 c.msb c → isInf64 (x.msb != c.msb) r) ∧
      (isNan64 x ∨ isNan64 c ∨ isInf64 x.msb x ∧ isFinite64 c ∧ value64 c = 0 ∨
        isFinite64 x ∧ value64 x = 0 ∧ isInf64 c.msb c → isNan64 r)
  | .div =>
    (isFinite64 x → isFinite64 c → value64 c ≠ 0 → rounds64 (value64 x / value64 c) (x.msb != c.msb) r) ∧
      (isFinite64 x → isInf64 c.msb c → isFinite64 r ∧ value64 r = 0 ∧ r.msb = (x.msb != c.msb)) ∧
      (isFinite64 c ∧ (isInf64 x.msb x ∨ isFinite64 x ∧ value64 x ≠ 0 ∧ value64 c = 0) →
        isInf64 (x.msb != c.msb) r) ∧
      (isNan64 x ∨ isNan64 c ∨ isInf64 x.msb x ∧ isInf64 c.msb c ∨
        isFinite64 x ∧ isFinite64 c ∧ value64 x = 0 ∧ value64 c = 0 → isNan64 r)

/-- `crc16` with one mask at the end instead of one in every round (41_crc.md R141 (b)): the register is an unbounded
number. -/
def crcUnmaskedRound (r : Nat) : Nat := if r.testBit 15 then (r <<< 1) ^^^ 0x1021 else r <<< 1

/-- The unmasked register after a byte sequence (41_crc.md R141 (b)). -/
def crcUnmasked (s : Bytes) : Nat :=
  s.foldl (fun r b => Nat.repeat crcUnmaskedRound 8 (r ^^^ (b.toNat <<< 8))) 0x1D0F

/-- The block's steps with an empty schedule, taken `n` times (70_reset_and_hazards.md R413). -/
def settleFor (n : Nat) (s : State) : State := Nat.repeat idleStep n s

end Sys2Proof.Machine
end

