-- ==== Sys2Proof/Certificates/Slice0/Obligations.lean ====
section
/-! DEFINITION. The statements about the block, for the provers. Each docstring names the rules of spec/ it
formalises. -/

open Sys2Proof Sys2Proof.Machine

/-! ## The command word (30_encoding.md) -/

/-- R100, R101, R122: decoding the word of any well-formed operation gives the operation back. -/
def Obligations.DecodeEncodeAgree : Prop :=
  ∀ i : Instr, i.WellFormed = true → decode (encode i) = .ok i

/-- R100, R105: a word that decodes holds exactly the encoding of its operation in the bits the operation reads, and
the other bits do not change what it decodes to. -/
def Obligations.DecodedWordsAreTheirEncodings : Prop :=
  ∀ (w : Word) (i : Instr), decode w = .ok i →
    i.WellFormed = true ∧ encode i = w &&& i.readMask ∧
      ∀ v : Word, v &&& i.readMask = w &&& i.readMask → decode v = .ok i

/-- R102: exactly the words with RSV not 0 or a reserved OPC are illegal; written to `CMD`, such a word ends at once with
`ILLEGAL_OP` and has no other effect, and while `BUSY` is 1 it is dropped (R362). -/
def Obligations.IllegalWords : Prop :=
  ∀ w : Word,
    ((∃ e, decode w = .error e) ↔
      fieldRsv w ≠ 0 ∨ fieldOpc w = 0x00 ∨ (0x07 ≤ fieldOpc w ∧ fieldOpc w ≤ 0x0F) ∨
        (0x13 ≤ fieldOpc w ∧ fieldOpc w ≤ 0x1F) ∨ (0x2B ≤ fieldOpc w ∧ fieldOpc w ≤ 0x2F) ∨
        (0x31 ≤ fieldOpc w ∧ fieldOpc w ≤ 0x3E) ∨ 0x40 ≤ fieldOpc w) ∧
    ∀ (s : State) (e : DecodeError), decode w = .error e →
      perform (.regWrite 0x00 w) s =
        .next (if s.status.busy then { s with status := { s.status with rej := true } }
          else s.ended (fieldOpc w) .illegalOp)

/-- R122: the words of the assembler's examples and of one operation of each kind are the operations they name. -/
def Obligations.AssemblerWords : Prop :=
  decode 0x00010410 = .ok (.streamStart 4 true) ∧ decode 0x005F0005 = .ok (.fmSet 95) ∧
    decode 0x00000001 = .ok .crc16 ∧ decode 0x00000603 = .ok (.validate 6) ∧ decode 0x00000012 = .ok .qpop ∧
    decode 0x00000020 = .ok .getProductInfo ∧ decode 0x00000028 = .ok .jumpApp ∧ decode 0x00000129 = .ok (.lock 1) ∧
    decode 0x0000022A = .ok (.unlock 2) ∧ decode 0x00000030 = .ok .upgStart ∧ decode 0x0000003F = .ok .reset

/-- A step takes the first action of the schedule; a write of a word that decodes to an operation runs that
operation, and with `withFetchWord` it is the very next step (R32, R361; the schedule is the model's, log 1, log 2). -/
def Obligations.StepRunsDecodedInstruction : Prop :=
  (∀ (s : State) (a : Action) (rest : List Action), s.schedule = a :: rest →
    step s = perform a { s with schedule := rest }) ∧
  (∀ (s : State) (w : Word) (rest : List Action) (i : Instr), s.schedule = .regWrite 0x00 w :: rest →
    decode w = .ok i → i.WellFormed = true ∧ step s = exec i { s with schedule := rest }) ∧
  ∀ (s : State) (w : Nat) (i : Instr), decodeTableWord 32 w = some i → step (s.withFetchWord 32 w) = exec i s

/-- R362: while `BUSY` is 1 a write of `CMD` sets `REJ` and changes nothing else, unless it is a RESET word, which is
accepted at any time. -/
def Obligations.BusyDropsCommands : Prop :=
  ∀ (s : State) (w : Word), s.status.busy = true →
    ((fieldOpc w = 0x3F ∧ fieldRsv w = 0) → perform (.regWrite 0x00 w) s = exec .reset s) ∧
      (¬(fieldOpc w = 0x3F ∧ fieldRsv w = 0) →
        perform (.regWrite 0x00 w) s = .next { s with status := { s.status with rej := true } })

/-! ## Registers and buffers (10_state.md, 20_memory.md) -/

/-- R31 to R49: what a read of each register number returns, that a read changes nothing of the block, that a write to a
number that is not writable changes nothing, and the reset values. That the word read is kept in `hostData` is the
model's choice (log 7), and so is the unknown `INIT_BAUD` at reset (log 5). -/
def Obligations.RegisterFile : Prop :=
  (∀ (s : State) (n : Byte), perform (.regRead n) s = .next { s with hostData := regWord s n }) ∧
  (∀ s : State, regWord s 0x00 = 0 ∧ regWord s 0x01 = s.status.word ∧ regWord s 0x02 = s.res0 ∧
    regWord s 0x03 = s.res1 ∧ regWord s 0x04 = s.hinLen ∧ regWord s 0x05 = s.houtLen ∧ regWord s 0x06 = s.baud ∧
    (regWord s 0x07).toNat = s.fmLen.toNat ∧ (regWord s 0x08).toNat = s.odr.toNat ∧
    regWord s 0x09 = BitVec.ofNat 32 s.stream.q.length ∧ regWord s 0x0A = s.stream.evicted ∧
    regWord s 0x0B = s.stream.crcFail ∧ regWord s 0x0C = s.stream.word ∧
    (regWord s 0x0D).toNat = min s.stream.acc.length (2 ^ 32 - 1) ∧ regWord s 0x0E = s.upg.word ∧
    regWord s 0x0F = s.upg.written ∧ regWord s 0x10 = s.upg.total ∧
    (regWord s 0x11).toNat = s.upg.progress.toNat ∧ (regWord s 0x12).toNat = s.now % 2 ^ 32) ∧
  (∀ (s : State) (n : Byte), 0x12 < n → regWord s n = 0) ∧
  (∀ (s : State) (n : Byte) (v : Word), n ≠ 0x00 → n ≠ 0x04 → n ≠ 0x06 → n ≠ 0x08 →
    perform (.regWrite n v) s = .next s) ∧
  ∀ n : Byte, regWord State.reset n =
    if n = 0x06 then State.reset.cfg.initBaud else if n = 0x07 then 95 else if n = 0x08 then 1 else 0

/-- R33, R43, R45: the places of the fields in `STATUS`, `SYNC_STATE` and `UPG_STATE`; the bits no field covers
read 0; and the number of each error code (R360), owner (R33), tag (R103) and upgrade state (R45). -/
def Obligations.PackedRegisterLayouts : Prop :=
  (∀ x : Status, x.word.getLsbD 0 = x.busy ∧ x.word.getLsbD 1 = x.done ∧ x.word.getLsbD 2 = x.err ∧
    x.word.getLsbD 3 = x.rej ∧ x.word.extractLsb' 4 4 = 0#4 ∧ (x.word.extractLsb' 8 8).toNat = x.errcode.code ∧
    (x.word.extractLsb' 16 2).toNat = x.owner.code ∧ x.word.extractLsb' 18 14 = 0#14) ∧
  (∀ x : Stream, x.word.getLsbD 0 = x.active ∧ (x.word.extractLsb' 1 3).toNat = tagCode x.tag ∧
    x.word.getLsbD 4 = x.wdEn ∧ x.word.getLsbD 5 = x.wdArmed ∧ x.word.extractLsb' 6 2 = x.wdAttempt ∧
    x.word.getLsbD 8 = x.initFail ∧ x.word.extractLsb' 9 23 = 0#23) ∧
  (∀ x : Upg, (x.word.extractLsb' 0 3).toNat = x.stage.code ∧ x.word.getLsbD 3 = x.session ∧
    x.word.extractLsb' 4 4 = 0#4 ∧ (x.word.extractLsb' 8 3).toNat = x.failStage.code ∧
    x.word.extractLsb' 11 21 = 0#21) ∧
  ([.none, .sourceUnavailable, .integrityMismatch, .responseTimeout, .bootloaderEntryFailed, .blockWriteFailed,
    .queueOverflow, .malformedFieldResponse, .resourceOwned, .badArg, .illegalOp, .initFailure, .notConfigured] :
    List ErrorCode).map (·.code) = [0, 1, 2, 3, 4, 5, 6, 7, 8, 9, 10, 11, 12] ∧
  ([.none, .stream, .exchange, .upgrade] : List Owner).map (·.code) = [0, 1, 2, 3] ∧
  ([.s1, .s2, .a1, .a2, .fm, .s3, .at] : List Tag).map tagCode = [0, 1, 2, 3, 4, 5, 6] ∧
  ([.idle, .quietSet, .bootloaderEntered, .writing, .complete, .appResumed, .failed] : List Stage).map (·.code) =
    [0, 1, 2, 3, 4, 5, 6]

/-- R35, R37, R39, R60: the writes of `HIN_LEN`, `BAUD` and `ODR`, which are ignored while `BUSY` is 1. -/
def Obligations.RegisterWrites : Prop :=
  ∀ (s : State) (v : Word),
    (s.status.busy = true → ∀ n ∈ [0x04#8, 0x06#8, 0x08#8], perform (.regWrite n v) s = .next s) ∧
    (s.status.busy = false →
      perform (.regWrite 0x04 v) s = .next { s with hinLen := BitVec.ofNat 32 (min v.toNat s.cfg.hbufSize) } ∧
      perform (.regWrite 0x06 v) s =
        .next (if v = 0 then s else { s with baud := v, hist := s.hist ++ [.baud v s.now] }) ∧
      perform (.regWrite 0x08 v) s =
        .next (if s.stream.active = true ∨ v.extractLsb' 0 16 = 0 then s else { s with odr := v.extractLsb' 0 16 }))

/-- R81, R82, R84: a host write of a byte of `HIN` changes that byte and no other, and no register; outside the buffer
it is ignored, as a write of `HOUT` is; a read returns the byte, or 0 outside the buffer; and the argument of an
operation is the first `HIN_LEN` bytes of `HIN`. That the byte read is kept in `hostData` is the model's choice
(log 7). -/
def Obligations.HostBufferBytes : Prop :=
  ∀ s : State, MemorySafe s →
    (∀ (i : Nat) (b : Byte), ∃ t, perform (.hinWrite i b) s = .next t ∧ t = { s with hin := t.hin } ∧
      ∀ j, hinByte t j = if j = i ∧ i < s.cfg.hbufSize then b else hinByte s j) ∧
    (∀ (i : Nat) (b : Byte), perform (.houtWrite i b) s = .next s) ∧
    (∀ i : Nat, perform (.hinRead i) s = .next { s with hostData := (hinByte s i).setWidth 32 }) ∧
    (∀ i : Nat, perform (.houtRead i) s = .next { s with hostData := (houtByte s i).setWidth 32 }) ∧
    (∀ i : Nat, s.cfg.hbufSize ≤ i → hinByte s i = 0 ∧ houtByte s i = 0) ∧
    s.arg.length = s.hinLen.toNat ∧ ∀ i : Nat, i < s.hinLen.toNat → s.arg[i]? = some (hinByte s i)

/-! ## The immediate operations (41_crc.md, 42_registry.md, 46_decode.md, 43_synchronizer.md) -/

/-- R143: CRC16: which words it is, that it is dropped while busy, and the whole state it leaves. -/
def Obligations.Crc16Operation : Prop :=
  encodes 0x01 (fun _ _ => .crc16) ∧ droppedWhileBusy .crc16 ∧
    ∀ s : State, s.status.busy = false → ∃ t, exec .crc16 s = .next t ∧
      t = { s.ended 0x01 .none with res0 := (crc16 s.arg).setWidth 32, houtLen := 2, hout := t.hout } ∧
      houtHolds (be16 (crc16 s.arg)) t ∧ (s.hinLen = 0 → t.res0 = 0x1D0F) ∧
      (s.arg = [0x31, 0x32, 0x33, 0x34, 0x35, 0x36, 0x37, 0x38, 0x39] → t.res0 = 0x0000E5CC)

/-- R144: SUM8: which words it is, that it is dropped while busy, and the whole state it leaves. -/
def Obligations.Sum8Operation : Prop :=
  encodes 0x02 (fun _ _ => .sum8) ∧ droppedWhileBusy .sum8 ∧
    ∀ s : State, s.status.busy = false → ∃ t, exec .sum8 s = .next t ∧
      t = { s.ended 0x02 .none with res0 := (sum8 s.arg).setWidth 32, houtLen := 1, hout := t.hout } ∧
      houtHolds [sum8 s.arg] t ∧ (s.hinLen = 0 → t.res0 = 0) ∧ (s.arg = [0xFF, 0xFF] → t.res0 = 0xFE) ∧
      (s.arg = List.replicate 256 0x01 → t.res0 = 0) ∧ (s.arg = [1, 2, 3, 4, 5, 6, 7, 8, 9, 10] → t.res0 = 0x37)

/-- R167: VALIDATE: an invalid tag is BAD_ARG, else RES0 says whether the argument is a valid frame. -/
def Obligations.ValidateOperation : Prop :=
  encodes 0x03 (fun a _ => .validate a.toNat) ∧ (∀ tag, droppedWhileBusy (.validate tag)) ∧
    ∀ (s : State) (tag : Nat), s.status.busy = false →
      (7 ≤ tag → exec (.validate tag) s = .next (s.ended 0x03 .badArg)) ∧
      (tag < 7 → ∃ t, tagCode t = tag ∧
        exec (.validate tag) s =
          .next { s.ended 0x03 .none with res0 := if frameValid t s.fmLen.toNat s.arg then 1 else 0 })

/-- R168, with the table of R160: DESC: an invalid tag is BAD_ARG, else the row of the tag is delivered. -/
def Obligations.DescOperation : Prop :=
  encodes 0x04 (fun a _ => .desc a.toNat) ∧ (∀ tag, droppedWhileBusy (.desc tag)) ∧
    ∀ (s : State) (tag : Nat), s.status.busy = false →
      (7 ≤ tag → exec (.desc tag) s = .next (s.ended 0x04 .badArg)) ∧
      (tag < 7 → ∃ t, exec (.desc tag) s = .next t ∧
        t = { s.ended 0x04 .none with
          res0 := BitVec.ofNat 32 ([31, 45, 39, 37, s.fmLen.toNat, 40, 39].getD tag 0)
          res1 := [0x2541, 0x2549, 0x2541, 0x2541, 0x2545, 0x1336, 0x0334].getD tag 0
          houtLen := [4, 4, 4, 4, 4, 3, 3].getD tag 0
          hout := t.hout } ∧
        houtHolds ([[0x55, 0x55, 0x53, 0x31], [0x55, 0x55, 0x53, 0x32], [0x55, 0x55, 0x41, 0x31],
          [0x55, 0x55, 0x41, 0x32], [0x55, 0x55, 0x46, 0x4D], [0x55, 0xAA, 0x24], [0xBD, 0xDB, 0x54]].getD tag []) t)

/-- R169, with the lengths of R162: FM_SET: an illegal length is BAD_ARG, a session RESOURCE_OWNED, else FM_LEN is set. -/
def Obligations.FmSetOperation : Prop :=
  encodes 0x05 (fun _ b => .fmSet b.toNat) ∧ (∀ length, droppedWhileBusy (.fmSet length)) ∧
    ∀ (s : State) (length : Nat), s.status.busy = false →
      (length ∉ [39, 41, 67, 69, 95, 97, 123, 125] → exec (.fmSet length) s = .next (s.ended 0x05 .badArg)) ∧
      (length ∈ [39, 41, 67, 69, 95, 97, 123, 125] → s.stream.active = true →
        exec (.fmSet length) s = .next (s.ended 0x05 .resourceOwned)) ∧
      ∀ n e : Nat, 1 ≤ n → n ≤ 4 → e ≤ 1 → length = 11 + 28 * n + 2 * e → s.stream.active = false →
        exec (.fmSet length) s =
          .next { s.ended 0x05 .none with
            fmLen := BitVec.ofNat 8 length
            res0 := BitVec.ofNat 32 n
            res1 := BitVec.ofNat 32 (2 + e) }

/-- R330, with the payloads of R331 and the packing of R340: DECODE: what it refuses, and what it delivers; and the
values it delivers, by R332: the raw number in the order and sign of its kind, exactly, then each scale step from left to
right, rounded once (that NaN bits are free is log 12, the meaning of binary64 arithmetic log 15). -/
def Obligations.DecodeOperation : Prop :=
  encodes 0x06 (fun a _ => .decode a.toNat) ∧ (∀ tag, droppedWhileBusy (.decode tag)) ∧
    (∀ (s : State) (tag : Nat), s.status.busy = false →
      (7 ≤ tag → exec (.decode tag) s = .next (s.ended 0x06 .badArg)) ∧
      (tag < 7 → ∃ t, tagCode t = tag ∧
        (¬(s.arg.length = (descriptor t s.fmLen.toNat).len ∧ (descriptor t s.fmLen.toNat).sync <+: s.arg) →
          exec (.decode tag) s = .next (s.ended 0x06 .badArg)) ∧
        (s.arg.length = (descriptor t s.fmLen.toNat).len → (descriptor t s.fmLen.toNat).sync <+: s.arg →
          (fieldLayout s.cfg t s.fmLen.toNat = none →
            exec (.decode tag) s = .next (s.ended 0x06 .notConfigured)) ∧
          ∀ l, fieldLayout s.cfg t s.fmLen.toNat = some l → ∃ u, exec (.decode tag) s = .next u ∧
            u = { s.ended 0x06 .none with
              res0 := BitVec.ofNat 32 l.length
              res1 := BitVec.ofNat 32 ([24, 38, 32, 30, s.fmLen.toNat - 7, 36, 36].getD tag 0)
              houtLen := BitVec.ofNat 32 (8 * l.length)
              hout := u.hout } ∧
            houtHolds (l.flatMap fun e => le64 (fieldValue e
              (slice s.arg ([5, 5, 5, 5, 5, 3, 3].getD tag 0)
                ([29, 43, 37, 35, s.fmLen.toNat - 2, 39, 39].getD tag 0)))) u))) ∧
    ∀ (e : FieldEntry) (p b : Bytes) (n : Nat),
      b = slice p e.off (e.off + match e.kind with | .i16 | .u16 => 2 | _ => 4) →
      n = (match e.order with | .be => b | .le => b.reverse).foldl (fun (a : Nat) (x : Byte) => 256 * a + x.toNat) 0 →
        (e.scale = [] → if e.kind = .f32 then widens32 n (fieldValue e p) else
          isFinite64 (fieldValue e p) ∧ value64 (fieldValue e p) = rawNumber e.kind n ∧
            (fieldValue e p).msb = decide (rawNumber e.kind n < 0)) ∧
        ∀ sc op c, e.scale = sc ++ [(op, c)] →
          scaledBy op (fieldValue { e with scale := sc } p) c (fieldValue e p)

/-- R190: STREAM_START: its refusals in their order, and the session it starts. -/
def Obligations.StreamStartOperation : Prop :=
  encodes 0x10 (fun a b => .streamStart a.toNat (b.getLsbD 0)) ∧
    (∀ tag w, droppedWhileBusy (.streamStart tag w)) ∧
    ∀ (s : State) (tag : Nat) (w : Bool), s.status.busy = false →
      (7 ≤ tag → exec (.streamStart tag w) s = .next (s.ended 0x10 .badArg)) ∧
      (tag < 7 → refusedByLink 0x10 (.streamStart tag w) s ∧
        (s.status.owner = .none → s.linkOk = true → ∃ t, tagCode t = tag ∧
          exec (.streamStart tag w) s =
            .next { s.ended 0x10 .none with
              status := ⟨false, true, false, false, .none, .stream⟩
              res0 := BitVec.ofNat 32 ([31, 45, 39, 37, s.fmLen.toNat, 40, 39].getD tag 0)
              res1 := BitVec.ofNat 32 (s.odr.toNat * 1000)
              rxq := []
              stream :=
                { active := true, tag := t, wdEn := w, wdArmed := w, wdAttempt := if w then 1 else 0
                  initFail := false, len := [31, 45, 39, 37, s.fmLen.toNat, 40, 39].getD tag 0
                  nextPoll := s.now, wdStart := s.now, acc := [], q := [], evicted := 0, crcFail := 0 } }))

/-- R191: STREAM_STOP: without a session nothing happens; with one it ends and its frames are dropped. -/
def Obligations.StreamStopOperation : Prop :=
  encodes 0x11 (fun _ _ => .streamStop) ∧ droppedWhileBusy .streamStop ∧
    ∀ s : State, s.status.busy = false →
      (s.stream.active = false → exec .streamStop s = .next { s.ended 0x11 .none with res0 := 0 }) ∧
      (s.stream.active = true → exec .streamStop s =
        .next { s.ended 0x11 .none with
          status := ⟨false, true, false, false, .none, .none⟩
          res0 := BitVec.ofNat 32 s.stream.q.length
          stream := { s.stream with active := false, wdArmed := false, q := [], acc := [] } })

/-- R197: QPOP: an empty queue gives 0, else the oldest frame leaves the queue for HOUT. -/
def Obligations.QpopOperation : Prop :=
  encodes 0x12 (fun _ _ => .qpop) ∧ droppedWhileBusy .qpop ∧
    ∀ s : State, s.status.busy = false →
      (s.stream.q = [] → ∃ t, exec .qpop s = .next t ∧
        t = { s.ended 0x12 .none with res0 := 0, res1 := 0, houtLen := 0, hout := t.hout } ∧ houtHolds [] t) ∧
      ∀ f rest, s.stream.q = f :: rest → ∃ t, exec .qpop s = .next t ∧
        t = { s.ended 0x12 .none with
          res0 := BitVec.ofNat 32 f.length
          res1 := BitVec.ofNat 32 rest.length
          houtLen := BitVec.ofNat 32 f.length
          hout := t.hout
          stream := { s.stream with q := rest }
          hist := s.hist ++ [.pop f s.now, .done 0x12 .none s.now] } ∧
        houtHolds f t

/-! ## The exchange operations at issue (44_correlator.md) -/

/-- R101, R247, R248, R254, R255, R256 at issue: the four exchange operations with a fixed request. -/
def Obligations.FixedExchangeOperations : Prop :=
  ∀ r ∈ ([(.getProductInfo, .getProductInfo, 0x20, .gpid, [0x55, 0x55, 0x47, 0x50, 0x02, 0x49, 0x44, 0x23, 0x3D]),
      (.restart, .restart, 0x26, .std, [0x55, 0x55, 0x53, 0x52, 0x00, 0x7E, 0x4F]),
      (.jumpBoot, .jumpBoot, 0x27, .std, [0x55, 0x55, 0x4A, 0x49, 0x00, 0x7C, 0x34]),
      (.jumpApp, .jumpApp, 0x28, .std, [0x55, 0x55, 0x4A, 0x41, 0x00, 0xF5, 0x9D])] :
      List (Instr × ExchangeOp × Byte × MatchMode × Bytes)),
    encodes r.2.2.1 (fun _ _ => r.1) ∧ droppedWhileBusy r.1 ∧
      ∀ s : State, s.status.busy = false →
        refusedByLink r.2.2.1 r.1 s ∧
        (s.status.owner = .none → s.linkOk = true → exec r.1 s = .next (s.requested r.2.1 r.2.2.2.1 r.2.2.2.2))

/-- R249, R250 at issue: `GET_FIELDS` and `READ_FIELDS`. -/
def Obligations.ReadFieldsOperations : Prop :=
  ∀ r ∈ ([(.getFields, .getFields, 0x21, (0x47, 0x46)), (.readFields, .readFields, 0x22, (0x52, 0x46))] :
      List (Instr × ExchangeOp × Byte × Code)),
    encodes r.2.2.1 (fun _ _ => r.1) ∧ droppedWhileBusy r.1 ∧
      ∀ s : State, s.status.busy = false →
        (s.hinLen.toNat % 2 = 1 ∨ s.hinLen.toNat < 2 ∨ 126 < s.hinLen.toNat →
          exec r.1 s = .next (s.ended r.2.2.1 .badArg)) ∧
        (s.hinLen.toNat % 2 = 0 → 2 ≤ s.hinLen.toNat → s.hinLen.toNat ≤ 126 → refusedByLink r.2.2.1 r.1 s ∧
          (s.status.owner = .none → s.linkOk = true → exec r.1 s =
            .next (s.requested r.2.1 .std
              (envelope r.2.2.2 ([BitVec.ofNat 8 (s.hinLen.toNat / 2)] ++ s.arg)))))

/-- R251, R252 at issue: `WRITE_FIELDS_TEMP` and `WRITE_FIELDS_PERM`. -/
def Obligations.WriteFieldsOperations : Prop :=
  ∀ r ∈ ([(.writeFieldsTemp, .writeFieldsTemp, 0x23, (0x53, 0x46)),
      (.writeFieldsPerm, .writeFieldsPerm, 0x24, (0x57, 0x46))] : List (Instr × ExchangeOp × Byte × Code)),
    encodes r.2.2.1 (fun _ _ => r.1) ∧ droppedWhileBusy r.1 ∧
      ∀ s : State, s.status.busy = false →
        (s.hinLen.toNat % 4 ≠ 0 ∨ s.hinLen.toNat < 4 ∨ 252 < s.hinLen.toNat →
          exec r.1 s = .next (s.ended r.2.2.1 .badArg)) ∧
        (∀ id k, s.cfg.specialFieldId = some id → 4 * k + 4 ≤ s.hinLen.toNat → be16At s.arg (4 * k) = id.toNat →
          exec r.1 s = .next (s.ended r.2.2.1 .badArg)) ∧
        (s.hinLen.toNat % 4 = 0 → 4 ≤ s.hinLen.toNat → s.hinLen.toNat ≤ 252 →
          (∀ id k, s.cfg.specialFieldId = some id → 4 * k + 4 ≤ s.hinLen.toNat →
            be16At s.arg (4 * k) ≠ id.toNat) →
          refusedByLink r.2.2.1 r.1 s ∧
          (s.status.owner = .none → s.linkOk = true → exec r.1 s =
            .next (s.requested r.2.1 .std
              (envelope r.2.2.2 ([BitVec.ofNat 8 (s.hinLen.toNat / 4)] ++ s.arg)))))

/-- R253 at issue: SET_QUIET without its payload is NOT_CONFIGURED, else the request goes out. -/
def Obligations.SetQuietOperation : Prop :=
  encodes 0x25 (fun _ _ => .setQuiet) ∧ droppedWhileBusy .setQuiet ∧
    ∀ s : State, s.status.busy = false →
      (s.cfg.quietPayload = none → exec .setQuiet s = .next (s.ended 0x25 .notConfigured)) ∧
      ∀ p, s.cfg.quietPayload = some p → refusedByLink 0x25 .setQuiet s ∧
        (s.status.owner = .none → s.linkOk = true →
          exec .setQuiet s = .next (s.requested .setQuiet .std (envelope (0x53, 0x46) p)))

/-- R257 at issue: LOCK: its refusals in their order, then the speed switch and the request. -/
def Obligations.LockOperation : Prop :=
  encodes 0x29 (fun a _ => .lock a.toNat) ∧ (∀ region, droppedWhileBusy (.lock region)) ∧
    ∀ (s : State) (region : Nat), s.status.busy = false →
      (3 ≤ region → exec (.lock region) s = .next (s.ended 0x29 .badArg)) ∧
      ∀ r, [Region.eeprom, .app, .boot][region]? = some r →
        (s.cfg.lockCode.get r = none ∨ s.cfg.lockPayload.get r = none →
          exec (.lock region) s = .next (s.ended 0x29 .notConfigured)) ∧
        ∀ c p, s.cfg.lockCode.get r = some c → s.cfg.lockPayload.get r = some p →
          refusedByLink 0x29 (.lock region) s ∧
          (s.status.owner = .none → s.linkOk = true →
            exec (.lock region) s = .next ((s.atSpeed 230400).requested .lock .std (envelope c p)))

/-- R258 at issue: the speed of the EEPROM unlock differs, and the request goes out at that speed. -/
def Obligations.UnlockOperation : Prop :=
  encodes 0x2A (fun a _ => .unlock a.toNat) ∧ (∀ region, droppedWhileBusy (.unlock region)) ∧
    ∀ (s : State) (region : Nat), s.status.busy = false →
      (3 ≤ region → exec (.unlock region) s = .next (s.ended 0x2A .badArg)) ∧
      ∀ r, [Region.eeprom, .app, .boot][region]? = some r →
        (s.cfg.unlockCode.get r = none ∨ s.cfg.unlockKey = none →
          exec (.unlock region) s = .next (s.ended 0x2A .notConfigured)) ∧
        ∀ c k, s.cfg.unlockCode.get r = some c → s.cfg.unlockKey = some k →
          refusedByLink 0x2A (.unlock region) s ∧
          (s.status.owner = .none → s.linkOk = true →
            exec (.unlock region) s =
              .next ((s.atSpeed (if r = .eeprom then 115200 else 230400)).requested .unlock .std
                (envelope c k.toList)))

/-- R290: UPG_START: its refusals in their order, then the session begins with the first set_quiet request. -/
def Obligations.UpgStartOperation : Prop :=
  encodes 0x30 (fun _ _ => .upgStart) ∧ droppedWhileBusy .upgStart ∧
    ∀ s : State, s.status.busy = false →
      (s.hinLen.toNat = 0 ∨ s.cfg.maxImage < s.hinLen.toNat →
        exec .upgStart s = .next (s.ended 0x30 .badArg)) ∧
      (s.hinLen.toNat ≠ 0 → s.hinLen.toNat ≤ s.cfg.maxImage →
        (s.cfg.quietPayload = none → exec .upgStart s = .next (s.ended 0x30 .notConfigured)) ∧
        ∀ p, s.cfg.quietPayload = some p → refusedByLink 0x30 .upgStart s ∧
          (s.status.owner = .none → s.linkOk = true → exec .upgStart s =
            .next { s with
              status := ⟨true, false, false, false, .none, .upgrade⟩
              rxq := []
              corr :=
                { phase := .wait, req := envelope (0x53, 0x46) p, mode := .std, deadline := s.now + 3000, buf := []
                  client := .upg }
              upg :=
                { s.upg with
                  stage := .idle
                  session := true
                  failStage := .idle
                  written := 0
                  total := BitVec.ofNat 32 (padImage s.arg).length
                  progress := 0
                  img := padImage s.arg
                  phase := .q1 }
              hist := s.hist ++ [.tx (envelope (0x53, 0x46) p) s.baud s.now] }))

/-- R401, R402: RESET, in any state, busy or not. Every field takes its reset value; `link_ok` and `H` stay, `H` with
the event of the operation (the schedule, the parameters and the host's last read are the model's, log 1, 5, 7). -/
def Obligations.ResetOperation : Prop :=
  encodes 0x3F (fun _ _ => .reset) ∧
    ∀ s : State, exec .reset s =
      .next { s with
        status := ⟨false, false, false, false, .none, .none⟩
        res0 := 0
        res1 := 0
        hinLen := 0
        houtLen := 0
        baud := s.cfg.initBaud
        fmLen := 95
        odr := 1
        hin := []
        hout := []
        rxq := []
        stream :=
          { active := false, tag := .s1, wdEn := false, wdArmed := false, wdAttempt := 0, initFail := false, len := 0
            nextPoll := 0, wdStart := 0, acc := [], q := [], evicted := 0, crcFail := 0 }
        corr := { phase := .idle, req := [], mode := .std, deadline := 0, buf := [], client := .none }
        ackr := { phase := .idle, need := 0, deadline := 0, buf := [] }
        upg :=
          { stage := .idle, session := false, failStage := .idle, written := 0, total := 0, progress := 0, img := []
            phase := .none, deadline := 0, chunk := 0 }
        now := 0
        hist := s.hist ++ [.done 0x3F .none s.now] }

/-! ## Checksums and frames (41_crc.md, 42_registry.md) -/

/-- R141, R142: the properties of `crc16` (the empty value, one mask at the end, byte-serial evaluation, the check
value), and `sum8` as the sum modulo 256, whatever the order of the bytes. -/
def Obligations.ChecksumProperties : Prop :=
  crc16 [] = 0x1D0F ∧ (∀ s : Bytes, (crc16 s).toNat = crcUnmasked s % 2 ^ 16) ∧
    (∀ s u : Bytes, crc16 (s ++ u) = crc16From (crc16 s) u) ∧
    crc16 [0x31, 0x32, 0x33, 0x34, 0x35, 0x36, 0x37, 0x38, 0x39] = 0xE5CC ∧
    (∀ s : Bytes, (sum8 s).toNat = (s.map (·.toNat)).sum % 256) ∧
    ∀ s u : Bytes, s.Perm u → sum8 s = sum8 u

/-- R170: changing one byte always changes the CRC, so a valid frame of any format but AT with one byte changed is
rejected. -/
def Obligations.OneChangedByteIsDetected : Prop :=
  (∀ (s : Bytes) (i : Nat) (b : Byte), i < s.length → s[i]? ≠ some b → crc16 (s.set i b) ≠ crc16 s) ∧
    ∀ (t : Tag) (len : Nat) (f : Bytes) (i : Nat) (b : Byte), t ≠ .at → fmLegal len = true →
      frameValid t len f = true → i < f.length → f[i]? ≠ some b → frameValid t len (f.set i b) = false

/-- R162: the legal FM lengths, and the chips and status fields of each. -/
def Obligations.FmLengths : Prop :=
  ∀ len : Nat, (fmLegal len = true ↔ len ∈ [39, 41, 67, 69, 95, 97, 123, 125]) ∧
    (fmLegal len = true → len = 7 + 28 * fmChips len + 2 * fmStatusFields len ∧ 1 ≤ fmChips len ∧ fmChips len ≤ 4 ∧
      (fmStatusFields len = 2 ∨ fmStatusFields len = 3))

/-- R163, R164, R165, R166: a frame is valid exactly when it has the length and the sync bytes of its format and its
check holds: the CRC over bytes 2 up to the trailer, high byte first; the sum over bytes 2 to 38; or none for AT. -/
def Obligations.FrameValidity : Prop :=
  ∀ (t : Tag) (len : Nat) (f : Bytes),
    frameValid t len f = true ↔
      f.length = (descriptor t len).len ∧
        f.take (descriptor t len).sync.length = (descriptor t len).sync ∧
        match t with
        | .at => True
        | .s3 => (((f.take 39).drop 2).map (·.toNat)).sum % 256 = (f.getD 39 0).toNat
        | _ => (crc16 ((f.take (f.length - 2)).drop 2)).toNat =
            (f.getD (f.length - 2) 0).toNat * 256 + (f.getD (f.length - 1) 0).toNat

/-! ## The synchronizer (43_synchronizer.md) -/

/-- R194, R195: the scan as the rules write it, without a bound on its rounds. -/
def Obligations.ScanEquation : Prop :=
  ∀ (t : Tag) (len : Nat) (acc : Bytes), scan t len acc =
    if acc.length < len then ⟨[], 0, acc⟩
    else
      match find (descriptor t len).sync acc with
      | none => ⟨[], 0, acc⟩
      | some p =>
        if acc.length - p < len then ⟨[], 0, acc⟩
        else if frameValid t len (slice acc p (p + len)) then
          let r := scan t len (acc.drop (p + len))
          ⟨slice acc p (p + len) :: r.frames, r.fails, r.residue⟩
        else
          let r := scan t len (acc.drop (p + 1))
          ⟨r.frames, r.fails + 1, r.residue⟩

/-- R201: the frames, the failures and the residue of a byte stream do not depend on how it is split into reads. -/
def Obligations.ScanChunking : Prop :=
  ∀ (t : Tag) (len : Nat) (reads : List Bytes),
    reads.foldl (fun r b =>
      let n := scan t len (r.residue ++ b)
      ScanResult.mk (r.frames ++ n.frames) (r.fails + n.fails) n.residue) ⟨[], 0, []⟩ = scan t len reads.flatten

/-- R196, R203: pushing frames keeps the newest `CAP` of them in order, evicts the others from the oldest on, counts
them, and changes nothing else but the history. Every event carries the time, and where a push meets a full queue the
eviction of the oldest frame stands before it: the events are written out. -/
def Obligations.PushEvictsOldest : Prop :=
  ∀ (s : State) (fs : List Bytes), 0 < s.cap → s.stream.q.length ≤ s.cap →
    ∃ evs, pushAll fs s = { s with
        stream := { s.stream with
          q := (s.stream.q ++ fs).drop ((s.stream.q ++ fs).length - s.cap)
          evicted := s.stream.evicted + BitVec.ofNat 32 ((s.stream.q ++ fs).length - s.cap) }
        hist := s.hist ++ evs } ∧
      evs.filterMap (fun e => match e with | .push f _ => some f | _ => none) = fs ∧
      evs.filterMap (fun e => match e with | .evict f _ => some f | _ => none) =
        (s.stream.q ++ fs).take ((s.stream.q ++ fs).length - s.cap) ∧
      evs.length = fs.length + ((s.stream.q ++ fs).length - s.cap) ∧
      evs = fs.zipIdx.flatMap fun (f, i) =>
        if s.cap ≤ s.stream.q.length + i then
          [.evict ((s.stream.q ++ fs).getD (s.stream.q.length + i - s.cap) []) s.now, .push f s.now]
        else [.push f s.now]

/-- R192, R193, R194: when an iteration may run, and, without an armed watchdog, all it does: it moves at most `N_READ`
bytes, scans, pushes the frames found and counts the failures, and the next iteration waits `POLL_MS`. -/
def Obligations.SyncIteration : Prop :=
  ∀ s : State,
    (agentEnabled s .sync = true ↔ s.stream.active = true ∧ s.stream.nextPoll ≤ s.now) ∧
    (agentEnabled s .sync = true → (s.stream.wdEn && s.stream.wdArmed) = false →
      ∃ r, r = scan s.stream.tag s.stream.len (s.stream.acc ++ s.rxq.take s.cfg.nRead) ∧
        perform (.agent .sync) s = .next { pushAll r.frames s with
          rxq := s.rxq.drop s.cfg.nRead
          stream := { (pushAll r.frames s).stream with
            acc := r.residue
            crcFail := s.stream.crcFail + BitVec.ofNat 32 r.fails
            nextPoll := s.now + 10 } })

/-- R198, R199: an armed watchdog at the end of an iteration: a pushed frame disarms it, and the iteration is otherwise
one without a watchdog; without a frame it goes on inside its window, restarts the session at the window's end while attempts and the link remain, and else ends the session. -/
def Obligations.Watchdog : Prop :=
  ∀ s : State, agentEnabled s .sync = true → s.stream.wdEn = true → s.stream.wdArmed = true →
    ∃ r, r = scan s.stream.tag s.stream.len (s.stream.acc ++ s.rxq.take s.cfg.nRead) ∧
      (r.frames ≠ [] → perform (.agent .sync) s = .next { pushAll r.frames s with
        rxq := s.rxq.drop s.cfg.nRead
        stream := { (pushAll r.frames s).stream with
          acc := r.residue
          crcFail := s.stream.crcFail + BitVec.ofNat 32 r.fails
          nextPoll := s.now + 10
          wdArmed := false } }) ∧
      (r.frames = [] → ∃ base, base = { s with
          rxq := s.rxq.drop s.cfg.nRead
          stream := { s.stream with
            acc := r.residue
            crcFail := s.stream.crcFail + BitVec.ofNat 32 r.fails
            nextPoll := s.now + 10 } } ∧
        (s.now - s.stream.wdStart < 3000 → perform (.agent .sync) s = .next base) ∧
        (3000 ≤ s.now - s.stream.wdStart → s.stream.wdAttempt.toNat < 3 → s.linkOk = true →
          perform (.agent .sync) s = .next { base with
            rxq := []
            stream := { base.stream with acc := [], wdAttempt := s.stream.wdAttempt + 1, wdStart := s.now }
            hist := s.hist ++ [.wdRestart (s.stream.wdAttempt.toNat + 1) s.now] }) ∧
        (3000 ≤ s.now - s.stream.wdStart → 3 ≤ s.stream.wdAttempt.toNat ∨ s.linkOk = false →
          perform (.agent .sync) s = .next { base with
            status := { s.status with owner := .none }
            stream := { base.stream with active := false, wdArmed := false, initFail := true, q := [], acc := [] }
            hist := s.hist ++ [.initFail s.now] }))

/-! ## Correlation and completion (44_correlator.md) -/

/-- R242: `Correlate` takes the least position at which the header the mode asks for stands, and matches when the
declared length and that many bytes follow. -/
def Obligations.CorrelateLeastHeader : Prop :=
  ∀ (gm : GpidMatch) (mode : MatchMode) (req b : Bytes) (header : Nat → Prop), 7 ≤ req.length →
    (∀ i, header i ↔ match mode, gm with
      | .std, _ => i + 4 ≤ b.length ∧ slice b i (i + 4) = [0x55, 0x55] ++ slice req 2 4
      | .gpid, .literal57 => i + 7 ≤ b.length ∧ slice b i (i + 2) = [0x55, 0x55] ∧
          slice b (i + 5) (i + 7) = slice req 5 7
      | .gpid, .tag23 => i + 4 ≤ b.length ∧ slice b i (i + 4) = [0x55, 0x55] ++ slice req 5 7) →
    ∀ p ld, correlate gm mode req b = some (p, ld) ↔
      header p ∧ (∀ q, q < p → ¬header q) ∧ (∃ x : Byte, b[p + 4]? = some x ∧ x.toNat = ld) ∧ p + ld + 7 ≤ b.length

/-- R262: a match does not change when more bytes arrive, so a response does not depend on how its bytes are split into
reads; and a step at the deadline finds the response exactly if it is complete in the bytes that have arrived, whatever
`N_READ` is (that it reads on for this is the model's reading of R241 and R262, log 20). -/
def Obligations.CorrelateStable : Prop :=
  (∀ (gm : GpidMatch) (mode : MatchMode) (req b u : Bytes) (p ld : Nat),
    correlate gm mode req b = some (p, ld) →
      correlate gm mode req (b ++ u) = some (p, ld) ∧ slice (b ++ u) p (p + ld + 7) = slice b p (p + ld + 7)) ∧
  ∀ s : State, 1 ≤ s.cfg.nRead → s.corr.deadline ≤ s.now →
    s.found = correlate s.cfg.gpidMatch s.corr.mode s.corr.req (s.corr.buf ++ s.rxq) ∧
    ∀ p ld, s.found = some (p, ld) → s.response p ld = slice (s.corr.buf ++ s.rxq) p (p + ld + 7)

/-- R264: in literal mode a buffer whose bytes 0 and 1 are the preamble, whose bytes 5 and 6 are the window of the GP
request and which holds its declared length + 7 bytes matches at 0; in `TAG_2_3` mode it matches at 0 only if bytes 2
and 3 are the window too. -/
def Obligations.GpidCorrelation : Prop :=
  ∀ (b : Bytes) (x : Byte), slice b 0 2 = [0x55, 0x55] → slice b 5 7 = [0x49, 0x44] → b[4]? = some x →
    b.length = x.toNat + 7 →
      correlate .literal57 .gpid (envelope (0x47, 0x50) [0x49, 0x44]) b = some (0, x.toNat) ∧
      (correlate .tag23 .gpid (envelope (0x47, 0x50) [0x49, 0x44]) b = some (0, x.toNat) ↔
        slice b 2 4 = [0x49, 0x44])

/-- R244: the CRC of a response is not looked at: whatever its two CRC bytes are, the exchange matches alike. -/
def Obligations.ResponseCrcIgnored : Prop :=
  ∀ (gm : GpidMatch) (req b : Bytes) (p ld : Nat) (x y : Byte), 4 ≤ req.length →
    correlate gm .std req b = some (p, ld) →
      correlate gm .std req ((b.set (p + 5 + ld) x).set (p + 6 + ld) y) = some (p, ld)

/-- R241: when a `CORR` step is enabled and how many bytes it reads: `N_READ`, and at the deadline `N_READ` at a time
until the response is complete or no byte waits (R262, D23; DEDUCED, log 20). R101: the opcodes of the exchange
operations. R241, R243, R246, R259: a
`CORR` step of a host exchange whose operation has no parse: a match completes it with
the declared length and the whole response; no match leaves the bytes in the buffer until the deadline, and then it
ends with `RESPONSE_TIMEOUT`, sending nothing again (R245). The timeout holds of every exchange operation. That the
client is cleared and the buffer kept is the model's reading (log 8, log 9), and so is that a step at the deadline
reads on (log 20). -/
def Obligations.ExchangeCompletion : Prop :=
  (∀ s : State, agentEnabled s .corr = true ↔ s.corr.phase = .wait ∧ (s.rxq ≠ [] ∨ s.corr.deadline ≤ s.now)) ∧
  ([.getProductInfo, .getFields, .readFields, .writeFieldsTemp, .writeFieldsPerm, .setQuiet, .restart, .jumpBoot,
    .jumpApp, .lock, .unlock] : List ExchangeOp).map (·.opcode) =
    [0x20, 0x21, 0x22, 0x23, 0x24, 0x25, 0x26, 0x27, 0x28, 0x29, 0x2A] ∧
  (∀ s : State, s.now < s.corr.deadline → corrRead s = s.cfg.nRead) ∧
  (∀ s : State, 1 ≤ s.cfg.nRead → s.corr.deadline ≤ s.now → ∃ j, corrRead s = s.cfg.nRead * (j + 1) ∧
    (s.found ≠ none ∨ s.rxq.length ≤ corrRead s) ∧
    ∀ i, i < j → s.cfg.nRead * (i + 1) < s.rxq.length ∧
      correlate s.cfg.gpidMatch s.corr.mode s.corr.req (s.corr.buf ++ s.rxq.take (s.cfg.nRead * (i + 1))) = none) ∧
  ∀ (s : State) (op : ExchangeOp), agentEnabled s .corr = true → s.corr.client = .hostOp op →
    (∀ p ld, s.found = some (p, ld) → op ∈ [.setQuiet, .restart, .jumpBoot, .jumpApp, .lock, .unlock] →
      ∃ t, perform (.agent .corr) s = .next t ∧
        t = { s.exchanged.completed op.opcode .none with
          res0 := BitVec.ofNat 32 ld
          houtLen := BitVec.ofNat 32 (ld + 7)
          hout := t.hout } ∧
        houtHolds (s.response p ld) t ∧ (s.response p ld).length = ld + 7) ∧
    (s.found = none → s.now < s.corr.deadline → perform (.agent .corr) s = .next { s with
      rxq := s.rxq.drop s.cfg.nRead
      corr := { s.corr with buf := s.corr.buf ++ s.rxq.take s.cfg.nRead } }) ∧
    (s.found = none → s.corr.deadline ≤ s.now →
      perform (.agent .corr) s = .next (s.exchanged.completed op.opcode .responseTimeout))

/-- R251, R252, R260: the responses of `GET_FIELDS` and `READ_FIELDS`, and of the two field writes; `c` is the field
count of the request, its byte at offset 5 (log 10). That the client is cleared and the buffer kept is the model's
reading (log 8, log 9), and so is how many bytes a step at the deadline reads (log 20). -/
def Obligations.FieldResponses : Prop :=
  ∀ (s : State) (op : ExchangeOp) (p ld c : Nat), agentEnabled s .corr = true → s.corr.client = .hostOp op →
    s.found = some (p, ld) → (s.corr.req.getD 5 0).toNat = c →
      (op ∈ [.getFields, .readFields] →
        (ld ≠ 1 + 4 * c ∨ ((s.response p ld).getD 5 0).toNat ≠ c →
          perform (.agent .corr) s = .next (s.exchanged.completed op.opcode .malformedFieldResponse)) ∧
        (ld = 1 + 4 * c → ((s.response p ld).getD 5 0).toNat = c → ∃ t, perform (.agent .corr) s = .next t ∧
          t = { s.exchanged.completed op.opcode .none with
            res0 := BitVec.ofNat 32 c
            res1 := 0
            houtLen := BitVec.ofNat 32 (4 * c)
            hout := t.hout } ∧
          houtHolds (slice (s.response p ld) 6 (6 + 4 * c)) t)) ∧
      (op ∈ [.writeFieldsTemp, .writeFieldsPerm] →
        (ld ≠ 1 + 2 * c →
          perform (.agent .corr) s = .next (s.exchanged.completed op.opcode .malformedFieldResponse)) ∧
        (ld = 1 + 2 * c → ∃ t, perform (.agent .corr) s = .next t ∧
          t = { s.exchanged.completed op.opcode .none with
            res0 := BitVec.ofNat 32 c
            houtLen := BitVec.ofNat 32 (ld + 7)
            hout := t.hout } ∧
          houtHolds (s.response p ld) t))

/-- R261: the response of `GET_PRODUCT_INFO`: the serial number, big-endian, and the string up to its first NUL or the
end of the payload. That the client is cleared and the buffer kept is the model's reading (log 8, log 9), and so is how
many bytes a step at the deadline reads (log 20). -/
def Obligations.ProductResponse : Prop :=
  ∀ (s : State) (p ld : Nat) (payload : Bytes), agentEnabled s .corr = true →
    s.corr.client = .hostOp .getProductInfo → s.found = some (p, ld) →
    payload = slice (s.response p ld) 5 (5 + ld) →
      (ld < 4 → perform (.agent .corr) s = .next (s.exchanged.completed 0x20 .malformedFieldResponse)) ∧
      ∀ k, 4 ≤ ld → 4 ≤ k → k ≤ ld → (∀ j, 4 ≤ j → j < k → payload[j]? ≠ some 0) →
        (k = ld ∨ payload[k]? = some 0) →
        ∃ t, perform (.agent .corr) s = .next t ∧
          t = { s.exchanged.completed 0x20 .none with
            res0 := BitVec.ofNat 32 (((payload.getD 0 0).toNat * 256 + (payload.getD 1 0).toNat) * 65536 +
              (payload.getD 2 0).toNat * 256 + (payload.getD 3 0).toNat)
            res1 := BitVec.ofNat 32 (k - 4)
            houtLen := BitVec.ofNat 32 (k - 4)
            hout := t.hout } ∧
          houtHolds (slice payload 4 k) t

/-- R106, R113: the layout of every request, and of a block write: a request of 255 or fewer payload bytes has that
many plus 7, opens with the preamble and the code, declares its length, and ends with the CRC of all between. -/
def Obligations.EnvelopeLayout : Prop :=
  (∀ (c : Code) (p : Bytes), p.length ≤ 255 →
    (envelope c p).length = p.length + 7 ∧ slice (envelope c p) 0 4 = [0x55, 0x55, c.1, c.2] ∧
      (envelope c p)[4]?.map (·.toNat) = some p.length ∧ slice (envelope c p) 5 (5 + p.length) = p ∧
      slice (envelope c p) (5 + p.length) (7 + p.length) = be16 (crc16 (slice (envelope c p) 2 (5 + p.length)))) ∧
  ∀ (o : Nat) (ch : Bytes), o < 2 ^ 32 → ch.length ≤ 192 →
    (blockRequest o ch).length = ch.length + 12 ∧ slice (blockRequest o ch) 0 4 = [0x55, 0x55, 0x57, 0x41] ∧
      (blockRequest o ch)[4]?.map (·.toNat) = some (ch.length + 5) ∧ be32At (blockRequest o ch) 5 = o ∧
      (blockRequest o ch)[9]?.map (·.toNat) = some ch.length ∧ slice (blockRequest o ch) 10 (10 + ch.length) = ch

/-! ## The firmware upgrade (45_upgrade.md) -/

/-- R291: the padded image begins with the image, has zeros after it, and is the shortest such with a length that is a
multiple of 16. -/
def Obligations.PaddedImage : Prop :=
  ∀ img : Bytes, (padImage img).take img.length = img ∧
    (∀ b ∈ (padImage img).drop img.length, b = 0) ∧ (padImage img).length % 16 = 0 ∧
    img.length ≤ (padImage img).length ∧ (padImage img).length ≤ img.length + 15 ∧
    (img.length % 16 = 0 → padImage img = img) ∧
    ∀ n, n % 16 = 0 → img.length ≤ n → (padImage img).length ≤ n

/-- R294: a `UPG` step is enabled exactly in a phase of kind deadline whose deadline has come. R293, R294: the block sent
at an offset is the image's next at most 192 bytes; and the rows of kind deadline, U_W1,
U_W2, U_BE, U_BW and U_PJ, once their deadline has come. -/
def Obligations.UpgradeTimedPhases : Prop :=
  (∀ s : State, agentEnabled s .upg = true ↔
    (s.upg.phase = .w1 ∨ s.upg.phase = .w2 ∨ s.upg.phase = .be ∨ s.upg.phase = .bw ∨ s.upg.phase = .pj) ∧
      s.upg.deadline ≤ s.now) ∧
  (∀ (s : State) (o n : Nat), n = min 192 (s.upg.total.toNat - o) →
    sendBlock o s = { s with
      rxq := []
      upg := { s.upg with
        chunk := n
        stage := .writing
        deadline := s.now + (if o = 0 then 26000 else 100)
        phase := .bw }
      hist := s.hist ++ [.tx (blockRequest o ((s.upg.img.drop o).take n)) s.baud s.now] }) ∧
  ∀ s : State, s.upg.deadline ≤ s.now →
    (s.upg.phase = .w1 → perform (.agent .upg) s = .next { s with
      rxq := []
      upg := { s.upg with deadline := s.now + 2000, phase := .w2 }
      hist := s.hist ++ [.tx [0x55, 0x55, 0x4A, 0x49, 0x00, 0x7C, 0x34] s.baud s.now] }) ∧
    (s.upg.phase = .w2 → perform (.agent .upg) s = .next { s with
      ackr := { phase := .wait, need := 7, deadline := s.now + 3000, buf := [] }
      upg := { s.upg with phase := .jiAck } }) ∧
    (s.upg.phase = .be → perform (.agent .upg) s = .next { s with
      rxq := []
      baud := 57600
      upg := { s.upg with
        chunk := min 192 s.upg.total.toNat
        stage := .writing
        deadline := s.now + 26000
        phase := .bw }
      hist := s.hist ++ [.baud 57600 s.now,
        .tx (blockRequest 0 (s.upg.img.take (min 192 s.upg.total.toNat))) 57600 s.now] }) ∧
    (s.upg.phase = .bw → perform (.agent .upg) s = .next { s with
      ackr := { phase := .wait, need := 12, deadline := s.now + 3000, buf := [] }
      upg := { s.upg with phase := .back } }) ∧
    (s.upg.phase = .pj → perform (.agent .upg) s = .next { s with
      rxq := []
      ackr := { phase := .wait, need := 7, deadline := s.now + 3000, buf := [] }
      upg := { s.upg with phase := .jaAck }
      hist := s.hist ++ [.tx [0x55, 0x55, 0x4A, 0x41, 0x00, 0xF5, 0x9D] s.baud s.now] })

/-- R241, R294, R299, R300: the rows U_Q1 and U_Q2: any correlated response is success, no response before the deadline
keeps the bytes and waits, and none at the deadline fails the session (the client and the buffer after it: log 8,
log 9; how many bytes a step reads, at the deadline too, is `corrRead` of ExchangeCompletion: log 20). -/
def Obligations.UpgradeQuietPhases : Prop :=
  ∀ (s : State) (base : State) (q : Bytes), agentEnabled s .corr = true → s.corr.client = .upg →
    s.cfg.quietPayload = some q →
    base = { s with
      rxq := s.rxq.drop (corrRead s)
      corr := { s.corr with phase := .idle, buf := s.corr.buf ++ s.rxq.take (corrRead s), client := .none } } →
      (s.upg.phase = .q1 → s.found.isSome = true → perform (.agent .corr) s = .next { base with
        baud := 230400
        rxq := []
        corr :=
          { phase := .wait, req := envelope (0x53, 0x46) q, mode := .std, deadline := s.now + 3000, buf := []
            client := .upg }
        upg := { s.upg with stage := .quietSet, phase := .q2 }
        hist := s.hist ++ [.baud 230400 s.now, .tx (envelope (0x53, 0x46) q) 230400 s.now] }) ∧
      (s.upg.phase = .q2 → s.found.isSome = true → perform (.agent .corr) s = .next { base with
        upg := { s.upg with deadline := s.now + 2000, phase := .w1 } }) ∧
      (s.found = none → s.now < s.corr.deadline → perform (.agent .corr) s = .next { s with
        rxq := s.rxq.drop s.cfg.nRead
        corr := { s.corr with buf := s.corr.buf ++ s.rxq.take s.cfg.nRead } }) ∧
      ∀ e, (s.upg.phase = .q1 ∧ e = .responseTimeout) ∨ (s.upg.phase = .q2 ∧ e = .bootloaderEntryFailed) →
        s.found = none → s.corr.deadline ≤ s.now → perform (.agent .corr) s = .next { base with
          status := { s.status with busy := false, done := true, err := true, errcode := e, owner := .none }
          ackr := { s.ackr with phase := .idle }
          upg := { s.upg with failStage := s.upg.stage, stage := .failed, session := false, phase := .none }
          hist := s.hist ++ [.done 0x30 e s.now] }

/-- R294, R295, R296, R297, R298, R299, R300: when an `ACKR` step is enabled; it takes only the bytes it needs, goes on
waiting for more until its deadline, and then the rows U_JIACK, U_BACK and U_JAACK: what is accepted, what the next phase
is, and how a short or wrong acknowledgement fails the session. That the reader's and the phase's other fields keep
their values is the model's reading (log 9). -/
def Obligations.UpgradeAckPhases : Prop :=
  (∀ s : State, agentEnabled s .ackr = true ↔ s.ackr.phase = .wait ∧ (s.rxq ≠ [] ∨ s.ackr.deadline ≤ s.now)) ∧
  ∀ (s base : State) (a : Bytes), agentEnabled s .ackr = true →
    a = s.ackr.buf ++ s.rxq.take (s.ackr.need - s.ackr.buf.length) →
    base = { s with
      rxq := s.rxq.drop (s.ackr.need - s.ackr.buf.length)
      ackr := { s.ackr with buf := a, phase := .idle } } →
      (a.length ≠ s.ackr.need → s.now < s.ackr.deadline → perform (.agent .ackr) s = .next { base with
        ackr := { s.ackr with buf := a } }) ∧
      (a.length = s.ackr.need ∨ s.ackr.deadline ≤ s.now →
        (s.upg.phase = .jiAck → a.length = 7 → a.take 4 = [0x55, 0x55, 0x4A, 0x49] →
          perform (.agent .ackr) s = .next { base with
            upg := { s.upg with stage := .bootloaderEntered, deadline := s.now, phase := .be } }) ∧
        (s.upg.phase = .back → a.length = 12 → a.take 4 = [0x55, 0x55, 0x57, 0x41] →
          ∀ w pct, w = s.upg.written + BitVec.ofNat 32 s.upg.chunk → pct = 100 * w.toNat / s.upg.total.toNat →
            (w = s.upg.total → perform (.agent .ackr) s = .next { base with
              upg := { s.upg with
                written := w
                progress := BitVec.ofNat 7 pct
                stage := .complete
                deadline := s.now + 1000
                phase := .pj }
              hist := s.hist ++ [.progress pct s.now] }) ∧
            (w ≠ s.upg.total → perform (.agent .ackr) s = .next (sendBlock w.toNat { base with
              upg := { s.upg with written := w, progress := BitVec.ofNat 7 pct }
              hist := s.hist ++ [.progress pct s.now] }))) ∧
        (s.upg.phase = .jaAck → perform (.agent .ackr) s = .next { base with
          status := { s.status with busy := false, done := true, err := false, errcode := .none, owner := .none }
          res0 := s.upg.written
          res1 := s.upg.total
          upg := { s.upg with stage := .appResumed, session := false, phase := .none }
          hist := s.hist ++ [.done 0x30 .none s.now] }) ∧
        ∀ e, (s.upg.phase = .jiAck ∧ ¬(a.length = 7 ∧ a.take 4 = [0x55, 0x55, 0x4A, 0x49]) ∧
              e = .bootloaderEntryFailed) ∨
            (s.upg.phase = .back ∧ ¬(a.length = 12 ∧ a.take 4 = [0x55, 0x55, 0x57, 0x41]) ∧
              e = .blockWriteFailed) →
          perform (.agent .ackr) s = .next { base with
            status := { s.status with busy := false, done := true, err := true, errcode := e, owner := .none }
            upg := { s.upg with failStage := s.upg.stage, stage := .failed, session := false, phase := .none }
            hist := s.hist ++ [.done 0x30 e s.now] })

/-! ## The decoder (46_decode.md) -/

/-- R333 to R342: the S1 layout (its field list is the spec's general knowledge, log 14) and the FM layout (one scale
for each chip field is log 16), the configured layouts of the others, with the byte orders and the scales of R334 to R339
(which entry names which quantity, log 21; what a legal configuration is, log 17); the entries of every layout lie in the
payload and do not overlap, so a decode yields at most 59 values; and the example of R342 (log 22). -/
def Obligations.DecodeBound : Prop :=
  (∀ (c : Config) (t : Tag) (len : Nat) (l : List FieldEntry), c.wf = true → fmLegal len = true →
    fieldLayout c t len = some l → l.length ≤ 59 ∧
      entriesInside ((descriptor t len).len - (descriptor t len).headerLen - (descriptor t len).trailerLen) l = true ∧
      entriesDisjoint l = true ∧ ∀ e ∈ l,
        e.order = (match t with | .s1 | .a1 | .a2 => .be | .s2 | .fm | .s3 | .at => .le) ∧
        ∀ sc, (t, e.quantity, sc) ∈ ([(.a1, .angle, [(.mul, 0x4076800000000000), (.div, 0x40F0000000000000)]),
            (.a2, .angle, [(.mul, 0x4076800000000000), (.div, 0x40F0000000000000)]),
            (.s3, .acceleration, [(.mul, 0x3EB0C6F7A0B5ED8D), (.mul, 0x3FB999999999999A)]),
            (.s3, .rate, [(.mul, 0x3EB0C6F7A0B5ED8D)]), (.s3, .temperature, [(.mul, 0x3F80624DD2F1A9FC)]),
            (.at, .rate, [(.mul, 0x4072C00000000000), (.div, 0x40E0000000000000)]),
            (.at, .acceleration, [(.mul, 0x4028000000000000), (.div, 0x40E0000000000000)]),
            (.at, .temperature, [(.mul, 0x4069000000000000), (.div, 0x40E0000000000000)]),
            (.at, .timeOfWeek, [(.mul, 0x3F50624DD2F1A9FC)])] : List (Tag × Quantity × Scale)) → e.scale = sc) ∧
  (∀ (c : Config) (len : Nat) (l : List FieldEntry), c.wf = true → fieldLayout c .s2 len = some l →
    2 ≤ l.length ∧ ∀ (i : Nat) (e : FieldEntry), l[i]? = some e → (e.kind = .f32 ↔ 2 ≤ i)) ∧
  (∀ (c : Config) (len : Nat), fieldLayout c .s2 len = c.layoutS2 ∧ fieldLayout c .a1 len = c.layoutA1 ∧
    fieldLayout c .a2 len = c.layoutA2 ∧ fieldLayout c .s3 len = c.layoutS3 ∧ fieldLayout c .at len = c.layoutAT ∧
    (c.fmScale = none → fieldLayout c .fm len = none) ∧ ∃ g rate temp, temp = c.s1TempScale.getD [] ∧
      g = [(.mul, 0x4034000000000000), (.div, 0x40F0000000000000)] ∧
      rate = [(.mul, 0x4093B00000000000), (.div, 0x40F0000000000000)] ∧
      fieldLayout c .s1 len = some
        [⟨"xAccel", .acceleration, 0, .i16, .be, g⟩, ⟨"yAccel", .acceleration, 2, .i16, .be, g⟩,
          ⟨"zAccel", .acceleration, 4, .i16, .be, g⟩, ⟨"xRate", .rate, 6, .i16, .be, rate⟩,
          ⟨"yRate", .rate, 8, .i16, .be, rate⟩, ⟨"zRate", .rate, 10, .i16, .be, rate⟩,
          ⟨"xRateTemp", .temperature, 12, .i16, .be, temp⟩, ⟨"yRateTemp", .temperature, 14, .i16, .be, temp⟩,
          ⟨"zRateTemp", .temperature, 16, .i16, .be, temp⟩, ⟨"boardTemp", .temperature, 18, .i16, .be, temp⟩,
          ⟨"timer", .other, 20, .u16, .be, [(.mul, 0x402E849E8815E397)]⟩,
          ⟨"BITstatus", .other, 22, .u16, .be, []⟩]) ∧
  (∀ (c : Config) (k : FmScale) (len n sf : Nat), c.fmScale = some k → n = (len - 11) / 28 →
    sf = (len - 7 - 28 * n) / 2 → ∃ l, fieldLayout c .fm len = some l ∧ l.length = 7 * n + sf ∧
      (∀ i, i < n → (l.drop (7 * i)).take 7 =
        [⟨"accelX", .acceleration, 28 * i, .i32, .le, k.accelX⟩,
          ⟨"accelY", .acceleration, 28 * i + 4, .i32, .le, k.accelY⟩,
          ⟨"accelZ", .acceleration, 28 * i + 8, .i32, .le, k.accelZ⟩,
          ⟨"rateX", .rate, 28 * i + 12, .i32, .le, k.rateX⟩, ⟨"rateY", .rate, 28 * i + 16, .i32, .le, k.rateY⟩,
          ⟨"rateZ", .rate, 28 * i + 20, .i32, .le, k.rateZ⟩, ⟨"temp", .temperature, 28 * i + 24, .i32, .le, k.temp⟩]) ∧
      ∀ j, j < sf → l[7 * n + j]? = some ⟨"status", .other, 28 * n + 2 * j, .u16, .le, []⟩) ∧
  ∀ (c : Config) (len : Nat) (l : List FieldEntry), c.wf = true → fieldLayout c .s1 len = some l →
    l.map (fun e => fieldValue e ([0x40, 0x00] ++ List.replicate 18 0x00 ++ [0x00, 0x64, 0x12, 0x34])) =
      [0x4014000000000000] ++ List.replicate 9 0x0000000000000000 ++ [0x4097D79BDA5119CE, 0x40B2340000000000]

/-! ## The whole machine -/

/-- R61: what every step keeps: one user of the link at most, and `STATUS` says which. -/
def Obligations.LinkSafeKept : Prop :=
  ∀ s t : State, LinkSafe s → step s = .next t → LinkSafe t

/-- R38, R43, R161, R194, R198: what every step keeps of the streaming session; every queued frame is valid for the
session's tag. (That the queue is within its capacity is `LinkSafe`'s.) -/
def Obligations.StreamSafeKept : Prop :=
  ∀ s t : State, StreamSafe s → step s = .next t → StreamSafe t

/-- R80, R81, R82: every step keeps `HIN` and `HOUT` in canonical form and inside their size. -/
def Obligations.MemorySafeKept : Prop :=
  ∀ s t : State, LinkSafe s → StreamSafe s → MemorySafe s → step s = .next t → MemorySafe t

/-- R46, R48, R83, R292, R294, R298, R299: every step keeps the upgrade's counters, stage and block in agreement with its
phase and its image. -/
def Obligations.UpgradeSafeKept : Prop :=
  ∀ s t : State, MemorySafe s → UpgradeSafe s → step s = .next t → UpgradeSafe t

/-- R370, R373, R412: no step passes a deadline that waits, so every deadline is exact. It rests on the model's reading of
`Tick` (log 3). -/
def Obligations.TimeSafeKept : Prop :=
  ∀ s t : State, TimeSafe s → step s = .next t → TimeSafe t

/-- R400, R401, R403: the machine after reset meets every invariant, has no owner, and no agent is enabled. -/
def Obligations.ResetIsSafe : Prop :=
  LinkSafe State.reset ∧ StreamSafe State.reset ∧ MemorySafe State.reset ∧ UpgradeSafe State.reset ∧
    TimeSafe State.reset ∧ State.reset.status.owner = .none ∧ State.reset.hist = [] ∧
    ∀ a, agentEnabled State.reset a = false

/-- R204, R372: the link has one owner, so at most one agent's step is enabled at a time; and R373: an agent that is not
enabled takes no step, whether the schedule asks for it (log 4) or the block chooses (log 13). -/
def Obligations.OneAgentEnabled : Prop :=
  (∀ (s : State) (a b : Agent), LinkSafe s → agentEnabled s a = true → agentEnabled s b = true → a = b) ∧
    ∀ (s : State) (a : Agent), agentEnabled s a = false →
      perform (.agent a) s = .fault (.stepNotEnabled (.agent a)) ∧ nextAgent s ≠ some a

/-- R15, R51, R58: `Rx` appends its byte to `rxq` and `Link` sets `link_ok`, and nothing else. R12, R37, R49, R58, R59:
over every step, the history only grows; the parameters never change; `link_ok` changes only
by `Link`; time goes on only by `Tick`, which adds at most its length, and only RESET sets it back to 0; the link speed
changes only with a `Baud` event of the new speed, or by RESET, which sets it to `INIT_BAUD` (that a `Tick` may come
in parts is log 3). -/
def Obligations.EnvironmentIsTheEnvironments : Prop :=
  (∀ (s : State) (b : Byte), perform (.rx b) s = .next { s with rxq := s.rxq ++ [b] }) ∧
  (∀ (s : State) (v : Bool), perform (.link v) s = .next { s with linkOk := v }) ∧
  ∀ s t : State, step s = .next t →
    s.hist <+: t.hist ∧ t.cfg = s.cfg ∧
    (t.linkOk ≠ s.linkOk → s.schedule.head? = some (.link t.linkOk)) ∧
    (t.now ≠ s.now →
      (∃ d, s.schedule.head? = some (.tick d) ∧ s.now < t.now ∧ t.now ≤ s.now + d) ∨
        ∃ w, s.schedule.head? = some (.regWrite 0x00 w) ∧ decode w = .ok .reset ∧ t.now = 0) ∧
    (t.baud ≠ s.baud →
      (∃ w, s.schedule.head? = some (.regWrite 0x00 w) ∧ decode w = .ok .reset ∧ t.baud = s.cfg.initBaud) ∨
        ∃ evs, t.hist = s.hist ++ evs ∧ .baud t.baud s.now ∈ evs)

/-- R108, R109: every byte sequence a step sends is an envelope with a payload of at most 255 bytes and one of the
block's own codes, or a configured lock or unlock code. -/
def Obligations.OnlyEnvelopesAreSent : Prop :=
  ∀ s t : State, s.cfg.wf = true → step s = .next t → ∃ evs, t.hist = s.hist ++ evs ∧
    ∀ b v n, .tx b v n ∈ evs → n = s.now ∧ ∃ (c : Code) (p : Bytes), p.length ≤ 255 ∧ b = envelope c p ∧
      (c ∈ [(0x47, 0x50), (0x47, 0x46), (0x52, 0x46), (0x53, 0x46), (0x57, 0x46), (0x53, 0x52), (0x4A, 0x49),
          (0x4A, 0x41), (0x57, 0x41)] ∨
        ∃ r, s.cfg.lockCode.get r = some c ∨ s.cfg.unlockCode.get r = some c)

/-- R373, R413: the agent that moves is an enabled one, and none moves only when none is enabled. `settle` takes the
step of an enabled agent and stays to be done, and is done when none is enabled; with an empty schedule an enabled agent
moves, and else the machine stays as it is (log 1). With no new bytes these steps run out: after at most
four more of them than there are bytes to read, no agent is enabled (which agent moves is log 13). -/
def Obligations.AgentStepsRunOut : Prop :=
  (∀ s : State, (∀ a, nextAgent s = some a → agentEnabled s a = true) ∧
    (nextAgent s = none ↔ ∀ a, agentEnabled s a = false) ∧
    (∀ a, nextAgent s = some a →
      perform .settle s = .next { agentStep s a with schedule := .settle :: (agentStep s a).schedule } ∧
      (s.schedule = [] → step s = .next (agentStep s a))) ∧
    (nextAgent s = none → perform .settle s = .next s ∧ (s.schedule = [] → step s = .next s))) ∧
  ∀ s : State, LinkSafe s → TimeSafe s → s.cfg.wf = true →
    (s.schedule = [] → ∀ n, step (settleFor n s) = .next (settleFor (n + 1) s)) ∧
      ∃ n, n ≤ s.rxq.length + 4 ∧ nextAgent (settleFor n s) = none

/-- R15, R373: while an agent's step is enabled a `Tick` waits for it; else it advances time by its length, or up to
the next deadline, where the rest of it stays to be done. That it is split there is the model's
reading of maximal progress (log 3). -/
def Obligations.TickStopsAtDeadlines : Prop :=
  ∀ (s : State) (d : Nat), 0 < d →
    (∀ a, nextAgent s = some a →
      perform (.tick d) s = .next { agentStep s a with schedule := .tick d :: (agentStep s a).schedule }) ∧
    (nextAgent s = none → ∃ e t, 0 < e ∧ e ≤ d ∧ perform (.tick d) s = .next t ∧
      t = { s with now := s.now + e, schedule := if e < d then .tick (d - e) :: s.schedule else s.schedule } ∧
      (∀ x ∈ deadlines s, s.now < x → s.now + e ≤ x) ∧
      (e < d → s.now + e ∈ deadlines s))
end

