-- ==== Sys2Proof/Laws/Agents.lean ====
section
/-! SUPPORT. What the choice of the next agent and of the next deadline give (60_exceptions.md R370, R373). -/

namespace Sys2Proof.Machine

theorem agentEnabled_of_nextAgent {s : State} {a : Agent} (h : nextAgent s = some a) : agentEnabled s a = true :=
  List.find?_some h

theorem nextAgent_eq_none {s : State} : nextAgent s = none ↔ ∀ a, agentEnabled s a = false := by
  unfold nextAgent
  rw [List.find?_eq_none]
  constructor
  · intro h a
    have := h a (by cases a <;> simp)
    simpa using this
  · intro h a _
    simp [h a]

/-- A step given to an enabled agent. -/
theorem perform_agent {s : State} {a : Agent} (h : agentEnabled s a = true) :
    perform (.agent a) s = .next (agentStep s a) := by
  simp [perform, scheduledAgent, h]

theorem nextDeadline_eq_none {s : State} : nextDeadline s = none ↔ ∀ x ∈ deadlines s, ¬s.now < x := by
  unfold nextDeadline
  rw [List.min?_eq_none_iff, List.filter_eq_nil_iff]
  simp

theorem nextDeadline_eq_some {s : State} {t : Nat} (h : nextDeadline s = some t) :
    s.now < t ∧ t ∈ deadlines s ∧ ∀ x ∈ deadlines s, s.now < x → t ≤ x := by
  unfold nextDeadline at h
  rw [List.min?_eq_some_iff] at h
  simp at h
  exact ⟨h.1.2, h.1.1, h.2⟩

/-- Settling takes a step first (70_reset_and_hazards.md R413). -/
theorem settleFor_succ (n : Nat) (s : State) : settleFor (n + 1) s = settleFor n (idleStep s) := by
  unfold settleFor
  induction n with
  | zero => rfl
  | succ n ih => simp only [Nat.repeat] at *; rw [ih]

end Sys2Proof.Machine
end

