-- ==== Sys2Proof/Laws/Binary64.lean ====
section
/-! SUPPORT. What the rounding of the decoder's arithmetic can do: `roundRational` delivers the nearest binary64, ties to
even (46_decode.md R332; log 15). -/

namespace Sys2Proof.Machine

/-! ## Rounding to an integer -/

/-- The rounded quotient is the quotient with a remainder of at most one half, or the next number with a remainder of at
least one half; at one half it is the even one of the two. -/
theorem roundQuotient_cases (num den : Nat) (h : 0 < den) : ∃ q r, num = q * den + r ∧ r < den ∧
    ((roundQuotient num den = q ∧ 2 * r ≤ den ∧ (2 * r = den → q % 2 = 0)) ∨
      (roundQuotient num den = q + 1 ∧ den ≤ 2 * r ∧ (2 * r = den → q % 2 = 1))) := by
  refine ⟨num / den, num % den, (Nat.div_add_mod' num den).symm, Nat.mod_lt _ h, ?_⟩
  simp only [roundQuotient, Bool.or_eq_true, Bool.and_eq_true, decide_eq_true_eq, beq_iff_eq]
  split
  · exact .inr ⟨rfl, by omega, by omega⟩
  · exact .inl ⟨rfl, by omega, by omega⟩

/-- The rounded quotient is within one half of the exact one, and even where it is just one half away. -/
theorem roundQuotient_near (num den : Nat) (h : 0 < den) :
    |((roundQuotient num den : Nat) : ℚ) - num / den| ≤ 1 / 2 ∧
      (|((roundQuotient num den : Nat) : ℚ) - num / den| = 1 / 2 → roundQuotient num den % 2 = 0) := by
  obtain ⟨q, r, hn, hr, hc⟩ := roundQuotient_cases num den h
  have hd : (0 : ℚ) < den := by exact_mod_cast h
  have hx : (num : ℚ) / den = q + r / den := by
    rw [div_eq_iff hd.ne', add_mul, div_mul_cancel₀ _ hd.ne', hn]
    push_cast
    ring
  obtain ⟨hm, h2, he⟩ | ⟨hm, h2, he⟩ := hc
  · have h2' : (2 : ℚ) * r ≤ den := by exact_mod_cast h2
    have hf : (r : ℚ) / den ≤ 1 / 2 := by rw [div_le_div_iff₀ hd two_pos]; linarith
    have hp : (0 : ℚ) ≤ r / den := by positivity
    rw [hm, hx, show (q : ℚ) - (q + r / den) = -(r / den) by ring, abs_neg, abs_of_nonneg hp]
    refine ⟨hf, fun e => he ?_⟩
    rw [div_eq_div_iff hd.ne' two_ne_zero] at e
    have : (r : ℚ) * 2 = den := by linarith
    have : r * 2 = den := by exact_mod_cast this
    omega
  · have h2' : (den : ℚ) ≤ 2 * r := by exact_mod_cast h2
    have hf : (1 : ℚ) / 2 ≤ r / den := by rw [div_le_div_iff₀ two_pos hd]; linarith
    have hl : (r : ℚ) / den ≤ 1 := by rw [div_le_one hd]; exact_mod_cast hr.le
    rw [hm, hx, show ((q + 1 : Nat) : ℚ) - (q + r / den) = 1 - r / den by push_cast; ring,
      abs_of_nonneg (by linarith)]
    refine ⟨by linarith, fun e => ?_⟩
    have e' : (r : ℚ) / den = 1 / 2 := by linarith
    rw [div_eq_div_iff hd.ne' two_ne_zero] at e'
    have : (r : ℚ) * 2 = den := by linarith
    have : r * 2 = den := by exact_mod_cast this
    have := he (by omega)
    omega

/-- A number within one half of `t`, and even at just one half, is the nearest integer to `t`, ties to even. -/
theorem nearest_of_near {t : ℚ} {m : Nat} (h : |(m : ℚ) - t| ≤ 1 / 2) (he : |(m : ℚ) - t| = 1 / 2 → m % 2 = 0)
    (k : ℤ) : |(m : ℚ) - t| ≤ |(k : ℚ) - t| ∧ (|(m : ℚ) - t| = |(k : ℚ) - t| → k ≠ m → m % 2 = 0) := by
  by_cases hk : k = m
  · subst hk; exact ⟨by simp, fun _ h => absurd rfl h⟩
  · have h1 : (1 : ℚ) ≤ |(k : ℚ) - m| := by
      have : (1 : ℤ) ≤ |k - m| := Int.one_le_abs (sub_ne_zero.mpr hk)
      exact_mod_cast this
    have h2 : |(k : ℚ) - m| ≤ |(k : ℚ) - t| + |(m : ℚ) - t| := by
      rw [abs_sub_comm (m : ℚ) t]
      exact abs_sub_le _ _ _
    exact ⟨by linarith, fun e _ => he (by linarith)⟩

/-! ## The unit in the last place -/

/-- `num / den` in units of 2 to the power `e`, as the two natural numbers that `roundRational` divides. -/
theorem scaled_quotient (num den : Nat) (hd : 0 < den) (e : ℤ) :
    ((num * 2 ^ (-e).toNat : Nat) : ℚ) / ((den * 2 ^ e.toNat : Nat) : ℚ) = num / den * 2 ^ (-e) := by
  have hd' : (den : ℚ) ≠ 0 := by exact_mod_cast hd.ne'
  obtain ⟨n, rfl | rfl⟩ := e.eq_nat_or_neg
  · simp only [Int.toNat_neg_natCast, pow_zero, mul_one, Int.toNat_natCast, zpow_neg, zpow_natCast]
    push_cast
    field_simp
  · simp only [neg_neg, Int.toNat_natCast, Int.toNat_neg_natCast, pow_zero, mul_one, zpow_natCast]
    push_cast
    field_simp

/-- A power of two and the next one bound a positive number. -/
theorem log2_bounds (n : Nat) (h : n ≠ 0) : (2 : ℚ) ^ (n.log2 : ℤ) ≤ n ∧ (n : ℚ) < 2 ^ ((n.log2 : ℤ) + 1) := by
  have h1 := Nat.log2_self_le h
  have h2 := Nat.lt_log2_self (n := n)
  constructor
  · rw [zpow_natCast]; exact_mod_cast h1
  · rw [show ((n.log2 : ℤ) + 1) = ((n.log2 + 1 : Nat) : ℤ) by push_cast; rfl, zpow_natCast]
    exact_mod_cast h2

/-- In units of its last place a positive quotient is below 2^53, and at least 2^52 unless the least unit applies. -/
theorem ulpExponent_bounds (num den : Nat) (hn : num ≠ 0) (hd : 0 < den) :
    -1074 ≤ ulpExponent num den ∧ (num : ℚ) / den * 2 ^ (-ulpExponent num den) < 2 ^ 53 ∧
      (-1074 < ulpExponent num den → 2 ^ 52 ≤ (num : ℚ) / den * 2 ^ (-ulpExponent num den)) := by
  obtain ⟨hn1, hn2⟩ := log2_bounds num hn
  obtain ⟨hd1, hd2⟩ := log2_bounds den hd.ne'
  have hd0 : (0 : ℚ) < den := by exact_mod_cast hd
  have hx0 : (0 : ℚ) ≤ (num : ℚ) / den := by positivity
  unfold ulpExponent
  generalize hE : ((num.log2 : ℤ) - (den.log2 : ℤ) - 53) = E
  have key : ∀ a : ℤ, (num : ℚ) / den * 2 ^ a < 2 ^ ((num.log2 : ℤ) - den.log2 + 1 + a) ∧
      (2 : ℚ) ^ ((num.log2 : ℤ) - den.log2 - 1 + a) ≤ num / den * 2 ^ a := by
    intro a
    have h2 : (0 : ℚ) < 2 ^ a := by positivity
    rw [zpow_add₀ two_ne_zero _ a, zpow_add₀ two_ne_zero _ a, mul_lt_mul_iff_left₀ h2, mul_le_mul_iff_left₀ h2,
      div_lt_iff₀ hd0, le_div_iff₀ hd0]
    constructor
    · calc (num : ℚ) < 2 ^ ((num.log2 : ℤ) + 1) := hn2
        _ = 2 ^ ((num.log2 : ℤ) - den.log2 + 1) * 2 ^ (den.log2 : ℤ) := by
          rw [← zpow_add₀ two_ne_zero]; congr 1; ring
        _ ≤ _ := by gcongr
    · calc (2 : ℚ) ^ ((num.log2 : ℤ) - den.log2 - 1) * den
          ≤ 2 ^ ((num.log2 : ℤ) - den.log2 - 1) * 2 ^ ((den.log2 : ℤ) + 1) := by gcongr
        _ = 2 ^ (num.log2 : ℤ) := by rw [← zpow_add₀ two_ne_zero]; congr 1; ring
        _ ≤ _ := hn1
  have hfit : (num * 2 ^ (-E).toNat < 2 ^ 53 * (den * 2 ^ E.toNat)) ↔ (num : ℚ) / den * 2 ^ (-E) < 2 ^ 53 := by
    rw [← scaled_quotient num den hd, div_lt_iff₀ (by positivity)]
    exact_mod_cast Iff.rfl
  have hlow := (key (-E)).2
  rw [show (num.log2 : ℤ) - den.log2 - 1 + -E = (52 : Nat) by push_cast; omega, zpow_natCast] at hlow
  have hhigh := (key (-(E + 1))).1
  rw [show (num.log2 : ℤ) - den.log2 + 1 + -(E + 1) = (53 : Nat) by push_cast; omega, zpow_natCast] at hhigh
  have hhalf : (num : ℚ) / den * 2 ^ (-(E + 1)) = num / den * 2 ^ (-E) / 2 := by
    rw [neg_add, zpow_add₀ two_ne_zero, zpow_neg_one]; ring
  -- the exponent before the least one is applied
  obtain ⟨F, hF, hF1, hF2⟩ : ∃ F : ℤ,
      (if decide (num * 2 ^ (-E).toNat < 2 ^ 53 * (den * 2 ^ E.toNat)) = true then E else E + 1) = F ∧
        (num : ℚ) / den * 2 ^ (-F) < 2 ^ 53 ∧ (2 : ℚ) ^ 52 ≤ num / den * 2 ^ (-F) := by
    by_cases hc : num * 2 ^ (-E).toNat < 2 ^ 53 * (den * 2 ^ E.toNat)
    · exact ⟨E, if_pos (decide_eq_true hc), hfit.mp hc, hlow⟩
    · refine ⟨E + 1, if_neg (by simpa only [decide_eq_true_eq] using hc), hhigh, ?_⟩
      have := not_lt.mp (fun h => hc (hfit.mpr h))
      rw [hhalf]
      linarith
  simp only [hF]
  refine ⟨le_max_right _ _, ?_, ?_⟩
  · refine lt_of_le_of_lt ?_ hF1
    gcongr
    · norm_num
    · exact le_max_left _ _
  · intro h
    have : max F (-1074) = F := max_eq_left (by omega)
    rw [this]
    exact hF2

/-! ## Encodings and their numbers -/

/-- The sign of an encoding as a factor. -/
def signFactor (neg : Bool) : ℚ := if neg then -1 else 1

/-- The fields of an encoding made by `withSign`. -/
theorem withSign_fields (neg : Bool) (n : Nat) (h : n < 2 ^ 63) :
    (withSign neg n).msb = neg ∧ ((withSign neg n).extractLsb' 52 11).toNat = n / 2 ^ 52 ∧
      ((withSign neg n).extractLsb' 0 52).toNat = n % 2 ^ 52 ∧
      (withSign neg n).getLsbD 0 = decide (n % 2 = 1) := by
  have hn : (withSign neg n).toNat = neg.toNat * 2 ^ 63 + n := by
    simp only [withSign, BitVec.toNat_ofNat]
    cases neg <;> simp <;> omega
  refine ⟨?_, ?_, ?_, ?_⟩
  · rw [BitVec.msb_eq_decide, hn]
    cases neg <;> simp
    omega
  · rw [BitVec.extractLsb'_toNat, hn, Nat.shiftRight_eq_div_pow]
    cases neg <;> (simp; omega)
  · rw [BitVec.extractLsb'_toNat, hn, Nat.shiftRight_eq_div_pow]
    cases neg <;> simp
    omega
  · rw [BitVec.getLsbD, hn, Nat.testBit_zero]
    cases neg <;> simp
    omega

/-- The number of an encoding whose magnitude is `k * 2^52 + m`, with `m` normalised unless `k` is 0. -/
theorem value64_withSign (neg : Bool) (k m : Nat) (hm : m ≤ 2 ^ 53) (hk : k = 0 ∨ 2 ^ 52 ≤ m)
    (h : k * 2 ^ 52 + m < 2047 * 2 ^ 52) :
    isFinite64 (withSign neg (k * 2 ^ 52 + m)) ∧
      value64 (withSign neg (k * 2 ^ 52 + m)) = signFactor neg * (m * 2 ^ ((k : ℤ) - 1074)) := by
  obtain ⟨h1, h2, h3, -⟩ := withSign_fields neg (k * 2 ^ 52 + m) (by omega)
  refine ⟨by rw [isFinite64, h2]; omega, ?_⟩
  rw [value64, h1, h2, h3]
  change signFactor neg * _ = _
  congr 1
  have hz : ∀ (a b : ℚ) (i j : ℤ), a = b * 2 ^ (j - i) → a * 2 ^ i = b * 2 ^ j := by
    intro a b i j e
    rw [e, mul_assoc, ← zpow_add₀ two_ne_zero]
    congr 2
    ring
  have hcast : ∀ {x : Nat}, 2 ^ 52 ≤ x → ((2 : ℚ) ^ 52 + ((x - 2 ^ 52 : Nat) : ℚ)) = x := by
    intro x hx
    rw [Nat.cast_sub hx]
    push_cast
    ring
  rcases Nat.lt_or_ge m (2 ^ 52) with hlt | hge
  · -- a subnormal number or zero
    have hk0 : k = 0 := by omega
    subst hk0
    rw [if_pos (by omega), show (0 * 2 ^ 52 + m) % 2 ^ 52 = m by omega]
    simp
  · rcases Nat.lt_or_ge m (2 ^ 53) with hlt' | hge'
    · rw [if_neg (by omega), show (k * 2 ^ 52 + m) % 2 ^ 52 = m - 2 ^ 52 by omega, hcast hge,
        show (k * 2 ^ 52 + m) / 2 ^ 52 = k + 1 by omega]
      congr 2
      push_cast
      ring
    · -- the rounding carried into the next power of two
      have hm53 : m = 2 ^ 53 := by omega
      subst hm53
      rw [if_neg (by omega), show (k * 2 ^ 52 + 2 ^ 53) % 2 ^ 52 = 0 by omega,
        show (k * 2 ^ 52 + 2 ^ 53) / 2 ^ 52 = k + 2 by omega]
      apply hz
      rw [show (k : ℤ) - 1074 - (((k + 2 : Nat) : ℤ) - 1075) = ((-1 : ℤ)) by push_cast; ring, zpow_neg_one]
      norm_num

/-- A finite number is an integer below 2^53 in magnitude times a power of two not below 2^-1074. -/
theorem value64_integral (z : BitVec 64) :
    ∃ (a j : ℤ), value64 z = a * 2 ^ j ∧ |a| < 2 ^ 53 ∧ -1074 ≤ j := by
  have hf : (z.extractLsb' 0 52).toNat < 2 ^ 52 := (z.extractLsb' 0 52).isLt
  obtain ⟨σ, hσ, hs⟩ : ∃ σ : ℤ, (if z.msb then (-1 : ℚ) else 1) = (σ : ℤ) ∧ |σ| = 1 := by
    cases z.msb
    · exact ⟨1, by simp, by simp⟩
    · exact ⟨-1, by simp, by simp⟩
  rw [value64, hσ]
  generalize (z.extractLsb' 0 52).toNat = f at *
  generalize (z.extractLsb' 52 11).toNat = e
  by_cases he : e = 0
  · refine ⟨σ * f, -1074, ?_, ?_, le_rfl⟩
    · rw [if_pos he, Int.cast_mul, Int.cast_natCast, mul_assoc]
    · rw [abs_mul, hs, one_mul, abs_of_nonneg (by positivity)]; omega
  · refine ⟨σ * (2 ^ 52 + f), (e : ℤ) - 1075, ?_, ?_, by omega⟩
    · rw [if_neg he]; push_cast; ring
    · rw [abs_mul, hs, one_mul, abs_of_nonneg (by positivity)]; omega

/-! ## Rounding -/

/-- A number in units of 2 to the power `e`, rounded to an integer, is nearest to it among all finite numbers, ties to
even, where the unit is the last place of the number. -/
theorem nearest_finite {e : ℤ} {q : ℚ} {m : Nat} (hnear : |(m : ℚ) - q * 2 ^ (-e)| ≤ 1 / 2)
    (heven : |(m : ℚ) - q * 2 ^ (-e)| = 1 / 2 → m % 2 = 0) (hlow : -1074 < e → 2 ^ 52 ≤ q * 2 ^ (-e))
    (a j : ℤ) (ha : |a| < 2 ^ 53) (hj : -1074 ≤ j) :
    |m * 2 ^ e - q| ≤ |a * 2 ^ j - q| ∧
      (|m * 2 ^ e - q| = |a * 2 ^ j - q| → (a : ℚ) * 2 ^ j ≠ m * 2 ^ e → m % 2 = 0) := by
  have hu : (0 : ℚ) < 2 ^ e := by positivity
  have hunit : ∀ x : ℚ, |x * 2 ^ e - q| = |x - q * 2 ^ (-e)| * 2 ^ e := by
    intro x
    rw [← abs_of_pos hu, ← abs_mul, abs_of_pos hu, sub_mul, mul_assoc, ← zpow_add₀ two_ne_zero]
    simp
  rcases le_or_gt e j with hej | hje
  · -- a multiple of the unit
    obtain ⟨n, hn⟩ := Int.eq_ofNat_of_zero_le (sub_nonneg.mpr hej)
    have hmul : (a : ℚ) * 2 ^ j = ((a * 2 ^ n : ℤ) : ℚ) * 2 ^ e := by
      push_cast
      rw [mul_assoc, ← zpow_natCast (2 : ℚ) n, ← zpow_add₀ two_ne_zero]
      congr 2
      omega
    obtain ⟨h1, h2⟩ := nearest_of_near hnear heven (a * 2 ^ n)
    rw [hmul, hunit, hunit]
    refine ⟨mul_le_mul_of_nonneg_right h1 hu.le, fun he hne => h2 (mul_right_cancel₀ hu.ne' he) fun hk => hne ?_⟩
    rw [hk]
    simp
  · -- a finer number lies below the least multiple of the unit with 53 bits
    have hq := hlow (by omega)
    have hz : (a : ℚ) * 2 ^ j < 2 ^ 52 * 2 ^ e := by
      have ha' : (a : ℚ) < 2 ^ 53 := by
        have : a < 2 ^ 53 := lt_of_le_of_lt (le_abs_self a) ha
        exact_mod_cast this
      calc (a : ℚ) * 2 ^ j < 2 ^ 53 * 2 ^ j := by gcongr
        _ ≤ 2 ^ 53 * 2 ^ (e - 1) := by
          gcongr
          · norm_num
          · omega
        _ = 2 ^ 52 * 2 ^ e := by rw [zpow_sub_one₀ two_ne_zero]; ring
    have hqe : 2 ^ 52 * 2 ^ e ≤ q := by
      have := mul_le_mul_of_nonneg_right hq hu.le
      rwa [mul_assoc q, ← zpow_add₀ two_ne_zero, neg_add_cancel, zpow_zero, mul_one] at this
    have h1 := (nearest_of_near hnear heven (2 ^ 52)).1
    have h2 : |(m : ℚ) * 2 ^ e - q| ≤ |(2 : ℚ) ^ 52 * 2 ^ e - q| := by
      rw [hunit, hunit]
      push_cast at h1
      exact mul_le_mul_of_nonneg_right h1 hu.le
    have h3 : |(2 : ℚ) ^ 52 * 2 ^ e - q| < |(a : ℚ) * 2 ^ j - q| := by
      rw [abs_of_nonpos (by linarith), abs_of_neg (by linarith)]
      linarith
    exact ⟨by linarith, fun he => by linarith⟩

/-- The bound of overflow, in units of the last place of the largest finite number less one. -/
theorem overflow_bound : (2 : ℚ) ^ 1024 - 2 ^ 970 = (2 ^ 53 - 1 / 2) * 2 ^ (971 : ℤ) := by
  rw [show (1024 : Nat) = 53 + 971 from rfl, show (970 : Nat) = 971 - 1 from rfl, pow_add,
    ← zpow_natCast (2 : ℚ) (971 - 1), ← zpow_natCast (2 : ℚ) 971,
    show (((971 - 1 : Nat) : ℤ)) = (971 : ℤ) - 1 from rfl, zpow_sub_one₀ two_ne_zero,
    show ((971 : Nat) : ℤ) = 971 from rfl]
  generalize (2 : ℚ) ^ (971 : ℤ) = u
  ring

/-- What `roundRational` does: below the overflow bound a finite number, nearest among all numbers with 53 bits and no
finer unit than 2^-1074, of two equally near the one with an even fraction; else an infinity. -/
theorem roundRational_nearest (neg : Bool) (num den : Nat) (hd : 0 < den) :
    if (num : ℚ) / den < 2 ^ 1024 - 2 ^ 970 then
      (roundRational neg num den).msb = neg ∧ isFinite64 (roundRational neg num den) ∧
        ∀ a j : ℤ, |a| < 2 ^ 53 → -1074 ≤ j →
          |value64 (roundRational neg num den) - signFactor neg * (num / den)| ≤
              |a * 2 ^ j - signFactor neg * (num / den)| ∧
            (|value64 (roundRational neg num den) - signFactor neg * (num / den)| =
                |a * 2 ^ j - signFactor neg * (num / den)| →
              (a : ℚ) * 2 ^ j ≠ value64 (roundRational neg num den) →
                (roundRational neg num den).getLsbD 0 = false)
    else isInf64 neg (roundRational neg num den) := by
  have hσ : |signFactor neg| = 1 := by cases neg <;> simp [signFactor]
  have hd0 : (0 : ℚ) < den := by exact_mod_cast hd
  by_cases hn : num = 0
  · -- zero
    obtain ⟨hfin, hval⟩ := value64_withSign neg 0 0 (by norm_num) (.inl rfl) (by norm_num)
    obtain ⟨hmsb, -⟩ := withSign_fields neg 0 (by norm_num)
    subst hn
    have hv : value64 (withSign neg 0) = 0 := by simpa using hval
    simp only [roundRational, if_true, Nat.cast_zero, zero_div, mul_zero, hv, sub_zero, abs_zero]
    rw [if_pos (by rw [overflow_bound]; positivity)]
    exact ⟨hmsb, hfin, fun a j _ _ => ⟨abs_nonneg _, fun he hne => absurd (abs_eq_zero.mp he.symm) hne⟩⟩
  obtain ⟨he1, he2, he3⟩ := ulpExponent_bounds num den hn hd
  obtain ⟨hnear, heven⟩ := roundQuotient_near (num * 2 ^ (-ulpExponent num den).toNat)
    (den * 2 ^ (ulpExponent num den).toNat) (by positivity)
  rw [scaled_quotient num den hd] at hnear heven
  rw [roundRational, if_neg hn]
  dsimp only
  generalize roundQuotient _ _ = m at *
  generalize ulpExponent num den = e at *
  generalize hq : (num : ℚ) / den = q at *
  obtain ⟨k, rfl⟩ : ∃ k : Nat, e = k - 1074 := ⟨(e + 1074).toNat, by omega⟩
  rw [show ((k : ℤ) - 1074 + 1074).toNat = k by omega]
  have hu : (0 : ℚ) < 2 ^ ((k : ℤ) - 1074) := by positivity
  have hback : q * 2 ^ (-((k : ℤ) - 1074)) * 2 ^ ((k : ℤ) - 1074) = q := by
    rw [mul_assoc, ← zpow_add₀ two_ne_zero, neg_add_cancel, zpow_zero, mul_one]
  generalize ht : q * 2 ^ (-((k : ℤ) - 1074)) = t at *
  have hnear' := abs_le.mp hnear
  have hm : m ≤ 2 ^ 53 := by
    have : (m : ℚ) < 2 ^ 53 + 1 := by linarith
    have : m < 2 ^ 53 + 1 := by exact_mod_cast this
    omega
  have hk : k = 0 ∨ 2 ^ 52 ≤ m := by
    rcases Nat.eq_zero_or_pos k with h | h
    · exact .inl h
    · have := he3 (by omega)
      have : (2 ^ 52 : ℚ) < m + 1 := by linarith
      have : 2 ^ 52 < m + 1 := by exact_mod_cast this
      exact .inr (by omega)
  -- whether the rounded number overflows
  have hover : k * 2 ^ 52 + m < 2047 * 2 ^ 52 ↔ q < 2 ^ 1024 - 2 ^ 970 := by
    rw [overflow_bound, ← hback]
    rcases Nat.lt_trichotomy k 2045 with h | rfl | h
    · refine ⟨fun _ => ?_, fun _ => by omega⟩
      have hstep : (2 : ℚ) ^ ((k : ℤ) - 1074) ≤ 2 ^ (971 - 1 : ℤ) := zpow_le_zpow_right₀ (by norm_num) (by omega)
      rw [zpow_sub_one₀ two_ne_zero] at hstep
      have hU : (0 : ℚ) < 2 ^ (971 : ℤ) := by positivity
      calc t * 2 ^ ((k : ℤ) - 1074) < 2 ^ 53 * 2 ^ ((k : ℤ) - 1074) := mul_lt_mul_of_pos_right he2 hu
        _ ≤ 2 ^ 53 * (2 ^ (971 : ℤ) * 2⁻¹) := mul_le_mul_of_nonneg_left hstep (by norm_num)
        _ ≤ (2 ^ 53 - 1 / 2) * 2 ^ (971 : ℤ) := by
          generalize (2 : ℚ) ^ (971 : ℤ) = U at hU ⊢
          linarith
    · rw [show (((2045 : Nat) : ℤ) - 1074) = 971 from rfl,
        mul_lt_mul_iff_left₀ (show (0 : ℚ) < 2 ^ (971 : ℤ) by positivity)]
      constructor
      · intro hlt
        have hm1 : (m : ℚ) + 1 ≤ 2 ^ 53 := by exact_mod_cast (by omega : m + 1 ≤ 2 ^ 53)
        refine lt_of_le_of_ne (by linarith) fun h => ?_
        have hm2 : (m : ℚ) + 1 = 2 ^ 53 := by linarith
        have hm3 : m + 1 = 2 ^ 53 := by exact_mod_cast hm2
        have := heven (by rw [h, show (m : ℚ) - (2 ^ 53 - 1 / 2) = -(1 / 2) by linarith]; norm_num)
        omega
      · intro h
        by_contra hge
        have hm3 : (m : ℚ) = 2 ^ 53 := by exact_mod_cast (by omega : m = 2 ^ 53)
        linarith
    · refine ⟨fun h' => by omega, fun h' => absurd h' (not_lt.mpr ?_)⟩
      have hstep : (2 : ℚ) ^ (971 + 1 : ℤ) ≤ 2 ^ ((k : ℤ) - 1074) := zpow_le_zpow_right₀ (by norm_num) (by omega)
      rw [zpow_add_one₀ two_ne_zero] at hstep
      have hU : (0 : ℚ) < 2 ^ (971 : ℤ) := by positivity
      calc (2 ^ 53 - 1 / 2) * 2 ^ (971 : ℤ) ≤ 2 ^ 52 * (2 ^ (971 : ℤ) * 2) := by
            generalize (2 : ℚ) ^ (971 : ℤ) = U at hU ⊢
            linarith
        _ ≤ 2 ^ 52 * 2 ^ ((k : ℤ) - 1074) := mul_le_mul_of_nonneg_left hstep (by norm_num)
        _ ≤ t * 2 ^ ((k : ℤ) - 1074) := mul_le_mul_of_nonneg_right (he3 (by omega)) hu.le
  by_cases hlt : k * 2 ^ 52 + m < 2047 * 2 ^ 52
  · -- a finite result
    rw [if_pos (hover.mp hlt), show min (k * 2 ^ 52 + m) infBits = k * 2 ^ 52 + m from min_eq_left hlt.le]
    obtain ⟨hfin, hval⟩ := value64_withSign neg k m hm hk hlt
    obtain ⟨hmsb, -, -, hbit⟩ := withSign_fields neg (k * 2 ^ 52 + m) (by omega)
    refine ⟨hmsb, hfin, fun a j ha hj => ?_⟩
    obtain ⟨b, hb, hba⟩ : ∃ b : ℤ, (a : ℚ) * 2 ^ j = signFactor neg * (b * 2 ^ j) ∧ |b| < 2 ^ 53 := by
      cases neg
      · exact ⟨a, by simp [signFactor], ha⟩
      · exact ⟨-a, by simp [signFactor], by rwa [abs_neg]⟩
    have hdist : ∀ x : ℚ, |signFactor neg * x - signFactor neg * q| = |x - q| := by
      intro x; rw [← mul_sub, abs_mul, hσ, one_mul]
    rw [hval, hb, hdist, hdist]
    obtain ⟨h1, h2⟩ := nearest_finite (q := q) (ht ▸ hnear) (ht ▸ heven) (ht ▸ he3) b j hba hj
    refine ⟨h1, fun he hne => ?_⟩
    have := h2 he fun h => hne (by rw [h])
    rw [hbit]
    simp only [decide_eq_false_iff_not]
    omega
  · -- overflow
    rw [if_neg fun h => hlt (hover.mpr h), show min (k * 2 ^ 52 + m) infBits = infBits from min_eq_right (not_lt.mp hlt)]
    obtain ⟨h1, h2, h3, -⟩ := withSign_fields neg infBits (by norm_num [infBits])
    exact ⟨h1, by rw [h2]; norm_num [infBits], by rw [h3]; norm_num [infBits]⟩

/-- `roundRational` is `round64` (46_decode.md R332). -/
theorem roundRational_rounds64 (neg : Bool) (num den : Nat) (hd : 0 < den) :
    rounds64 (signFactor neg * (num / den)) neg (roundRational neg num den) := by
  have h := roundRational_nearest neg num den hd
  have habs : |signFactor neg * ((num : ℚ) / den)| = num / den := by
    rw [abs_mul, abs_of_nonneg (show (0 : ℚ) ≤ num / den by positivity)]
    cases neg <;> simp [signFactor]
  rw [rounds64, habs]
  split at h
  · rename_i hq
    rw [if_pos hq]
    refine ⟨h.1, h.2.1, fun z _ => ?_⟩
    obtain ⟨a, j, hz, ha, hj⟩ := value64_integral z
    rw [hz]
    exact h.2.2 a j ha hj
  · rename_i hq
    rwa [if_neg hq]

/-- A number of at most 53 bits, with no finer unit than 2^-1074 and below the overflow bound, is delivered exactly. -/
theorem roundRational_exact (neg : Bool) {num den : Nat} (hd : 0 < den) (a : Nat) (j : ℤ)
    (h : (num : ℚ) / den = a * 2 ^ j) (ha : a < 2 ^ 53) (hj : -1074 ≤ j)
    (hq : (num : ℚ) / den < 2 ^ 1024 - 2 ^ 970) :
    (roundRational neg num den).msb = neg ∧ isFinite64 (roundRational neg num den) ∧
      value64 (roundRational neg num den) = signFactor neg * (a * 2 ^ j) := by
  have hr := roundRational_nearest neg num den hd
  rw [if_pos hq] at hr
  refine ⟨hr.1, hr.2.1, ?_⟩
  obtain ⟨b, hb, hba⟩ : ∃ b : ℤ, (b : ℚ) * 2 ^ j = signFactor neg * (a * 2 ^ j) ∧ |b| < 2 ^ 53 := by
    cases neg
    · exact ⟨a, by simp [signFactor], by rw [abs_of_nonneg (by positivity)]; omega⟩
    · exact ⟨-a, by simp [signFactor], by rw [abs_neg, abs_of_nonneg (by positivity)]; omega⟩
  have h1 := (hr.2.2 b j hba hj).1
  rw [hb, ← h, sub_self, abs_zero] at h1
  rw [← h]
  exact sub_eq_zero.mp (abs_nonpos_iff.mp h1)

/-- `roundScaled` is `round64` of its quotient times its power of two. -/
theorem roundScaled_rounds64 (neg : Bool) (num den : Nat) (e : ℤ) (hd : 0 < den) :
    rounds64 (signFactor neg * (num / den * 2 ^ e)) neg (roundScaled neg num den e) := by
  have h := scaled_quotient num den hd (-e)
  rw [neg_neg] at h
  rw [← h]
  exact roundRational_rounds64 neg _ _ (by positivity)

/-! ## Classes of encodings -/

/-- The class of an encoding says what the encoding is. -/
theorem classify64_cases (x : BitVec 64) :
    classify64 x = .nan ∧ isNan64 x ∨ classify64 x = .inf x.msb ∧ isInf64 x.msb x ∨
      ∃ m e, classify64 x = .finite x.msb m e ∧ isFinite64 x ∧ value64 x = signFactor x.msb * (m * 2 ^ e) := by
  unfold classify64 classifyFields
  split
  · rename_i h
    split
    · rename_i h2; exact .inr (.inl ⟨rfl, rfl, h, h2⟩)
    · rename_i h2; exact .inl ⟨rfl, h, h2⟩
  · rename_i h
    split
    · rename_i h2
      refine .inr (.inr ⟨_, _, rfl, h, ?_⟩)
      rw [value64, if_pos h2]
      rfl
    · rename_i h2
      refine .inr (.inr ⟨_, _, rfl, h, ?_⟩)
      rw [value64, if_neg h2]
      push_cast
      simp only [signFactor]
      congr 3
      ring

/-- The encodings of the infinities. -/
theorem isInf64_withSign (neg : Bool) : isInf64 neg (withSign neg infBits) := by
  obtain ⟨h1, h2, h3, -⟩ := withSign_fields neg infBits (by norm_num [infBits])
  exact ⟨h1, by rw [h2]; norm_num [infBits], by rw [h3]; norm_num [infBits]⟩

/-- Whatever the free bits are, `nanWith` is a NaN (log 12). -/
theorem isNan64_nanWith (free : BitVec 53) : isNan64 (nanWith free) := by
  have h : free.toNat % 2 ^ 52 < 2 ^ 52 := Nat.mod_lt _ (by norm_num)
  have hb : infBits = 2047 * 2 ^ 52 := rfl
  unfold nanWith
  obtain ⟨-, h2, h3, -⟩ := withSign_fields free.msb
    (infBits + if free.toNat % 2 ^ 52 = 0 then 1 else free.toNat % 2 ^ 52) (by split <;> omega)
  refine ⟨?_, ?_⟩
  · rw [h2]; split <;> omega
  · rw [h3]; split <;> omega

end Sys2Proof.Machine
end

