-- ==== Sys2Proof/Laws/Config.lean ====
section
/-! SUPPORT. The parameters of the machine at hand meet the conditions of the spec (00_scope.md R12; log 5, log 17, log 22). -/

namespace Sys2Proof

/-- What a filter keeps satisfies it. -/
theorem Option.all_filter_self {α : Type} (o : Option α) (p : α → Bool) : (o.filter p).all p = true := by
  cases o with
  | none => rfl
  | some x => by_cases h : p x = true <;> simp [Option.filter, h]

/-- The unknown parameters are legal ones. -/
theorem Config.machine_wf : Config.machine.wf = true := by
  simp only [Config.wf, Config.machine, Config.perRegion, Option.all_filter_self, Bool.and_true, Bool.and_eq_true]
  refine ⟨⟨⟨?_, ?_⟩, ?_⟩, ?_⟩ <;> exact decide_eq_true (by omega)

/-- A step reads at least one byte (R12, `N_READ`). -/
theorem Config.nRead_pos {c : Config} (h : c.wf = true) : 1 ≤ c.nRead := by
  simp only [Config.wf, Bool.and_eq_true, decide_eq_true_eq] at h
  exact h.1.1.1.1.1.1.1.1.1.1.1.1.1

/-- A byte buffer has at least 1024 bytes (20_memory.md R80). -/
theorem Config.hbufSize_ge {c : Config} (h : c.wf = true) : 1024 ≤ c.hbufSize := by
  simp only [Config.wf, Bool.and_eq_true, decide_eq_true_eq] at h
  have := h.1.1.1.1.1.1.1.1.1.1.2
  omega

/-- A legal layout fits the payload of its format. -/
theorem layoutLegal_fits {t : Tag} {l : List FieldEntry} (h : layoutLegal t l = true) :
    ∃ o, layoutFits (match t with | .s2 => 38 | .a1 => 32 | .a2 => 30 | _ => 36) o l = true := by
  cases t <;> simp only [layoutLegal, layoutFitsS2, Bool.and_eq_true, Bool.false_eq_true] at h
  · exact ⟨.le, h.1.1.1⟩
  · exact ⟨.be, h.1⟩
  · exact ⟨.be, h.1⟩
  · exact ⟨.le, h.1⟩
  · exact ⟨.le, h.1⟩

/-- An entry of a legal layout whose quantity has a scale of the spec has that scale. -/
theorem scale_of_scalesFit {t : Tag} {l : List FieldEntry} {e : FieldEntry} {sc : Scale} (h : scalesFit t l = true)
    (he : e ∈ l) (hq : Machine.formatScale t e.quantity = some sc) : e.scale = sc := by
  have := List.all_eq_true.mp h e he
  simpa [hq] using this

end Sys2Proof
end

