-- ==== Sys2Proof/Laws/Sequences.lean ====
section
/-! SUPPORT. What a slice and a search hold (00_scope.md R14). -/

namespace Sys2Proof.Machine

theorem getElem?_slice (s : Bytes) (i j k : Nat) : (slice s i j)[k]? = if k < j - i then s[i + k]? else none := by
  unfold slice
  rw [List.getElem?_take]
  simp

theorem length_slice_le (s : Bytes) (i j : Nat) : (slice s i j).length ≤ j - i := by simp [slice]

theorem slice_eq_drop_take (s : Bytes) (i j : Nat) : slice s i j = (s.take j).drop i := by
  unfold slice
  rw [List.drop_take]

/-- A slice inside a slice. -/
theorem slice_slice (s : Bytes) {a b d : Nat} (c : Nat) (h : a + d ≤ b) :
    slice (slice s a b) c d = slice s (a + c) (a + d) := by
  apply List.ext_getElem?
  intro k
  simp only [getElem?_slice]
  by_cases h1 : k < d - c
  · rw [if_pos h1, if_pos (by omega), if_pos (by omega), Nat.add_assoc]
  · rw [if_neg h1, if_neg (by omega)]

/-- `firstSuffix` gives the least position whose rest satisfies the predicate. -/
theorem firstSuffix_eq_some {p : Bytes → Bool} {s : Bytes} {k : Nat} :
    firstSuffix p s = some k ↔ k ≤ s.length ∧ p (s.drop k) = true ∧ ∀ j, j < k → p (s.drop j) = false := by
  induction s generalizing k with
  | nil =>
    simp only [firstSuffix]
    constructor
    · intro h
      split at h
      · cases h
        simpa
      · cases h
    · rintro ⟨h1, h2, h3⟩
      have : k = 0 := by simpa using h1
      subst this
      simp at h2
      simp [h2]
  | cons b s ih =>
    simp only [firstSuffix]
    by_cases hb : p (b :: s) = true
    · rw [if_pos hb]
      constructor
      · intro h
        cases h
        simp [hb]
      · rintro ⟨h1, h2, h3⟩
        rcases k with _ | k
        · rfl
        · have := h3 0 (by omega)
          simp [hb] at this
    · rw [if_neg hb, Option.map_eq_some_iff]
      constructor
      · rintro ⟨j, h1, rfl⟩
        obtain ⟨a1, a2, a3⟩ := ih.1 h1
        refine ⟨by simpa using a1, by simpa using a2, fun i hi => ?_⟩
        rcases i with _ | i
        · simpa using hb
        · simpa using a3 i (by omega)
      · rintro ⟨h1, h2, h3⟩
        rcases k with _ | k
        · exact absurd h2 hb
        · refine ⟨k, ih.2 ⟨by simpa using h1, by simpa using h2, fun j hj => ?_⟩, rfl⟩
          simpa using h3 (j + 1) (by omega)

/-- A pattern that is found stands inside the sequence. -/
theorem find_inside {pat s : Bytes} {k : Nat} (hp : pat ≠ []) (h : find pat s = some k) :
    k + pat.length ≤ s.length := by
  obtain ⟨h1, h2, -⟩ := firstSuffix_eq_some.1 h
  rw [List.isPrefixOf_iff_prefix] at h2
  have := h2.length_le
  simp at this
  have := List.length_pos_of_ne_nil hp
  omega

end Sys2Proof.Machine
end

