-- ==== Sys2Proof/Laws/Correlator.lean ====
section
/-! SUPPORT. What a correlation, a step of the correlator and a delivery do (44_correlator.md R241 to R246). -/

namespace Sys2Proof.Machine

/-- A match: the least header, a declared length after it, and that many bytes (44_correlator.md R242). -/
theorem correlate_eq_some {gm : GpidMatch} {m : MatchMode} {req b : Bytes} {p ld : Nat} :
    correlate gm m req b = some (p, ld) ↔ firstSuffix (headerAt gm m req) b = some p ∧
      (∃ x : Byte, b[p + 4]? = some x ∧ x.toNat = ld) ∧ p + ld + 7 ≤ b.length := by
  unfold correlate
  cases h : firstSuffix (headerAt gm m req) b with
  | none => simp
  | some q =>
    simp only
    cases hx : b[q + 4]? with
    | none =>
      simp only [Option.some.injEq]
      constructor
      · intro e
        cases e
      · rintro ⟨rfl, ⟨x, h1, -⟩, -⟩
        rw [hx] at h1
        cases h1
    | some x =>
      simp only
      split
      · constructor
        · intro e
          cases e
          exact ⟨rfl, ⟨x, hx, rfl⟩, by assumption⟩
        · rintro ⟨e, ⟨y, h1, h2⟩, h3⟩
          cases e
          rw [hx] at h1
          cases h1
          rw [h2]
      · constructor
        · intro e
          cases e
        · rintro ⟨e, ⟨y, h1, h2⟩, h3⟩
          cases e
          rw [hx] at h1
          cases h1
          omega

/-- What the correlator finds: a whole response, its declared length in its byte 4. -/
theorem State.response_of_found {s : State} {p ld : Nat} (h : s.found = some (p, ld)) :
    (s.response p ld).length = ld + 7 ∧ declaredLength (s.response p ld) = ld ∧ ld ≤ 255 ∧
      responsePayload (s.response p ld) = slice (s.response p ld) 5 (5 + ld) := by
  unfold State.found at h
  rw [correlate_eq_some] at h
  obtain ⟨h1, ⟨x, h2, h3⟩, h4⟩ := h
  have hd : declaredLength (s.response p ld) = ld := by
    unfold declaredLength State.response
    rw [List.getD_eq_getElem?_getD, getElem?_slice, if_pos (by omega), h2]
    simpa using h3
  refine ⟨?_, hd, ?_, ?_⟩
  · unfold State.response
    simp only [slice, List.length_take, List.length_drop]
    omega
  · have := x.isLt
    omega
  · unfold responsePayload
    rw [hd]

/-- Where a reading by `n` stops: a whole number of rounds on, at a complete response or with nothing left, and at no
earlier round (44_correlator.md R241, R262). -/
theorem readUntil_spec {f : Nat → Bool} {n len : Nat} (hn : 1 ≤ n) (fuel k : Nat) (h : len ≤ fuel + k) :
    ∃ j, readUntil f n len fuel k = k + n * j ∧
      (f (readUntil f n len fuel k) = true ∨ len ≤ readUntil f n len fuel k) ∧
      ∀ i, i < j → k + n * i < len ∧ f (k + n * i) = false := by
  induction fuel generalizing k with
  | zero => exact ⟨0, rfl, .inr (by simpa [readUntil] using h), by simp⟩
  | succ fuel ih =>
    unfold readUntil
    by_cases hk : (f k || decide (len ≤ k)) = true
    · rw [if_pos hk]
      exact ⟨0, rfl, by simpa using hk, by simp⟩
    · rw [if_neg hk]
      obtain ⟨j, h1, h2, h3⟩ := ih (k + n) (by omega)
      simp only [Bool.or_eq_true, decide_eq_true_eq, not_or, Bool.not_eq_true] at hk
      refine ⟨j + 1, by rw [h1, Nat.mul_succ]; omega, h2, fun i hi => ?_⟩
      cases i with
      | zero => simpa using ⟨Nat.lt_of_not_le hk.2, hk.1⟩
      | succ i => simpa only [Nat.mul_succ, Nat.add_assoc, Nat.add_comm n] using h3 i (by omega)

/-- Before the deadline a `CORR` step reads once (44_correlator.md R241). -/
theorem corrRead_of_lt {s : State} (h : s.now < s.corr.deadline) : corrRead s = s.cfg.nRead := if_pos h

/-- At the deadline a `CORR` step reads by `N_READ` until the response is complete or nothing waits (44_correlator.md
R241, R262; log 20). -/
theorem corrRead_of_le {s : State} (hn : 1 ≤ s.cfg.nRead) (h : s.corr.deadline ≤ s.now) :
    ∃ j, corrRead s = s.cfg.nRead * (j + 1) ∧ (s.found.isSome = true ∨ s.rxq.length ≤ corrRead s) ∧
      ∀ i, i < j → s.cfg.nRead * (i + 1) < s.rxq.length ∧
        correlate s.cfg.gpidMatch s.corr.mode s.corr.req (s.corr.buf ++ s.rxq.take (s.cfg.nRead * (i + 1))) = none := by
  obtain ⟨j, h1, h2, h3⟩ := readUntil_spec
    (f := fun k => (correlate s.cfg.gpidMatch s.corr.mode s.corr.req (s.corr.buf ++ s.rxq.take k)).isSome)
    hn s.rxq.length s.cfg.nRead (Nat.le_add_right s.rxq.length _)
  have e : corrRead s = _ := if_neg (Nat.not_lt.2 h)
  refine ⟨j, by rw [e, h1, Nat.mul_succ, Nat.add_comm], ?_, fun i hi => ?_⟩
  · unfold State.found
    rw [e]
    exact h2
  · have := h3 i hi
    rw [Nat.mul_succ, Nat.add_comm]
    simpa using this

/-- A `CORR` step reads at least `N_READ` bytes, if so many wait (44_correlator.md R241). -/
theorem nRead_le_corrRead {s : State} (hn : 1 ≤ s.cfg.nRead) : s.cfg.nRead ≤ corrRead s := by
  by_cases h : s.now < s.corr.deadline
  · exact Nat.le_of_eq (corrRead_of_lt h).symm
  · obtain ⟨j, h1, -⟩ := corrRead_of_le hn (Nat.le_of_not_lt h)
    rw [h1]
    exact Nat.le_mul_of_pos_right _ (by omega)

/-- The state a `CORR` step has once it has read its bytes (44_correlator.md R241). -/
def State.afterRead (s : State) : State :=
  { s with
    rxq := s.rxq.drop (corrRead s)
    corr := { s.corr with buf := s.corr.buf ++ s.rxq.take (corrRead s) } }

/-- The state in which an exchange has ended and its client is cleared (44_correlator.md R246). -/
def State.corrEnded (s : State) : State := { s with corr := { s.corr with phase := .idle, client := .none } }

/-- Every way a `CORR` step can go (44_correlator.md R241). -/
theorem corrStep_eq (s : State) : corrStep s =
    match s.found with
    | some (p, ld) => deliver (some (s.response p ld)) s.afterRead
    | none => if s.corr.deadline ≤ s.now then deliver none s.afterRead else s.afterRead := rfl

theorem deliver_hostOp {s : State} {op : ExchangeOp} {r : Option Bytes} (h : s.corr.client = .hostOp op) :
    deliver r s = completeHostOp op r s.corrEnded := by
  unfold deliver State.corrEnded
  rw [h]

theorem deliver_upg {s : State} {r : Option Bytes} (h : s.corr.client = .upg) :
    deliver r s = deliverUpgrade r s.corrEnded := by
  unfold deliver State.corrEnded
  rw [h]

/-- A host exchange that ends frees the link. -/
theorem releaseLink_corrEnded (s : State) : s.afterRead.corrEnded.releaseLink = s.exchanged := rfl

end Sys2Proof.Machine
end

