-- ==== Sys2Proof/Laws/Decode.lean ====
section
/-! SUPPORT. The fields of a command word put together from bytes (30_encoding.md R100). -/

namespace Sys2Proof

/-- The four fields of a word made of four bytes. -/
theorem fields_append (rsv b a opc : Byte) :
    fieldRsv (rsv ++ b ++ a ++ opc) = rsv ∧ fieldB (rsv ++ b ++ a ++ opc) = b ∧
      fieldA (rsv ++ b ++ a ++ opc) = a ∧ fieldOpc (rsv ++ b ++ a ++ opc) = opc := by
  simp only [fieldRsv, fieldOpc, fieldA, fieldB]
  refine ⟨?_, ?_, ?_, ?_⟩ <;> apply BitVec.eq_of_getLsbD_eq <;> intro i hi <;>
    simp only [BitVec.getLsbD_extractLsb', BitVec.getLsbD_append, hi, decide_true, Bool.true_and]
  · have h1 : ¬ 24 + i < 8 := by omega
    have h2 : ¬ 24 + i - 8 < 8 := by omega
    have h3 : ¬ 24 + i - 8 - 8 < 8 := by omega
    simp only [h1, h2, h3, if_false]
    congr 1
    omega
  · have h1 : ¬ 16 + i < 8 := by omega
    have h2 : ¬ 16 + i - 8 < 8 := by omega
    have h3 : 16 + i - 8 - 8 < 8 := by omega
    simp only [h1, h2, h3, if_true, if_false]
    congr 1
    omega
  · have h1 : ¬ 8 + i < 8 := by omega
    have h2 : 8 + i - 8 < 8 := by omega
    simp only [h1, h2, if_true, if_false]
    congr 1
    omega
  · simp [hi]

/-- A word is made of its four fields. -/
theorem fields_join (w : Word) : fieldRsv w ++ fieldB w ++ fieldA w ++ fieldOpc w = w := by
  apply BitVec.eq_of_getLsbD_eq
  intro i hi
  simp only [fieldRsv, fieldOpc, fieldA, fieldB, BitVec.getLsbD_extractLsb', BitVec.getLsbD_append]
  by_cases h1 : i < 8
  · simp [h1]
  · by_cases h2 : i - 8 < 8
    · simp only [h1, h2, if_true, if_false, decide_true, Bool.true_and]
      congr 1
      omega
    · by_cases h3 : i - 8 - 8 < 8
      · simp only [h1, h2, h3, if_true, if_false, decide_true, Bool.true_and]
        congr 1
        omega
      · have h4 : i - 8 - 8 - 8 < 8 := by omega
        simp only [h1, h2, h3, h4, if_false, decide_true, Bool.true_and]
        congr 1
        omega

/-- The fields of an encoded operation. -/
theorem fields_encode (i : Instr) :
    fieldRsv (encode i) = 0 ∧ fieldB (encode i) = i.argB ∧ fieldA (encode i) = i.argA ∧ fieldOpc (encode i) = i.opcode :=
  fields_append 0x00#8 i.argB i.argA i.opcode

/-- A word that decodes has RSV 0, and its opcode and argument bytes are the operation's by the map of R101. -/
theorem decode_eq_ok {w : Word} {i : Instr} :
    decode w = .ok i ↔ fieldRsv w = 0 ∧ decodeOpcode (fieldOpc w) (fieldA w) (fieldB w) = .ok i := by
  unfold decode
  constructor
  · intro h
    split at h
    · exact ⟨‹_›, h⟩
    · cases h
  · rintro ⟨h1, h2⟩
    rw [if_pos h1, h2]

end Sys2Proof
end

