-- ==== Sys2Proof/Laws/Memory.lean ====
section
/-! SUPPORT. The laws of a byte space: a read after a write, the canonical form, and what a result leaves in it
(20_memory.md R81, R82). -/

namespace Sys2Proof.Machine

/-- Below the least listed index everything reads 0. -/
theorem Memory.read_below {lo a : Nat} {m : Memory} (h : Memory.wfFrom lo m = true) (ha : a < lo) :
    Memory.read m a = 0#8 := by
  induction m generalizing lo with
  | nil => rfl
  | cons c m ih =>
    obtain ⟨x, v⟩ := c
    simp only [Memory.wfFrom, Bool.and_eq_true, decide_eq_true_eq] at h
    have hx : x ≠ a := by omega
    simp only [Memory.read, hx, if_false]
    exact ih h.2 (by omega)

/-- The canonical form from a bound holds from every smaller bound. -/
theorem Memory.wfFrom_mono {lo lo' : Nat} {m : Memory} (h : Memory.wfFrom lo m = true) (hl : lo' ≤ lo) :
    Memory.wfFrom lo' m = true := by
  cases m with
  | nil => rfl
  | cons c m =>
    obtain ⟨x, v⟩ := c
    simp only [Memory.wfFrom, Bool.and_eq_true, decide_eq_true_eq] at h ⊢
    exact ⟨⟨by omega, h.1.2⟩, h.2⟩

/-- A write keeps the canonical form from every bound not above its index. -/
theorem Memory.write_wfFrom {lo a : Nat} {m : Memory} (b : Byte) (h : Memory.wfFrom lo m = true) (ha : lo ≤ a) :
    Memory.wfFrom lo (Memory.write m a b) = true := by
  induction m generalizing lo with
  | nil =>
    by_cases hb : b = 0#8
    · simp [Memory.write, Memory.wfFrom, hb]
    · simp [Memory.write, Memory.wfFrom, hb, ha]
  | cons c m ih =>
    obtain ⟨x, v⟩ := c
    have h0 := h
    simp only [Memory.wfFrom, Bool.and_eq_true, decide_eq_true_eq] at h
    unfold Memory.write
    split
    · split
      · exact h0
      · simp only [Memory.wfFrom, Bool.and_eq_true, decide_eq_true_eq]
        exact ⟨⟨ha, ‹_›⟩, ⟨⟨by omega, h.1.2⟩, h.2⟩⟩
    · split
      · split
        · exact Memory.wfFrom_mono h.2 (by omega)
        · subst a
          simp only [Memory.wfFrom, Bool.and_eq_true, decide_eq_true_eq]
          exact ⟨⟨ha, ‹_›⟩, h.2⟩
      · simp only [Memory.wfFrom, Bool.and_eq_true, decide_eq_true_eq]
        exact ⟨h.1, ih h.2 (by omega)⟩

/-- A write keeps the canonical form. -/
theorem Memory.write_wf {m : Memory} (a : Nat) (b : Byte) (h : m.wf = true) : (m.write a b).wf = true :=
  Memory.write_wfFrom b h (Nat.zero_le a)

/-- What a space in canonical form reads after a write: the byte at its index, and every other byte as before. -/
theorem Memory.read_write_from {lo : Nat} {m : Memory} (h : Memory.wfFrom lo m = true) (a : Nat) (b : Byte) (i : Nat) :
    Memory.read (Memory.write m a b) i = if i = a then b else Memory.read m i := by
  induction m generalizing lo with
  | nil =>
    by_cases hb : b = 0#8
    · simp [Memory.write, Memory.read, hb]
    · by_cases hi : i = a
      · simp [Memory.write, Memory.read, hb, hi]
      · simp [Memory.write, Memory.read, hb, hi, Ne.symm hi]
  | cons c m ih =>
    obtain ⟨x, v⟩ := c
    simp only [Memory.wfFrom, Bool.and_eq_true, decide_eq_true_eq] at h
    unfold Memory.write
    split
    · rename_i hax
      by_cases hi : i = a
      · subst hi
        have hxa : x ≠ i := by omega
        have hm : Memory.read m i = 0#8 := Memory.read_below h.2 (by omega)
        by_cases hb : b = 0#8
        · simp [hb, Memory.read, hxa, hm]
        · simp [hb, Memory.read]
      · by_cases hb : b = 0#8
        · simp [hb, hi]
        · simp [hb, Memory.read, hi, Ne.symm hi]
    · split
      · rename_i hax
        subst hax
        by_cases hi : i = a
        · subst hi
          have hm : Memory.read m i = 0#8 := Memory.read_below h.2 (by omega)
          by_cases hb : b = 0#8
          · simp [hb, hm]
          · simp [hb, Memory.read]
        · by_cases hb : b = 0#8
          · simp [hb, Memory.read, hi, Ne.symm hi]
          · simp [hb, Memory.read, hi, Ne.symm hi]
      · rename_i hlt hne
        by_cases hx : x = i
        · subst hx
          have : x ≠ a := fun h => hne h.symm
          simp [Memory.read, this]
        · simp only [Memory.read, hx, if_false]
          exact ih h.2

/-- A read after a write to the same index gives the byte written. -/
theorem Memory.read_write_same {m : Memory} (h : m.wf = true) (a : Nat) (b : Byte) : (m.write a b).read a = b := by
  simp [Memory.read_write_from h]

/-- A write leaves every other byte alone. -/
theorem Memory.read_write_other {m : Memory} (h : m.wf = true) {a i : Nat} (b : Byte) (hi : i ≠ a) :
    (m.write a b).read i = m.read i := by
  simp [Memory.read_write_from h, hi]

/-- A result placed from index `k` on is in canonical form from `k`. -/
theorem Memory.ofBytesAt_wfFrom (s : Bytes) (k : Nat) : Memory.wfFrom k (Memory.ofBytesAt k s) = true := by
  induction s generalizing k with
  | nil => rfl
  | cons b s ih =>
    unfold Memory.ofBytesAt
    split
    · exact Memory.wfFrom_mono (ih (k + 1)) (by omega)
    · simp [Memory.wfFrom, *]

/-- A result is in canonical form. -/
theorem Memory.ofBytes_wf (s : Bytes) : (Memory.ofBytes s).wf = true := Memory.ofBytesAt_wfFrom s 0

/-- What a result placed from index `k` on reads. -/
theorem Memory.read_ofBytesAt (s : Bytes) (k i : Nat) :
    Memory.read (Memory.ofBytesAt k s) i = if k ≤ i then s.getD (i - k) 0 else 0 := by
  induction s generalizing k with
  | nil => simp [Memory.ofBytesAt, Memory.read]
  | cons b s ih =>
    have hcell : Memory.read (Memory.ofBytesAt (k + 1) s) i = if k + 1 ≤ i then s.getD (i - (k + 1)) 0 else 0 :=
      ih (k + 1)
    rcases Nat.lt_trichotomy i k with hi | hi | hi
    · have h1 : ¬ k ≤ i := by omega
      have h2 : ¬ k + 1 ≤ i := by omega
      have h3 : k ≠ i := by omega
      unfold Memory.ofBytesAt
      split <;> simp [Memory.read, hcell, h2, h3]
    · subst hi
      unfold Memory.ofBytesAt
      split
      · simp_all
      · simp [Memory.read]
    · have h1 : k ≤ i := by omega
      have h2 : k + 1 ≤ i := by omega
      have h3 : k ≠ i := by omega
      have h4 : i - k = (i - (k + 1)) + 1 := by omega
      unfold Memory.ofBytesAt
      split <;> simp [Memory.read, hcell, h2, h3, h4]

/-- A result reads as its bytes and 0 after them (R82). -/
@[simp] theorem Memory.read_ofBytes (s : Bytes) (i : Nat) : (Memory.ofBytes s).read i = s.getD i 0 := by
  simp [Memory.ofBytes, Memory.read_ofBytesAt]

/-- The bytes read from a space are as many as asked for. -/
@[simp] theorem Memory.length_readBytes (m : Memory) (n : Nat) : (m.readBytes n).length = n := by
  simp [Memory.readBytes]

/-- The argument of an operation has `HIN_LEN` bytes (R81). -/
@[simp] theorem State.length_arg (s : State) : s.arg.length = s.hinLen.toNat := by
  simp [State.arg]

end Sys2Proof.Machine
end

