-- ==== Sys2Proof/Laws/State.lean ====
section
/-! SUPPORT. One lemma per field of State per named update: what the field is after the update. All hold by unfolding;
later proofs cite them and unfold no update. -/

namespace Sys2Proof.Machine

variable (s : State)

/-! ### Fields after `emit` -/

@[simp] theorem State.emit_status (e : Event) : (s.emit e).status = s.status := rfl
@[simp] theorem State.emit_res0 (e : Event) : (s.emit e).res0 = s.res0 := rfl
@[simp] theorem State.emit_res1 (e : Event) : (s.emit e).res1 = s.res1 := rfl
@[simp] theorem State.emit_hinLen (e : Event) : (s.emit e).hinLen = s.hinLen := rfl
@[simp] theorem State.emit_houtLen (e : Event) : (s.emit e).houtLen = s.houtLen := rfl
@[simp] theorem State.emit_baud (e : Event) : (s.emit e).baud = s.baud := rfl
@[simp] theorem State.emit_fmLen (e : Event) : (s.emit e).fmLen = s.fmLen := rfl
@[simp] theorem State.emit_odr (e : Event) : (s.emit e).odr = s.odr := rfl
@[simp] theorem State.emit_hin (e : Event) : (s.emit e).hin = s.hin := rfl
@[simp] theorem State.emit_hout (e : Event) : (s.emit e).hout = s.hout := rfl
@[simp] theorem State.emit_rxq (e : Event) : (s.emit e).rxq = s.rxq := rfl
@[simp] theorem State.emit_stream (e : Event) : (s.emit e).stream = s.stream := rfl
@[simp] theorem State.emit_corr (e : Event) : (s.emit e).corr = s.corr := rfl
@[simp] theorem State.emit_ackr (e : Event) : (s.emit e).ackr = s.ackr := rfl
@[simp] theorem State.emit_upg (e : Event) : (s.emit e).upg = s.upg := rfl
@[simp] theorem State.emit_now (e : Event) : (s.emit e).now = s.now := rfl
@[simp] theorem State.emit_linkOk (e : Event) : (s.emit e).linkOk = s.linkOk := rfl
@[simp] theorem State.emit_hist (e : Event) : (s.emit e).hist = s.hist ++ [e] := rfl
@[simp] theorem State.emit_cfg (e : Event) : (s.emit e).cfg = s.cfg := rfl
@[simp] theorem State.emit_schedule (e : Event) : (s.emit e).schedule = s.schedule := rfl
@[simp] theorem State.emit_hostData (e : Event) : (s.emit e).hostData = s.hostData := rfl

/-! ### Fields after `flush_in` -/

@[simp] theorem State.flushIn_status : (s.flushIn).status = s.status := rfl
@[simp] theorem State.flushIn_res0 : (s.flushIn).res0 = s.res0 := rfl
@[simp] theorem State.flushIn_res1 : (s.flushIn).res1 = s.res1 := rfl
@[simp] theorem State.flushIn_hinLen : (s.flushIn).hinLen = s.hinLen := rfl
@[simp] theorem State.flushIn_houtLen : (s.flushIn).houtLen = s.houtLen := rfl
@[simp] theorem State.flushIn_baud : (s.flushIn).baud = s.baud := rfl
@[simp] theorem State.flushIn_fmLen : (s.flushIn).fmLen = s.fmLen := rfl
@[simp] theorem State.flushIn_odr : (s.flushIn).odr = s.odr := rfl
@[simp] theorem State.flushIn_hin : (s.flushIn).hin = s.hin := rfl
@[simp] theorem State.flushIn_hout : (s.flushIn).hout = s.hout := rfl
@[simp] theorem State.flushIn_rxq : (s.flushIn).rxq = [] := rfl
@[simp] theorem State.flushIn_stream : (s.flushIn).stream = s.stream := rfl
@[simp] theorem State.flushIn_corr : (s.flushIn).corr = s.corr := rfl
@[simp] theorem State.flushIn_ackr : (s.flushIn).ackr = s.ackr := rfl
@[simp] theorem State.flushIn_upg : (s.flushIn).upg = s.upg := rfl
@[simp] theorem State.flushIn_now : (s.flushIn).now = s.now := rfl
@[simp] theorem State.flushIn_linkOk : (s.flushIn).linkOk = s.linkOk := rfl
@[simp] theorem State.flushIn_hist : (s.flushIn).hist = s.hist := rfl
@[simp] theorem State.flushIn_cfg : (s.flushIn).cfg = s.cfg := rfl
@[simp] theorem State.flushIn_schedule : (s.flushIn).schedule = s.schedule := rfl
@[simp] theorem State.flushIn_hostData : (s.flushIn).hostData = s.hostData := rfl

/-! ### Fields after `TX` -/

@[simp] theorem State.transmit_status (b : Bytes) : (s.transmit b).status = s.status := rfl
@[simp] theorem State.transmit_res0 (b : Bytes) : (s.transmit b).res0 = s.res0 := rfl
@[simp] theorem State.transmit_res1 (b : Bytes) : (s.transmit b).res1 = s.res1 := rfl
@[simp] theorem State.transmit_hinLen (b : Bytes) : (s.transmit b).hinLen = s.hinLen := rfl
@[simp] theorem State.transmit_houtLen (b : Bytes) : (s.transmit b).houtLen = s.houtLen := rfl
@[simp] theorem State.transmit_baud (b : Bytes) : (s.transmit b).baud = s.baud := rfl
@[simp] theorem State.transmit_fmLen (b : Bytes) : (s.transmit b).fmLen = s.fmLen := rfl
@[simp] theorem State.transmit_odr (b : Bytes) : (s.transmit b).odr = s.odr := rfl
@[simp] theorem State.transmit_hin (b : Bytes) : (s.transmit b).hin = s.hin := rfl
@[simp] theorem State.transmit_hout (b : Bytes) : (s.transmit b).hout = s.hout := rfl
@[simp] theorem State.transmit_rxq (b : Bytes) : (s.transmit b).rxq = s.rxq := rfl
@[simp] theorem State.transmit_stream (b : Bytes) : (s.transmit b).stream = s.stream := rfl
@[simp] theorem State.transmit_corr (b : Bytes) : (s.transmit b).corr = s.corr := rfl
@[simp] theorem State.transmit_ackr (b : Bytes) : (s.transmit b).ackr = s.ackr := rfl
@[simp] theorem State.transmit_upg (b : Bytes) : (s.transmit b).upg = s.upg := rfl
@[simp] theorem State.transmit_now (b : Bytes) : (s.transmit b).now = s.now := rfl
@[simp] theorem State.transmit_linkOk (b : Bytes) : (s.transmit b).linkOk = s.linkOk := rfl
@[simp] theorem State.transmit_hist (b : Bytes) : (s.transmit b).hist = s.hist ++ [.tx b s.baud s.now] := rfl
@[simp] theorem State.transmit_cfg (b : Bytes) : (s.transmit b).cfg = s.cfg := rfl
@[simp] theorem State.transmit_schedule (b : Bytes) : (s.transmit b).schedule = s.schedule := rfl
@[simp] theorem State.transmit_hostData (b : Bytes) : (s.transmit b).hostData = s.hostData := rfl

/-! ### Fields after a speed switch -/

@[simp] theorem State.switchBaud_status (v : Word) : (s.switchBaud v).status = s.status := rfl
@[simp] theorem State.switchBaud_res0 (v : Word) : (s.switchBaud v).res0 = s.res0 := rfl
@[simp] theorem State.switchBaud_res1 (v : Word) : (s.switchBaud v).res1 = s.res1 := rfl
@[simp] theorem State.switchBaud_hinLen (v : Word) : (s.switchBaud v).hinLen = s.hinLen := rfl
@[simp] theorem State.switchBaud_houtLen (v : Word) : (s.switchBaud v).houtLen = s.houtLen := rfl
@[simp] theorem State.switchBaud_baud (v : Word) : (s.switchBaud v).baud = v := rfl
@[simp] theorem State.switchBaud_fmLen (v : Word) : (s.switchBaud v).fmLen = s.fmLen := rfl
@[simp] theorem State.switchBaud_odr (v : Word) : (s.switchBaud v).odr = s.odr := rfl
@[simp] theorem State.switchBaud_hin (v : Word) : (s.switchBaud v).hin = s.hin := rfl
@[simp] theorem State.switchBaud_hout (v : Word) : (s.switchBaud v).hout = s.hout := rfl
@[simp] theorem State.switchBaud_rxq (v : Word) : (s.switchBaud v).rxq = s.rxq := rfl
@[simp] theorem State.switchBaud_stream (v : Word) : (s.switchBaud v).stream = s.stream := rfl
@[simp] theorem State.switchBaud_corr (v : Word) : (s.switchBaud v).corr = s.corr := rfl
@[simp] theorem State.switchBaud_ackr (v : Word) : (s.switchBaud v).ackr = s.ackr := rfl
@[simp] theorem State.switchBaud_upg (v : Word) : (s.switchBaud v).upg = s.upg := rfl
@[simp] theorem State.switchBaud_now (v : Word) : (s.switchBaud v).now = s.now := rfl
@[simp] theorem State.switchBaud_linkOk (v : Word) : (s.switchBaud v).linkOk = s.linkOk := rfl
@[simp] theorem State.switchBaud_hist (v : Word) : (s.switchBaud v).hist = s.hist ++ [.baud v s.now] := rfl
@[simp] theorem State.switchBaud_cfg (v : Word) : (s.switchBaud v).cfg = s.cfg := rfl
@[simp] theorem State.switchBaud_schedule (v : Word) : (s.switchBaud v).schedule = s.schedule := rfl
@[simp] theorem State.switchBaud_hostData (v : Word) : (s.switchBaud v).hostData = s.hostData := rfl

/-! ### Fields after a write of `RES0` -/

@[simp] theorem State.setRes0_status (v : Word) : (s.setRes0 v).status = s.status := rfl
@[simp] theorem State.setRes0_res0 (v : Word) : (s.setRes0 v).res0 = v := rfl
@[simp] theorem State.setRes0_res1 (v : Word) : (s.setRes0 v).res1 = s.res1 := rfl
@[simp] theorem State.setRes0_hinLen (v : Word) : (s.setRes0 v).hinLen = s.hinLen := rfl
@[simp] theorem State.setRes0_houtLen (v : Word) : (s.setRes0 v).houtLen = s.houtLen := rfl
@[simp] theorem State.setRes0_baud (v : Word) : (s.setRes0 v).baud = s.baud := rfl
@[simp] theorem State.setRes0_fmLen (v : Word) : (s.setRes0 v).fmLen = s.fmLen := rfl
@[simp] theorem State.setRes0_odr (v : Word) : (s.setRes0 v).odr = s.odr := rfl
@[simp] theorem State.setRes0_hin (v : Word) : (s.setRes0 v).hin = s.hin := rfl
@[simp] theorem State.setRes0_hout (v : Word) : (s.setRes0 v).hout = s.hout := rfl
@[simp] theorem State.setRes0_rxq (v : Word) : (s.setRes0 v).rxq = s.rxq := rfl
@[simp] theorem State.setRes0_stream (v : Word) : (s.setRes0 v).stream = s.stream := rfl
@[simp] theorem State.setRes0_corr (v : Word) : (s.setRes0 v).corr = s.corr := rfl
@[simp] theorem State.setRes0_ackr (v : Word) : (s.setRes0 v).ackr = s.ackr := rfl
@[simp] theorem State.setRes0_upg (v : Word) : (s.setRes0 v).upg = s.upg := rfl
@[simp] theorem State.setRes0_now (v : Word) : (s.setRes0 v).now = s.now := rfl
@[simp] theorem State.setRes0_linkOk (v : Word) : (s.setRes0 v).linkOk = s.linkOk := rfl
@[simp] theorem State.setRes0_hist (v : Word) : (s.setRes0 v).hist = s.hist := rfl
@[simp] theorem State.setRes0_cfg (v : Word) : (s.setRes0 v).cfg = s.cfg := rfl
@[simp] theorem State.setRes0_schedule (v : Word) : (s.setRes0 v).schedule = s.schedule := rfl
@[simp] theorem State.setRes0_hostData (v : Word) : (s.setRes0 v).hostData = s.hostData := rfl

/-! ### Fields after a write of `RES1` -/

@[simp] theorem State.setRes1_status (v : Word) : (s.setRes1 v).status = s.status := rfl
@[simp] theorem State.setRes1_res0 (v : Word) : (s.setRes1 v).res0 = s.res0 := rfl
@[simp] theorem State.setRes1_res1 (v : Word) : (s.setRes1 v).res1 = v := rfl
@[simp] theorem State.setRes1_hinLen (v : Word) : (s.setRes1 v).hinLen = s.hinLen := rfl
@[simp] theorem State.setRes1_houtLen (v : Word) : (s.setRes1 v).houtLen = s.houtLen := rfl
@[simp] theorem State.setRes1_baud (v : Word) : (s.setRes1 v).baud = s.baud := rfl
@[simp] theorem State.setRes1_fmLen (v : Word) : (s.setRes1 v).fmLen = s.fmLen := rfl
@[simp] theorem State.setRes1_odr (v : Word) : (s.setRes1 v).odr = s.odr := rfl
@[simp] theorem State.setRes1_hin (v : Word) : (s.setRes1 v).hin = s.hin := rfl
@[simp] theorem State.setRes1_hout (v : Word) : (s.setRes1 v).hout = s.hout := rfl
@[simp] theorem State.setRes1_rxq (v : Word) : (s.setRes1 v).rxq = s.rxq := rfl
@[simp] theorem State.setRes1_stream (v : Word) : (s.setRes1 v).stream = s.stream := rfl
@[simp] theorem State.setRes1_corr (v : Word) : (s.setRes1 v).corr = s.corr := rfl
@[simp] theorem State.setRes1_ackr (v : Word) : (s.setRes1 v).ackr = s.ackr := rfl
@[simp] theorem State.setRes1_upg (v : Word) : (s.setRes1 v).upg = s.upg := rfl
@[simp] theorem State.setRes1_now (v : Word) : (s.setRes1 v).now = s.now := rfl
@[simp] theorem State.setRes1_linkOk (v : Word) : (s.setRes1 v).linkOk = s.linkOk := rfl
@[simp] theorem State.setRes1_hist (v : Word) : (s.setRes1 v).hist = s.hist := rfl
@[simp] theorem State.setRes1_cfg (v : Word) : (s.setRes1 v).cfg = s.cfg := rfl
@[simp] theorem State.setRes1_schedule (v : Word) : (s.setRes1 v).schedule = s.schedule := rfl
@[simp] theorem State.setRes1_hostData (v : Word) : (s.setRes1 v).hostData = s.hostData := rfl

/-! ### Fields after a result in `HOUT` -/

@[simp] theorem State.setHout_status (r : Bytes) : (s.setHout r).status = s.status := rfl
@[simp] theorem State.setHout_res0 (r : Bytes) : (s.setHout r).res0 = s.res0 := rfl
@[simp] theorem State.setHout_res1 (r : Bytes) : (s.setHout r).res1 = s.res1 := rfl
@[simp] theorem State.setHout_hinLen (r : Bytes) : (s.setHout r).hinLen = s.hinLen := rfl
@[simp] theorem State.setHout_houtLen (r : Bytes) : (s.setHout r).houtLen = BitVec.ofNat 32 r.length := rfl
@[simp] theorem State.setHout_baud (r : Bytes) : (s.setHout r).baud = s.baud := rfl
@[simp] theorem State.setHout_fmLen (r : Bytes) : (s.setHout r).fmLen = s.fmLen := rfl
@[simp] theorem State.setHout_odr (r : Bytes) : (s.setHout r).odr = s.odr := rfl
@[simp] theorem State.setHout_hin (r : Bytes) : (s.setHout r).hin = s.hin := rfl
@[simp] theorem State.setHout_hout (r : Bytes) : (s.setHout r).hout = Memory.ofBytes r := rfl
@[simp] theorem State.setHout_rxq (r : Bytes) : (s.setHout r).rxq = s.rxq := rfl
@[simp] theorem State.setHout_stream (r : Bytes) : (s.setHout r).stream = s.stream := rfl
@[simp] theorem State.setHout_corr (r : Bytes) : (s.setHout r).corr = s.corr := rfl
@[simp] theorem State.setHout_ackr (r : Bytes) : (s.setHout r).ackr = s.ackr := rfl
@[simp] theorem State.setHout_upg (r : Bytes) : (s.setHout r).upg = s.upg := rfl
@[simp] theorem State.setHout_now (r : Bytes) : (s.setHout r).now = s.now := rfl
@[simp] theorem State.setHout_linkOk (r : Bytes) : (s.setHout r).linkOk = s.linkOk := rfl
@[simp] theorem State.setHout_hist (r : Bytes) : (s.setHout r).hist = s.hist := rfl
@[simp] theorem State.setHout_cfg (r : Bytes) : (s.setHout r).cfg = s.cfg := rfl
@[simp] theorem State.setHout_schedule (r : Bytes) : (s.setHout r).schedule = s.schedule := rfl
@[simp] theorem State.setHout_hostData (r : Bytes) : (s.setHout r).hostData = s.hostData := rfl

/-! ### Fields after `finish` -/

@[simp] theorem State.finish_status (opc : Byte) :
    (s.finish opc).status =
      { s.status with done := true, err := false, errcode := .none } := rfl
@[simp] theorem State.finish_res0 (opc : Byte) : (s.finish opc).res0 = s.res0 := rfl
@[simp] theorem State.finish_res1 (opc : Byte) : (s.finish opc).res1 = s.res1 := rfl
@[simp] theorem State.finish_hinLen (opc : Byte) : (s.finish opc).hinLen = s.hinLen := rfl
@[simp] theorem State.finish_houtLen (opc : Byte) : (s.finish opc).houtLen = s.houtLen := rfl
@[simp] theorem State.finish_baud (opc : Byte) : (s.finish opc).baud = s.baud := rfl
@[simp] theorem State.finish_fmLen (opc : Byte) : (s.finish opc).fmLen = s.fmLen := rfl
@[simp] theorem State.finish_odr (opc : Byte) : (s.finish opc).odr = s.odr := rfl
@[simp] theorem State.finish_hin (opc : Byte) : (s.finish opc).hin = s.hin := rfl
@[simp] theorem State.finish_hout (opc : Byte) : (s.finish opc).hout = s.hout := rfl
@[simp] theorem State.finish_rxq (opc : Byte) : (s.finish opc).rxq = s.rxq := rfl
@[simp] theorem State.finish_stream (opc : Byte) : (s.finish opc).stream = s.stream := rfl
@[simp] theorem State.finish_corr (opc : Byte) : (s.finish opc).corr = s.corr := rfl
@[simp] theorem State.finish_ackr (opc : Byte) : (s.finish opc).ackr = s.ackr := rfl
@[simp] theorem State.finish_upg (opc : Byte) : (s.finish opc).upg = s.upg := rfl
@[simp] theorem State.finish_now (opc : Byte) : (s.finish opc).now = s.now := rfl
@[simp] theorem State.finish_linkOk (opc : Byte) : (s.finish opc).linkOk = s.linkOk := rfl
@[simp] theorem State.finish_hist (opc : Byte) : (s.finish opc).hist = s.hist ++ [.done opc .none s.now] := rfl
@[simp] theorem State.finish_cfg (opc : Byte) : (s.finish opc).cfg = s.cfg := rfl
@[simp] theorem State.finish_schedule (opc : Byte) : (s.finish opc).schedule = s.schedule := rfl
@[simp] theorem State.finish_hostData (opc : Byte) : (s.finish opc).hostData = s.hostData := rfl

/-! ### Fields after `raise` -/

@[simp] theorem State.raise_status (opc : Byte) (e : ErrorCode) :
    (s.raise opc e).status =
      { s.status with done := true, err := true, errcode := e } := rfl
@[simp] theorem State.raise_res0 (opc : Byte) (e : ErrorCode) : (s.raise opc e).res0 = s.res0 := rfl
@[simp] theorem State.raise_res1 (opc : Byte) (e : ErrorCode) : (s.raise opc e).res1 = s.res1 := rfl
@[simp] theorem State.raise_hinLen (opc : Byte) (e : ErrorCode) : (s.raise opc e).hinLen = s.hinLen := rfl
@[simp] theorem State.raise_houtLen (opc : Byte) (e : ErrorCode) : (s.raise opc e).houtLen = s.houtLen := rfl
@[simp] theorem State.raise_baud (opc : Byte) (e : ErrorCode) : (s.raise opc e).baud = s.baud := rfl
@[simp] theorem State.raise_fmLen (opc : Byte) (e : ErrorCode) : (s.raise opc e).fmLen = s.fmLen := rfl
@[simp] theorem State.raise_odr (opc : Byte) (e : ErrorCode) : (s.raise opc e).odr = s.odr := rfl
@[simp] theorem State.raise_hin (opc : Byte) (e : ErrorCode) : (s.raise opc e).hin = s.hin := rfl
@[simp] theorem State.raise_hout (opc : Byte) (e : ErrorCode) : (s.raise opc e).hout = s.hout := rfl
@[simp] theorem State.raise_rxq (opc : Byte) (e : ErrorCode) : (s.raise opc e).rxq = s.rxq := rfl
@[simp] theorem State.raise_stream (opc : Byte) (e : ErrorCode) : (s.raise opc e).stream = s.stream := rfl
@[simp] theorem State.raise_corr (opc : Byte) (e : ErrorCode) : (s.raise opc e).corr = s.corr := rfl
@[simp] theorem State.raise_ackr (opc : Byte) (e : ErrorCode) : (s.raise opc e).ackr = s.ackr := rfl
@[simp] theorem State.raise_upg (opc : Byte) (e : ErrorCode) : (s.raise opc e).upg = s.upg := rfl
@[simp] theorem State.raise_now (opc : Byte) (e : ErrorCode) : (s.raise opc e).now = s.now := rfl
@[simp] theorem State.raise_linkOk (opc : Byte) (e : ErrorCode) : (s.raise opc e).linkOk = s.linkOk := rfl
@[simp] theorem State.raise_hist (opc : Byte) (e : ErrorCode) :
    (s.raise opc e).hist =
      s.hist ++ [.done opc e s.now] := rfl
@[simp] theorem State.raise_cfg (opc : Byte) (e : ErrorCode) : (s.raise opc e).cfg = s.cfg := rfl
@[simp] theorem State.raise_schedule (opc : Byte) (e : ErrorCode) : (s.raise opc e).schedule = s.schedule := rfl
@[simp] theorem State.raise_hostData (opc : Byte) (e : ErrorCode) : (s.raise opc e).hostData = s.hostData := rfl

/-! ### Fields after the clearing of `STATUS` at issue -/

@[simp] theorem State.clearStatus_status :
    (s.clearStatus).status =
      { s.status with rej := false, done := false, err := false, errcode := .none } := rfl
@[simp] theorem State.clearStatus_res0 : (s.clearStatus).res0 = s.res0 := rfl
@[simp] theorem State.clearStatus_res1 : (s.clearStatus).res1 = s.res1 := rfl
@[simp] theorem State.clearStatus_hinLen : (s.clearStatus).hinLen = s.hinLen := rfl
@[simp] theorem State.clearStatus_houtLen : (s.clearStatus).houtLen = s.houtLen := rfl
@[simp] theorem State.clearStatus_baud : (s.clearStatus).baud = s.baud := rfl
@[simp] theorem State.clearStatus_fmLen : (s.clearStatus).fmLen = s.fmLen := rfl
@[simp] theorem State.clearStatus_odr : (s.clearStatus).odr = s.odr := rfl
@[simp] theorem State.clearStatus_hin : (s.clearStatus).hin = s.hin := rfl
@[simp] theorem State.clearStatus_hout : (s.clearStatus).hout = s.hout := rfl
@[simp] theorem State.clearStatus_rxq : (s.clearStatus).rxq = s.rxq := rfl
@[simp] theorem State.clearStatus_stream : (s.clearStatus).stream = s.stream := rfl
@[simp] theorem State.clearStatus_corr : (s.clearStatus).corr = s.corr := rfl
@[simp] theorem State.clearStatus_ackr : (s.clearStatus).ackr = s.ackr := rfl
@[simp] theorem State.clearStatus_upg : (s.clearStatus).upg = s.upg := rfl
@[simp] theorem State.clearStatus_now : (s.clearStatus).now = s.now := rfl
@[simp] theorem State.clearStatus_linkOk : (s.clearStatus).linkOk = s.linkOk := rfl
@[simp] theorem State.clearStatus_hist : (s.clearStatus).hist = s.hist := rfl
@[simp] theorem State.clearStatus_cfg : (s.clearStatus).cfg = s.cfg := rfl
@[simp] theorem State.clearStatus_schedule : (s.clearStatus).schedule = s.schedule := rfl
@[simp] theorem State.clearStatus_hostData : (s.clearStatus).hostData = s.hostData := rfl

/-! ### Fields after a dropped command -/

@[simp] theorem State.reject_status : (s.reject).status = { s.status with rej := true } := rfl
@[simp] theorem State.reject_res0 : (s.reject).res0 = s.res0 := rfl
@[simp] theorem State.reject_res1 : (s.reject).res1 = s.res1 := rfl
@[simp] theorem State.reject_hinLen : (s.reject).hinLen = s.hinLen := rfl
@[simp] theorem State.reject_houtLen : (s.reject).houtLen = s.houtLen := rfl
@[simp] theorem State.reject_baud : (s.reject).baud = s.baud := rfl
@[simp] theorem State.reject_fmLen : (s.reject).fmLen = s.fmLen := rfl
@[simp] theorem State.reject_odr : (s.reject).odr = s.odr := rfl
@[simp] theorem State.reject_hin : (s.reject).hin = s.hin := rfl
@[simp] theorem State.reject_hout : (s.reject).hout = s.hout := rfl
@[simp] theorem State.reject_rxq : (s.reject).rxq = s.rxq := rfl
@[simp] theorem State.reject_stream : (s.reject).stream = s.stream := rfl
@[simp] theorem State.reject_corr : (s.reject).corr = s.corr := rfl
@[simp] theorem State.reject_ackr : (s.reject).ackr = s.ackr := rfl
@[simp] theorem State.reject_upg : (s.reject).upg = s.upg := rfl
@[simp] theorem State.reject_now : (s.reject).now = s.now := rfl
@[simp] theorem State.reject_linkOk : (s.reject).linkOk = s.linkOk := rfl
@[simp] theorem State.reject_hist : (s.reject).hist = s.hist := rfl
@[simp] theorem State.reject_cfg : (s.reject).cfg = s.cfg := rfl
@[simp] theorem State.reject_schedule : (s.reject).schedule = s.schedule := rfl
@[simp] theorem State.reject_hostData : (s.reject).hostData = s.hostData := rfl

/-! ### Fields after a claim of the link -/

@[simp] theorem State.claimLink_status (o : Owner) (b : Bool) :
    (s.claimLink o b).status =
      { s.status with owner := o, busy := b } := rfl
@[simp] theorem State.claimLink_res0 (o : Owner) (b : Bool) : (s.claimLink o b).res0 = s.res0 := rfl
@[simp] theorem State.claimLink_res1 (o : Owner) (b : Bool) : (s.claimLink o b).res1 = s.res1 := rfl
@[simp] theorem State.claimLink_hinLen (o : Owner) (b : Bool) : (s.claimLink o b).hinLen = s.hinLen := rfl
@[simp] theorem State.claimLink_houtLen (o : Owner) (b : Bool) : (s.claimLink o b).houtLen = s.houtLen := rfl
@[simp] theorem State.claimLink_baud (o : Owner) (b : Bool) : (s.claimLink o b).baud = s.baud := rfl
@[simp] theorem State.claimLink_fmLen (o : Owner) (b : Bool) : (s.claimLink o b).fmLen = s.fmLen := rfl
@[simp] theorem State.claimLink_odr (o : Owner) (b : Bool) : (s.claimLink o b).odr = s.odr := rfl
@[simp] theorem State.claimLink_hin (o : Owner) (b : Bool) : (s.claimLink o b).hin = s.hin := rfl
@[simp] theorem State.claimLink_hout (o : Owner) (b : Bool) : (s.claimLink o b).hout = s.hout := rfl
@[simp] theorem State.claimLink_rxq (o : Owner) (b : Bool) : (s.claimLink o b).rxq = s.rxq := rfl
@[simp] theorem State.claimLink_stream (o : Owner) (b : Bool) : (s.claimLink o b).stream = s.stream := rfl
@[simp] theorem State.claimLink_corr (o : Owner) (b : Bool) : (s.claimLink o b).corr = s.corr := rfl
@[simp] theorem State.claimLink_ackr (o : Owner) (b : Bool) : (s.claimLink o b).ackr = s.ackr := rfl
@[simp] theorem State.claimLink_upg (o : Owner) (b : Bool) : (s.claimLink o b).upg = s.upg := rfl
@[simp] theorem State.claimLink_now (o : Owner) (b : Bool) : (s.claimLink o b).now = s.now := rfl
@[simp] theorem State.claimLink_linkOk (o : Owner) (b : Bool) : (s.claimLink o b).linkOk = s.linkOk := rfl
@[simp] theorem State.claimLink_hist (o : Owner) (b : Bool) : (s.claimLink o b).hist = s.hist := rfl
@[simp] theorem State.claimLink_cfg (o : Owner) (b : Bool) : (s.claimLink o b).cfg = s.cfg := rfl
@[simp] theorem State.claimLink_schedule (o : Owner) (b : Bool) : (s.claimLink o b).schedule = s.schedule := rfl
@[simp] theorem State.claimLink_hostData (o : Owner) (b : Bool) : (s.claimLink o b).hostData = s.hostData := rfl

/-! ### Fields after a release of the link -/

@[simp] theorem State.releaseLink_status :
    (s.releaseLink).status =
      { s.status with owner := .none, busy := false } := rfl
@[simp] theorem State.releaseLink_res0 : (s.releaseLink).res0 = s.res0 := rfl
@[simp] theorem State.releaseLink_res1 : (s.releaseLink).res1 = s.res1 := rfl
@[simp] theorem State.releaseLink_hinLen : (s.releaseLink).hinLen = s.hinLen := rfl
@[simp] theorem State.releaseLink_houtLen : (s.releaseLink).houtLen = s.houtLen := rfl
@[simp] theorem State.releaseLink_baud : (s.releaseLink).baud = s.baud := rfl
@[simp] theorem State.releaseLink_fmLen : (s.releaseLink).fmLen = s.fmLen := rfl
@[simp] theorem State.releaseLink_odr : (s.releaseLink).odr = s.odr := rfl
@[simp] theorem State.releaseLink_hin : (s.releaseLink).hin = s.hin := rfl
@[simp] theorem State.releaseLink_hout : (s.releaseLink).hout = s.hout := rfl
@[simp] theorem State.releaseLink_rxq : (s.releaseLink).rxq = s.rxq := rfl
@[simp] theorem State.releaseLink_stream : (s.releaseLink).stream = s.stream := rfl
@[simp] theorem State.releaseLink_corr : (s.releaseLink).corr = s.corr := rfl
@[simp] theorem State.releaseLink_ackr : (s.releaseLink).ackr = s.ackr := rfl
@[simp] theorem State.releaseLink_upg : (s.releaseLink).upg = s.upg := rfl
@[simp] theorem State.releaseLink_now : (s.releaseLink).now = s.now := rfl
@[simp] theorem State.releaseLink_linkOk : (s.releaseLink).linkOk = s.linkOk := rfl
@[simp] theorem State.releaseLink_hist : (s.releaseLink).hist = s.hist := rfl
@[simp] theorem State.releaseLink_cfg : (s.releaseLink).cfg = s.cfg := rfl
@[simp] theorem State.releaseLink_schedule : (s.releaseLink).schedule = s.schedule := rfl
@[simp] theorem State.releaseLink_hostData : (s.releaseLink).hostData = s.hostData := rfl

/-! ### Fields after `start_exchange` -/

@[simp] theorem startExchange_status (cl : Client) (c : Code) (p : Bytes) (m : MatchMode) :
    (startExchange cl c p m s).status =
      s.status := rfl
@[simp] theorem startExchange_res0 (cl : Client) (c : Code) (p : Bytes) (m : MatchMode) :
    (startExchange cl c p m s).res0 =
      s.res0 := rfl
@[simp] theorem startExchange_res1 (cl : Client) (c : Code) (p : Bytes) (m : MatchMode) :
    (startExchange cl c p m s).res1 =
      s.res1 := rfl
@[simp] theorem startExchange_hinLen (cl : Client) (c : Code) (p : Bytes) (m : MatchMode) :
    (startExchange cl c p m s).hinLen =
      s.hinLen := rfl
@[simp] theorem startExchange_houtLen (cl : Client) (c : Code) (p : Bytes) (m : MatchMode) :
    (startExchange cl c p m s).houtLen =
      s.houtLen := rfl
@[simp] theorem startExchange_baud (cl : Client) (c : Code) (p : Bytes) (m : MatchMode) :
    (startExchange cl c p m s).baud =
      s.baud := rfl
@[simp] theorem startExchange_fmLen (cl : Client) (c : Code) (p : Bytes) (m : MatchMode) :
    (startExchange cl c p m s).fmLen =
      s.fmLen := rfl
@[simp] theorem startExchange_odr (cl : Client) (c : Code) (p : Bytes) (m : MatchMode) :
    (startExchange cl c p m s).odr =
      s.odr := rfl
@[simp] theorem startExchange_hin (cl : Client) (c : Code) (p : Bytes) (m : MatchMode) :
    (startExchange cl c p m s).hin =
      s.hin := rfl
@[simp] theorem startExchange_hout (cl : Client) (c : Code) (p : Bytes) (m : MatchMode) :
    (startExchange cl c p m s).hout =
      s.hout := rfl
@[simp] theorem startExchange_rxq (cl : Client) (c : Code) (p : Bytes) (m : MatchMode) :
    (startExchange cl c p m s).rxq =
      [] := rfl
@[simp] theorem startExchange_stream (cl : Client) (c : Code) (p : Bytes) (m : MatchMode) :
    (startExchange cl c p m s).stream =
      s.stream := rfl
@[simp] theorem startExchange_corr (cl : Client) (c : Code) (p : Bytes) (m : MatchMode) :
    (startExchange cl c p m s).corr =
      { phase := .wait, req := envelope c p, mode := m, deadline := s.now + Config.respTimeoutMs, buf := [], client := cl } := rfl
@[simp] theorem startExchange_ackr (cl : Client) (c : Code) (p : Bytes) (m : MatchMode) :
    (startExchange cl c p m s).ackr =
      s.ackr := rfl
@[simp] theorem startExchange_upg (cl : Client) (c : Code) (p : Bytes) (m : MatchMode) :
    (startExchange cl c p m s).upg =
      s.upg := rfl
@[simp] theorem startExchange_now (cl : Client) (c : Code) (p : Bytes) (m : MatchMode) :
    (startExchange cl c p m s).now =
      s.now := rfl
@[simp] theorem startExchange_linkOk (cl : Client) (c : Code) (p : Bytes) (m : MatchMode) :
    (startExchange cl c p m s).linkOk =
      s.linkOk := rfl
@[simp] theorem startExchange_hist (cl : Client) (c : Code) (p : Bytes) (m : MatchMode) :
    (startExchange cl c p m s).hist =
      s.hist ++ [.tx (envelope c p) s.baud s.now] := rfl
@[simp] theorem startExchange_cfg (cl : Client) (c : Code) (p : Bytes) (m : MatchMode) :
    (startExchange cl c p m s).cfg =
      s.cfg := rfl
@[simp] theorem startExchange_schedule (cl : Client) (c : Code) (p : Bytes) (m : MatchMode) :
    (startExchange cl c p m s).schedule =
      s.schedule := rfl
@[simp] theorem startExchange_hostData (cl : Client) (c : Code) (p : Bytes) (m : MatchMode) :
    (startExchange cl c p m s).hostData =
      s.hostData := rfl

/-! ### Fields after `start_ack` -/

@[simp] theorem startAck_status (n : Nat) : (startAck n s).status = s.status := rfl
@[simp] theorem startAck_res0 (n : Nat) : (startAck n s).res0 = s.res0 := rfl
@[simp] theorem startAck_res1 (n : Nat) : (startAck n s).res1 = s.res1 := rfl
@[simp] theorem startAck_hinLen (n : Nat) : (startAck n s).hinLen = s.hinLen := rfl
@[simp] theorem startAck_houtLen (n : Nat) : (startAck n s).houtLen = s.houtLen := rfl
@[simp] theorem startAck_baud (n : Nat) : (startAck n s).baud = s.baud := rfl
@[simp] theorem startAck_fmLen (n : Nat) : (startAck n s).fmLen = s.fmLen := rfl
@[simp] theorem startAck_odr (n : Nat) : (startAck n s).odr = s.odr := rfl
@[simp] theorem startAck_hin (n : Nat) : (startAck n s).hin = s.hin := rfl
@[simp] theorem startAck_hout (n : Nat) : (startAck n s).hout = s.hout := rfl
@[simp] theorem startAck_rxq (n : Nat) : (startAck n s).rxq = s.rxq := rfl
@[simp] theorem startAck_stream (n : Nat) : (startAck n s).stream = s.stream := rfl
@[simp] theorem startAck_corr (n : Nat) : (startAck n s).corr = s.corr := rfl
@[simp] theorem startAck_ackr (n : Nat) :
    (startAck n s).ackr =
      { phase := .wait, need := n, deadline := s.now + Config.ackTimeoutMs, buf := [] } := rfl
@[simp] theorem startAck_upg (n : Nat) : (startAck n s).upg = s.upg := rfl
@[simp] theorem startAck_now (n : Nat) : (startAck n s).now = s.now := rfl
@[simp] theorem startAck_linkOk (n : Nat) : (startAck n s).linkOk = s.linkOk := rfl
@[simp] theorem startAck_hist (n : Nat) : (startAck n s).hist = s.hist := rfl
@[simp] theorem startAck_cfg (n : Nat) : (startAck n s).cfg = s.cfg := rfl
@[simp] theorem startAck_schedule (n : Nat) : (startAck n s).schedule = s.schedule := rfl
@[simp] theorem startAck_hostData (n : Nat) : (startAck n s).hostData = s.hostData := rfl

/-! ### Fields after a wait of the upgrade -/

@[simp] theorem waitUntil_status (d : Nat) (ph : UpgPhase) : (waitUntil d ph s).status = s.status := rfl
@[simp] theorem waitUntil_res0 (d : Nat) (ph : UpgPhase) : (waitUntil d ph s).res0 = s.res0 := rfl
@[simp] theorem waitUntil_res1 (d : Nat) (ph : UpgPhase) : (waitUntil d ph s).res1 = s.res1 := rfl
@[simp] theorem waitUntil_hinLen (d : Nat) (ph : UpgPhase) : (waitUntil d ph s).hinLen = s.hinLen := rfl
@[simp] theorem waitUntil_houtLen (d : Nat) (ph : UpgPhase) : (waitUntil d ph s).houtLen = s.houtLen := rfl
@[simp] theorem waitUntil_baud (d : Nat) (ph : UpgPhase) : (waitUntil d ph s).baud = s.baud := rfl
@[simp] theorem waitUntil_fmLen (d : Nat) (ph : UpgPhase) : (waitUntil d ph s).fmLen = s.fmLen := rfl
@[simp] theorem waitUntil_odr (d : Nat) (ph : UpgPhase) : (waitUntil d ph s).odr = s.odr := rfl
@[simp] theorem waitUntil_hin (d : Nat) (ph : UpgPhase) : (waitUntil d ph s).hin = s.hin := rfl
@[simp] theorem waitUntil_hout (d : Nat) (ph : UpgPhase) : (waitUntil d ph s).hout = s.hout := rfl
@[simp] theorem waitUntil_rxq (d : Nat) (ph : UpgPhase) : (waitUntil d ph s).rxq = s.rxq := rfl
@[simp] theorem waitUntil_stream (d : Nat) (ph : UpgPhase) : (waitUntil d ph s).stream = s.stream := rfl
@[simp] theorem waitUntil_corr (d : Nat) (ph : UpgPhase) : (waitUntil d ph s).corr = s.corr := rfl
@[simp] theorem waitUntil_ackr (d : Nat) (ph : UpgPhase) : (waitUntil d ph s).ackr = s.ackr := rfl
@[simp] theorem waitUntil_upg (d : Nat) (ph : UpgPhase) :
    (waitUntil d ph s).upg =
      { s.upg with deadline := s.now + d, phase := ph } := rfl
@[simp] theorem waitUntil_now (d : Nat) (ph : UpgPhase) : (waitUntil d ph s).now = s.now := rfl
@[simp] theorem waitUntil_linkOk (d : Nat) (ph : UpgPhase) : (waitUntil d ph s).linkOk = s.linkOk := rfl
@[simp] theorem waitUntil_hist (d : Nat) (ph : UpgPhase) : (waitUntil d ph s).hist = s.hist := rfl
@[simp] theorem waitUntil_cfg (d : Nat) (ph : UpgPhase) : (waitUntil d ph s).cfg = s.cfg := rfl
@[simp] theorem waitUntil_schedule (d : Nat) (ph : UpgPhase) : (waitUntil d ph s).schedule = s.schedule := rfl
@[simp] theorem waitUntil_hostData (d : Nat) (ph : UpgPhase) : (waitUntil d ph s).hostData = s.hostData := rfl

/-! ### Fields after a new upgrade state -/

@[simp] theorem setStage_status (st : Stage) : (setStage st s).status = s.status := rfl
@[simp] theorem setStage_res0 (st : Stage) : (setStage st s).res0 = s.res0 := rfl
@[simp] theorem setStage_res1 (st : Stage) : (setStage st s).res1 = s.res1 := rfl
@[simp] theorem setStage_hinLen (st : Stage) : (setStage st s).hinLen = s.hinLen := rfl
@[simp] theorem setStage_houtLen (st : Stage) : (setStage st s).houtLen = s.houtLen := rfl
@[simp] theorem setStage_baud (st : Stage) : (setStage st s).baud = s.baud := rfl
@[simp] theorem setStage_fmLen (st : Stage) : (setStage st s).fmLen = s.fmLen := rfl
@[simp] theorem setStage_odr (st : Stage) : (setStage st s).odr = s.odr := rfl
@[simp] theorem setStage_hin (st : Stage) : (setStage st s).hin = s.hin := rfl
@[simp] theorem setStage_hout (st : Stage) : (setStage st s).hout = s.hout := rfl
@[simp] theorem setStage_rxq (st : Stage) : (setStage st s).rxq = s.rxq := rfl
@[simp] theorem setStage_stream (st : Stage) : (setStage st s).stream = s.stream := rfl
@[simp] theorem setStage_corr (st : Stage) : (setStage st s).corr = s.corr := rfl
@[simp] theorem setStage_ackr (st : Stage) : (setStage st s).ackr = s.ackr := rfl
@[simp] theorem setStage_upg (st : Stage) : (setStage st s).upg = { s.upg with stage := st } := rfl
@[simp] theorem setStage_now (st : Stage) : (setStage st s).now = s.now := rfl
@[simp] theorem setStage_linkOk (st : Stage) : (setStage st s).linkOk = s.linkOk := rfl
@[simp] theorem setStage_hist (st : Stage) : (setStage st s).hist = s.hist := rfl
@[simp] theorem setStage_cfg (st : Stage) : (setStage st s).cfg = s.cfg := rfl
@[simp] theorem setStage_schedule (st : Stage) : (setStage st s).schedule = s.schedule := rfl
@[simp] theorem setStage_hostData (st : Stage) : (setStage st s).hostData = s.hostData := rfl

/-! ### Fields after a new upgrade phase -/

@[simp] theorem setPhase_status (ph : UpgPhase) : (setPhase ph s).status = s.status := rfl
@[simp] theorem setPhase_res0 (ph : UpgPhase) : (setPhase ph s).res0 = s.res0 := rfl
@[simp] theorem setPhase_res1 (ph : UpgPhase) : (setPhase ph s).res1 = s.res1 := rfl
@[simp] theorem setPhase_hinLen (ph : UpgPhase) : (setPhase ph s).hinLen = s.hinLen := rfl
@[simp] theorem setPhase_houtLen (ph : UpgPhase) : (setPhase ph s).houtLen = s.houtLen := rfl
@[simp] theorem setPhase_baud (ph : UpgPhase) : (setPhase ph s).baud = s.baud := rfl
@[simp] theorem setPhase_fmLen (ph : UpgPhase) : (setPhase ph s).fmLen = s.fmLen := rfl
@[simp] theorem setPhase_odr (ph : UpgPhase) : (setPhase ph s).odr = s.odr := rfl
@[simp] theorem setPhase_hin (ph : UpgPhase) : (setPhase ph s).hin = s.hin := rfl
@[simp] theorem setPhase_hout (ph : UpgPhase) : (setPhase ph s).hout = s.hout := rfl
@[simp] theorem setPhase_rxq (ph : UpgPhase) : (setPhase ph s).rxq = s.rxq := rfl
@[simp] theorem setPhase_stream (ph : UpgPhase) : (setPhase ph s).stream = s.stream := rfl
@[simp] theorem setPhase_corr (ph : UpgPhase) : (setPhase ph s).corr = s.corr := rfl
@[simp] theorem setPhase_ackr (ph : UpgPhase) : (setPhase ph s).ackr = s.ackr := rfl
@[simp] theorem setPhase_upg (ph : UpgPhase) : (setPhase ph s).upg = { s.upg with phase := ph } := rfl
@[simp] theorem setPhase_now (ph : UpgPhase) : (setPhase ph s).now = s.now := rfl
@[simp] theorem setPhase_linkOk (ph : UpgPhase) : (setPhase ph s).linkOk = s.linkOk := rfl
@[simp] theorem setPhase_hist (ph : UpgPhase) : (setPhase ph s).hist = s.hist := rfl
@[simp] theorem setPhase_cfg (ph : UpgPhase) : (setPhase ph s).cfg = s.cfg := rfl
@[simp] theorem setPhase_schedule (ph : UpgPhase) : (setPhase ph s).schedule = s.schedule := rfl
@[simp] theorem setPhase_hostData (ph : UpgPhase) : (setPhase ph s).hostData = s.hostData := rfl

/-! ### Fields after `Rx` -/

@[simp] theorem receive_status (b : Byte) : (receive b s).status = s.status := rfl
@[simp] theorem receive_res0 (b : Byte) : (receive b s).res0 = s.res0 := rfl
@[simp] theorem receive_res1 (b : Byte) : (receive b s).res1 = s.res1 := rfl
@[simp] theorem receive_hinLen (b : Byte) : (receive b s).hinLen = s.hinLen := rfl
@[simp] theorem receive_houtLen (b : Byte) : (receive b s).houtLen = s.houtLen := rfl
@[simp] theorem receive_baud (b : Byte) : (receive b s).baud = s.baud := rfl
@[simp] theorem receive_fmLen (b : Byte) : (receive b s).fmLen = s.fmLen := rfl
@[simp] theorem receive_odr (b : Byte) : (receive b s).odr = s.odr := rfl
@[simp] theorem receive_hin (b : Byte) : (receive b s).hin = s.hin := rfl
@[simp] theorem receive_hout (b : Byte) : (receive b s).hout = s.hout := rfl
@[simp] theorem receive_rxq (b : Byte) : (receive b s).rxq = s.rxq ++ [b] := rfl
@[simp] theorem receive_stream (b : Byte) : (receive b s).stream = s.stream := rfl
@[simp] theorem receive_corr (b : Byte) : (receive b s).corr = s.corr := rfl
@[simp] theorem receive_ackr (b : Byte) : (receive b s).ackr = s.ackr := rfl
@[simp] theorem receive_upg (b : Byte) : (receive b s).upg = s.upg := rfl
@[simp] theorem receive_now (b : Byte) : (receive b s).now = s.now := rfl
@[simp] theorem receive_linkOk (b : Byte) : (receive b s).linkOk = s.linkOk := rfl
@[simp] theorem receive_hist (b : Byte) : (receive b s).hist = s.hist := rfl
@[simp] theorem receive_cfg (b : Byte) : (receive b s).cfg = s.cfg := rfl
@[simp] theorem receive_schedule (b : Byte) : (receive b s).schedule = s.schedule := rfl
@[simp] theorem receive_hostData (b : Byte) : (receive b s).hostData = s.hostData := rfl

/-! ### Fields after the passage of time -/

@[simp] theorem advance_status (d : Nat) : (advance d s).status = s.status := rfl
@[simp] theorem advance_res0 (d : Nat) : (advance d s).res0 = s.res0 := rfl
@[simp] theorem advance_res1 (d : Nat) : (advance d s).res1 = s.res1 := rfl
@[simp] theorem advance_hinLen (d : Nat) : (advance d s).hinLen = s.hinLen := rfl
@[simp] theorem advance_houtLen (d : Nat) : (advance d s).houtLen = s.houtLen := rfl
@[simp] theorem advance_baud (d : Nat) : (advance d s).baud = s.baud := rfl
@[simp] theorem advance_fmLen (d : Nat) : (advance d s).fmLen = s.fmLen := rfl
@[simp] theorem advance_odr (d : Nat) : (advance d s).odr = s.odr := rfl
@[simp] theorem advance_hin (d : Nat) : (advance d s).hin = s.hin := rfl
@[simp] theorem advance_hout (d : Nat) : (advance d s).hout = s.hout := rfl
@[simp] theorem advance_rxq (d : Nat) : (advance d s).rxq = s.rxq := rfl
@[simp] theorem advance_stream (d : Nat) : (advance d s).stream = s.stream := rfl
@[simp] theorem advance_corr (d : Nat) : (advance d s).corr = s.corr := rfl
@[simp] theorem advance_ackr (d : Nat) : (advance d s).ackr = s.ackr := rfl
@[simp] theorem advance_upg (d : Nat) : (advance d s).upg = s.upg := rfl
@[simp] theorem advance_now (d : Nat) : (advance d s).now = s.now + d := rfl
@[simp] theorem advance_linkOk (d : Nat) : (advance d s).linkOk = s.linkOk := rfl
@[simp] theorem advance_hist (d : Nat) : (advance d s).hist = s.hist := rfl
@[simp] theorem advance_cfg (d : Nat) : (advance d s).cfg = s.cfg := rfl
@[simp] theorem advance_schedule (d : Nat) : (advance d s).schedule = s.schedule := rfl
@[simp] theorem advance_hostData (d : Nat) : (advance d s).hostData = s.hostData := rfl

/-! ### Fields after an action put back -/

@[simp] theorem postpone_status (a : Action) : (postpone a s).status = s.status := rfl
@[simp] theorem postpone_res0 (a : Action) : (postpone a s).res0 = s.res0 := rfl
@[simp] theorem postpone_res1 (a : Action) : (postpone a s).res1 = s.res1 := rfl
@[simp] theorem postpone_hinLen (a : Action) : (postpone a s).hinLen = s.hinLen := rfl
@[simp] theorem postpone_houtLen (a : Action) : (postpone a s).houtLen = s.houtLen := rfl
@[simp] theorem postpone_baud (a : Action) : (postpone a s).baud = s.baud := rfl
@[simp] theorem postpone_fmLen (a : Action) : (postpone a s).fmLen = s.fmLen := rfl
@[simp] theorem postpone_odr (a : Action) : (postpone a s).odr = s.odr := rfl
@[simp] theorem postpone_hin (a : Action) : (postpone a s).hin = s.hin := rfl
@[simp] theorem postpone_hout (a : Action) : (postpone a s).hout = s.hout := rfl
@[simp] theorem postpone_rxq (a : Action) : (postpone a s).rxq = s.rxq := rfl
@[simp] theorem postpone_stream (a : Action) : (postpone a s).stream = s.stream := rfl
@[simp] theorem postpone_corr (a : Action) : (postpone a s).corr = s.corr := rfl
@[simp] theorem postpone_ackr (a : Action) : (postpone a s).ackr = s.ackr := rfl
@[simp] theorem postpone_upg (a : Action) : (postpone a s).upg = s.upg := rfl
@[simp] theorem postpone_now (a : Action) : (postpone a s).now = s.now := rfl
@[simp] theorem postpone_linkOk (a : Action) : (postpone a s).linkOk = s.linkOk := rfl
@[simp] theorem postpone_hist (a : Action) : (postpone a s).hist = s.hist := rfl
@[simp] theorem postpone_cfg (a : Action) : (postpone a s).cfg = s.cfg := rfl
@[simp] theorem postpone_schedule (a : Action) : (postpone a s).schedule = a :: s.schedule := rfl
@[simp] theorem postpone_hostData (a : Action) : (postpone a s).hostData = s.hostData := rfl

/-! ### Fields after the set_quiet exchange of an upgrade -/

@[simp] theorem startQuiet_status : (startQuiet s).status = s.status := rfl
@[simp] theorem startQuiet_res0 : (startQuiet s).res0 = s.res0 := rfl
@[simp] theorem startQuiet_res1 : (startQuiet s).res1 = s.res1 := rfl
@[simp] theorem startQuiet_hinLen : (startQuiet s).hinLen = s.hinLen := rfl
@[simp] theorem startQuiet_houtLen : (startQuiet s).houtLen = s.houtLen := rfl
@[simp] theorem startQuiet_baud : (startQuiet s).baud = s.baud := rfl
@[simp] theorem startQuiet_fmLen : (startQuiet s).fmLen = s.fmLen := rfl
@[simp] theorem startQuiet_odr : (startQuiet s).odr = s.odr := rfl
@[simp] theorem startQuiet_hin : (startQuiet s).hin = s.hin := rfl
@[simp] theorem startQuiet_hout : (startQuiet s).hout = s.hout := rfl
@[simp] theorem startQuiet_rxq : (startQuiet s).rxq = [] := rfl
@[simp] theorem startQuiet_stream : (startQuiet s).stream = s.stream := rfl
@[simp] theorem startQuiet_corr :
    (startQuiet s).corr =
      { phase := .wait, req := envelope codeSF (s.cfg.quietPayload.getD []), mode := .std, deadline := s.now + Config.respTimeoutMs, buf := [], client := .upg } := rfl
@[simp] theorem startQuiet_ackr : (startQuiet s).ackr = s.ackr := rfl
@[simp] theorem startQuiet_upg : (startQuiet s).upg = s.upg := rfl
@[simp] theorem startQuiet_now : (startQuiet s).now = s.now := rfl
@[simp] theorem startQuiet_linkOk : (startQuiet s).linkOk = s.linkOk := rfl
@[simp] theorem startQuiet_hist :
    (startQuiet s).hist =
      s.hist ++ [.tx (envelope codeSF (s.cfg.quietPayload.getD [])) s.baud s.now] := rfl
@[simp] theorem startQuiet_cfg : (startQuiet s).cfg = s.cfg := rfl
@[simp] theorem startQuiet_schedule : (startQuiet s).schedule = s.schedule := rfl
@[simp] theorem startQuiet_hostData : (startQuiet s).hostData = s.hostData := rfl

/-! ### Fields after the start of an upgrade session -/

@[simp] theorem beginSession_status (img : Bytes) : (beginSession img s).status = s.status := rfl
@[simp] theorem beginSession_res0 (img : Bytes) : (beginSession img s).res0 = s.res0 := rfl
@[simp] theorem beginSession_res1 (img : Bytes) : (beginSession img s).res1 = s.res1 := rfl
@[simp] theorem beginSession_hinLen (img : Bytes) : (beginSession img s).hinLen = s.hinLen := rfl
@[simp] theorem beginSession_houtLen (img : Bytes) : (beginSession img s).houtLen = s.houtLen := rfl
@[simp] theorem beginSession_baud (img : Bytes) : (beginSession img s).baud = s.baud := rfl
@[simp] theorem beginSession_fmLen (img : Bytes) : (beginSession img s).fmLen = s.fmLen := rfl
@[simp] theorem beginSession_odr (img : Bytes) : (beginSession img s).odr = s.odr := rfl
@[simp] theorem beginSession_hin (img : Bytes) : (beginSession img s).hin = s.hin := rfl
@[simp] theorem beginSession_hout (img : Bytes) : (beginSession img s).hout = s.hout := rfl
@[simp] theorem beginSession_rxq (img : Bytes) : (beginSession img s).rxq = s.rxq := rfl
@[simp] theorem beginSession_stream (img : Bytes) : (beginSession img s).stream = s.stream := rfl
@[simp] theorem beginSession_corr (img : Bytes) : (beginSession img s).corr = s.corr := rfl
@[simp] theorem beginSession_ackr (img : Bytes) : (beginSession img s).ackr = s.ackr := rfl
@[simp] theorem beginSession_upg (img : Bytes) :
    (beginSession img s).upg =
      { stage := .idle, session := true, failStage := .idle, written := 0, total := BitVec.ofNat 32 (padImage img).length, progress := 0, img := padImage img, phase := .q1, deadline := s.upg.deadline, chunk := s.upg.chunk } := rfl
@[simp] theorem beginSession_now (img : Bytes) : (beginSession img s).now = s.now := rfl
@[simp] theorem beginSession_linkOk (img : Bytes) : (beginSession img s).linkOk = s.linkOk := rfl
@[simp] theorem beginSession_hist (img : Bytes) : (beginSession img s).hist = s.hist := rfl
@[simp] theorem beginSession_cfg (img : Bytes) : (beginSession img s).cfg = s.cfg := rfl
@[simp] theorem beginSession_schedule (img : Bytes) : (beginSession img s).schedule = s.schedule := rfl
@[simp] theorem beginSession_hostData (img : Bytes) : (beginSession img s).hostData = s.hostData := rfl

/-! ### Fields after the end of an upgrade session -/

@[simp] theorem endSession_status : (endSession s).status = { s.status with owner := .none, busy := false } := rfl
@[simp] theorem endSession_res0 : (endSession s).res0 = s.res0 := rfl
@[simp] theorem endSession_res1 : (endSession s).res1 = s.res1 := rfl
@[simp] theorem endSession_hinLen : (endSession s).hinLen = s.hinLen := rfl
@[simp] theorem endSession_houtLen : (endSession s).houtLen = s.houtLen := rfl
@[simp] theorem endSession_baud : (endSession s).baud = s.baud := rfl
@[simp] theorem endSession_fmLen : (endSession s).fmLen = s.fmLen := rfl
@[simp] theorem endSession_odr : (endSession s).odr = s.odr := rfl
@[simp] theorem endSession_hin : (endSession s).hin = s.hin := rfl
@[simp] theorem endSession_hout : (endSession s).hout = s.hout := rfl
@[simp] theorem endSession_rxq : (endSession s).rxq = s.rxq := rfl
@[simp] theorem endSession_stream : (endSession s).stream = s.stream := rfl
@[simp] theorem endSession_corr : (endSession s).corr = s.corr := rfl
@[simp] theorem endSession_ackr : (endSession s).ackr = { s.ackr with phase := .idle } := rfl
@[simp] theorem endSession_upg : (endSession s).upg = { s.upg with session := false, phase := .none } := rfl
@[simp] theorem endSession_now : (endSession s).now = s.now := rfl
@[simp] theorem endSession_linkOk : (endSession s).linkOk = s.linkOk := rfl
@[simp] theorem endSession_hist : (endSession s).hist = s.hist := rfl
@[simp] theorem endSession_cfg : (endSession s).cfg = s.cfg := rfl
@[simp] theorem endSession_schedule : (endSession s).schedule = s.schedule := rfl
@[simp] theorem endSession_hostData : (endSession s).hostData = s.hostData := rfl

/-! ### Fields after a failed upgrade -/

@[simp] theorem failUpgrade_status (e : ErrorCode) :
    (failUpgrade e s).status =
      { busy := false, done := true, err := true, rej := s.status.rej, errcode := e, owner := .none } := rfl
@[simp] theorem failUpgrade_res0 (e : ErrorCode) : (failUpgrade e s).res0 = s.res0 := rfl
@[simp] theorem failUpgrade_res1 (e : ErrorCode) : (failUpgrade e s).res1 = s.res1 := rfl
@[simp] theorem failUpgrade_hinLen (e : ErrorCode) : (failUpgrade e s).hinLen = s.hinLen := rfl
@[simp] theorem failUpgrade_houtLen (e : ErrorCode) : (failUpgrade e s).houtLen = s.houtLen := rfl
@[simp] theorem failUpgrade_baud (e : ErrorCode) : (failUpgrade e s).baud = s.baud := rfl
@[simp] theorem failUpgrade_fmLen (e : ErrorCode) : (failUpgrade e s).fmLen = s.fmLen := rfl
@[simp] theorem failUpgrade_odr (e : ErrorCode) : (failUpgrade e s).odr = s.odr := rfl
@[simp] theorem failUpgrade_hin (e : ErrorCode) : (failUpgrade e s).hin = s.hin := rfl
@[simp] theorem failUpgrade_hout (e : ErrorCode) : (failUpgrade e s).hout = s.hout := rfl
@[simp] theorem failUpgrade_rxq (e : ErrorCode) : (failUpgrade e s).rxq = s.rxq := rfl
@[simp] theorem failUpgrade_stream (e : ErrorCode) : (failUpgrade e s).stream = s.stream := rfl
@[simp] theorem failUpgrade_corr (e : ErrorCode) : (failUpgrade e s).corr = s.corr := rfl
@[simp] theorem failUpgrade_ackr (e : ErrorCode) : (failUpgrade e s).ackr = { s.ackr with phase := .idle } := rfl
@[simp] theorem failUpgrade_upg (e : ErrorCode) :
    (failUpgrade e s).upg =
      { s.upg with failStage := s.upg.stage, stage := .failed, session := false, phase := .none } := rfl
@[simp] theorem failUpgrade_now (e : ErrorCode) : (failUpgrade e s).now = s.now := rfl
@[simp] theorem failUpgrade_linkOk (e : ErrorCode) : (failUpgrade e s).linkOk = s.linkOk := rfl
@[simp] theorem failUpgrade_hist (e : ErrorCode) :
    (failUpgrade e s).hist =
      s.hist ++ [.done opcUpgStart e s.now] := rfl
@[simp] theorem failUpgrade_cfg (e : ErrorCode) : (failUpgrade e s).cfg = s.cfg := rfl
@[simp] theorem failUpgrade_schedule (e : ErrorCode) : (failUpgrade e s).schedule = s.schedule := rfl
@[simp] theorem failUpgrade_hostData (e : ErrorCode) : (failUpgrade e s).hostData = s.hostData := rfl

/-! ### Fields after a completed upgrade -/

@[simp] theorem completeUpgrade_status :
    (completeUpgrade s).status =
      { busy := false, done := true, err := false, rej := s.status.rej, errcode := .none, owner := .none } := rfl
@[simp] theorem completeUpgrade_res0 : (completeUpgrade s).res0 = s.upg.written := rfl
@[simp] theorem completeUpgrade_res1 : (completeUpgrade s).res1 = s.upg.total := rfl
@[simp] theorem completeUpgrade_hinLen : (completeUpgrade s).hinLen = s.hinLen := rfl
@[simp] theorem completeUpgrade_houtLen : (completeUpgrade s).houtLen = s.houtLen := rfl
@[simp] theorem completeUpgrade_baud : (completeUpgrade s).baud = s.baud := rfl
@[simp] theorem completeUpgrade_fmLen : (completeUpgrade s).fmLen = s.fmLen := rfl
@[simp] theorem completeUpgrade_odr : (completeUpgrade s).odr = s.odr := rfl
@[simp] theorem completeUpgrade_hin : (completeUpgrade s).hin = s.hin := rfl
@[simp] theorem completeUpgrade_hout : (completeUpgrade s).hout = s.hout := rfl
@[simp] theorem completeUpgrade_rxq : (completeUpgrade s).rxq = s.rxq := rfl
@[simp] theorem completeUpgrade_stream : (completeUpgrade s).stream = s.stream := rfl
@[simp] theorem completeUpgrade_corr : (completeUpgrade s).corr = s.corr := rfl
@[simp] theorem completeUpgrade_ackr : (completeUpgrade s).ackr = { s.ackr with phase := .idle } := rfl
@[simp] theorem completeUpgrade_upg : (completeUpgrade s).upg = { s.upg with session := false, phase := .none } := rfl
@[simp] theorem completeUpgrade_now : (completeUpgrade s).now = s.now := rfl
@[simp] theorem completeUpgrade_linkOk : (completeUpgrade s).linkOk = s.linkOk := rfl
@[simp] theorem completeUpgrade_hist : (completeUpgrade s).hist = s.hist ++ [.done opcUpgStart .none s.now] := rfl
@[simp] theorem completeUpgrade_cfg : (completeUpgrade s).cfg = s.cfg := rfl
@[simp] theorem completeUpgrade_schedule : (completeUpgrade s).schedule = s.schedule := rfl
@[simp] theorem completeUpgrade_hostData : (completeUpgrade s).hostData = s.hostData := rfl

/-! ### Fields after `send_block` -/

@[simp] theorem sendBlock_status (o : Nat) : (sendBlock o s).status = s.status := rfl
@[simp] theorem sendBlock_res0 (o : Nat) : (sendBlock o s).res0 = s.res0 := rfl
@[simp] theorem sendBlock_res1 (o : Nat) : (sendBlock o s).res1 = s.res1 := rfl
@[simp] theorem sendBlock_hinLen (o : Nat) : (sendBlock o s).hinLen = s.hinLen := rfl
@[simp] theorem sendBlock_houtLen (o : Nat) : (sendBlock o s).houtLen = s.houtLen := rfl
@[simp] theorem sendBlock_baud (o : Nat) : (sendBlock o s).baud = s.baud := rfl
@[simp] theorem sendBlock_fmLen (o : Nat) : (sendBlock o s).fmLen = s.fmLen := rfl
@[simp] theorem sendBlock_odr (o : Nat) : (sendBlock o s).odr = s.odr := rfl
@[simp] theorem sendBlock_hin (o : Nat) : (sendBlock o s).hin = s.hin := rfl
@[simp] theorem sendBlock_hout (o : Nat) : (sendBlock o s).hout = s.hout := rfl
@[simp] theorem sendBlock_rxq (o : Nat) : (sendBlock o s).rxq = [] := rfl
@[simp] theorem sendBlock_stream (o : Nat) : (sendBlock o s).stream = s.stream := rfl
@[simp] theorem sendBlock_corr (o : Nat) : (sendBlock o s).corr = s.corr := rfl
@[simp] theorem sendBlock_ackr (o : Nat) : (sendBlock o s).ackr = s.ackr := rfl
@[simp] theorem sendBlock_upg (o : Nat) :
    (sendBlock o s).upg =
      { s.upg with chunk := min Config.chunkMax (s.upg.total.toNat - o), stage := .writing, deadline := s.now + (if o = 0 then Config.eraseMs else Config.blockMs), phase := .bw } := rfl
@[simp] theorem sendBlock_now (o : Nat) : (sendBlock o s).now = s.now := rfl
@[simp] theorem sendBlock_linkOk (o : Nat) : (sendBlock o s).linkOk = s.linkOk := rfl
@[simp] theorem sendBlock_hist (o : Nat) :
    (sendBlock o s).hist =
      s.hist ++ [.tx (blockRequest o (slice s.upg.img o (o + min Config.chunkMax (s.upg.total.toNat - o)))) s.baud s.now] := rfl
@[simp] theorem sendBlock_cfg (o : Nat) : (sendBlock o s).cfg = s.cfg := rfl
@[simp] theorem sendBlock_schedule (o : Nat) : (sendBlock o s).schedule = s.schedule := rfl
@[simp] theorem sendBlock_hostData (o : Nat) : (sendBlock o s).hostData = s.hostData := rfl

/-! ### Fields after an acknowledged block -/

@[simp] theorem recordBlock_status : (recordBlock s).status = s.status := rfl
@[simp] theorem recordBlock_res0 : (recordBlock s).res0 = s.res0 := rfl
@[simp] theorem recordBlock_res1 : (recordBlock s).res1 = s.res1 := rfl
@[simp] theorem recordBlock_hinLen : (recordBlock s).hinLen = s.hinLen := rfl
@[simp] theorem recordBlock_houtLen : (recordBlock s).houtLen = s.houtLen := rfl
@[simp] theorem recordBlock_baud : (recordBlock s).baud = s.baud := rfl
@[simp] theorem recordBlock_fmLen : (recordBlock s).fmLen = s.fmLen := rfl
@[simp] theorem recordBlock_odr : (recordBlock s).odr = s.odr := rfl
@[simp] theorem recordBlock_hin : (recordBlock s).hin = s.hin := rfl
@[simp] theorem recordBlock_hout : (recordBlock s).hout = s.hout := rfl
@[simp] theorem recordBlock_rxq : (recordBlock s).rxq = s.rxq := rfl
@[simp] theorem recordBlock_stream : (recordBlock s).stream = s.stream := rfl
@[simp] theorem recordBlock_corr : (recordBlock s).corr = s.corr := rfl
@[simp] theorem recordBlock_ackr : (recordBlock s).ackr = s.ackr := rfl
@[simp] theorem recordBlock_upg :
    (recordBlock s).upg =
      { s.upg with written := s.upg.written + BitVec.ofNat 32 s.upg.chunk, progress := BitVec.ofNat 7 (progressOf { s.upg with written := s.upg.written + BitVec.ofNat 32 s.upg.chunk }) } := rfl
@[simp] theorem recordBlock_now : (recordBlock s).now = s.now := rfl
@[simp] theorem recordBlock_linkOk : (recordBlock s).linkOk = s.linkOk := rfl
@[simp] theorem recordBlock_hist :
    (recordBlock s).hist =
      s.hist ++ [.progress (progressOf { s.upg with written := s.upg.written + BitVec.ofNat 32 s.upg.chunk }) s.now] := rfl
@[simp] theorem recordBlock_cfg : (recordBlock s).cfg = s.cfg := rfl
@[simp] theorem recordBlock_schedule : (recordBlock s).schedule = s.schedule := rfl
@[simp] theorem recordBlock_hostData : (recordBlock s).hostData = s.hostData := rfl

/-! ### Fields after the read of an iteration -/

@[simp] theorem readLink_status : (readLink s).status = s.status := rfl
@[simp] theorem readLink_res0 : (readLink s).res0 = s.res0 := rfl
@[simp] theorem readLink_res1 : (readLink s).res1 = s.res1 := rfl
@[simp] theorem readLink_hinLen : (readLink s).hinLen = s.hinLen := rfl
@[simp] theorem readLink_houtLen : (readLink s).houtLen = s.houtLen := rfl
@[simp] theorem readLink_baud : (readLink s).baud = s.baud := rfl
@[simp] theorem readLink_fmLen : (readLink s).fmLen = s.fmLen := rfl
@[simp] theorem readLink_odr : (readLink s).odr = s.odr := rfl
@[simp] theorem readLink_hin : (readLink s).hin = s.hin := rfl
@[simp] theorem readLink_hout : (readLink s).hout = s.hout := rfl
@[simp] theorem readLink_rxq : (readLink s).rxq = s.rxq.drop s.cfg.nRead := rfl
@[simp] theorem readLink_stream :
    (readLink s).stream =
      { s.stream with acc := s.stream.acc ++ s.rxq.take s.cfg.nRead } := rfl
@[simp] theorem readLink_corr : (readLink s).corr = s.corr := rfl
@[simp] theorem readLink_ackr : (readLink s).ackr = s.ackr := rfl
@[simp] theorem readLink_upg : (readLink s).upg = s.upg := rfl
@[simp] theorem readLink_now : (readLink s).now = s.now := rfl
@[simp] theorem readLink_linkOk : (readLink s).linkOk = s.linkOk := rfl
@[simp] theorem readLink_hist : (readLink s).hist = s.hist := rfl
@[simp] theorem readLink_cfg : (readLink s).cfg = s.cfg := rfl
@[simp] theorem readLink_schedule : (readLink s).schedule = s.schedule := rfl
@[simp] theorem readLink_hostData : (readLink s).hostData = s.hostData := rfl

/-! ### Fields after `init_failure` -/

@[simp] theorem initFailure_status : (initFailure s).status = { s.status with owner := .none } := rfl
@[simp] theorem initFailure_res0 : (initFailure s).res0 = s.res0 := rfl
@[simp] theorem initFailure_res1 : (initFailure s).res1 = s.res1 := rfl
@[simp] theorem initFailure_hinLen : (initFailure s).hinLen = s.hinLen := rfl
@[simp] theorem initFailure_houtLen : (initFailure s).houtLen = s.houtLen := rfl
@[simp] theorem initFailure_baud : (initFailure s).baud = s.baud := rfl
@[simp] theorem initFailure_fmLen : (initFailure s).fmLen = s.fmLen := rfl
@[simp] theorem initFailure_odr : (initFailure s).odr = s.odr := rfl
@[simp] theorem initFailure_hin : (initFailure s).hin = s.hin := rfl
@[simp] theorem initFailure_hout : (initFailure s).hout = s.hout := rfl
@[simp] theorem initFailure_rxq : (initFailure s).rxq = s.rxq := rfl
@[simp] theorem initFailure_stream :
    (initFailure s).stream =
      { s.stream with active := false, wdArmed := false, initFail := true, q := [], acc := [] } := rfl
@[simp] theorem initFailure_corr : (initFailure s).corr = s.corr := rfl
@[simp] theorem initFailure_ackr : (initFailure s).ackr = s.ackr := rfl
@[simp] theorem initFailure_upg : (initFailure s).upg = s.upg := rfl
@[simp] theorem initFailure_now : (initFailure s).now = s.now := rfl
@[simp] theorem initFailure_linkOk : (initFailure s).linkOk = s.linkOk := rfl
@[simp] theorem initFailure_hist : (initFailure s).hist = s.hist ++ [.initFail s.now] := rfl
@[simp] theorem initFailure_cfg : (initFailure s).cfg = s.cfg := rfl
@[simp] theorem initFailure_schedule : (initFailure s).schedule = s.schedule := rfl
@[simp] theorem initFailure_hostData : (initFailure s).hostData = s.hostData := rfl

/-! ### Fields after a watchdog restart -/

@[simp] theorem watchdogRestart_status : (watchdogRestart s).status = s.status := rfl
@[simp] theorem watchdogRestart_res0 : (watchdogRestart s).res0 = s.res0 := rfl
@[simp] theorem watchdogRestart_res1 : (watchdogRestart s).res1 = s.res1 := rfl
@[simp] theorem watchdogRestart_hinLen : (watchdogRestart s).hinLen = s.hinLen := rfl
@[simp] theorem watchdogRestart_houtLen : (watchdogRestart s).houtLen = s.houtLen := rfl
@[simp] theorem watchdogRestart_baud : (watchdogRestart s).baud = s.baud := rfl
@[simp] theorem watchdogRestart_fmLen : (watchdogRestart s).fmLen = s.fmLen := rfl
@[simp] theorem watchdogRestart_odr : (watchdogRestart s).odr = s.odr := rfl
@[simp] theorem watchdogRestart_hin : (watchdogRestart s).hin = s.hin := rfl
@[simp] theorem watchdogRestart_hout : (watchdogRestart s).hout = s.hout := rfl
@[simp] theorem watchdogRestart_rxq : (watchdogRestart s).rxq = [] := rfl
@[simp] theorem watchdogRestart_stream :
    (watchdogRestart s).stream =
      { s.stream with acc := [], wdAttempt := s.stream.wdAttempt + 1, wdStart := s.now } := rfl
@[simp] theorem watchdogRestart_corr : (watchdogRestart s).corr = s.corr := rfl
@[simp] theorem watchdogRestart_ackr : (watchdogRestart s).ackr = s.ackr := rfl
@[simp] theorem watchdogRestart_upg : (watchdogRestart s).upg = s.upg := rfl
@[simp] theorem watchdogRestart_now : (watchdogRestart s).now = s.now := rfl
@[simp] theorem watchdogRestart_linkOk : (watchdogRestart s).linkOk = s.linkOk := rfl
@[simp] theorem watchdogRestart_hist :
    (watchdogRestart s).hist =
      s.hist ++ [.wdRestart (s.stream.wdAttempt + 1).toNat s.now] := rfl
@[simp] theorem watchdogRestart_cfg : (watchdogRestart s).cfg = s.cfg := rfl
@[simp] theorem watchdogRestart_schedule : (watchdogRestart s).schedule = s.schedule := rfl
@[simp] theorem watchdogRestart_hostData : (watchdogRestart s).hostData = s.hostData := rfl

end Sys2Proof.Machine
end

