-- ==== Sys2Proof/Laws/Ops.lean ====
section
/-! SUPPORT. What each shared operation does, said once: issue, the link checks, an exchange's request, the operand
forms, and what HOUT holds (60_exceptions.md R361, R362, R365; 44_correlator.md R247). -/

namespace Sys2Proof.Machine

/-! ## Issue and the link checks -/

/-- A busy block drops the operation (60_exceptions.md R362). -/
theorem State.issue_busy {s : State} {body : State → State} (h : s.status.busy = true) :
    s.issue body = { s with status := { s.status with rej := true } } := by
  unfold State.issue
  rw [if_pos h]
  rfl

/-- A block that is not busy runs the operation on the cleared status (60_exceptions.md R361). -/
theorem State.issue_ready {s : State} {body : State → State} (h : s.status.busy = false) :
    s.issue body = body s.clearStatus := by
  unfold State.issue
  rw [if_neg (by simp [h])]

/-- Every way an issue can go, for a property of states. -/
theorem State.issue_cases {p : State → Prop} {s : State} {body : State → State} (hr : p s.reject)
    (hb : s.status.busy = false → p (body s.clearStatus)) : p (s.issue body) := by
  unfold State.issue
  split
  · exact hr
  · exact hb (by simpa using ‹¬s.status.busy = true›)

/-- Every way the link checks can go (60_exceptions.md R365). -/
theorem State.openLink_cases {p : State → Prop} {s : State} {opc : Byte} {body : State → State}
    (hr : ∀ e, p (s.raise opc e)) (hb : s.status.owner = .none → s.linkOk = true → p (body s)) :
    p (s.openLink opc body) := by
  unfold State.openLink
  split
  · exact hr _
  · rename_i ho
    split
    · exact hb (by simpa using ho) ‹_›
    · exact hr _

theorem State.openLink_owned {s : State} {opc : Byte} {body : State → State} (h : s.status.owner ≠ .none) :
    s.openLink opc body = s.raise opc .resourceOwned := by
  unfold State.openLink
  rw [if_pos h]

theorem State.openLink_closed {s : State} {opc : Byte} {body : State → State} (h : s.status.owner = .none)
    (hl : s.linkOk = false) : s.openLink opc body = s.raise opc .sourceUnavailable := by
  unfold State.openLink
  rw [if_neg (by simp [h]), if_neg (by simp [hl])]

theorem State.openLink_open {s : State} {opc : Byte} {body : State → State} (h : s.status.owner = .none)
    (hl : s.linkOk = true) : s.openLink opc body = body s := by
  unfold State.openLink
  rw [if_neg (by simp [h]), if_pos hl]

/-- An operation that ends in the link checks is refused by them as `refusedByLink` says. -/
theorem refusedByLink_of {opc : Byte} {i : Instr} {s : State} {body : State → State}
    (h : exec i s = .next (s.clearStatus.openLink opc body)) : refusedByLink opc i s := by
  refine ⟨fun ho => ?_, fun ho hl => ?_⟩ <;> rw [h]
  · rw [State.openLink_owned (s := s.clearStatus) ho]
    rfl
  · rw [State.openLink_closed (s := s.clearStatus) ho hl]
    rfl

/-- The request of an exchange operation on a free and open link (44_correlator.md R247). -/
theorem issueExchange_ready {op : ExchangeOp} {speed : Option Word} {c : Code} {p : Bytes} {mode : MatchMode}
    {s : State} (ho : s.status.owner = .none) (hl : s.linkOk = true) :
    issueExchange op speed c p mode s.clearStatus =
      (match speed with | none => s | some v => s.atSpeed v).requested op mode (envelope c p) := by
  unfold issueExchange
  rw [State.openLink_open (s := s.clearStatus) ho hl]
  cases speed <;> simp only [startExchange, State.requested, State.claimLink, State.clearStatus, State.flushIn,
    State.transmit, State.emit, State.switchBaud, State.atSpeed, Config.respTimeoutMs]

/-! ## Operands -/

theorem tagOfCode_of_lt {n : Nat} (h : n < 7) : ∃ t, tagCode t = n ∧ tagOfCode n = some t := by
  match n, h with
  | 0, _ => exact ⟨.s1, rfl, rfl⟩
  | 1, _ => exact ⟨.s2, rfl, rfl⟩
  | 2, _ => exact ⟨.a1, rfl, rfl⟩
  | 3, _ => exact ⟨.a2, rfl, rfl⟩
  | 4, _ => exact ⟨.fm, rfl, rfl⟩
  | 5, _ => exact ⟨.s3, rfl, rfl⟩
  | 6, _ => exact ⟨.at, rfl, rfl⟩

theorem tagOfCode_of_ge {n : Nat} (h : 7 ≤ n) : tagOfCode n = none := by
  unfold tagOfCode
  split <;> first | omega | rfl

theorem regionOfCode_of_ge {n : Nat} (h : 3 ≤ n) : regionOfCode n = none := by
  unfold regionOfCode
  split <;> first | omega | rfl

/-- A legal FM length is at most 125 (42_registry.md R162). -/
theorem le_of_fmLegal {len : Nat} (h : fmLegal len = true) : len ≤ 125 := by
  simp only [fmLegal, Bool.and_eq_true, Bool.or_eq_true, decide_eq_true_eq, beq_iff_eq] at h
  omega

/-- The argument of GF and RF (44_correlator.md R249). -/
theorem idsArgOk_arg (s : State) :
    idsArgOk s.arg = true ↔ s.hinLen.toNat % 2 = 0 ∧ 2 ≤ s.hinLen.toNat ∧ s.hinLen.toNat ≤ 126 := by
  simp [idsArgOk, and_assoc]

/-- The argument of SF and WF (44_correlator.md R251). -/
theorem pairsArgOk_arg (s : State) :
    pairsArgOk s.arg = true ↔ s.hinLen.toNat % 4 = 0 ∧ 4 ≤ s.hinLen.toNat ∧ s.hinLen.toNat ≤ 252 := by
  simp [pairsArgOk, and_assoc]

/-! ## Results -/

/-- A result stored in `HOUT` is what the host reads there (20_memory.md R82). -/
theorem houtHolds_of {t : State} {r : Bytes} (h : t.hout = Memory.ofBytes r) : houtHolds r t := by
  intro i
  simp [houtByte, h]

theorem houtHolds_setHout (r : Bytes) (s : State) : houtHolds r (s.setHout r) := houtHolds_of rfl

/-- Every listed index of a result lies inside it. -/
theorem Memory.ofBytesAt_inside (s : Bytes) (k : Nat) : ∀ c ∈ Memory.ofBytesAt k s, k ≤ c.1 ∧ c.1 < k + s.length := by
  induction s generalizing k with
  | nil => simp [Memory.ofBytesAt]
  | cons b s ih =>
    intro c hc
    have key : c ∈ Memory.ofBytesAt (k + 1) s → k ≤ c.1 ∧ c.1 < k + (s.length + 1) := fun h => by
      have := ih (k + 1) c h
      omega
    simp only [Memory.ofBytesAt] at hc
    split at hc
    · exact key hc
    · rcases List.mem_cons.1 hc with h | h
      · subst h
        simp
      · exact key h

end Sys2Proof.Machine
end

