-- ==== Sys2Proof/Laws/PerInstr.lean ====
section
/-! SUPPORT. The families of statements made once per operation. `encodeMatchesTable`: the word of an operation has the
match value of its row of spec/opcode_table.json under the row's mask, so a word never encodes two rows. -/

namespace Sys2Proof.Laws

/-- The match value of an operation's row of spec/opcode_table.json. -/
def tableMatch : Instr → Word
  | .crc16 => 0x00000001
  | .sum8 => 0x00000002
  | .validate _ => 0x00000003
  | .desc _ => 0x00000004
  | .fmSet _ => 0x00000005
  | .decode _ => 0x00000006
  | .streamStart _ _ => 0x00000010
  | .streamStop => 0x00000011
  | .qpop => 0x00000012
  | .getProductInfo => 0x00000020
  | .getFields => 0x00000021
  | .readFields => 0x00000022
  | .writeFieldsTemp => 0x00000023
  | .writeFieldsPerm => 0x00000024
  | .setQuiet => 0x00000025
  | .restart => 0x00000026
  | .jumpBoot => 0x00000027
  | .jumpApp => 0x00000028
  | .lock _ => 0x00000029
  | .unlock _ => 0x0000002A
  | .upgStart => 0x00000030
  | .reset => 0x0000003F

/-- The mask of every row of spec/opcode_table.json: OPC and RSV. -/
def tableMask : Word := 0xFF0000FF

/-- Under the mask of the table the word of an operation is the match value of its row. -/
def encodeMatchesTable.Statement (i : Instr) : Prop := encode i &&& tableMask = tableMatch i

/-- The mask keeps the first and the last of a word's four bytes. -/
theorem append_and_tableMask (b a opc : Byte) : (0x00#8 ++ b ++ a ++ opc) &&& tableMask = 0x000000#24 ++ opc := by
  apply BitVec.eq_of_getLsbD_eq
  intro i hi
  have hm : tableMask.getLsbD i = (decide (i < 8) || decide (24 ≤ i)) := by
    revert i
    decide
  simp only [BitVec.getLsbD_and, BitVec.getLsbD_append, hm]
  by_cases h1 : i < 8
  · simp [h1]
  · by_cases h2 : i < 24
    · simp [h1, show ¬24 ≤ i by omega]
    · simp [h1, show ¬i - 8 < 8 by omega, show ¬i - 8 - 8 < 8 by omega]

/-- The statement for an operation whose opcode and match value are these. -/
theorem encodeMatchesTable_of {i : Instr} (opc : Byte) (m : Word) (ho : i.opcode = opc) (hm : tableMatch i = m)
    (h : 0x000000#24 ++ opc = m) : encodeMatchesTable.Statement i := by
  subst ho hm
  exact (append_and_tableMask _ _ _).trans h

theorem encodeMatchesTable.crc16 : encodeMatchesTable.Statement .crc16 :=
  encodeMatchesTable_of 0x01 0x00000001 rfl rfl (by decide)

theorem encodeMatchesTable.sum8 : encodeMatchesTable.Statement .sum8 :=
  encodeMatchesTable_of 0x02 0x00000002 rfl rfl (by decide)

theorem encodeMatchesTable.validate (tag : Nat) : encodeMatchesTable.Statement (.validate tag) :=
  encodeMatchesTable_of 0x03 0x00000003 rfl rfl (by decide)

theorem encodeMatchesTable.desc (tag : Nat) : encodeMatchesTable.Statement (.desc tag) :=
  encodeMatchesTable_of 0x04 0x00000004 rfl rfl (by decide)

theorem encodeMatchesTable.fmSet (length : Nat) : encodeMatchesTable.Statement (.fmSet length) :=
  encodeMatchesTable_of 0x05 0x00000005 rfl rfl (by decide)

theorem encodeMatchesTable.decode (tag : Nat) : encodeMatchesTable.Statement (.decode tag) :=
  encodeMatchesTable_of 0x06 0x00000006 rfl rfl (by decide)

theorem encodeMatchesTable.streamStart (tag : Nat) (watchdog : Bool) : encodeMatchesTable.Statement (.streamStart tag watchdog) :=
  encodeMatchesTable_of 0x10 0x00000010 rfl rfl (by decide)

theorem encodeMatchesTable.streamStop : encodeMatchesTable.Statement .streamStop :=
  encodeMatchesTable_of 0x11 0x00000011 rfl rfl (by decide)

theorem encodeMatchesTable.qpop : encodeMatchesTable.Statement .qpop :=
  encodeMatchesTable_of 0x12 0x00000012 rfl rfl (by decide)

theorem encodeMatchesTable.getProductInfo : encodeMatchesTable.Statement .getProductInfo :=
  encodeMatchesTable_of 0x20 0x00000020 rfl rfl (by decide)

theorem encodeMatchesTable.getFields : encodeMatchesTable.Statement .getFields :=
  encodeMatchesTable_of 0x21 0x00000021 rfl rfl (by decide)

theorem encodeMatchesTable.readFields : encodeMatchesTable.Statement .readFields :=
  encodeMatchesTable_of 0x22 0x00000022 rfl rfl (by decide)

theorem encodeMatchesTable.writeFieldsTemp : encodeMatchesTable.Statement .writeFieldsTemp :=
  encodeMatchesTable_of 0x23 0x00000023 rfl rfl (by decide)

theorem encodeMatchesTable.writeFieldsPerm : encodeMatchesTable.Statement .writeFieldsPerm :=
  encodeMatchesTable_of 0x24 0x00000024 rfl rfl (by decide)

theorem encodeMatchesTable.setQuiet : encodeMatchesTable.Statement .setQuiet :=
  encodeMatchesTable_of 0x25 0x00000025 rfl rfl (by decide)

theorem encodeMatchesTable.restart : encodeMatchesTable.Statement .restart :=
  encodeMatchesTable_of 0x26 0x00000026 rfl rfl (by decide)

theorem encodeMatchesTable.jumpBoot : encodeMatchesTable.Statement .jumpBoot :=
  encodeMatchesTable_of 0x27 0x00000027 rfl rfl (by decide)

theorem encodeMatchesTable.jumpApp : encodeMatchesTable.Statement .jumpApp :=
  encodeMatchesTable_of 0x28 0x00000028 rfl rfl (by decide)

theorem encodeMatchesTable.lock (region : Nat) : encodeMatchesTable.Statement (.lock region) :=
  encodeMatchesTable_of 0x29 0x00000029 rfl rfl (by decide)

theorem encodeMatchesTable.unlock (region : Nat) : encodeMatchesTable.Statement (.unlock region) :=
  encodeMatchesTable_of 0x2A 0x0000002A rfl rfl (by decide)

theorem encodeMatchesTable.upgStart : encodeMatchesTable.Statement .upgStart :=
  encodeMatchesTable_of 0x30 0x00000030 rfl rfl (by decide)

theorem encodeMatchesTable.reset : encodeMatchesTable.Statement .reset :=
  encodeMatchesTable_of 0x3F 0x0000003F rfl rfl (by decide)

end Sys2Proof.Laws
end

