-- ==== Sys2Proof/Laws/Synchronizer.lean ====
section
/-! SUPPORT. What a push, a scan and the read of an iteration do (43_synchronizer.md R193, R194, R196). -/

namespace Sys2Proof.Machine

/-! ## The queue -/

/-- A push with room in the queue. -/
theorem push_room {s : State} (f : Bytes) (h : s.stream.q = [] ∨ s.stream.q.length ≠ s.cap) :
    push f s = { s with
      stream := { s.stream with q := s.stream.q ++ [f] }
      hist := s.hist ++ [.push f s.now] } := by
  unfold push
  split
  · rename_i g rest hq
    rw [if_neg]
    · rfl
    · rcases h with h | h
      · rw [hq] at h
        cases h
      · exact h
  · rfl

/-- A push on a full queue evicts the oldest frame first. -/
theorem push_full {s : State} (f : Bytes) {g : Bytes} {rest : List Bytes} (hq : s.stream.q = g :: rest)
    (h : s.stream.q.length = s.cap) :
    push f s = { s with
      stream := { s.stream with q := rest ++ [f], evicted := s.stream.evicted + 1 }
      hist := s.hist ++ [.evict g s.now, .push f s.now] } := by
  unfold push
  split
  · rename_i g' rest' hq'
    rw [hq] at hq'
    cases hq'
    rw [if_pos h]
    simp [State.emit]
  · rename_i hq'
    rw [hq] at hq'
    cases hq'

/-- Every way a push can go. -/
theorem push_cases (f : Bytes) (s : State) :
    push f s = { s with
      stream := { s.stream with q := s.stream.q ++ [f] }
      hist := s.hist ++ [.push f s.now] } ∨
    ∃ g rest, s.stream.q = g :: rest ∧ s.stream.q.length = s.cap ∧ push f s = { s with
      stream := { s.stream with q := rest ++ [f], evicted := s.stream.evicted + 1 }
      hist := s.hist ++ [.evict g s.now, .push f s.now] } := by
  by_cases hr : s.stream.q = [] ∨ s.stream.q.length ≠ s.cap
  · exact .inl (push_room f hr)
  · rw [not_or, not_not] at hr
    cases hq : s.stream.q with
    | nil => exact absurd hq hr.1
    | cons g rest => exact .inr ⟨g, rest, rfl, by rw [← hq]; exact hr.2, push_full f hq hr.2⟩

/-- Pushes change the queue, the count of evictions and the history, and nothing else. -/
theorem pushAll_frame (fs : List Bytes) (s : State) :
    ∃ q e h, pushAll fs s = { s with stream := { s.stream with q := q, evicted := e }, hist := h } := by
  induction fs generalizing s with
  | nil => exact ⟨_, _, _, rfl⟩
  | cons f fs ih =>
    have h1 : ∃ q e h, push f s = { s with stream := { s.stream with q := q, evicted := e }, hist := h } := by
      rcases push_cases f s with h | ⟨_, _, _, _, h⟩ <;> rw [h] <;> exact ⟨_, _, _, rfl⟩
    obtain ⟨q, e, h, h1⟩ := h1
    obtain ⟨q2, e2, h2, h3⟩ := ih (push f s)
    refine ⟨q2, e2, h2, ?_⟩
    show pushAll fs (push f s) = _
    rw [h3, h1]

/-- A push does not look at `rxq`, `acc` or `CRC_FAIL`. -/
theorem push_with (f : Bytes) (s : State) (rx a : Bytes) (c : Word) :
    push f { s with rxq := rx, stream := { s.stream with acc := a, crcFail := c } } =
      { push f s with rxq := rx, stream := { (push f s).stream with acc := a, crcFail := c } } := by
  by_cases hr : s.stream.q = [] ∨ s.stream.q.length ≠ s.cap
  · have e := push_room (s := { s with rxq := rx, stream := { s.stream with acc := a, crcFail := c } }) f hr
    rw [push_room f hr]
    exact e
  · rw [not_or, not_not] at hr
    cases hq : s.stream.q with
    | nil => exact absurd hq hr.1
    | cons g rest =>
      have e := push_full (s := { s with rxq := rx, stream := { s.stream with acc := a, crcFail := c } }) f hq hr.2
      rw [push_full f hq hr.2]
      exact e

theorem pushAll_with (fs : List Bytes) (s : State) (rx a : Bytes) (c : Word) :
    pushAll fs { s with rxq := rx, stream := { s.stream with acc := a, crcFail := c } } =
      { pushAll fs s with rxq := rx, stream := { (pushAll fs s).stream with acc := a, crcFail := c } } := by
  induction fs generalizing s with
  | nil => rfl
  | cons f fs ih =>
    show pushAll fs (push f _) = _
    rw [push_with]
    exact ih (push f s)

/-! ## The scan -/

theorem sync_length_ge (t : Tag) (len : Nat) : 3 ≤ (descriptor t len).sync.length := by cases t <;> simp [descriptor]

/-- A valid frame is not empty: it opens with its sync bytes. -/
theorem length_pos_of_frameValid {t : Tag} {len : Nat} {f : Bytes} (h : frameValid t len f = true) : 1 ≤ f.length := by
  simp only [frameValid, frameShapeOk, Bool.and_eq_true, List.isPrefixOf_iff_prefix] at h
  have := h.1.2.length_le
  have := sync_length_ge t len
  omega

/-- Every frame a scan gives is valid. -/
theorem frameValid_of_scanLoop {t : Tag} {len n : Nat} {acc : Bytes} :
    ∀ f ∈ (scanLoop t len n acc).frames, frameValid t len f = true := by
  induction n generalizing acc with
  | zero => simp [scanLoop]
  | succ n ih =>
    simp only [scanLoop]
    split
    · simp
    · split
      · simp
      · split
        · simp
        · split
          · rename_i hv
            intro f hf
            rcases List.mem_cons.1 hf with rfl | hf
            · exact hv
            · exact ih f hf
          · exact ih

/-- The scan needs no more rounds than there are bytes, and one. -/
theorem scanLoop_fuel {t : Tag} {len n m : Nat} {acc : Bytes} (hn : acc.length < n) (hm : acc.length < m) :
    scanLoop t len n acc = scanLoop t len m acc := by
  induction n generalizing m acc with
  | zero => omega
  | succ n ih =>
    rcases m with _ | m
    · omega
    simp only [scanLoop]
    split
    · rfl
    split
    · rfl
    rename_i p hp
    have hs := sync_length_ge t len
    have := find_inside (by intro h; simp [h] at hs) hp
    split
    · rfl
    split
    · rename_i hv
      have hv := length_pos_of_frameValid hv
      have : 1 ≤ len := by
        simp [slice] at hv
        omega
      rw [ih (m := m)] <;> simp <;> omega
    · rw [ih (m := m)] <;> simp <;> omega

/-- The read and the scan of an iteration, as one update. -/
theorem scanAcc_readLink (s : State) : scanAcc (readLink s) =
    let r := scan s.stream.tag s.stream.len (s.stream.acc ++ s.rxq.take s.cfg.nRead)
    { pushAll r.frames s with
      rxq := s.rxq.drop s.cfg.nRead
      stream := { (pushAll r.frames s).stream with
        acc := r.residue
        crcFail := s.stream.crcFail + BitVec.ofNat 32 r.fails } } := by
  unfold scanAcc readLink
  exact pushAll_with _ s _ _ _

end Sys2Proof.Machine
end

