-- ==== Sys2Proof/Tests/Slice0.lean ====
section
/-! SUPPORT. Tests: the well-formedness smoke tests, the decoding of words written out from 30_encoding.md R100 and
R101, one step of each operation with its result from 95_test_vectors.md, and for each statement with hypotheses a
state and operands that meet them. -/

open Sys2Proof Sys2Proof.Machine

namespace Sys2Proof.Tests

-- One theorem at a time: the kernel evaluations of many at once need more memory than the check allows.
set_option Elab.async false

/-! ## Small states -/

/-- The parameters of 95_test_vectors.md section 0. -/
def vectors : Config :=
  { nRead := 64, initBaud := 115200, maxImage := 2048, hbufSize := 4096, gpidMatch := .literal57
    quietPayload := some [0x01, 0x00, 0x01, 0x00, 0x00], lockCode := ⟨none, none, none⟩
    unlockCode := ⟨none, none, none⟩, lockPayload := ⟨none, none, none⟩, unlockKey := none, specialFieldId := none
    layoutS2 := none, layoutA1 := none, layoutA2 := none, layoutS3 := none, layoutAT := none, fmScale := none
    s1TempScale := none }

/-- The same with the region codes, the key and the special field id configured. -/
def configured : Config :=
  { vectors with
    lockCode := ⟨some (0x4C, 0x45), some (0x4C, 0x41), some (0x4C, 0x42)⟩
    unlockCode := ⟨some (0x55, 0x45), some (0x55, 0x41), some (0x55, 0x42)⟩
    lockPayload := ⟨some [], some [0x01], some (zeros 255)⟩
    unlockKey := some #v[1, 2, 3, 4, 5, 6, 7, 8]
    specialFieldId := some 0x0101 }

/-- The same with a layout for each format that may have one: an angle, the S3 and AT quantities with their scales
(46_decode.md R335, R338, R339), two header fields and a float (R334). -/
def laidOut : Config :=
  { vectors with
    layoutS2 := some [⟨"time", .other, 0, .u32, .le, []⟩, ⟨"count", .other, 4, .u16, .le, []⟩,
      ⟨"xAccel", .acceleration, 6, .f32, .le, []⟩]
    layoutA1 := some [⟨"roll", .angle, 30, .i16, .be, [(.mul, 0x4076800000000000), (.div, 0x40F0000000000000)]⟩]
    layoutA2 := some [⟨"pitch", .angle, 28, .i16, .be, [(.mul, 0x4076800000000000), (.div, 0x40F0000000000000)]⟩]
    layoutS3 := some [⟨"xAccel", .acceleration, 32, .i32, .le, [(.mul, 0x3EB0C6F7A0B5ED8D), (.mul, 0x3FB999999999999A)]⟩,
      ⟨"xRate", .rate, 0, .i32, .le, [(.mul, 0x3EB0C6F7A0B5ED8D)]⟩,
      ⟨"temp", .temperature, 4, .i16, .le, [(.mul, 0x3F80624DD2F1A9FC)]⟩]
    layoutAT := some [⟨"xRate", .rate, 0, .i16, .le, [(.mul, 0x4072C00000000000), (.div, 0x40E0000000000000)]⟩,
      ⟨"xAccel", .acceleration, 2, .i16, .le, [(.mul, 0x4028000000000000), (.div, 0x40E0000000000000)]⟩,
      ⟨"temp", .temperature, 4, .i16, .le, [(.mul, 0x4069000000000000), (.div, 0x40E0000000000000)]⟩,
      ⟨"tow", .timeOfWeek, 32, .u32, .le, [(.mul, 0x3F50624DD2F1A9FC)]⟩]
    fmScale := some ⟨[], [], [], [], [], [], []⟩
    s1TempScale := some [(.mul, 0x4069000000000000), (.div, 0x40F0000000000000)] }

/-- The start state of the vectors. -/
def start : State := State.resetFor vectors true

/-- A state with `HIN` loaded. -/
def holding (b : Bytes) (s : State) : State :=
  { s with hin := Memory.ofBytes b, hinLen := BitVec.ofNat 32 b.length }

/-- A state with BUSY set: an exchange waits. -/
def busyState : State :=
  { start with
    status := { Status.reset with busy := true, owner := .exchange }
    corr := { Corr.reset with phase := .wait, deadline := 3000, client := .hostOp .restart } }

/-- A streaming session bound to S1 that has pushed these frames; its next iteration is due. -/
def streaming (q : List Bytes) (wd : Bool) : State :=
  { start with
    status := { Status.reset with done := true, owner := .stream }
    stream := { Stream.reset with
                active := true, wdEn := wd, wdArmed := wd && q.isEmpty, wdAttempt := if wd then 1 else 0, len := 31
                q := q } }

/-- An exchange that has sent `req` and has these bytes to read; its deadline is at `d`. -/
def waiting (c : Client) (mode : MatchMode) (req rx : Bytes) (d : Nat) : State :=
  { start with
    status := { Status.reset with busy := true, owner := .exchange }
    rxq := rx
    corr := { phase := .wait, req := req, mode := mode, deadline := d, buf := [], client := c } }

/-- An upgrade session in a phase, with an image of 416 bytes of which `w` are written. -/
def upgrading (ph : UpgPhase) (st : Stage) (w : Nat) (s : State) : State :=
  { s with
    status := { Status.reset with busy := true, owner := .upgrade }
    upg := { Upg.reset with
             stage := st, session := true, written := BitVec.ofNat 32 w, total := 416, img := zeros 416, phase := ph
             chunk := min 192 (416 - w), progress := BitVec.ofNat 7 (100 * w / 416) } }

/-- An acknowledgement reader that needs `n` bytes and has `rx` to read. -/
def acking (n : Nat) (rx : Bytes) (d : Nat) : State :=
  { start with rxq := rx, ackr := { phase := .wait, need := n, deadline := d, buf := [] } }

/-- The state a step ends in. -/
def after : Host.Outcome State Fault Refusal → State
  | .next t => t
  | .fault _ => start
  | .refused _ => start

/-- `HOUT` as far as it is filled. -/
def hout (s : State) : Bytes := s.hout.readBytes s.houtLen.toNat

/-- The last event of the history. -/
def lastEvent (s : State) : Option Event := s.hist.getLast?

/-- `FA`, the S1 frame of 95_test_vectors.md E2 (31 bytes). -/
def frameA : Bytes := [0x55, 0x55, 0x53, 0x31, 0x18, 0x40, 0x00] ++ zeros 18 ++ [0x00, 0x64, 0x12, 0x34, 0xCD, 0x01]
/-- `FB` -/
def frameB : Bytes := [0x55, 0x55, 0x53, 0x31, 0x18, 0x00, 0x01] ++ zeros 22 ++ [0xED, 0x0A]
/-- `FAc`, `FA` with byte 5 changed. -/
def frameC : Bytes := frameA.set 5 0x41
/-- `FS3` -/
def frameS3 : Bytes := [0x55, 0xAA, 0x24] ++ (List.range 36).map (BitVec.ofNat 8) ++ [0x9A]
/-- `FAT` -/
def frameAT : Bytes := [0xBD, 0xDB, 0x54] ++ List.replicate 36 0xEE
/-- `GFR` -/
def gfr : Bytes := [0x55, 0x55, 0x47, 0x46, 0x05, 0x01, 0x00, 0x01, 0x00, 0x64, 0x5E, 0x7A]
/-- `SFR` -/
def sfr : Bytes := [0x55, 0x55, 0x53, 0x46, 0x03, 0x01, 0x00, 0x01, 0xEF, 0x6A]
/-- `IDR` -/
def idr : Bytes := [0x55, 0x55, 0x49, 0x44, 0x08, 0x49, 0x44, 0x12, 0x34, 0x44, 0x4D, 0x55, 0x00, 0x4D, 0xCA]
/-- The GF request for field 0001 (V-ENV-2). -/
def gfRequest : Bytes := [0x55, 0x55, 0x47, 0x46, 0x03, 0x01, 0x00, 0x01, 0xF3, 0x4F]
/-- The SF request of V-ENV-4. -/
def sfRequest : Bytes := [0x55, 0x55, 0x53, 0x46, 0x05, 0x01, 0x00, 0x01, 0x00, 0x00, 0x40, 0x81]
/-- The GP request (V-ENV-1). -/
def gpRequest : Bytes := [0x55, 0x55, 0x47, 0x50, 0x02, 0x49, 0x44, 0x23, 0x3D]
/-- The SR request, and its response (V-ENV-7, V-COR-8). -/
def srRequest : Bytes := [0x55, 0x55, 0x53, 0x52, 0x00, 0x7E, 0x4F]
/-- `JIA` -/
def jia : Bytes := [0x55, 0x55, 0x4A, 0x49, 0x00, 0x7C, 0x34]
/-- `WAK(0, 192)` -/
def wak : Bytes := [0x55, 0x55, 0x57, 0x41, 0x05, 0x00, 0x00, 0x00, 0x00, 0xC0, 0x12, 0x85]

/-! ## Well-formedness: an ill-formed term of each check is refused (30_encoding.md R100) -/

theorem test_wellFormed_validate : (Instr.validate 256).WellFormed = false := by decide
theorem test_wellFormed_desc : (Instr.desc 256).WellFormed = false := by decide
theorem test_wellFormed_fmSet : (Instr.fmSet 256).WellFormed = false := by decide
theorem test_wellFormed_decode : (Instr.decode 256).WellFormed = false := by decide
theorem test_wellFormed_streamStart : (Instr.streamStart 256 true).WellFormed = false := by decide
theorem test_wellFormed_lock : (Instr.lock 256).WellFormed = false := by decide
theorem test_wellFormed_unlock : (Instr.unlock 256).WellFormed = false := by decide
theorem test_wellFormed_kept : (Instr.streamStart 255 true).WellFormed = true := by decide

/-! ## Decoding: RSV, B, A, OPC from the top byte down, the map of R101 -/

theorem test_decode_crc16 : decode 0b00000000000000000000000000000001 = .ok .crc16 := by decide
theorem test_decode_sum8 : decode 0b00000000000000000000000000000010 = .ok .sum8 := by decide
theorem test_decode_validate : decode 0b00000000000000000000010100000011 = .ok (.validate 5) := by decide
theorem test_decode_desc : decode 0b00000000000000000000011000000100 = .ok (.desc 6) := by decide
theorem test_decode_fmSet : decode 0b00000000011110110000000000000101 = .ok (.fmSet 123) := by decide
theorem test_decode_decode : decode 0b00000000000000000000000100000110 = .ok (.decode 1) := by decide
theorem test_decode_streamStart : decode 0b00000000000000010000010000010000 = .ok (.streamStart 4 true) := by decide
theorem test_decode_streamStart_off : decode 0b00000000111111100000000000010000 = .ok (.streamStart 0 false) := by decide
theorem test_decode_streamStop : decode 0b00000000000000000000000000010001 = .ok .streamStop := by decide
theorem test_decode_qpop : decode 0b00000000000000000000000000010010 = .ok .qpop := by decide
theorem test_decode_getProductInfo : decode 0b00000000000000000000000000100000 = .ok .getProductInfo := by decide
theorem test_decode_getFields : decode 0b00000000000000000000000000100001 = .ok .getFields := by decide
theorem test_decode_readFields : decode 0b00000000000000000000000000100010 = .ok .readFields := by decide
theorem test_decode_writeFieldsTemp : decode 0b00000000000000000000000000100011 = .ok .writeFieldsTemp := by decide
theorem test_decode_writeFieldsPerm : decode 0b00000000000000000000000000100100 = .ok .writeFieldsPerm := by decide
theorem test_decode_setQuiet : decode 0b00000000000000000000000000100101 = .ok .setQuiet := by decide
theorem test_decode_restart : decode 0b00000000000000000000000000100110 = .ok .restart := by decide
theorem test_decode_jumpBoot : decode 0b00000000000000000000000000100111 = .ok .jumpBoot := by decide
theorem test_decode_jumpApp : decode 0b00000000000000000000000000101000 = .ok .jumpApp := by decide
theorem test_decode_lock : decode 0b00000000000000000000000100101001 = .ok (.lock 1) := by decide
theorem test_decode_unlock : decode 0b00000000000000000000001000101010 = .ok (.unlock 2) := by decide
theorem test_decode_upgStart : decode 0b00000000000000000000000000110000 = .ok .upgStart := by decide
theorem test_decode_reset : decode 0b00000000000000000000000000111111 = .ok .reset := by decide

/-! ## One step of each operation (95_test_vectors.md) -/

/-- V-CRC-6 -/
theorem test_crc16 : (after (exec .crc16 (holding [0x47, 0x50, 0x02, 0x49, 0x44] start))).res0 = 0x233D := by
  decide +kernel
/-- V-CRC-9: A and B are ignored. -/
theorem test_crc16_word : (after (step (start.withFetchWord 32 0x00FF0101))).res0 = 0x1D0F := by decide +kernel

/-- V-SUM-6 -/
theorem test_sum8 :
    (after (exec .sum8 (holding [0x31, 0x32, 0x33, 0x34, 0x35, 0x36, 0x37, 0x38, 0x39] start))).res0 = 0xDD := by
  decide +kernel

/-- V-REG-6 -/
theorem test_validate_s3 : (after (exec (.validate 5) (holding frameS3 start))).res0 = 1 := by decide +kernel
/-- V-REG-2 -/
theorem test_validate_corrupted : (after (exec (.validate 0) (holding frameC start))).res0 = 0 := by decide +kernel

/-- V-DESC-2 -/
theorem test_desc_s2 : (after (exec (.desc 1) start)).res0 = 45 ∧ (after (exec (.desc 1) start)).res1 = 0x2549 := by
  decide +kernel
/-- V-DESC-7 -/
theorem test_desc_at : hout (after (exec (.desc 6) start)) = [0xBD, 0xDB, 0x54] := by decide +kernel

/-- V-FMSET-7 -/
theorem test_fmSet : (after (exec (.fmSet 123) start)).fmLen = 123 ∧ (after (exec (.fmSet 123) start)).res1 = 2 := by
  decide +kernel
/-- V-FMSET-9 -/
theorem test_fmSet_bad : (after (exec (.fmSet 40) start)).status.word = 0x00906 := by decide +kernel

/-- V-DEC-1, E2: 5.0, nine 0.0, 1525.9022 and 4660.0, least significant byte first. -/
theorem test_decode_values : hout (after (exec (.decode 0) (holding frameA start))) =
    le64 0x4014000000000000 ++ zeros 72 ++ le64 0x4097D79BDA5119CE ++ le64 0x40B2340000000000 := by
  decide +kernel
/-- V-DEC-2: -16384 x 20 / 65536 is -5.0, and -32768 x 1260 / 65536 is -630.0. -/
theorem test_decode_negative :
    fieldValue ⟨"xAccel", .acceleration, 0, .i16, .be, scaleAccel⟩ [0xC0, 0x00] = 0xC014000000000000 ∧
      fieldValue ⟨"xRate", .rate, 0, .i16, .be, scaleRate⟩ [0x80, 0x00] = 0xC083B00000000000 := by
  decide +kernel
/-- 46_decode.md R335, R332: an angle has its own scale, and no other. -/
theorem test_angle_scale : layoutLegal .a1 [⟨"roll", .angle, 0, .i16, .be, [(.mul, 0x4076800000000000)]⟩] = false ∧
    layoutLegal .a1 [⟨"roll", .angle, 0, .i16, .be, scaleAngle⟩] = true := by
  decide +kernel
/-- 46_decode.md R342: a temperature scale that makes -0.0 of +0.0 is not legal. -/
theorem test_temp_scale : keepsZero [(.mul, 0xBFF0000000000000)] = false ∧
    keepsZero [(.mul, 0x4069000000000000), (.div, 0x40E0000000000000)] = true := by
  decide +kernel
/-- V-DEC-3: a format without a configured layout. -/
theorem test_decode_notConfigured :
    (after (exec (.decode 6) (holding frameAT start))).status.word = 0x00C06 := by
  decide +kernel

/-- V-SYN-1, V-SYN-6 -/
theorem test_streamStart : (after (exec (.streamStart 0 true) start)).stream.word = 0x071 ∧
    (after (exec (.streamStart 0 true) start)).status.word = 0x10002 := by
  decide +kernel
/-- V-SYN-12: a second start. -/
theorem test_streamStart_owned : (after (exec (.streamStart 0 false) (streaming [] false))).status.word = 0x10806 := by
  decide +kernel

/-- V-SYN-11: the frames left are counted and dropped. -/
theorem test_streamStop : (after (exec .streamStop (streaming [frameB] false))).res0 = 1 ∧
    (after (exec .streamStop (streaming [frameB] false))).stream.word = 0 := by
  decide +kernel

/-- V-SYN-2: the first frame is popped, one is left. -/
theorem test_qpop : hout (after (exec .qpop (streaming [frameA, frameB] false))) = frameA ∧
    (after (exec .qpop (streaming [frameA, frameB] false))).res1 = 1 := by
  decide +kernel

/-- V-ENV-1 -/
theorem test_getProductInfo : lastEvent (after (exec .getProductInfo start)) = some (.tx gpRequest 115200 0) := by
  decide +kernel
/-- V-ENV-2 -/
theorem test_getFields :
    lastEvent (after (exec .getFields (holding [0x00, 0x01] start))) = some (.tx gfRequest 115200 0) := by
  decide +kernel
/-- V-COR-9: an odd argument. -/
theorem test_getFields_odd :
    (after (exec .getFields (holding [0x00, 0x01, 0x02] start))).status.word = 0x00906 := by
  decide +kernel
/-- V-ENV-3 -/
theorem test_readFields : lastEvent (after (exec .readFields (holding [0x00, 0x01, 0x00, 0x02] start))) =
    some (.tx [0x55, 0x55, 0x52, 0x46, 0x05, 0x02, 0x00, 0x01, 0x00, 0x02, 0xC9, 0xC2] 115200 0) := by
  decide +kernel
/-- V-ENV-4 -/
theorem test_writeFieldsTemp : lastEvent (after (exec .writeFieldsTemp (holding [0x00, 0x01, 0x00, 0x00] start))) =
    some (.tx sfRequest 115200 0) := by
  decide +kernel
/-- V-ENV-5 -/
theorem test_writeFieldsPerm : lastEvent (after (exec .writeFieldsPerm (holding [0x00, 0x03, 0x00, 0x64] start))) =
    some (.tx [0x55, 0x55, 0x57, 0x46, 0x05, 0x01, 0x00, 0x03, 0x00, 0x64, 0x0D, 0xAE] 115200 0) := by
  decide +kernel
/-- V-ENV-6 -/
theorem test_setQuiet : lastEvent (after (exec .setQuiet start)) = some (.tx sfRequest 115200 0) := by decide +kernel
/-- V-ENV-7 -/
theorem test_restart : lastEvent (after (exec .restart start)) = some (.tx srRequest 115200 0) := by decide +kernel
/-- V-ENV-8 -/
theorem test_jumpBoot : lastEvent (after (exec .jumpBoot start)) = some (.tx jia 115200 0) := by decide +kernel
/-- V-ENV-9 -/
theorem test_jumpApp : lastEvent (after (exec .jumpApp start)) =
    some (.tx [0x55, 0x55, 0x4A, 0x41, 0x00, 0xF5, 0x9D] 115200 0) := by
  decide +kernel
/-- V-COR-9: the argument is checked before the link. -/
theorem test_lock_order : (after (exec (.lock 7) (streaming [] false))).status.word = 0x10906 := by decide +kernel
/-- V-COR-9 -/
theorem test_lock_notConfigured : (after (exec (.lock 0) start)).status.word = 0x00C06 := by decide +kernel
/-- 44_correlator.md R258: the EEPROM is unlocked at 115200, the others at 230400. -/
theorem test_unlock_speed : (after (exec (.unlock 0) (State.resetFor configured true))).baud = 115200 ∧
    (after (exec (.unlock 2) (State.resetFor configured true))).baud = 230400 := by
  decide +kernel

/-- V-UPG-1: 17 bytes are padded to 32. -/
theorem test_upgStart : (after (exec .upgStart (holding (zeros 17) start))).upg.total = 32 := by decide +kernel
/-- V-UPG-6 -/
theorem test_upgStart_empty : (after (exec .upgStart start)).status.word = 0x00906 := by decide +kernel

/-- 70_reset_and_hazards.md R401: RESET ends a busy exchange. -/
theorem test_reset : after (exec .reset busyState) = { start with hist := [.done 0x3F .none 0] } := by decide +kernel

/-- V-COR-11: a command while BUSY sets REJ. -/
theorem test_rejected : (after (exec .crc16 busyState)).status.word = 0x20009 := by decide +kernel
/-- V-COR-12: a RESET word with RSV not 0 is dropped. -/
theorem test_rejected_reset : after (perform (.regWrite 0x00 0x0100003F) busyState) =
    { busyState with status := { busyState.status with rej := true } } := by
  decide +kernel

/-- E3, V-SYN-4: two frames behind a false header. -/
theorem test_scan : scan .s1 31 ([0x55, 0x55, 0x53, 0x31, 0x18, 0x00, 0x00] ++ frameA ++ frameB) =
    ⟨[frameA, frameB], 1, []⟩ := by
  decide +kernel
/-- E6, V-COR-5: GP/"ID" in the literal reading. -/
theorem test_gpid : correlate .literal57 .gpid gpRequest
    [0x55, 0x55, 0x58, 0x58, 0x08, 0x49, 0x44, 0x12, 0x34, 0x44, 0x4D, 0x55, 0x00, 0xAA, 0xBB] = some (0, 8) := by
  decide +kernel
/-- V-COR-3: a pending header blocks. -/
theorem test_pendingHeader :
    correlate .literal57 .std gfRequest ([0x55, 0x55, 0x47, 0x46, 0xFF] ++ gfr) = none := by
  decide +kernel
/-- V-UPG-2: the second block's bytes. -/
theorem test_block : (blockRequest 192 (zeros 192)).take 10 =
    [0x55, 0x55, 0x57, 0x41, 0xC5, 0x00, 0x00, 0x00, 0xC0, 0xC0] := by
  decide +kernel
/-- E7: the third block's acknowledgement is short, so the session ends as Failed at Writing. -/
theorem test_shortAck : (after (perform (.agent .ackr) (upgrading .back .writing 384 (acking 12 (wak.take 11) 0)))).upg.word
    = 0x306 := by
  decide +kernel
/-- V-UPG-5: 1/1 is 100 per cent. -/
theorem test_progress : progressOf { Upg.reset with written := 16, total := 16 } = 100 := by decide

/-! ## Witnesses: for each statement with hypotheses, a state and operands that meet them -/

theorem witness_DecodeEncodeAgree : (Instr.fmSet 255).WellFormed = true := by decide

theorem witness_DecodedWordsAreTheirEncodings : decode 0x00FE0610 = .ok (.streamStart 6 false) ∧
    (0x00000610 : Word) &&& (Instr.streamStart 6 false).readMask =
      0x00FE0610 &&& (Instr.streamStart 6 false).readMask := by
  decide

/-- Each end of each reserved range, and RSV 1. -/
theorem witness_IllegalWords : ∀ w ∈ [0x01000001, 0x00, 0x07, 0x0F, 0x13, 0x1F, 0x2B, 0x2F, 0x31, 0x3E, 0x40, 0xFF],
    decodeTableWord 32 w = none := by
  decide

theorem witness_StepRunsDecodedInstruction :
    ({ start with schedule := [.regWrite 0x00 0x00000001] } : State).schedule = .regWrite 0x00 0x00000001 :: [] ∧
      decode 0x00000001 = .ok .crc16 ∧ decodeTableWord 32 0x00000603 = some (.validate 6) := by
  decide +kernel

theorem witness_BusyDropsCommands : busyState.status.busy = true ∧
    (fieldOpc 0x00FFFF3F = 0x3F ∧ fieldRsv 0x00FFFF3F = 0) ∧
      ¬(fieldOpc 0x0100003F = 0x3F ∧ fieldRsv 0x0100003F = 0) := by
  decide

theorem witness_RegisterFile : (0x12 : Byte) < 0x13 ∧ ∀ n ∈ [0x01#8, 0x03#8, 0x05#8, 0x07#8, 0x09#8, 0x12#8, 0xFF#8],
    n ≠ 0x00 ∧ n ≠ 0x04 ∧ n ≠ 0x06 ∧ n ≠ 0x08 := by
  decide

theorem witness_RegisterWrites : busyState.status.busy = true ∧ start.status.busy = false := by decide

theorem memorySafe_start : MemorySafe start :=
  ⟨by decide, by decide, by simp [start, State.resetFor], by simp [start, State.resetFor], by decide, by decide,
    by decide⟩

/-- The last byte of the buffer, the first index outside it, and the last byte of an argument. -/
theorem witness_HostBufferBytes : MemorySafe start ∧ 4095 < start.cfg.hbufSize ∧ start.cfg.hbufSize ≤ 4096 ∧
    1 < (holding [0x01, 0x02] start).hinLen.toNat := by
  exact ⟨memorySafe_start, by decide, by decide, by decide⟩

theorem witness_Crc16Operation : start.status.busy = false ∧ start.hinLen = 0 ∧
    (holding [0x31, 0x32, 0x33, 0x34, 0x35, 0x36, 0x37, 0x38, 0x39] start).arg =
      [0x31, 0x32, 0x33, 0x34, 0x35, 0x36, 0x37, 0x38, 0x39] := by
  decide +kernel

theorem witness_Sum8Operation : start.status.busy = false ∧ start.hinLen = 0 ∧
    (holding [0xFF, 0xFF] start).arg = [0xFF, 0xFF] ∧
    (holding (List.replicate 256 0x01) start).arg = List.replicate 256 0x01 ∧
    (holding [1, 2, 3, 4, 5, 6, 7, 8, 9, 10] start).arg = [1, 2, 3, 4, 5, 6, 7, 8, 9, 10] := by
  decide +kernel

/-- Of VALIDATE, DESC, DECODE and STREAM_START: the first code that is no tag, and the last that is one. -/
theorem witness_ValidateOperation : start.status.busy = false ∧ 7 ≤ 7 ∧ 6 < 7 := by decide

theorem witness_DescOperation : start.status.busy = false ∧ 7 ≤ 7 ∧ 6 < 7 := by decide

theorem witness_FmSetOperation : start.status.busy = false ∧ 126 ∉ [39, 41, 67, 69, 95, 97, 123, 125] ∧
    125 ∈ [39, 41, 67, 69, 95, 97, 123, 125] ∧ (streaming [] false).stream.active = true ∧
    (streaming [] false).status.busy = false ∧ 39 = 11 + 28 * 1 + 2 * 0 ∧ 125 = 11 + 28 * 4 + 2 * 1 ∧
    start.stream.active = false := by
  decide

theorem witness_DecodeOperation : start.status.busy = false ∧
    ¬((holding (frameA.take 30) start).arg.length = (descriptor .s1 95).len ∧
      (descriptor .s1 95).sync <+: (holding (frameA.take 30) start).arg) ∧
    (holding frameA start).arg.length = (descriptor .s1 95).len ∧
    (descriptor .s1 95).sync <+: (holding frameA start).arg ∧
    (fieldLayout vectors .s1 95).isSome = true ∧ fieldLayout vectors .at 95 = none ∧
    (holding frameAT start).arg.length = (descriptor .at 95).len ∧
    (descriptor .at 95).sync <+: (holding frameAT start).arg ∧
    0xC001 = ([0xC0, 0x01] : Bytes).foldl (fun (a : Nat) (x : Byte) => 256 * a + x.toNat) 0 ∧
    0x01C0 = ([0xC0, 0x01] : Bytes).reverse.foldl (fun (a : Nat) (x : Byte) => 256 * a + x.toNat) 0 ∧
    scaleAccel = [(.mul, decimal64 20 0)] ++ [(.div, decimal64 65536 0)] := by
  decide +kernel

theorem witness_StreamStartOperation : start.status.busy = false ∧ 7 ≤ 7 ∧ 6 < 7 ∧ start.status.owner = .none ∧
    start.linkOk = true ∧ (State.resetFor vectors false).linkOk = false ∧
    (streaming [] false).status.owner ≠ .none ∧ (streaming [] false).status.busy = false := by
  decide

theorem witness_StreamStopOperation : start.status.busy = false ∧ start.stream.active = false ∧
    (streaming [frameA] false).status.busy = false ∧ (streaming [frameA] false).stream.active = true := by
  decide

theorem witness_QpopOperation : start.status.busy = false ∧ start.stream.q = [] ∧
    (streaming [frameA] false).status.busy = false ∧ (streaming [frameA] false).stream.q = frameA :: [] := by
  decide +kernel

theorem witness_FixedExchangeOperations : start.status.busy = false ∧ start.status.owner = .none ∧
    start.linkOk = true ∧ (State.resetFor vectors false).linkOk = false ∧ (streaming [] false).status.owner ≠ .none := by
  decide

/-- Both ends of the argument's length, and a length outside each. -/
theorem witness_ReadFieldsOperations : start.status.busy = false ∧ start.status.owner = .none ∧ start.linkOk = true ∧
    (holding (zeros 3) start).hinLen.toNat % 2 = 1 ∧ start.hinLen.toNat < 2 ∧
    126 < (holding (zeros 128) start).hinLen.toNat ∧
    (∀ n ∈ [2, 126], (holding (zeros n) start).hinLen.toNat % 2 = 0 ∧ 2 ≤ (holding (zeros n) start).hinLen.toNat ∧
      (holding (zeros n) start).hinLen.toNat ≤ 126) := by
  decide +kernel

/-- Both ends of the argument's length, a length outside each, and the special id in the last pair. -/
theorem witness_WriteFieldsOperations : start.status.busy = false ∧ start.status.owner = .none ∧ start.linkOk = true ∧
    (holding (zeros 6) start).hinLen.toNat % 4 ≠ 0 ∧ start.hinLen.toNat < 4 ∧
    252 < (holding (zeros 256) start).hinLen.toNat ∧
    (∀ n ∈ [4, 252], (holding (zeros n) start).hinLen.toNat % 4 = 0 ∧ 4 ≤ (holding (zeros n) start).hinLen.toNat ∧
      (holding (zeros n) start).hinLen.toNat ≤ 252) ∧ vectors.specialFieldId = none ∧
    configured.specialFieldId = some 0x0101 ∧
    4 * 1 + 4 ≤ (holding (zeros 4 ++ [1, 1, 0, 0]) (State.resetFor configured true)).hinLen.toNat ∧
    be16At (holding (zeros 4 ++ [1, 1, 0, 0]) (State.resetFor configured true)).arg (4 * 1) =
      (0x0101 : BitVec 16).toNat := by
  decide +kernel

theorem witness_SetQuietOperation : start.status.busy = false ∧ start.status.owner = .none ∧ start.linkOk = true ∧
    ({ vectors with quietPayload := none } : Config).quietPayload = none ∧
    start.cfg.quietPayload = some [0x01, 0x00, 0x01, 0x00, 0x00] := by
  decide

theorem witness_LockOperation : start.status.busy = false ∧ start.status.owner = .none ∧ start.linkOk = true ∧
    [Region.eeprom, .app, .boot][2]? = some .boot ∧ 3 ≤ 3 ∧ start.cfg.lockCode.get .boot = none ∧
    configured.lockCode.get .boot = some (0x4C, 0x42) ∧ configured.lockPayload.get .boot = some (zeros 255) := by
  decide +kernel

theorem witness_UnlockOperation : start.status.busy = false ∧ start.status.owner = .none ∧ start.linkOk = true ∧
    [Region.eeprom, .app, .boot][0]? = some .eeprom ∧ 3 ≤ 3 ∧ start.cfg.unlockCode.get .boot = none ∧
    configured.unlockCode.get .eeprom = some (0x55, 0x45) ∧
    configured.unlockKey = some #v[1, 2, 3, 4, 5, 6, 7, 8] := by
  decide +kernel

/-- An empty argument, one byte, `MAX_IMAGE` bytes, and one more. -/
theorem witness_UpgStartOperation : start.status.busy = false ∧ start.status.owner = .none ∧ start.linkOk = true ∧
    start.hinLen.toNat = 0 ∧ (∀ n ∈ [1, 2048], (BitVec.ofNat 32 n).toNat ≠ 0 ∧ (BitVec.ofNat 32 n).toNat ≤
      start.cfg.maxImage) ∧ start.cfg.maxImage < (BitVec.ofNat 32 2049).toNat ∧
    ({ vectors with quietPayload := none } : Config).quietPayload = none ∧
    start.cfg.quietPayload = some [0x01, 0x00, 0x01, 0x00, 0x00] := by
  decide

theorem witness_ChecksumProperties : ([1, 2] : Bytes).Perm [2, 1] := by decide

/-- The first and the last byte of a frame, of a CRC format and of S3. -/
theorem witness_OneChangedByteIsDetected : Tag.s1 ≠ .at ∧ fmLegal 95 = true ∧ frameValid .s1 95 frameA = true ∧
    frameValid .s3 95 frameS3 = true ∧ 0 < frameA.length ∧ 30 < frameA.length ∧ frameA[0]? ≠ some 0 ∧
    frameA[30]? ≠ some 0 ∧ 39 < frameS3.length ∧ frameS3[39]? ≠ some 0 := by
  decide +kernel

theorem witness_FmLengths : fmLegal 39 = true ∧ fmLegal 125 = true := by decide

/-- A full queue, and an empty one. -/
theorem witness_PushEvictsOldest : 0 < start.cap ∧ start.stream.q.length ≤ start.cap ∧
    (streaming (List.replicate 1000 frameA) false).stream.q.length ≤
      (streaming (List.replicate 1000 frameA) false).cap := by
  refine ⟨by decide, by decide, ?_⟩
  simp only [streaming, List.length_replicate]
  decide

theorem witness_SyncIteration : agentEnabled (streaming [frameA] true) .sync = true ∧
    ((streaming [frameA] true).stream.wdEn && (streaming [frameA] true).stream.wdArmed) = false := by
  decide +kernel

/-- A watchdog window that ends now, with attempt 1, and with attempt 3. -/
def windowEnd (k : BitVec 2) : State :=
  { streaming [] true with
    now := 3000
    stream := { (streaming [] true).stream with wdAttempt := k, nextPoll := 3000 } }

/-- A frame to push, no frame inside the window, and the window's end with and without attempts and link left. -/
theorem witness_Watchdog : agentEnabled (streaming [] true) .sync = true ∧ (streaming [] true).stream.wdEn = true ∧
    (streaming [] true).stream.wdArmed = true ∧ (scan .s1 31 ([] ++ frameA.take 64)).frames ≠ [] ∧
    (scan .s1 31 ([] ++ ([] : Bytes).take 64)).frames = [] ∧ 2999 - (streaming [] true).stream.wdStart < 3000 ∧
    (∀ k ∈ [1#2, 2#2, 3#2], agentEnabled (windowEnd k) .sync = true ∧ (windowEnd k).stream.wdEn = true ∧
      (windowEnd k).stream.wdArmed = true ∧ 3000 ≤ (windowEnd k).now - (windowEnd k).stream.wdStart) ∧
    (windowEnd 2).stream.wdAttempt.toNat < 3 ∧ (windowEnd 2).linkOk = true ∧
    3 ≤ (windowEnd 3).stream.wdAttempt.toNat ∧ ({ windowEnd 1 with linkOk := false } : State).linkOk = false := by
  decide +kernel

theorem witness_CorrelateLeastHeader : 7 ≤ srRequest.length ∧
    ∀ (gm : GpidMatch) (mode : MatchMode) (req b : Bytes), ∃ header : Nat → Prop, ∀ i, header i ↔ match mode, gm with
      | .std, _ => i + 4 ≤ b.length ∧ slice b i (i + 4) = [0x55, 0x55] ++ slice req 2 4
      | .gpid, .literal57 => i + 7 ≤ b.length ∧ slice b i (i + 2) = [0x55, 0x55] ∧
          slice b (i + 5) (i + 7) = slice req 5 7
      | .gpid, .tag23 => i + 4 ≤ b.length ∧ slice b i (i + 4) = [0x55, 0x55] ++ slice req 5 7 :=
  ⟨by decide, fun _ _ _ _ => ⟨_, fun _ => Iff.rfl⟩⟩

/-- An exchange at its deadline, with these bytes to read one at a time. -/
def oneByOne (rx : Bytes) : State :=
  { waiting (.hostOp .restart) .std srRequest rx 0 with cfg := { vectors with nRead := 1 } }

/-- The same result for `N_READ` = 1 as for every other size (44_correlator.md R262): the whole response waits, a byte
after it, which stays; and a response without its last byte. -/
theorem test_corr_reads_on_at_deadline : (corrStep (oneByOne (srRequest ++ [0xAA]))).status.errcode = .none ∧
    (corrStep (oneByOne (srRequest ++ [0xAA]))).rxq = [0xAA] ∧
    (corrStep (oneByOne srRequest.dropLast)).status.errcode = .responseTimeout := by
  decide +kernel

theorem witness_CorrelateStable : correlate .literal57 .std gfRequest ([0x00] ++ gfr) = some (1, 5) ∧
    1 ≤ (oneByOne srRequest).cfg.nRead ∧ (oneByOne srRequest).corr.deadline ≤ (oneByOne srRequest).now ∧
    (oneByOne srRequest).found = some (0, 0) ∧ (oneByOne srRequest.dropLast).found = none := by
  decide +kernel

theorem witness_GpidCorrelation : slice idr 0 2 = [0x55, 0x55] ∧ slice idr 5 7 = [0x49, 0x44] ∧
    idr[4]? = some 0x08 ∧ idr.length = (0x08 : Byte).toNat + 7 := by
  decide

theorem witness_ResponseCrcIgnored : 4 ≤ gfRequest.length ∧
    correlate .literal57 .std gfRequest gfr = some (0, 5) := by
  decide +kernel

/-- A match; no match one millisecond before the deadline; no match at it. A step at the deadline reads one chunk, or as
many as it takes (`oneByOne`, above). -/
theorem witness_ExchangeCompletion :
    (∀ s ∈ [waiting (.hostOp .restart) .std srRequest srRequest 3000, waiting (.hostOp .restart) .std srRequest [0] 1,
        waiting (.hostOp .restart) .std srRequest [] 0],
      agentEnabled s .corr = true ∧ s.corr.client = .hostOp .restart) ∧
    (waiting (.hostOp .restart) .std srRequest srRequest 3000).found = some (0, 0) ∧
    ExchangeOp.restart ∈ [ExchangeOp.setQuiet, .restart, .jumpBoot, .jumpApp, .lock, .unlock] ∧
    (waiting (.hostOp .restart) .std srRequest [0] 1).found = none ∧
    (waiting (.hostOp .restart) .std srRequest [0] 1).now < 1 ∧
    (waiting (.hostOp .restart) .std srRequest [] 0).found = none ∧
    0 ≤ (waiting (.hostOp .restart) .std srRequest [] 0).now ∧
    corrRead (waiting (.hostOp .restart) .std srRequest [] 0) = 64 ∧ corrRead (oneByOne srRequest) = 7 := by
  decide +kernel

/-- A read of one field: the right shape, a wrong count, a wrong length; a write of one field: the right length, and
another. -/
theorem witness_FieldResponses :
    (∀ r ∈ [gfr, gfr.set 5 0x02, [0x55, 0x55, 0x47, 0x46, 0x00, 0x00, 0x00]],
      agentEnabled (waiting (.hostOp .getFields) .std gfRequest r 3000) .corr = true) ∧
    (gfRequest.getD 5 0).toNat = 1 ∧ (sfRequest.getD 5 0).toNat = 1 ∧
    (waiting (.hostOp .getFields) .std gfRequest gfr 3000).found = some (0, 1 + 4 * 1) ∧
    (((waiting (.hostOp .getFields) .std gfRequest gfr 3000).response 0 5).getD 5 0).toNat = 1 ∧
    (waiting (.hostOp .getFields) .std gfRequest (gfr.set 5 0x02) 3000).found = some (0, 5) ∧
    (((waiting (.hostOp .getFields) .std gfRequest (gfr.set 5 0x02) 3000).response 0 5).getD 5 0).toNat ≠ 1 ∧
    (waiting (.hostOp .getFields) .std gfRequest [0x55, 0x55, 0x47, 0x46, 0x00, 0x00, 0x00] 3000).found =
      some (0, 0) ∧
    (waiting (.hostOp .writeFieldsTemp) .std sfRequest sfr 3000).found = some (0, 1 + 2 * 1) ∧
    (waiting (.hostOp .writeFieldsTemp) .std sfRequest sfRequest 3000).found = some (0, 5) := by
  decide +kernel

/-- `IDR`, whose string ends at its NUL in byte 7; a payload of 4 bytes, whose string is empty; and one of 3. -/
theorem witness_ProductResponse :
    agentEnabled (waiting (.hostOp .getProductInfo) .gpid gpRequest idr 3000) .corr = true ∧
    (waiting (.hostOp .getProductInfo) .gpid gpRequest idr 3000).found = some (0, 8) ∧
    slice ((waiting (.hostOp .getProductInfo) .gpid gpRequest idr 3000).response 0 8) 5 (5 + 8) =
      [0x49, 0x44, 0x12, 0x34, 0x44, 0x4D, 0x55, 0x00] ∧
    (∀ j, j < 7 → 4 ≤ j → ([0x49, 0x44, 0x12, 0x34, 0x44, 0x4D, 0x55, 0x00] : Bytes)[j]? ≠ some 0) ∧
    ([0x49, 0x44, 0x12, 0x34, 0x44, 0x4D, 0x55, 0x00] : Bytes)[7]? = some 0 ∧
    (waiting (.hostOp .getProductInfo) .gpid gpRequest
      [0x55, 0x55, 0x49, 0x44, 0x04, 0x49, 0x44, 0x12, 0x34, 0x44, 0xA5] 3000).found = some (0, 4) ∧
    (waiting (.hostOp .getProductInfo) .gpid gpRequest
      [0x55, 0x55, 0x49, 0x44, 0x03, 0x49, 0x44, 0x12, 0x60, 0x39] 3000).found = some (0, 3) := by
  decide +kernel

theorem witness_EnvelopeLayout : (zeros 255).length ≤ 255 ∧ 2 ^ 32 - 1 < 2 ^ 32 ∧ (zeros 192).length ≤ 192 := by
  decide +kernel

theorem witness_PaddedImage : (zeros 16).length % 16 = 0 ∧ (0 : Byte) ∈ (padImage (zeros 15)).drop 15 ∧
    16 % 16 = 0 ∧ (zeros 15).length ≤ 16 := by
  decide

/-- Each phase of kind deadline, with its deadline now; the first block and the last. -/
theorem witness_UpgradeTimedPhases : 192 = min 192 (416 - 0) ∧ 32 = min 192 (416 - 384) ∧
    ∀ ph ∈ [UpgPhase.w1, .w2, .be, .bw, .pj], (upgrading ph .quietSet 0 start).upg.deadline ≤ start.now ∧
      (upgrading ph .quietSet 0 start).upg.phase = ph := by
  decide +kernel

/-- A response in each phase, none at the deadline, and none before it. -/
theorem witness_UpgradeQuietPhases : start.cfg.quietPayload = some [0x01, 0x00, 0x01, 0x00, 0x00] ∧
    ∀ ph ∈ [UpgPhase.q1, .q2],
      (∀ s ∈ [upgrading ph .idle 0 (waiting .upg .std sfRequest sfr 3000),
          upgrading ph .idle 0 (waiting .upg .std sfRequest [] 0)],
        agentEnabled s .corr = true ∧ s.corr.client = .upg ∧ s.upg.phase = ph) ∧
      (upgrading ph .idle 0 (waiting .upg .std sfRequest sfr 3000)).found.isSome = true ∧
      (upgrading ph .idle 0 (waiting .upg .std sfRequest [] 0)).found = none ∧
      (upgrading ph .idle 0 (waiting .upg .std sfRequest [] 0)).corr.deadline ≤ start.now ∧
      agentEnabled (upgrading ph .idle 0 (waiting .upg .std sfRequest [0x55] 1)) .corr = true ∧
      (upgrading ph .idle 0 (waiting .upg .std sfRequest [0x55] 1)).found = none ∧
      start.now < (upgrading ph .idle 0 (waiting .upg .std sfRequest [0x55] 1)).corr.deadline := by
  decide +kernel

/-- Too few bytes before the deadline; a whole acknowledgement and a short one in each phase; the last block and
another. -/
theorem witness_UpgradeAckPhases :
    (∀ s ∈ [upgrading .jiAck .quietSet 0 (acking 7 (jia.take 6) 1), upgrading .jiAck .quietSet 0 (acking 7 jia 3000),
        upgrading .jiAck .quietSet 0 (acking 7 [] 0), upgrading .back .writing 0 (acking 12 wak 3000),
        upgrading .back .writing 384 (acking 12 wak 3000), upgrading .back .writing 0 (acking 12 (wak.take 11) 0),
        upgrading .jaAck .complete 416 (acking 7 [] 0)], agentEnabled s .ackr = true) ∧
    (jia.take 6).length ≠ 7 ∧ start.now < 1 ∧ jia.length = 7 ∧ jia.take 4 = [0x55, 0x55, 0x4A, 0x49] ∧
    wak.length = 12 ∧ wak.take 4 = [0x55, 0x55, 0x57, 0x41] ∧ ¬((wak.take 11).length = 12) ∧
    (BitVec.ofNat 32 384 + BitVec.ofNat 32 32 : Word) = 416 ∧ (BitVec.ofNat 32 0 + BitVec.ofNat 32 192 : Word) ≠ 416
    := by
  decide +kernel

/-- Legal layouts, each with the entries the scales are for; the shortest and the longest FM layout; no FM scale. -/
theorem witness_DecodeBound : laidOut.wf = true ∧ fmLegal 39 = true ∧ fmLegal 125 = true ∧
    (∀ t ∈ [Tag.s1, .s2, .a1, .a2, .fm, .s3, .at], (fieldLayout laidOut t 125).isSome = true) ∧
    ((laidOut.layoutA1.getD []).map (·.quantity)) = [.angle] ∧ ((laidOut.layoutA2.getD []).map (·.quantity)) = [.angle] ∧
    ((laidOut.layoutS3.getD []).map (·.quantity)) = [.acceleration, .rate, .temperature] ∧
    ((laidOut.layoutAT.getD []).map (·.quantity)) = [.rate, .acceleration, .temperature, .timeOfWeek] ∧
    vectors.fmScale = none ∧ laidOut.fmScale.isSome = true ∧ (39 - 11) / 28 = 1 ∧ (39 - 7 - 28 * 1) / 2 = 2 ∧
    (125 - 11) / 28 = 4 ∧ (125 - 7 - 28 * 4) / 2 = 3 := by
  decide +kernel

/-! ### States that meet the invariants -/

theorem linkSafe_streaming : LinkSafe (streaming [frameA] false) := by
  constructor <;> decide +kernel

theorem streamSafe_streaming : StreamSafe (streaming [frameA] true) := by
  constructor <;> decide +kernel

theorem memorySafe_streaming : MemorySafe (streaming [frameA] false) :=
  ⟨by decide, by decide, by simp [streaming, start, State.resetFor], by simp [streaming, start, State.resetFor],
    by decide, by decide, by decide⟩

/-- An upgrade that waits for the acknowledgement of its last block. -/
def lastBlock : State := upgrading .back .writing 384 (acking 12 wak 3000)

theorem linkSafe_lastBlock : LinkSafe lastBlock := by
  constructor <;> decide +kernel

theorem upgradeSafe_lastBlock : UpgradeSafe lastBlock := by
  refine ⟨by decide +kernel, by decide, by decide, by decide, by decide, ?_, by decide, by decide, by decide, by decide,
    by decide, by decide⟩
  intro st h
  cases h
  rfl

theorem memorySafe_lastBlock : MemorySafe lastBlock :=
  ⟨by decide, by decide, by simp [lastBlock, upgrading, acking, start, State.resetFor],
    by simp [lastBlock, upgrading, acking, start, State.resetFor], by decide, by decide, by decide⟩

theorem timeSafe_lastBlock : TimeSafe lastBlock :=
  ⟨by decide, fun h => absurd h (by decide), by decide, by decide, by decide⟩

theorem timeSafe_streaming : TimeSafe (streaming [] true) :=
  ⟨by decide, fun _ _ _ => ⟨0, by decide, rfl⟩, by decide, by decide, by decide⟩

/-- A step that answers a next state: the block's own, with an empty schedule. -/
theorem step_alone (s : State) (h : s.schedule = []) : step s = .next (idleStep s) := by
  unfold step
  rw [h]

theorem witness_LinkSafeKept : LinkSafe lastBlock ∧ step lastBlock = .next (idleStep lastBlock) :=
  ⟨linkSafe_lastBlock, step_alone _ rfl⟩

theorem witness_StreamSafeKept : StreamSafe (streaming [frameA] true) ∧
    step (streaming [frameA] true) = .next (idleStep (streaming [frameA] true)) :=
  ⟨streamSafe_streaming, step_alone _ rfl⟩

theorem streamSafe_lastBlock : StreamSafe lastBlock := by
  constructor <;> decide +kernel

theorem witness_MemorySafeKept : LinkSafe lastBlock ∧ StreamSafe lastBlock ∧ MemorySafe lastBlock ∧
    step lastBlock = .next (idleStep lastBlock) :=
  ⟨linkSafe_lastBlock, streamSafe_lastBlock, memorySafe_lastBlock, step_alone _ rfl⟩

theorem witness_UpgradeSafeKept : MemorySafe lastBlock ∧ UpgradeSafe lastBlock ∧
    step lastBlock = .next (idleStep lastBlock) :=
  ⟨memorySafe_lastBlock, upgradeSafe_lastBlock, step_alone _ rfl⟩

theorem witness_TimeSafeKept : TimeSafe (streaming [] true) ∧
    step (streaming [] true) = .next (idleStep (streaming [] true)) :=
  ⟨timeSafe_streaming, step_alone _ rfl⟩

theorem witness_OneAgentEnabled : LinkSafe lastBlock ∧ agentEnabled lastBlock .ackr = true ∧
    agentEnabled lastBlock .upg = false :=
  ⟨linkSafe_lastBlock, by decide +kernel⟩

/-- A step, and one that changes each of `link_ok`, `now` and `BAUD`: by the environment, by time, by a write, and by
RESET. -/
theorem witness_EnvironmentIsTheEnvironments :
    (after (step { start with schedule := [.link false] })).linkOk ≠ start.linkOk ∧
    (after (step { start with schedule := [.tick 1] })).now ≠ start.now ∧
    (after (step { start with schedule := [.regWrite 0x06 9600] })).baud ≠ start.baud ∧
    (after (step ({ start with baud := 9600, now := 5 }.withFetchWord 32 0x3F))).now ≠ 5 ∧
    (after (step ({ start with baud := 9600, now := 5 }.withFetchWord 32 0x3F))).baud ≠ 9600 := by
  decide +kernel

/-- A step that sends. -/
theorem witness_OnlyEnvelopesAreSent : vectors.wf = true ∧
    (after (step (start.withFetchWord 32 0x26))).hist = start.hist ++ [.tx srRequest 115200 0] ∧
    .tx srRequest 115200 0 ∈ [Event.tx srRequest 115200 0] := by
  decide +kernel

theorem witness_AgentStepsRunOut : LinkSafe lastBlock ∧ TimeSafe lastBlock ∧ lastBlock.cfg.wf = true ∧
    lastBlock.schedule = [] ∧ nextAgent (oneByOne []) = some .corr ∧ (oneByOne []).schedule = [] ∧
    nextAgent start = none ∧ start.schedule = [] :=
  ⟨linkSafe_lastBlock, timeSafe_lastBlock, by decide, rfl, by decide +kernel, rfl, by decide +kernel, rfl⟩

/-- An agent to wait for; a deadline inside the tick; none. -/
theorem witness_TickStopsAtDeadlines : nextAgent (streaming [] true) = some .sync ∧
    nextAgent (waiting (.hostOp .restart) .std srRequest [] 3000) = none ∧
    3000 ∈ deadlines (waiting (.hostOp .restart) .std srRequest [] 3000) ∧ nextAgent start = none ∧ 0 < 1 := by
  decide +kernel

end Sys2Proof.Tests
end

section
/-! SUPPORT. What a move of the block leaves to the environment: one relation between the state before and the state
after, which everything but RESET, `Tick` and `Link` keeps (00_scope.md R12, R15; 10_state.md R37, R49, R58, R59). -/

namespace Sys2Proof.Machine

/-- `t` comes from `s` with no change of the parameters, of `link_ok` or of time; the history is only appended to, and a
new link speed is among the appended events. -/
structure BlockStep (s t : State) : Prop where
  cfg : t.cfg = s.cfg
  linkOk : t.linkOk = s.linkOk
  now : t.now = s.now
  hist : ∃ evs, t.hist = s.hist ++ evs ∧ (t.baud ≠ s.baud → .baud t.baud s.now ∈ evs)

variable {s t u : State}

namespace BlockStep

/-- A move that keeps the link speed needs only append to the history. -/
theorem of_baud_eq (h : (t.cfg, t.linkOk, t.now, t.baud) = (s.cfg, s.linkOk, s.now, s.baud)) (hh : s.hist <+: t.hist) :
    BlockStep s t := by
  obtain ⟨evs, hh⟩ := hh
  simp only [Prod.mk.injEq] at h
  obtain ⟨hc, hl, hn, hb⟩ := h
  exact ⟨hc, hl, hn, evs, hh.symm, fun hne => absurd hb hne⟩

/-- A move with no event and no change of speed. -/
theorem silent (h : (t.cfg, t.linkOk, t.now, t.baud) = (s.cfg, s.linkOk, s.now, s.baud)) (hh : t.hist = s.hist) :
    BlockStep s t :=
  of_baud_eq h (hh ▸ List.prefix_refl _)

/-- A move with one event and no change of speed. -/
theorem records {e : Event} (h : (t.cfg, t.linkOk, t.now, t.baud) = (s.cfg, s.linkOk, s.now, s.baud))
    (hh : t.hist = s.hist ++ [e]) : BlockStep s t :=
  of_baud_eq h (hh ▸ List.prefix_append _ _)

theorem refl (s : State) : BlockStep s s := silent rfl rfl

/-- The last speed change of two moves is recorded, by the second move or by the first. -/
theorem trans (h : BlockStep s t) (h' : BlockStep t u) : BlockStep s u := by
  obtain ⟨evs, hh, hb⟩ := h.hist
  obtain ⟨evs', hh', hb'⟩ := h'.hist
  refine ⟨h'.cfg.trans h.cfg, h'.linkOk.trans h.linkOk, h'.now.trans h.now, evs ++ evs',
    by rw [hh', hh, List.append_assoc], fun hne => ?_⟩
  by_cases heq : u.baud = t.baud
  · rw [heq] at hne ⊢
    exact List.mem_append_left _ (hb hne)
  · rw [← h.now]
    exact List.mem_append_right _ (hb' heq)

end BlockStep

/-! ## The shared operations -/

theorem raise_blockStep (opc : Byte) (e : ErrorCode) (s : State) : BlockStep s (s.raise opc e) := .records rfl rfl

/-- A speed switch records the new speed (10_state.md R37). -/
theorem switchBaud_blockStep (v : Word) (s : State) : BlockStep s (s.switchBaud v) :=
  ⟨rfl, rfl, rfl, [.baud v s.now], rfl, fun _ => List.mem_singleton_self _⟩

theorem startExchange_blockStep (cl : Client) (c : Code) (p : Bytes) (m : MatchMode) (s : State) :
    BlockStep s (startExchange cl c p m s) := .records rfl rfl

theorem openLink_blockStep {opc : Byte} {body : State → State} (hb : BlockStep s (body s)) :
    BlockStep s (s.openLink opc body) :=
  State.openLink_cases (fun e => raise_blockStep opc e s) fun _ _ => hb

theorem issue_blockStep {body : State → State} (hb : ∀ s, BlockStep s (body s)) (s : State) :
    BlockStep s (s.issue body) :=
  State.issue_cases (p := BlockStep s) (.silent rfl rfl) fun _ =>
    BlockStep.trans (t := s.clearStatus) (.silent rfl rfl) (hb _)

theorem illegalOp_blockStep (opc : Byte) (s : State) : BlockStep s (illegalOp opc s) :=
  issue_blockStep (raise_blockStep opc .illegalOp) s

theorem issueExchange_blockStep (op : ExchangeOp) (speed : Option Word) (c : Code) (p : Bytes) (m : MatchMode)
    (s : State) : BlockStep s (issueExchange op speed c p m s) := by
  have claimed : BlockStep s (s.claimLink .exchange true) := .silent rfl rfl
  refine openLink_blockStep ?_
  cases speed with
  | none => exact claimed.trans (startExchange_blockStep _ _ _ _ _)
  | some v => exact (claimed.trans (switchBaud_blockStep v _)).trans (startExchange_blockStep _ _ _ _ _)

theorem issueReadFields_blockStep (op : ExchangeOp) (c : Code) (s : State) :
    BlockStep s (issueReadFields op c s) := by
  unfold issueReadFields
  split
  · exact issueExchange_blockStep _ _ _ _ _ s
  · exact raise_blockStep _ _ s

theorem issueWriteFields_blockStep (op : ExchangeOp) (c : Code) (s : State) :
    BlockStep s (issueWriteFields op c s) := by
  unfold issueWriteFields
  split
  · exact issueExchange_blockStep _ _ _ _ _ s
  · exact raise_blockStep _ _ s

theorem issueRegion_blockStep (op : ExchangeOp) (speed : Word) (code : Option Code) (payload : Option Bytes)
    (s : State) : BlockStep s (issueRegion op speed code payload s) := by
  unfold issueRegion
  split
  · exact issueExchange_blockStep _ _ _ _ _ s
  · exact raise_blockStep _ _ s

/-! ## The host operations -/

theorem execCrc16_blockStep (h : execCrc16 s = .next t) : BlockStep s t := by
  cases h
  refine issue_blockStep (fun s => ?_) s
  exact .records rfl rfl

theorem execSum8_blockStep (h : execSum8 s = .next t) : BlockStep s t := by
  cases h
  refine issue_blockStep (fun s => ?_) s
  exact .records rfl rfl

theorem execValidate_blockStep {tag : Nat} (h : execValidate tag s = .next t) : BlockStep s t := by
  cases h
  refine issue_blockStep (fun s => ?_) s
  split
  · exact raise_blockStep _ _ s
  · exact .records rfl rfl

theorem execDesc_blockStep {tag : Nat} (h : execDesc tag s = .next t) : BlockStep s t := by
  cases h
  refine issue_blockStep (fun s => ?_) s
  split
  · exact raise_blockStep _ _ s
  · exact .records rfl rfl

theorem execFmSet_blockStep {length : Nat} (h : execFmSet length s = .next t) : BlockStep s t := by
  cases h
  refine issue_blockStep (fun s => ?_) s
  split
  · exact raise_blockStep _ _ s
  · split
    · exact raise_blockStep _ _ s
    · exact .records rfl rfl

theorem execDecode_blockStep {tag : Nat} (h : execDecode tag s = .next t) : BlockStep s t := by
  cases h
  refine issue_blockStep (fun s => ?_) s
  split
  · exact raise_blockStep _ _ s
  · dsimp only
    split
    · exact raise_blockStep _ _ s
    · split
      · exact raise_blockStep _ _ s
      · exact .records rfl rfl

theorem execStreamStart_blockStep {tag : Nat} {wd : Bool} (h : execStreamStart tag wd s = .next t) :
    BlockStep s t := by
  cases h
  refine issue_blockStep (fun s => ?_) s
  split
  · exact raise_blockStep _ _ s
  · exact openLink_blockStep (.records rfl rfl)

theorem execStreamStop_blockStep (h : execStreamStop s = .next t) : BlockStep s t := by
  cases h
  refine issue_blockStep (fun s => ?_) s
  split
  · exact .records rfl rfl
  · exact .records rfl rfl

theorem execQpop_blockStep (h : execQpop s = .next t) : BlockStep s t := by
  cases h
  refine issue_blockStep (fun s => ?_) s
  split
  · exact .records rfl rfl
  · exact .of_baud_eq rfl (by simp)

theorem execSetQuiet_blockStep (h : execSetQuiet s = .next t) : BlockStep s t := by
  cases h
  refine issue_blockStep (fun s => ?_) s
  split
  · exact raise_blockStep _ _ s
  · exact issueExchange_blockStep _ _ _ _ _ s

theorem execLock_blockStep {region : Nat} (h : execLock region s = .next t) : BlockStep s t := by
  cases h
  refine issue_blockStep (fun s => ?_) s
  split
  · exact raise_blockStep _ _ s
  · exact issueRegion_blockStep _ _ _ _ s

theorem execUnlock_blockStep {region : Nat} (h : execUnlock region s = .next t) : BlockStep s t := by
  cases h
  refine issue_blockStep (fun s => ?_) s
  split
  · exact raise_blockStep _ _ s
  · exact issueRegion_blockStep _ _ _ _ s

theorem execUpgStart_blockStep (h : execUpgStart s = .next t) : BlockStep s t := by
  cases h
  refine issue_blockStep (fun s => ?_) s
  split
  · exact raise_blockStep _ _ s
  · split
    · exact raise_blockStep _ _ s
    · exact openLink_blockStep (.records rfl rfl)

/-- Every operation but RESET leaves the environment its own. -/
theorem exec_blockStep {i : Instr} (hi : i ≠ .reset) (h : exec i s = .next t) : BlockStep s t := by
  cases i with
  | crc16 => exact execCrc16_blockStep h
  | sum8 => exact execSum8_blockStep h
  | validate => exact execValidate_blockStep h
  | desc => exact execDesc_blockStep h
  | fmSet => exact execFmSet_blockStep h
  | decode => exact execDecode_blockStep h
  | streamStart => exact execStreamStart_blockStep h
  | streamStop => exact execStreamStop_blockStep h
  | qpop => exact execQpop_blockStep h
  | getProductInfo => cases h; exact issue_blockStep (issueExchange_blockStep _ _ _ _ _) s
  | getFields => cases h; exact issue_blockStep (issueReadFields_blockStep _ _) s
  | readFields => cases h; exact issue_blockStep (issueReadFields_blockStep _ _) s
  | writeFieldsTemp => cases h; exact issue_blockStep (issueWriteFields_blockStep _ _) s
  | writeFieldsPerm => cases h; exact issue_blockStep (issueWriteFields_blockStep _ _) s
  | setQuiet => exact execSetQuiet_blockStep h
  | restart => cases h; exact issue_blockStep (issueExchange_blockStep _ _ _ _ _) s
  | jumpBoot => cases h; exact issue_blockStep (issueExchange_blockStep _ _ _ _ _) s
  | jumpApp => cases h; exact issue_blockStep (issueExchange_blockStep _ _ _ _ _) s
  | lock => exact execLock_blockStep h
  | unlock => exact execUnlock_blockStep h
  | upgStart => exact execUpgStart_blockStep h
  | reset => exact absurd rfl hi

/-! ## The agents -/

theorem push_blockStep (f : Bytes) (s : State) : BlockStep s (push f s) := by
  rcases push_cases f s with h | ⟨g, rest, _, _, h⟩ <;> rw [h]
  · exact .records rfl rfl
  · exact .of_baud_eq rfl (List.prefix_append _ _)

theorem pushAll_blockStep (fs : List Bytes) (s : State) : BlockStep s (pushAll fs s) := by
  induction fs generalizing s with
  | nil => exact .refl s
  | cons f fs ih => exact (push_blockStep f s).trans (ih (push f s))

theorem watchdogCheck_blockStep (pushed : Bool) (s : State) : BlockStep s (watchdogCheck pushed s) := by
  unfold watchdogCheck
  split
  · split
    · exact .silent rfl rfl
    · split
      · split
        · exact .records rfl rfl
        · exact .records rfl rfl
      · exact .refl s
  · exact .refl s

theorem scanAcc_blockStep (s : State) : BlockStep s (scanAcc s) := by
  unfold scanAcc
  refine BlockStep.trans ?_ (pushAll_blockStep _ _)
  exact .silent rfl rfl

theorem syncStep_blockStep (s : State) : BlockStep s (syncStep s) := by
  have read : BlockStep s (readLink s) := .silent rfl rfl
  have checked := watchdogCheck_blockStep (scanPushes (readLink s)) (scanAcc (readLink s))
  exact ((read.trans (scanAcc_blockStep _)).trans checked).trans (.silent rfl rfl)

theorem plainResponse_blockStep (opc : Byte) (resp : Bytes) (s : State) : BlockStep s (plainResponse opc resp s) :=
  .records rfl rfl

theorem parseFields_blockStep (opc : Byte) (resp : Bytes) (s : State) : BlockStep s (parseFields opc resp s) := by
  unfold parseFields
  dsimp only
  split
  · exact raise_blockStep _ _ s
  · exact .records rfl rfl

theorem parseWriteEcho_blockStep (opc : Byte) (resp : Bytes) (s : State) :
    BlockStep s (parseWriteEcho opc resp s) := by
  unfold parseWriteEcho
  dsimp only
  split
  · exact raise_blockStep _ _ s
  · exact .records rfl rfl

theorem parseProduct_blockStep (opc : Byte) (resp : Bytes) (s : State) : BlockStep s (parseProduct opc resp s) := by
  unfold parseProduct
  dsimp only
  split
  · exact raise_blockStep _ _ s
  · exact .records rfl rfl

theorem onResponse_blockStep (op : ExchangeOp) (resp : Bytes) (s : State) : BlockStep s (onResponse op resp s) := by
  cases op with
  | getProductInfo => exact parseProduct_blockStep _ _ s
  | getFields | readFields => exact parseFields_blockStep _ _ s
  | writeFieldsTemp | writeFieldsPerm => exact parseWriteEcho_blockStep _ _ s
  | setQuiet | restart | jumpBoot | jumpApp | lock | unlock => exact plainResponse_blockStep _ _ s

theorem completeHostOp_blockStep (op : ExchangeOp) (r : Option Bytes) (s : State) :
    BlockStep s (completeHostOp op r s) := by
  have released : BlockStep s s.releaseLink := .silent rfl rfl
  cases r with
  | none => exact released.trans (raise_blockStep _ _ _)
  | some resp => exact released.trans (onResponse_blockStep op resp _)

theorem failUpgrade_blockStep (e : ErrorCode) (s : State) : BlockStep s (failUpgrade e s) := .records rfl rfl

theorem sendBlock_blockStep (o : Nat) (s : State) : BlockStep s (sendBlock o s) := .records rfl rfl

/-- The bootloader's speed, set between the two exchanges of an upgrade, is recorded (45_upgrade.md R294). -/
theorem deliverUpgrade_blockStep (r : Option Bytes) (s : State) : BlockStep s (deliverUpgrade r s) := by
  unfold deliverUpgrade
  split
  · have staged : BlockStep s (setStage .quietSet s) := .silent rfl rfl
    exact (staged.trans (switchBaud_blockStep _ _)).trans (.records rfl rfl)
  · exact failUpgrade_blockStep _ s
  · exact .silent rfl rfl
  · exact failUpgrade_blockStep _ s
  · exact .refl s

theorem deliver_blockStep (r : Option Bytes) (s : State) : BlockStep s (deliver r s) := by
  have ended : BlockStep s s.corrEnded := .silent rfl rfl
  cases hc : s.corr.client with
  | none =>
    unfold deliver
    rw [hc]
    exact ended
  | hostOp op =>
    rw [deliver_hostOp hc]
    exact ended.trans (completeHostOp_blockStep op r _)
  | upg =>
    rw [deliver_upg hc]
    exact ended.trans (deliverUpgrade_blockStep r _)

theorem corrStep_blockStep (s : State) : BlockStep s (corrStep s) := by
  have read : BlockStep s s.afterRead := .silent rfl rfl
  rw [corrStep_eq]
  split
  · exact read.trans (deliver_blockStep _ _)
  · split
    · exact read.trans (deliver_blockStep _ _)
    · exact read

theorem deliverAck_blockStep (a : Bytes) (s : State) : BlockStep s (deliverAck a s) := by
  unfold deliverAck
  split
  · split
    · exact .silent rfl rfl
    · exact failUpgrade_blockStep _ s
  · have recorded : BlockStep s (recordBlock s) := .records rfl rfl
    split
    · dsimp only
      split
      · exact recorded.trans (.silent rfl rfl)
      · exact recorded.trans (sendBlock_blockStep _ _)
    · exact failUpgrade_blockStep _ s
  · exact .records rfl rfl
  · exact .refl s

theorem ackrStep_blockStep (s : State) : BlockStep s (ackrStep s) := by
  unfold ackrStep
  dsimp only
  split
  · refine BlockStep.trans ?_ (deliverAck_blockStep _ _)
    exact .silent rfl rfl
  · exact .silent rfl rfl

/-- The speed of the block writes is recorded before the first block (45_upgrade.md R294). -/
theorem upgStep_blockStep (s : State) : BlockStep s (upgStep s) := by
  unfold upgStep
  split
  · exact .records rfl rfl
  · exact .silent rfl rfl
  · exact (switchBaud_blockStep _ s).trans (sendBlock_blockStep 0 _)
  · exact .silent rfl rfl
  · exact .records rfl rfl
  · exact .refl s

theorem agentStep_blockStep (a : Agent) (s : State) : BlockStep s (agentStep s a) := by
  cases a with
  | sync => exact syncStep_blockStep s
  | corr => exact corrStep_blockStep s
  | ackr => exact ackrStep_blockStep s
  | upg => exact upgStep_blockStep s

theorem settle_blockStep (s : State) : BlockStep s (settle s) := by
  unfold settle
  split
  · exact (agentStep_blockStep _ s).trans (.silent rfl rfl)
  · exact .refl s

theorem idleStep_blockStep (s : State) : BlockStep s (idleStep s) := by
  unfold idleStep
  split
  · exact agentStep_blockStep _ s
  · exact .refl s

/-! ## The host's accesses -/

theorem writeHin_blockStep (i : Nat) (b : Byte) (s : State) : BlockStep s (writeHin i b s) := by
  unfold writeHin
  split
  · exact .silent rfl rfl
  · exact .refl s

theorem writeHinLen_blockStep (v : Word) (s : State) : BlockStep s (writeHinLen v s) := by
  unfold writeHinLen
  split
  · exact .refl s
  · exact .silent rfl rfl

theorem writeBaud_blockStep (v : Word) (s : State) : BlockStep s (writeBaud v s) := by
  unfold writeBaud
  split
  · exact .refl s
  · exact switchBaud_blockStep v s

theorem writeOdr_blockStep (v : Word) (s : State) : BlockStep s (writeOdr v s) := by
  unfold writeOdr
  split
  · exact .refl s
  · exact .silent rfl rfl

/-- A command word is the word of RESET, or leaves the environment its own. -/
theorem writeCmd_cases {w : Word} (h : writeCmd w s = .next t) :
    BlockStep s t ∨ decode w = .ok .reset ∧ execReset s = .next t := by
  unfold writeCmd at h
  split at h
  · rename_i i hd
    by_cases hi : i = .reset
    · subst hi
      exact .inr ⟨hd, h⟩
    · exact .inl (exec_blockStep hi h)
  · cases h
    exact .inl (illegalOp_blockStep _ s)

/-- A register write leaves the environment its own, but for RESET's word in `CMD`. -/
theorem writeReg_cases {num : Byte} {w : Word} (h : writeReg num w s = .next t) :
    BlockStep s t ∨ num = 0x00 ∧ decode w = .ok .reset ∧ execReset s = .next t := by
  unfold writeReg at h
  split at h
  · rename_i hn
    exact (writeCmd_cases h).imp_right fun hr => ⟨BitVec.eq_of_toNat_eq hn, hr⟩
  · cases h
    exact .inl (writeHinLen_blockStep w s)
  · cases h
    exact .inl (writeBaud_blockStep w s)
  · cases h
    exact .inl (writeOdr_blockStep w s)
  · cases h
    exact .inl (.refl s)

end Sys2Proof.Machine
end

section
/-! SUPPORT. The passage of time under maximal progress (60_exceptions.md R373). -/

namespace Sys2Proof.Machine

variable {s t : State} {d : Nat}

/-- A `Tick` waits for an enabled agent. -/
theorem tick_of_nextAgent {a : Agent} (hd : 0 < d) (h : nextAgent s = some a) :
    tick d s = .next (postpone (.tick d) (agentStep s a)) := by
  unfold tick
  rw [if_neg (Nat.ne_of_gt hd), h]

/-- The state `e` of the `d` milliseconds of a `Tick` later, with the rest of the `Tick` still to be done (log 3). -/
def elapse (d e : Nat) (s : State) : State :=
  { s with now := s.now + e, schedule := if e < d then .tick (d - e) :: s.schedule else s.schedule }

theorem elapse_all (d : Nat) (s : State) : elapse d d s = advance d s := by
  simp [elapse, advance]

theorem elapse_part {e : Nat} (h : e < d) (s : State) : elapse d e s = postpone (.tick (d - e)) (advance e s) := by
  simp [elapse, postpone, advance, h]

/-- With no agent to wait for, time advances to the end of the `Tick` or to the next waiting deadline, whichever comes
first. -/
theorem tick_elapses (hd : 0 < d) (h : nextAgent s = none) : ∃ e, 0 < e ∧ e ≤ d ∧ tick d s = .next (elapse d e s) ∧
    (∀ x ∈ deadlines s, s.now < x → s.now + e ≤ x) ∧ (e < d → s.now + e ∈ deadlines s) := by
  unfold tick
  rw [if_neg (Nat.ne_of_gt hd), h]
  cases hx : nextDeadline s with
  | none =>
    refine ⟨d, hd, Nat.le_refl d, by rw [elapse_all], fun x hm hlt => ?_, fun hlt => absurd hlt (Nat.lt_irrefl d)⟩
    exact absurd hlt (nextDeadline_eq_none.1 hx x hm)
  | some x =>
    obtain ⟨hlt, hmem, hleast⟩ := nextDeadline_eq_some hx
    dsimp only
    by_cases hle : s.now + d ≤ x
    · refine ⟨d, hd, Nat.le_refl d, by rw [if_pos hle, elapse_all], fun y hm hy => ?_,
        fun hlt => absurd hlt (Nat.lt_irrefl d)⟩
      exact hle.trans (hleast y hm hy)
    · have reached : s.now + (x - s.now) = x := by omega
      have part : x - s.now < d := by omega
      exact ⟨x - s.now, by omega, part.le, by rw [if_neg hle, elapse_part part],
        fun y hm hy => reached.symm ▸ hleast y hm hy, fun _ => reached.symm ▸ hmem⟩

/-- Every way a `Tick` can go. -/
theorem tick_cases (h : tick d s = .next t) : BlockStep s t ∨ ∃ e, 0 < e ∧ e ≤ d ∧ t = elapse d e s := by
  have hd : 0 < d := by
    rcases Nat.eq_zero_or_pos d with rfl | hd
    · cases h
    · exact hd
  cases ha : nextAgent s with
  | some a =>
    rw [tick_of_nextAgent hd ha] at h
    cases h
    exact .inl ((agentStep_blockStep a s).trans (.silent rfl rfl))
  | none =>
    obtain ⟨e, he, hle, ht, -, -⟩ := tick_elapses hd ha
    rw [ht] at h
    cases h
    exact .inr ⟨e, he, hle, rfl⟩

/-- Settles O60, by the two ways a `Tick` of positive length can go. -/
theorem tickStopsAtDeadlines : Obligations.TickStopsAtDeadlines := by
  intro s d hd
  refine ⟨fun a ha => tick_of_nextAgent hd ha, fun ha => ?_⟩
  obtain ⟨e, he, hle, ht, hbefore, hat⟩ := tick_elapses hd ha
  exact ⟨e, elapse d e s, he, hle, ht, rfl, hbefore, hat⟩

end Sys2Proof.Machine
end

section
/-! SUPPORT. What one step can do to the environment's part of the state, and the statement about it. -/

namespace Sys2Proof.Machine

variable {s t : State}

/-- Everything an action can do: a move of the block, or one of the three that reach further. -/
theorem perform_cases {a : Action} (h : perform a s = .next t) :
    BlockStep s t ∨ (∃ v, a = .link v ∧ t = setLink v s) ∨
      (∃ d e, a = .tick d ∧ 0 < e ∧ e ≤ d ∧ t = elapse d e s) ∨
      ∃ w, a = .regWrite 0x00 w ∧ decode w = .ok .reset ∧ execReset s = .next t := by
  cases a with
  | regWrite num w =>
    rcases writeReg_cases h with hb | ⟨rfl, hd, hr⟩
    · exact .inl hb
    · exact .inr (.inr (.inr ⟨w, rfl, hd, hr⟩))
  | regRead => cases h; exact .inl (.silent rfl rfl)
  | hinWrite i b => cases h; exact .inl (writeHin_blockStep i b s)
  | hinRead => cases h; exact .inl (.silent rfl rfl)
  | houtWrite => cases h; exact .inl (.silent rfl rfl)
  | houtRead => cases h; exact .inl (.silent rfl rfl)
  | rx => cases h; exact .inl (.silent rfl rfl)
  | tick d =>
    rcases tick_cases h with hb | ⟨e, he, hle, rfl⟩
    · exact .inl hb
    · exact .inr (.inr (.inl ⟨d, e, rfl, he, hle, rfl⟩))
  | link v => cases h; exact .inr (.inl ⟨v, rfl, rfl⟩)
  | agent a =>
    by_cases ha : agentEnabled s a = true
    · rw [perform_agent ha] at h
      cases h
      exact .inl (agentStep_blockStep a s)
    · simp [perform, scheduledAgent, ha] at h
  | settle => cases h; exact .inl (settle_blockStep s)

/-- Everything a step can do. -/
theorem step_cases (h : step s = .next t) :
    BlockStep s t ∨ ∃ a rest, s.schedule = a :: rest ∧
      ((∃ v, a = .link v ∧ t = setLink v { s with schedule := rest }) ∨
        (∃ d e, a = .tick d ∧ 0 < e ∧ e ≤ d ∧ t = elapse d e { s with schedule := rest }) ∨
        ∃ w, a = .regWrite 0x00 w ∧ decode w = .ok .reset ∧ execReset { s with schedule := rest } = .next t) := by
  unfold step at h
  split at h
  · cases h
    exact .inl (idleStep_blockStep s)
  · rename_i a rest hs
    have taken : BlockStep s { s with schedule := rest } := .silent rfl rfl
    exact (perform_cases h).imp taken.trans fun hcases => ⟨a, rest, hs, hcases⟩

/-- Settles O57: `Rx` and `Link` by their meaning, every step by what a step can do. -/
theorem environmentIsTheEnvironments : Obligations.EnvironmentIsTheEnvironments := by
  refine ⟨fun _ _ => rfl, fun _ _ => rfl, fun s t h => ?_⟩
  rcases step_cases h with hb | ⟨a, rest, hs, ⟨v, rfl, rfl⟩ | ⟨d, e, rfl, he, hle, rfl⟩ | ⟨w, rfl, hd, hr⟩⟩
  · obtain ⟨evs, hh, hbaud⟩ := hb.hist
    exact ⟨⟨evs, hh.symm⟩, hb.cfg, fun hne => absurd hb.linkOk hne, fun hne => absurd hb.now hne,
      fun hne => .inr ⟨evs, hh, hbaud hne⟩⟩
  · exact ⟨List.prefix_refl _, rfl, fun _ => by rw [hs]; rfl, fun hne => absurd rfl hne, fun hne => absurd rfl hne⟩
  · exact ⟨List.prefix_refl _, rfl, fun hne => absurd rfl hne,
      fun _ => .inl ⟨d, by rw [hs]; rfl, Nat.lt_add_of_pos_right he, Nat.add_le_add_left hle _⟩,
      fun hne => absurd rfl hne⟩
  · cases hr
    exact ⟨List.prefix_append _ _, rfl, fun hne => absurd rfl hne, fun _ => .inr ⟨w, by rw [hs]; rfl, hd, rfl⟩,
      fun _ => .inl ⟨w, by rw [hs]; rfl, hd, rfl⟩⟩

end Sys2Proof.Machine
end

section
/-! SUPPORT. The registers and the command port: what a decoded word is, what a register reads, and where the fields of
the packed registers stand (10_state.md R31 to R49, 30_encoding.md R100). -/

namespace Sys2Proof

/-- A decoded operation holds its arguments as bytes of the word (30_encoding.md R100). -/
theorem wellFormed_of_decode {w : Word} {i : Instr} (h : decode w = .ok i) : i.WellFormed = true := by
  obtain ⟨-, hmap⟩ := decode_eq_ok.1 h
  have byte (b : Byte) : fitsByteField b.toNat = true := decide_eq_true b.isLt
  unfold decodeOpcode at hmap
  split at hmap <;> cases hmap <;> simp only [Instr.WellFormed, byte]

theorem decode_of_decodeTableWord {nbits w : Nat} {i : Instr} (h : decodeTableWord nbits w = some i) :
    decode (BitVec.ofNat 32 (w % 2 ^ nbits)) = .ok i := by
  unfold decodeTableWord at h
  split at h
  · cases h
    assumption
  · cases h

namespace Machine

/-! ## The command port -/

theorem step_of_schedule {s : State} {a : Action} {rest : List Action} (h : s.schedule = a :: rest) :
    step s = perform a { s with schedule := rest } := by
  unfold step
  rw [h]

/-- A word that decodes, written to `CMD`, runs its operation (10_state.md R32). -/
theorem perform_command {s : State} {w : Word} {i : Instr} (h : decode w = .ok i) :
    perform (.regWrite 0x00 w) s = exec i s := by
  show writeCmd w s = _
  unfold writeCmd
  rw [h]

/-- Settles O5: the schedule's head is taken, and a `CMD` write at the head is the operation decoded from its word. -/
theorem stepRunsDecodedInstruction : Obligations.StepRunsDecodedInstruction := by
  refine ⟨fun s a rest hs => step_of_schedule hs, fun s w rest i hs hd => ⟨wellFormed_of_decode hd, ?_⟩,
    fun s w i hd => ?_⟩
  · rw [step_of_schedule hs, perform_command hd]
  · exact perform_command (decode_of_decodeTableWord hd)

/-! ## The registers by number -/

/-- The numbers above 0x12 are no registers (10_state.md R31). -/
theorem regWord_undefined {n : Byte} (h : 0x12 < n) (s : State) : regWord s n = 0 := by
  have hn : 18 < n.toNat := BitVec.lt_def.1 h
  unfold regWord
  split <;> first | omega | rfl

/-- A number that is none of the four writable registers ignores a write (10_state.md R31). -/
theorem writeReg_ignored {n : Byte} (h0 : n ≠ 0x00) (h4 : n ≠ 0x04) (h6 : n ≠ 0x06) (h8 : n ≠ 0x08) (v : Word)
    (s : State) : writeReg n v s = .next s := by
  unfold writeReg
  split
  · rename_i hn
    exact absurd (BitVec.eq_of_toNat_eq hn) h0
  · rename_i hn
    exact absurd (BitVec.eq_of_toNat_eq hn) h4
  · rename_i hn
    exact absurd (BitVec.eq_of_toNat_eq hn) h6
  · rename_i hn
    exact absurd (BitVec.eq_of_toNat_eq hn) h8
  · rfl

/-- The reset values of R31: every register reads 0 but `BAUD`, `FM_LEN` and `ODR`. -/
theorem regWord_reset (n : Byte) : regWord State.reset n =
    if n = 0x06 then State.reset.cfg.initBaud else if n = 0x07 then 95 else if n = 0x08 then 1 else 0 := by
  by_cases hu : 0x12 < n
  · have hn : 18 < n.toNat := BitVec.lt_def.1 hu
    rw [regWord_undefined hu, if_neg, if_neg, if_neg] <;> rintro rfl <;> revert hn <;> decide
  · have hn : n.toNat ≤ 18 := BitVec.le_def.1 (BitVec.not_lt.1 hu)
    obtain ⟨k, hk⟩ : ∃ k : Fin 19, n = BitVec.ofNat 8 k := ⟨⟨n.toNat, Nat.lt_succ_of_le hn⟩, by simp⟩
    subst hk
    fin_cases k <;> rfl

/-- Settles O7: each register by its number, and the numbers that are none. -/
theorem registerFile : Obligations.RegisterFile := by
  refine ⟨fun _ _ => rfl, fun s => ?_, fun s n hn => regWord_undefined hn s,
    fun s n v h0 h4 h6 h8 => writeReg_ignored h0 h4 h6 h8 v s, regWord_reset⟩
  refine ⟨rfl, rfl, rfl, rfl, rfl, rfl, rfl, ?_, ?_, rfl, rfl, rfl, rfl, ?_, rfl, rfl, rfl, ?_, ?_⟩
  · show (s.fmLen.setWidth 32).toNat = _
    exact BitVec.toNat_setWidth_of_le (by decide)
  · show (s.odr.setWidth 32).toNat = _
    exact BitVec.toNat_setWidth_of_le (by decide)
  · show (BitVec.ofNat 32 (min s.stream.acc.length (2 ^ 32 - 1))).toNat = _
    rw [BitVec.toNat_ofNat, Nat.mod_eq_of_lt (by omega)]
  · show (s.upg.progress.setWidth 32).toNat = _
    exact BitVec.toNat_setWidth_of_le (by decide)
  · exact BitVec.toNat_ofNat _ _

/-- The low 16 bits of a register (10_state.md R39). -/
theorem setWidth_eq_low (v : Word) : v.setWidth 16 = v.extractLsb' 0 16 :=
  BitVec.eq_of_toNat_eq (by simp)

/-- Settles O9: the three writable registers, busy or not. -/
theorem registerWrites : Obligations.RegisterWrites := by
  intro s v
  refine ⟨fun hb n hn => ?_, fun hb => ⟨?_, ?_, ?_⟩⟩
  · simp only [List.mem_cons, List.not_mem_nil, or_false] at hn
    rcases hn with rfl | rfl | rfl
    · show Host.Outcome.next (writeHinLen v s) = _
      simp [writeHinLen, hb]
    · show Host.Outcome.next (writeBaud v s) = _
      simp [writeBaud, hb]
    · show Host.Outcome.next (writeOdr v s) = _
      simp [writeOdr, hb]
  · show Host.Outcome.next (writeHinLen v s) = _
    simp [writeHinLen, hb]
  · show Host.Outcome.next (writeBaud v s) = _
    simp [writeBaud, hb, State.switchBaud, State.emit]
  · show Host.Outcome.next (writeOdr v s) = _
    simp [writeOdr, hb, setWidth_eq_low]

/-! ## The packed registers -/

theorem field_toNat {lo v : Nat} (h : v * 2 ^ lo < 2 ^ 32) : (field lo v).toNat = v * 2 ^ lo := by
  rw [field, BitVec.toNat_ofNat, Nat.mod_eq_of_lt h]

/-- A field put above the bits in use adds its place value. -/
theorem or_field_toNat {w : Word} {lo v n : Nat} (hw : w.toNat = n) (hn : n < 2 ^ lo) (hv : v * 2 ^ lo < 2 ^ 32) :
    (w ||| field lo v).toNat = n + v * 2 ^ lo := by
  rw [BitVec.toNat_or, field_toNat hv, hw, Nat.or_comm, Nat.mul_comm v, ← Nat.two_pow_add_eq_or_of_lt hn, Nat.add_comm]

theorem getLsbD_eq_of_toNat {w : Word} {i n : Nat} {b : Bool} (hw : w.toNat = n) (h : n / 2 ^ i % 2 = b.toNat) :
    w.getLsbD i = b := by
  have e : w.getLsbD i = decide (n / 2 ^ i % 2 = 1) := by
    rw [← hw, BitVec.getLsbD, Nat.testBit_eq_decide_div_mod_eq]
  rw [e, h]
  cases b <;> rfl

theorem extractLsb'_toNat_of_toNat {w : Word} {n lo len v : Nat} (hw : w.toNat = n) (h : n / 2 ^ lo % 2 ^ len = v) :
    (w.extractLsb' lo len).toNat = v := by
  rw [BitVec.extractLsb'_toNat, Nat.shiftRight_eq_div_pow, hw, h]

theorem code_le_errorCode (e : ErrorCode) : e.code ≤ 12 := by cases e <;> decide

theorem code_le_owner (o : Owner) : o.code ≤ 3 := by cases o <;> decide

theorem code_le_stage (st : Stage) : st.code ≤ 6 := by cases st <;> decide

theorem tagCode_le (t : Tag) : tagCode t ≤ 6 := by cases t <;> decide

/-- The place values of `STATUS` (10_state.md R33). -/
theorem Status.word_toNat (x : Status) : x.word.toNat = x.busy.toNat + x.done.toNat * 2 ^ 1 + x.err.toNat * 2 ^ 2 +
    x.rej.toNat * 2 ^ 3 + x.errcode.code * 2 ^ 8 + x.owner.code * 2 ^ 16 := by
  have hb := x.busy.toNat_lt
  have hd := x.done.toNat_lt
  have he := x.err.toNat_lt
  have hr := x.rej.toNat_lt
  have hc := code_le_errorCode x.errcode
  have ho := code_le_owner x.owner
  have busy : (field 0 x.busy.toNat).toNat = x.busy.toNat := by rw [field_toNat] <;> omega
  have done := or_field_toNat (lo := 1) (v := x.done.toNat) busy (by omega) (by omega)
  have err := or_field_toNat (lo := 2) (v := x.err.toNat) done (by omega) (by omega)
  have rej := or_field_toNat (lo := 3) (v := x.rej.toNat) err (by omega) (by omega)
  have errcode := or_field_toNat (lo := 8) (v := x.errcode.code) rej (by omega) (by omega)
  exact or_field_toNat (lo := 16) (v := x.owner.code) errcode (by omega) (by omega)

/-- The place values of `SYNC_STATE` (10_state.md R43). -/
theorem Stream.word_toNat (x : Stream) : x.word.toNat = x.active.toNat + tagCode x.tag * 2 ^ 1 +
    x.wdEn.toNat * 2 ^ 4 + x.wdArmed.toNat * 2 ^ 5 + x.wdAttempt.toNat * 2 ^ 6 + x.initFail.toNat * 2 ^ 8 := by
  have ha := x.active.toNat_lt
  have ht := tagCode_le x.tag
  have he := x.wdEn.toNat_lt
  have hr := x.wdArmed.toNat_lt
  have hw := x.wdAttempt.isLt
  have hf := x.initFail.toNat_lt
  have active : (field 0 x.active.toNat).toNat = x.active.toNat := by rw [field_toNat] <;> omega
  have tag := or_field_toNat (lo := 1) (v := tagCode x.tag) active (by omega) (by omega)
  have wdEn := or_field_toNat (lo := 4) (v := x.wdEn.toNat) tag (by omega) (by omega)
  have wdArmed := or_field_toNat (lo := 5) (v := x.wdArmed.toNat) wdEn (by omega) (by omega)
  have wdAttempt := or_field_toNat (lo := 6) (v := x.wdAttempt.toNat) wdArmed (by omega) (by omega)
  exact or_field_toNat (lo := 8) (v := x.initFail.toNat) wdAttempt (by omega) (by omega)

/-- The place values of `UPG_STATE` (10_state.md R45). -/
theorem Upg.word_toNat (x : Upg) :
    x.word.toNat = x.stage.code + x.session.toNat * 2 ^ 3 + x.failStage.code * 2 ^ 8 := by
  have hs := code_le_stage x.stage
  have hr := x.session.toNat_lt
  have hf := code_le_stage x.failStage
  have stage : (field 0 x.stage.code).toNat = x.stage.code := by rw [field_toNat] <;> omega
  have session := or_field_toNat (lo := 3) (v := x.session.toNat) stage (by omega) (by omega)
  exact or_field_toNat (lo := 8) (v := x.failStage.code) session (by omega) (by omega)

theorem Status.word_layout (x : Status) : x.word.getLsbD 0 = x.busy ∧ x.word.getLsbD 1 = x.done ∧
    x.word.getLsbD 2 = x.err ∧ x.word.getLsbD 3 = x.rej ∧ x.word.extractLsb' 4 4 = 0#4 ∧
    (x.word.extractLsb' 8 8).toNat = x.errcode.code ∧ (x.word.extractLsb' 16 2).toNat = x.owner.code ∧
    x.word.extractLsb' 18 14 = 0#14 := by
  have hb := x.busy.toNat_lt
  have hd := x.done.toNat_lt
  have he := x.err.toNat_lt
  have hr := x.rej.toNat_lt
  have hc := code_le_errorCode x.errcode
  have ho := code_le_owner x.owner
  have bit {i : Nat} {b : Bool} := getLsbD_eq_of_toNat (i := i) (b := b) x.word_toNat
  have bits {lo len v : Nat} := extractLsb'_toNat_of_toNat (lo := lo) (len := len) (v := v) x.word_toNat
  exact ⟨bit (by omega), bit (by omega), bit (by omega), bit (by omega), BitVec.eq_of_toNat_eq (bits (by simp; omega)),
    bits (by omega), bits (by omega), BitVec.eq_of_toNat_eq (bits (by simp; omega))⟩

theorem Stream.word_layout (x : Stream) : x.word.getLsbD 0 = x.active ∧
    (x.word.extractLsb' 1 3).toNat = tagCode x.tag ∧ x.word.getLsbD 4 = x.wdEn ∧ x.word.getLsbD 5 = x.wdArmed ∧
    x.word.extractLsb' 6 2 = x.wdAttempt ∧ x.word.getLsbD 8 = x.initFail ∧ x.word.extractLsb' 9 23 = 0#23 := by
  have ha := x.active.toNat_lt
  have ht := tagCode_le x.tag
  have he := x.wdEn.toNat_lt
  have hr := x.wdArmed.toNat_lt
  have hw := x.wdAttempt.isLt
  have hf := x.initFail.toNat_lt
  have bit {i : Nat} {b : Bool} := getLsbD_eq_of_toNat (i := i) (b := b) x.word_toNat
  have bits {lo len v : Nat} := extractLsb'_toNat_of_toNat (lo := lo) (len := len) (v := v) x.word_toNat
  exact ⟨bit (by omega), bits (by omega), bit (by omega), bit (by omega), BitVec.eq_of_toNat_eq (bits (by omega)),
    bit (by omega), BitVec.eq_of_toNat_eq (bits (by simp; omega))⟩

theorem Upg.word_layout (x : Upg) : (x.word.extractLsb' 0 3).toNat = x.stage.code ∧ x.word.getLsbD 3 = x.session ∧
    x.word.extractLsb' 4 4 = 0#4 ∧ (x.word.extractLsb' 8 3).toNat = x.failStage.code ∧
    x.word.extractLsb' 11 21 = 0#21 := by
  have hs := code_le_stage x.stage
  have hr := x.session.toNat_lt
  have hf := code_le_stage x.failStage
  have bit {i : Nat} {b : Bool} := getLsbD_eq_of_toNat (i := i) (b := b) x.word_toNat
  have bits {lo len v : Nat} := extractLsb'_toNat_of_toNat (lo := lo) (len := len) (v := v) x.word_toNat
  exact ⟨bits (by omega), bit (by omega), BitVec.eq_of_toNat_eq (bits (by simp; omega)), bits (by omega),
    BitVec.eq_of_toNat_eq (bits (by simp; omega))⟩

/-- Settles O8: a packed register is the sum of its fields' place values. -/
theorem packedRegisterLayouts : Obligations.PackedRegisterLayouts :=
  ⟨Status.word_layout, Stream.word_layout, Upg.word_layout, rfl, rfl, rfl, rfl⟩

end Machine
end Sys2Proof
end

section
/-! SUPPORT. Everything one step can do to the link, the streaming session and the upgrade, said once: a few moves, up
to the fields no invariant of these reads. A property that every move keeps is kept by every step (`step_keeps`). -/

namespace Sys2Proof.Machine

/-- The part of the state on which `LinkSafe`, `StreamSafe` and `UpgradeSafe` depend. -/
structure Control where
  owner : Owner
  busy : Bool
  odr : BitVec 16
  fmLen : Byte
  stream : Stream
  corrPhase : WaitPhase
  client : Client
  ackrPhase : WaitPhase
  upg : Upg
  cfg : Config

def State.control (s : State) : Control :=
  ⟨s.status.owner, s.status.busy, s.odr, s.fmLen, s.stream, s.corr.phase, s.corr.client, s.ackr.phase, s.upg, s.cfg⟩

/-- The state in which the streaming session has been stopped (43_synchronizer.md R191). -/
def State.streamStopped (s : State) : State :=
  { s with
    stream := { s.stream with active := false, wdArmed := false, q := [], acc := [] }
    status := { s.status with owner := .none } }

/-- The state in which the acknowledgement reader has ended (45_upgrade.md R295). -/
def State.ackrEnded (s : State) : State := { s with ackr := { s.ackr with phase := .idle } }

/-- The state an `ACKR` step has once it has read its bytes (45_upgrade.md R295). -/
def State.ackrRead (s : State) : State :=
  { s with
    rxq := s.rxq.drop (s.ackr.need - s.ackr.buf.length)
    ackr := { s.ackr with buf := s.ackr.buf ++ s.rxq.take (s.ackr.need - s.ackr.buf.length) } }

/-- What can happen to the control part of the state, each with what is known when it happens. -/
inductive Move (s : State) : State → Prop where
  | keep : Move s s
  | capacity {v : BitVec 16} (inactive : s.stream.active = false) (pos : v ≠ 0) : Move s { s with odr := v }
  | fmLength {n : Nat} (legal : fmLegal n = true) (inactive : s.stream.active = false) :
    Move s { s with fmLen := BitVec.ofNat 8 n }
  | streamStart (t : Tag) (watchdog : Bool) (free : s.status.owner = .none) : Move s (startStream t watchdog s)
  | streamStop (active : s.stream.active = true) : Move s s.streamStopped
  | pop {f : Bytes} {rest : List Bytes} (queued : s.stream.q = f :: rest) :
    Move s { s with stream := { s.stream with q := rest } }
  | exchange (op : ExchangeOp) (c : Code) (p : Bytes) (m : MatchMode) (free : s.status.owner = .none) :
    Move s (startExchange (.hostOp op) c p m (s.claimLink .exchange true))
  | upgrade {img : Bytes} (free : s.status.owner = .none) (nonempty : img ≠ []) (le : img.length ≤ s.cfg.maxImage)
    (quiet : s.cfg.quietPayload.isSome = true) : Move s (startQuiet ((beginSession img s).claimLink .upgrade true))
  | reset : Move s (State.resetFor s.cfg s.linkOk)
  | poll (enabled : syncEnabled s = true) : Move s (syncStep s)
  | hostDone {op : ExchangeOp} (waits : s.corr.phase = .wait) (client : s.corr.client = .hostOp op) :
    Move s s.corrEnded.releaseLink
  | unclaimed (waits : s.corr.phase = .wait) (client : s.corr.client = .none) : Move s s.corrEnded
  | quietDone (r : Option Bytes) (waits : s.corr.phase = .wait) (client : s.corr.client = .upg) :
    Move s (deliverUpgrade r s.corrEnded)
  | acknowledged (a : Bytes) (waits : s.ackr.phase = .wait) : Move s (deliverAck a s.ackrEnded)
  | deadline (enabled : upgEnabled s = true) : Move s (upgStep s)

/-- From `s` to `t` there is at most one move, up to the fields outside the control part. -/
def Leads (s t : State) : Prop := ∃ r u, r.control = s.control ∧ Move r u ∧ t.control = u.control

variable {s t u : State}

namespace Leads

theorem of_move (h : Move s u) (ht : t.control = u.control) : Leads s t := ⟨s, u, rfl, h, ht⟩

theorem keep (h : t.control = s.control) : Leads s t := of_move .keep h

theorem refl (s : State) : Leads s s := keep rfl

theorem from_eq (h : Leads u t) (hu : u.control = s.control) : Leads s t := by
  obtain ⟨r, v, hr, hm, ht⟩ := h
  exact ⟨r, v, hr.trans hu, hm, ht⟩

theorem to_eq (h : Leads s u) (ht : t.control = u.control) : Leads s t := by
  obtain ⟨r, v, hr, hm, hu⟩ := h
  exact ⟨r, v, hr, hm, ht.trans hu⟩

end Leads

/-! ## The shared operations -/

theorem raise_leads (opc : Byte) (e : ErrorCode) (s : State) : Leads s (s.raise opc e) := .keep rfl

theorem issue_leads {body : State → State} (hb : ∀ s, Leads s (body s)) (s : State) : Leads s (s.issue body) :=
  State.issue_cases (.keep rfl) fun _ => (hb s.clearStatus).from_eq rfl

theorem openLink_leads {opc : Byte} {body : State → State} (hb : s.status.owner = .none → Leads s (body s)) :
    Leads s (s.openLink opc body) :=
  State.openLink_cases (fun e => raise_leads opc e s) fun free _ => hb free

theorem issueExchange_leads (op : ExchangeOp) (speed : Option Word) (c : Code) (p : Bytes) (m : MatchMode)
    (s : State) : Leads s (issueExchange op speed c p m s) := by
  refine openLink_leads fun free => ?_
  cases speed with
  | none => exact .of_move (.exchange op c p m free) rfl
  | some v => exact .of_move (.exchange op c p m free) rfl

theorem issueReadFields_leads (op : ExchangeOp) (c : Code) (s : State) : Leads s (issueReadFields op c s) := by
  unfold issueReadFields
  split
  · exact issueExchange_leads _ _ _ _ _ s
  · exact raise_leads _ _ s

theorem issueWriteFields_leads (op : ExchangeOp) (c : Code) (s : State) : Leads s (issueWriteFields op c s) := by
  unfold issueWriteFields
  split
  · exact issueExchange_leads _ _ _ _ _ s
  · exact raise_leads _ _ s

theorem issueRegion_leads (op : ExchangeOp) (speed : Word) (code : Option Code) (payload : Option Bytes)
    (s : State) : Leads s (issueRegion op speed code payload s) := by
  unfold issueRegion
  split
  · exact issueExchange_leads _ _ _ _ _ s
  · exact raise_leads _ _ s

/-! ## The host operations -/

theorem execValidate_leads {tag : Nat} (h : execValidate tag s = .next t) : Leads s t := by
  cases h
  refine issue_leads (fun s => ?_) s
  split
  · exact raise_leads _ _ s
  · exact .keep rfl

theorem execDesc_leads {tag : Nat} (h : execDesc tag s = .next t) : Leads s t := by
  cases h
  refine issue_leads (fun s => ?_) s
  split
  · exact raise_leads _ _ s
  · exact .keep rfl

theorem execFmSet_leads {length : Nat} (h : execFmSet length s = .next t) : Leads s t := by
  cases h
  refine issue_leads (fun s => ?_) s
  split
  · exact raise_leads _ _ s
  · rename_i legal
    split
    · exact raise_leads _ _ s
    · rename_i inactive
      exact .of_move (.fmLength (n := length) (by simpa using legal) (by simpa using inactive)) rfl

theorem execDecode_leads {tag : Nat} (h : execDecode tag s = .next t) : Leads s t := by
  cases h
  refine issue_leads (fun s => ?_) s
  split
  · exact raise_leads _ _ s
  · dsimp only
    split
    · exact raise_leads _ _ s
    · split
      · exact raise_leads _ _ s
      · exact .keep rfl

theorem execStreamStart_leads {tag : Nat} {watchdog : Bool} (h : execStreamStart tag watchdog s = .next t) :
    Leads s t := by
  cases h
  refine issue_leads (fun s => ?_) s
  split
  · exact raise_leads _ _ s
  · exact openLink_leads fun free => .of_move (.streamStart _ watchdog free) rfl

theorem execStreamStop_leads (h : execStreamStop s = .next t) : Leads s t := by
  cases h
  refine issue_leads (fun s => ?_) s
  split
  · exact .of_move (.streamStop ‹_›) rfl
  · exact .keep rfl

theorem execQpop_leads (h : execQpop s = .next t) : Leads s t := by
  cases h
  refine issue_leads (fun s => ?_) s
  split
  · exact .keep rfl
  · exact .of_move (.pop ‹_›) rfl

theorem execSetQuiet_leads (h : execSetQuiet s = .next t) : Leads s t := by
  cases h
  refine issue_leads (fun s => ?_) s
  split
  · exact raise_leads _ _ s
  · exact issueExchange_leads _ _ _ _ _ s

theorem execLock_leads {region : Nat} (h : execLock region s = .next t) : Leads s t := by
  cases h
  refine issue_leads (fun s => ?_) s
  split
  · exact raise_leads _ _ s
  · exact issueRegion_leads _ _ _ _ s

theorem execUnlock_leads {region : Nat} (h : execUnlock region s = .next t) : Leads s t := by
  cases h
  refine issue_leads (fun s => ?_) s
  split
  · exact raise_leads _ _ s
  · exact issueRegion_leads _ _ _ _ s

theorem execUpgStart_leads (h : execUpgStart s = .next t) : Leads s t := by
  cases h
  refine issue_leads (fun s => ?_) s
  split
  · exact raise_leads _ _ s
  · rename_i hlen
    obtain ⟨hpos, hle⟩ := not_or.1 hlen
    split
    · exact raise_leads _ _ s
    · rename_i p hq
      refine openLink_leads fun free => .of_move (.upgrade (img := s.arg) free (fun he => hpos ?_) ?_ ?_) rfl
      · have : s.hinLen.toNat = 0 := by rw [← s.length_arg, he, List.length_nil]
        exact BitVec.eq_of_toNat_eq this
      · rw [s.length_arg]
        exact Nat.le_of_not_lt hle
      · rw [hq, Option.isSome_some]

theorem exec_leads {i : Instr} (h : exec i s = .next t) : Leads s t := by
  cases i with
  | crc16 =>
    cases h
    refine issue_leads (fun s => ?_) s
    exact .keep rfl
  | sum8 =>
    cases h
    refine issue_leads (fun s => ?_) s
    exact .keep rfl
  | validate => exact execValidate_leads h
  | desc => exact execDesc_leads h
  | fmSet => exact execFmSet_leads h
  | decode => exact execDecode_leads h
  | streamStart => exact execStreamStart_leads h
  | streamStop => exact execStreamStop_leads h
  | qpop => exact execQpop_leads h
  | getProductInfo => cases h; exact issue_leads (issueExchange_leads _ _ _ _ _) s
  | getFields => cases h; exact issue_leads (issueReadFields_leads _ _) s
  | readFields => cases h; exact issue_leads (issueReadFields_leads _ _) s
  | writeFieldsTemp => cases h; exact issue_leads (issueWriteFields_leads _ _) s
  | writeFieldsPerm => cases h; exact issue_leads (issueWriteFields_leads _ _) s
  | setQuiet => exact execSetQuiet_leads h
  | restart => cases h; exact issue_leads (issueExchange_leads _ _ _ _ _) s
  | jumpBoot => cases h; exact issue_leads (issueExchange_leads _ _ _ _ _) s
  | jumpApp => cases h; exact issue_leads (issueExchange_leads _ _ _ _ _) s
  | lock => exact execLock_leads h
  | unlock => exact execUnlock_leads h
  | upgStart => exact execUpgStart_leads h
  | reset => cases h; exact .of_move .reset rfl

/-! ## The agents -/

/-- What the host operations do with a response leaves the control part as it is (44_correlator.md R259 to R261). -/
theorem onResponse_control (op : ExchangeOp) (resp : Bytes) (s : State) :
    (onResponse op resp s).control = s.control := by
  cases op with
  | getProductInfo => unfold onResponse parseProduct; dsimp only; split <;> rfl
  | getFields | readFields => unfold onResponse parseFields; dsimp only; split <;> rfl
  | writeFieldsTemp | writeFieldsPerm => unfold onResponse parseWriteEcho; dsimp only; split <;> rfl
  | setQuiet | restart | jumpBoot | jumpApp | lock | unlock => rfl

theorem completeHostOp_control (op : ExchangeOp) (r : Option Bytes) (s : State) :
    (completeHostOp op r s).control = s.releaseLink.control := by
  cases r with
  | none => rfl
  | some resp => exact onResponse_control op resp s.releaseLink

theorem deliver_leads (r : Option Bytes) (waits : s.corr.phase = .wait) : Leads s (deliver r s) := by
  cases hc : s.corr.client with
  | none =>
    have e : deliver r s = s.corrEnded := by
      unfold deliver
      rw [hc]
      rfl
    exact .of_move (.unclaimed waits hc) (congrArg State.control e)
  | hostOp op =>
    rw [deliver_hostOp hc]
    exact .of_move (.hostDone waits hc) (completeHostOp_control op r _)
  | upg =>
    rw [deliver_upg hc]
    exact .of_move (.quietDone r waits hc) rfl

theorem corrStep_leads (h : corrEnabled s = true) : Leads s (corrStep s) := by
  have waits : s.corr.phase = .wait := by
    simp only [corrEnabled, Bool.and_eq_true, beq_iff_eq] at h
    exact h.1
  rw [corrStep_eq]
  split
  · exact (deliver_leads (s := s.afterRead) _ waits).from_eq rfl
  · split
    · exact (deliver_leads (s := s.afterRead) _ waits).from_eq rfl
    · exact .keep rfl

/-- Every way an `ACKR` step can go (45_upgrade.md R295). -/
theorem ackrStep_eq (s : State) : ackrStep s =
    if s.ackrRead.ackr.buf.length = s.ackr.need ∨ s.ackr.deadline ≤ s.now then
      deliverAck s.ackrRead.ackr.buf s.ackrRead.ackrEnded
    else s.ackrRead := rfl

theorem ackrStep_leads (h : ackrEnabled s = true) : Leads s (ackrStep s) := by
  have waits : s.ackr.phase = .wait := by
    simp only [ackrEnabled, Bool.and_eq_true, beq_iff_eq] at h
    exact h.1
  rw [ackrStep_eq]
  split
  · exact ⟨s.ackrRead, _, rfl, .acknowledged _ waits, rfl⟩
  · exact .keep rfl

theorem agentStep_leads {a : Agent} (h : agentEnabled s a = true) : Leads s (agentStep s a) := by
  cases a with
  | sync => exact .of_move (.poll h) rfl
  | corr => exact corrStep_leads h
  | ackr => exact ackrStep_leads h
  | upg => exact .of_move (.deadline h) rfl

theorem settle_leads (s : State) : Leads s (settle s) := by
  unfold settle
  split
  · exact (agentStep_leads (agentEnabled_of_nextAgent ‹_›)).to_eq rfl
  · exact .refl s

theorem idleStep_leads (s : State) : Leads s (idleStep s) := by
  unfold idleStep
  split
  · exact agentStep_leads (agentEnabled_of_nextAgent ‹_›)
  · exact .refl s

/-! ## The host and the environment -/

theorem writeOdr_leads (v : Word) (s : State) : Leads s (writeOdr v s) := by
  unfold writeOdr
  split
  · exact .refl s
  · rename_i h
    simp only [Bool.or_eq_true, not_or, Bool.not_eq_true, beq_eq_false_iff_ne] at h
    obtain ⟨⟨-, inactive⟩, pos⟩ := h
    exact .of_move (.capacity inactive pos) rfl

theorem writeReg_leads {num : Byte} {v : Word} (h : writeReg num v s = .next t) : Leads s t := by
  unfold writeReg at h
  split at h
  · unfold writeCmd at h
    split at h
    · exact exec_leads h
    · cases h
      exact issue_leads (raise_leads _ _) s
  · cases h
    unfold writeHinLen
    split <;> exact .keep rfl
  · cases h
    unfold writeBaud
    split <;> exact .keep rfl
  · cases h
    exact writeOdr_leads v s
  · cases h
    exact .refl s

theorem tick_leads {d : Nat} (h : tick d s = .next t) : Leads s t := by
  have hd : 0 < d := by
    rcases Nat.eq_zero_or_pos d with rfl | hd
    · cases h
    · exact hd
  cases ha : nextAgent s with
  | some a =>
    rw [tick_of_nextAgent hd ha] at h
    cases h
    exact (agentStep_leads (agentEnabled_of_nextAgent ha)).to_eq rfl
  | none =>
    obtain ⟨e, -, -, ht, -⟩ := tick_elapses hd ha
    rw [ht] at h
    cases h
    exact .keep rfl

theorem perform_leads {a : Action} (h : perform a s = .next t) : Leads s t := by
  cases a with
  | regWrite => exact writeReg_leads h
  | hinWrite i b => cases h; unfold writeHin; split <;> exact .keep rfl
  | regRead | hinRead | houtWrite | houtRead | rx | link => cases h; exact .keep rfl
  | tick => exact tick_leads h
  | agent a =>
    by_cases ha : agentEnabled s a = true
    · rw [perform_agent ha] at h
      cases h
      exact agentStep_leads ha
    · simp [perform, scheduledAgent, ha] at h
  | settle => cases h; exact settle_leads s

theorem step_leads (h : step s = .next t) : Leads s t := by
  cases hs : s.schedule with
  | nil =>
    have e : step s = .next (idleStep s) := by
      unfold step
      rw [hs]
    rw [e] at h
    cases h
    exact idleStep_leads s
  | cons a rest =>
    rw [step_of_schedule hs] at h
    exact (perform_leads h).from_eq rfl

/-- What depends on the control part alone and every move keeps, every step keeps. -/
theorem step_keeps {p : State → Prop} (hp : ∀ {s t : State}, t.control = s.control → p s → p t)
    (hm : ∀ {s t : State}, p s → Move s t → p t) (hs : p s) (h : step s = .next t) : p t := by
  obtain ⟨r, u, hr, hmove, ht⟩ := step_leads h
  exact hp ht (hm (hp hr hs) hmove)

end Sys2Proof.Machine
end

section
/-! SUPPORT. What one iteration of the synchronizer does to the session, the queue and the link (43_synchronizer.md R192
to R199). -/

namespace Sys2Proof.Machine

variable {s t : State}

/-! ## The pushes of an iteration -/

theorem push_odr (f : Bytes) (s : State) : (push f s).odr = s.odr := by
  rcases push_cases f s with h | ⟨_, _, _, _, h⟩ <;> rw [h]

theorem mem_queue_of_push {f g : Bytes} (h : g ∈ (push f s).stream.q) : g ∈ s.stream.q ∨ g = f := by
  rcases push_cases f s with e | ⟨_, rest, hq, _, e⟩ <;> rw [e] at h
  · simpa using h
  · rw [hq]
    simp only [List.mem_append, List.mem_singleton] at h
    exact h.imp_left (List.mem_cons_of_mem _)

theorem mem_queue_of_pushAll {fs : List Bytes} {g : Bytes} (h : g ∈ (pushAll fs s).stream.q) :
    g ∈ s.stream.q ∨ g ∈ fs := by
  induction fs generalizing s with
  | nil => exact .inl h
  | cons f fs ih =>
    rcases ih (s := push f s) h with hg | hg
    · rcases mem_queue_of_push hg with hg | rfl
      · exact .inl hg
      · exact .inr List.mem_cons_self
    · exact .inr (List.mem_cons_of_mem f hg)

/-- A full queue makes room first (43_synchronizer.md R196). -/
theorem length_queue_push (f : Bytes) (hpos : 0 < s.cap) (hle : s.stream.q.length ≤ s.cap) :
    (push f s).stream.q.length ≤ s.cap := by
  by_cases hfull : s.stream.q.length = s.cap
  · cases hq : s.stream.q with
    | nil =>
      rw [hq, List.length_nil] at hfull
      omega
    | cons g rest =>
      rw [push_full f hq hfull, ← hfull, hq]
      simp
  · rw [push_room f (.inr hfull)]
    simp only [List.length_append, List.length_singleton]
    omega

theorem length_queue_pushAll (fs : List Bytes) (hpos : 0 < s.cap) (hle : s.stream.q.length ≤ s.cap) :
    (pushAll fs s).stream.q.length ≤ s.cap := by
  induction fs generalizing s with
  | nil => exact hle
  | cons f fs ih =>
    have hcap : (push f s).cap = s.cap := by simp only [State.cap, push_odr]
    have hlen := length_queue_push f hpos hle
    rw [← hcap] at hpos hlen ⊢
    exact ih hpos hlen

/-! ## The iteration -/

/-- What an iteration that does not end the session does to it: it may queue valid frames within the capacity, and the
watchdog goes on waiting only while none came (43_synchronizer.md R194, R196, R198). -/
structure Continues (s : State) (x : Stream) : Prop where
  active : x.active = s.stream.active
  tag : x.tag = s.stream.tag
  len : x.len = s.stream.len
  wdEn : x.wdEn = s.stream.wdEn
  initFail : x.initFail = s.stream.initFail
  attempt : x.wdAttempt = s.stream.wdAttempt ∨ s.stream.wdEn = true ∧ x.wdAttempt ≠ 0
  armed : x.wdArmed = true → s.stream.wdArmed = true ∧ (x.wdEn = true → x.q = s.stream.q)
  frames : ∀ f ∈ x.q, f ∈ s.stream.q ∨ frameValid s.stream.tag s.stream.len f = true
  capacity : 0 < s.cap → s.stream.q.length ≤ s.cap → x.q.length ≤ s.cap

/-- What the end of a session leaves (43_synchronizer.md R191, R199). -/
structure Stream.Ended (x x' : Stream) : Prop where
  active : x'.active = false
  wdArmed : x'.wdArmed = false
  q : x'.q = []
  acc : x'.acc = []
  wdEn : x'.wdEn = x.wdEn
  wdAttempt : x'.wdAttempt = x.wdAttempt

/-- The frames an iteration finds in what has accumulated and what it reads (43_synchronizer.md R193, R194). -/
def State.newFrames (s : State) : List Bytes :=
  (scan s.stream.tag s.stream.len (s.stream.acc ++ s.rxq.take s.cfg.nRead)).frames

/-- The state after the read and the scan of an iteration (43_synchronizer.md R193 to R196). -/
def State.scanned (s : State) : State := scanAcc (readLink s)

/-- The read and the scan touch the queue, the counts, `acc`, `rxq` and the history only. -/
theorem State.scanned_frame (s : State) : ∃ rx h e a c, s.scanned =
    { s with
      rxq := rx, hist := h
      stream := { s.stream with q := (pushAll s.newFrames s).stream.q, evicted := e, acc := a, crcFail := c } } := by
  obtain ⟨q, e, h, hp⟩ := pushAll_frame s.newFrames s
  have hs := scanAcc_readLink s
  dsimp only at hs
  rw [← State.newFrames] at hs
  rw [State.scanned, hs, hp]
  exact ⟨_, _, _, _, _, rfl⟩

/-- The state after the watchdog check of an iteration (43_synchronizer.md R198). -/
def State.checked (s : State) : State := watchdogCheck (!s.newFrames.isEmpty) s.scanned

theorem syncStep_eq (s : State) : syncStep s =
    { s.checked with stream := { s.checked.stream with nextPoll := s.checked.now + Config.pollMs } } := rfl

/-- Every way a watchdog check can go (43_synchronizer.md R198). -/
theorem watchdogCheck_cases (pushed : Bool) (s : State) :
    watchdogCheck pushed s = s ∧ (s.stream.wdArmed = true → s.stream.wdEn = true → pushed = false) ∨
    watchdogCheck pushed s = { s with stream := { s.stream with wdArmed := false } } ∨
    (watchdogCheck pushed s = watchdogRestart s ∧ s.stream.wdEn = true ∧ pushed = false ∧
      s.stream.wdAttempt.toNat < 3) ∨
    watchdogCheck pushed s = initFailure s := by
  unfold watchdogCheck
  split
  · rename_i hw
    rw [Bool.and_eq_true] at hw
    cases pushed with
    | true => exact .inr (.inl rfl)
    | false =>
      rw [if_neg Bool.false_ne_true]
      split
      · split
        · rename_i hk
          exact .inr (.inr (.inl ⟨rfl, hw.1, rfl, hk.1⟩))
        · exact .inr (.inr (.inr rfl))
      · exact .inl ⟨rfl, fun _ _ => rfl⟩
  · rename_i hw
    exact .inl ⟨rfl, fun ha he => absurd (Bool.and_eq_true_iff.2 ⟨he, ha⟩) hw⟩

/-- The number of the next attempt does not wrap to 0 (43_synchronizer.md R198). -/
theorem attempt_succ_ne_zero {k : BitVec 2} (h : k.toNat < 3) : k + 1 ≠ 0 := by
  intro e
  have := congrArg BitVec.toNat e
  rw [BitVec.toNat_add] at this
  simp at this
  omega

/-- An iteration without a new frame leaves the queue. -/
theorem queue_of_no_newFrames (h : (!s.newFrames.isEmpty) = false) : (pushAll s.newFrames s).stream.q = s.stream.q := by
  rw [Bool.not_eq_false', List.isEmpty_iff] at h
  rw [h]
  rfl

/-- Every way an iteration can go: the session continues, or `init_failure` ends it and frees the link. -/
theorem syncStep_cases (s : State) :
    Continues s (syncStep s).stream ∧ (syncStep s).status = s.status ∨
      s.stream.Ended (syncStep s).stream ∧ (syncStep s).status = { s.status with owner := .none } := by
  obtain ⟨rx, h, e, a, c, hu⟩ := s.scanned_frame
  have frames : ∀ f ∈ (pushAll s.newFrames s).stream.q,
      f ∈ s.stream.q ∨ frameValid s.stream.tag s.stream.len f = true :=
    fun f hf => (mem_queue_of_pushAll hf).imp_right (frameValid_of_scanLoop f)
  have capacity := length_queue_pushAll (s := s) s.newFrames
  rw [syncStep_eq, State.checked]
  rcases watchdogCheck_cases (!s.newFrames.isEmpty) s.scanned with
    ⟨hc, silent⟩ | hc | ⟨hc, enabled, silent, attempt⟩ | hc
  · rw [hc]
    rw [hu] at silent ⊢
    exact .inl ⟨⟨rfl, rfl, rfl, rfl, rfl, .inl rfl,
      fun ha => ⟨ha, fun he => queue_of_no_newFrames (silent ha he)⟩, frames, capacity⟩, rfl⟩
  · rw [hc, hu]
    exact .inl ⟨⟨rfl, rfl, rfl, rfl, rfl, .inl rfl, fun ha => absurd ha Bool.false_ne_true, frames, capacity⟩, rfl⟩
  · rw [hc]
    rw [hu] at enabled attempt ⊢
    exact .inl ⟨⟨rfl, rfl, rfl, rfl, rfl, .inr ⟨enabled, attempt_succ_ne_zero attempt⟩,
      fun ha => ⟨ha, fun _ => queue_of_no_newFrames silent⟩, frames, capacity⟩, rfl⟩
  · rw [hc, hu]
    exact .inr ⟨⟨rfl, rfl, rfl, rfl, rfl, rfl⟩, rfl⟩

/-- What an iteration leaves alone. -/
theorem syncStep_frame (s : State) : ((syncStep s).odr, (syncStep s).fmLen, (syncStep s).corr, (syncStep s).ackr,
    (syncStep s).upg, (syncStep s).cfg) = (s.odr, s.fmLen, s.corr, s.ackr, s.upg, s.cfg) := by
  obtain ⟨rx, h, e, a, c, hu⟩ := s.scanned_frame
  rw [syncStep_eq, State.checked]
  rcases watchdogCheck_cases (!s.newFrames.isEmpty) s.scanned with ⟨hc, -⟩ | hc | ⟨hc, -⟩ | hc <;>
    rw [hc, hu] <;> rfl

end Sys2Proof.Machine
end

section
/-! SUPPORT. The upgrade's moves leave the streaming session alone; what every step keeps of it (10_state.md R38, R43;
42_registry.md R161; 43_synchronizer.md R194, R198). -/

namespace Sys2Proof.Machine

variable {s t : State}

/-- What the streaming session is made of, and the parameters. -/
def State.streaming (s : State) : BitVec 16 × Byte × Stream × Config := (s.odr, s.fmLen, s.stream, s.cfg)

theorem deliverUpgrade_streaming (r : Option Bytes) (s : State) : (deliverUpgrade r s).streaming = s.streaming := by
  unfold deliverUpgrade
  split <;> simp [State.streaming]

theorem deliverAck_streaming (a : Bytes) (s : State) : (deliverAck a s).streaming = s.streaming := by
  unfold deliverAck
  split
  · split <;> simp [State.streaming]
  · split
    · dsimp only
      split <;> simp [State.streaming]
    · simp [State.streaming]
  · simp [State.streaming]
  · rfl

theorem upgStep_streaming (s : State) : (upgStep s).streaming = s.streaming := by
  unfold upgStep
  split <;> simp [State.streaming]

namespace StreamSafe

/-- The invariant depends on the session and on `FM_LEN` alone. -/
theorem of_streaming (hs : StreamSafe s) (h : t.streaming = s.streaming) : StreamSafe t := by
  simp only [State.streaming, Prod.mk.injEq] at h
  obtain ⟨-, hfm, hst, -⟩ := h
  obtain ⟨fm_legal, len_bound, frames_valid, wd_off, wd_on, wd_armed, init_fail, acc_empty⟩ := hs
  rw [← hst] at len_bound frames_valid wd_off wd_on wd_armed init_fail acc_empty
  rw [← hfm] at fm_legal len_bound
  exact ⟨fm_legal, len_bound, frames_valid, wd_off, wd_on, wd_armed, init_fail, acc_empty⟩

/-- The end of a session keeps the invariant. -/
theorem of_ended (hs : StreamSafe s) (hfm : t.fmLen = s.fmLen) (h : s.stream.Ended t.stream) : StreamSafe t where
  fm_legal := hfm ▸ hs.fm_legal
  len_bound ha := by simp [h.active] at ha
  frames_valid f hf := by simp [h.q] at hf
  wd_off he := ⟨h.wdAttempt.trans (hs.wd_off (h.wdEn.symm.trans he)).1, h.wdArmed⟩
  wd_on he := h.wdAttempt ▸ hs.wd_on (h.wdEn.symm.trans he)
  wd_armed ha := by simp [h.wdArmed] at ha
  init_fail _ := h.active
  acc_empty _ := h.acc

/-- An iteration of a running session that goes on keeps the invariant. -/
theorem of_continues (hs : StreamSafe s) (hfm : t.fmLen = s.fmLen) (active : s.stream.active = true)
    (h : Continues s t.stream) : StreamSafe t where
  fm_legal := hfm ▸ hs.fm_legal
  len_bound _ := by rw [h.len, h.tag, hfm, hs.len_bound active]
  frames_valid f hf := by
    rw [h.tag, h.len]
    exact (h.frames f hf).elim (hs.frames_valid f) id
  wd_off he := by
    have off := h.wdEn.symm.trans he
    obtain ⟨attempt, armed⟩ := hs.wd_off off
    refine ⟨h.attempt.elim (·.trans attempt) fun hk => absurd hk.1 (by simp [off]), ?_⟩
    exact Bool.eq_false_iff.2 fun ha => absurd (h.armed ha).1 (by simp [armed])
  wd_on he := h.attempt.elim (fun hk => hk ▸ hs.wd_on (h.wdEn.symm.trans he)) (·.2)
  wd_armed ha := by
    obtain ⟨before, waits⟩ := h.armed ha
    have enabled : s.stream.wdEn = true := by
      by_contra hn
      simp [(hs.wd_off (Bool.eq_false_iff.2 hn)).2] at before
    exact ⟨h.active.trans active, (waits (h.wdEn.trans enabled)).trans (hs.wd_armed before).2⟩
  init_fail hf := by
    have := hs.init_fail (h.initFail.symm.trans hf)
    simp [active] at this
  acc_empty hn := by simp [h.active, active] at hn

theorem syncStep (hs : StreamSafe s) (enabled : syncEnabled s = true) : StreamSafe (syncStep s) := by
  have hfm := congrArg (·.2.1) (syncStep_frame s)
  simp only [syncEnabled, Bool.and_eq_true] at enabled
  rcases syncStep_cases s with ⟨hc, -⟩ | ⟨he, -⟩
  · exact hs.of_continues hfm enabled.1 hc
  · exact hs.of_ended hfm he

/-- A legal FM length is a byte (42_registry.md R162). -/
theorem fmSet (hs : StreamSafe s) {n : Nat} (legal : fmLegal n = true) (inactive : s.stream.active = false) :
    StreamSafe { s with fmLen := BitVec.ofNat 8 n } := by
  have hn : (BitVec.ofNat 8 n).toNat = n := by
    have := le_of_fmLegal legal
    rw [BitVec.toNat_ofNat, Nat.mod_eq_of_lt (by omega)]
  exact { hs with fm_legal := hn.symm ▸ legal, len_bound := fun ha => by simp [inactive] at ha }

/-- A session starts with the length of its descriptor, no frames, and the first attempt of its watchdog. -/
theorem startStream (hs : StreamSafe s) (t : Tag) (watchdog : Bool) : StreamSafe (startStream t watchdog s) where
  fm_legal := hs.fm_legal
  len_bound _ := rfl
  frames_valid f hf := absurd hf List.not_mem_nil
  wd_off he := by
    subst he
    exact ⟨rfl, rfl⟩
  wd_on he := by
    subst he
    show 1#2 ≠ 0
    decide
  wd_armed _ := ⟨rfl, rfl⟩
  init_fail hf := absurd hf Bool.false_ne_true
  acc_empty _ := rfl

/-- A frame taken from the queue leaves valid ones. -/
theorem pop (hs : StreamSafe s) {f : Bytes} {rest : List Bytes} (queued : s.stream.q = f :: rest) :
    StreamSafe { s with stream := { s.stream with q := rest } } where
  fm_legal := hs.fm_legal
  len_bound := hs.len_bound
  frames_valid g hg := hs.frames_valid g (queued ▸ List.mem_cons_of_mem f hg)
  wd_off := hs.wd_off
  wd_on := hs.wd_on
  wd_armed ha := absurd (hs.wd_armed ha).2 (by simp [queued])
  init_fail := hs.init_fail
  acc_empty := hs.acc_empty

theorem resetFor (cfg : Config) (linkOk : Bool) : StreamSafe (State.resetFor cfg linkOk) where
  fm_legal := show fmLegal 95 = true by decide
  len_bound ha := absurd ha Bool.false_ne_true
  frames_valid f hf := absurd hf List.not_mem_nil
  wd_off _ := ⟨rfl, rfl⟩
  wd_on he := absurd he Bool.false_ne_true
  wd_armed ha := absurd ha Bool.false_ne_true
  init_fail _ := rfl
  acc_empty _ := rfl

theorem move (hs : StreamSafe s) (h : Move s t) : StreamSafe t := by
  cases h with
  | keep => exact hs
  | capacity => exact { hs with }
  | fmLength legal inactive => exact hs.fmSet legal inactive
  | streamStart t watchdog => exact hs.startStream t watchdog
  | streamStop => exact hs.of_ended rfl ⟨rfl, rfl, rfl, rfl, rfl, rfl⟩
  | pop queued => exact hs.pop queued
  | exchange | upgrade | hostDone | unclaimed => exact hs.of_streaming rfl
  | reset => exact resetFor _ _
  | poll enabled => exact hs.syncStep enabled
  | quietDone => exact hs.of_streaming (deliverUpgrade_streaming _ _)
  | acknowledged => exact hs.of_streaming (deliverAck_streaming _ _)
  | deadline => exact hs.of_streaming (upgStep_streaming _)

end StreamSafe

theorem streaming_of_control (h : t.control = s.control) : t.streaming = s.streaming :=
  congrArg (fun c : Control => (c.odr, c.fmLen, c.stream, c.cfg)) h

/-- Settles O51: every move keeps the streaming invariant. -/
theorem streamSafeKept : Obligations.StreamSafeKept :=
  fun _ _ hs h => step_keeps (fun hc hs => hs.of_streaming (streaming_of_control hc)) .move hs h

end Sys2Proof.Machine
end

section
/-! SUPPORT. The six ways the link can be used in a state that meets `LinkSafe`, and what every step keeps of them
(10_state.md R61). -/

namespace Sys2Proof.Machine

variable {s t : State}

/-! ## The users of the link -/

/-- Who uses the link, as `STATUS` and the agents' own fields say. -/
structure LinkView where
  owner : Owner
  busy : Bool
  active : Bool
  corrPhase : WaitPhase
  client : Client
  ackrPhase : WaitPhase
  session : Bool
  phase : UpgPhase

def State.linkView (s : State) : LinkView :=
  ⟨s.status.owner, s.status.busy, s.stream.active, s.corr.phase, s.corr.client, s.ackr.phase, s.upg.session,
    s.upg.phase⟩

/-- The uses of the link that R61 allows: none, one of the three owners, and the upgrade in a phase of each kind. -/
inductive LinkUse : LinkView → Prop where
  | free : LinkUse ⟨.none, false, false, .idle, .none, .idle, false, .none⟩
  | streams : LinkUse ⟨.stream, false, true, .idle, .none, .idle, false, .none⟩
  | exchanges (op : ExchangeOp) : LinkUse ⟨.exchange, true, false, .wait, .hostOp op, .idle, false, .none⟩
  | upgradeAsks {ph : UpgPhase} (h : ph.waitsForCorr = true) :
    LinkUse ⟨.upgrade, true, false, .wait, .upg, .idle, true, ph⟩
  | upgradeReads {ph : UpgPhase} (h : ph.waitsForAckr = true) :
    LinkUse ⟨.upgrade, true, false, .idle, .none, .wait, true, ph⟩
  | upgradeWaits {ph : UpgPhase} (h : ph.waitsForDeadline = true) :
    LinkUse ⟨.upgrade, true, false, .idle, .none, .idle, true, ph⟩

/-- The queue and its capacity (10_state.md R61 (a), R39; 43_synchronizer.md R197). -/
structure QueueSafe (s : State) : Prop where
  odr_pos : s.odr ≠ 0#16
  queue_le : s.stream.q.length ≤ s.cap
  queue_empty : s.stream.active = false → s.stream.q = []

/-- A session's phase is of one of the three kinds of R294. -/
theorem UpgPhase.kinds {ph : UpgPhase} (h : ph ≠ .none) :
    ph.waitsForCorr = true ∧ ph.waitsForAckr = false ∨ ph.waitsForCorr = false ∧ ph.waitsForAckr = true ∨
      ph.waitsForCorr = false ∧ ph.waitsForAckr = false ∧ ph.waitsForDeadline = true := by
  cases ph with
  | none => exact absurd rfl h
  | q1 | q2 | w1 | w2 | jiAck | be | bw | back | pj | jaAck => decide

theorem WaitPhase.eq_idle {p : WaitPhase} (h : p ≠ .wait) : p = .idle := by
  cases p with
  | idle => rfl
  | wait => exact absurd rfl h

theorem Client.exists_hostOp {c : Client} (h : c.isHost = true) : ∃ op, c = .hostOp op := by
  cases c with
  | hostOp op => exact ⟨op, rfl⟩
  | none | upg => cases h

namespace LinkSafe

theorem active_eq (h : LinkSafe s) : s.stream.active = decide (s.status.owner = .stream) := by
  rw [Bool.eq_iff_iff, decide_eq_true_iff, h.stream_iff]

theorem session_eq (h : LinkSafe s) : s.upg.session = decide (s.status.owner = .upgrade) := by
  rw [Bool.eq_iff_iff, decide_eq_true_iff, h.upgrade_iff]

theorem busy_eq (h : LinkSafe s) :
    s.status.busy = decide (s.status.owner = .exchange ∨ s.status.owner = .upgrade) := by
  rw [Bool.eq_iff_iff, decide_eq_true_iff, h.busy_iff]

/-- Without an upgrade nothing reads acknowledgements. -/
theorem reader_idle (h : LinkSafe s) (ho : s.status.owner ≠ .upgrade) :
    s.ackr.phase = .idle ∧ s.upg.phase = .none := by
  refine ⟨WaitPhase.eq_idle fun hw => ho (h.ackr_wait hw), ?_⟩
  by_contra hp
  exact ho (h.upgrade_iff.2 (h.phase_iff.1 hp))

/-- Without an exchange or an upgrade the correlator is idle. -/
theorem corr_idle (h : LinkSafe s) (hx : s.status.owner ≠ .exchange) (hu : s.status.owner ≠ .upgrade) :
    s.corr.phase = .idle ∧ s.corr.client = .none := by
  have idle : s.corr.phase = .idle := WaitPhase.eq_idle fun hw => (h.corr_wait hw).elim hx hu
  exact ⟨idle, h.client_iff.2 idle⟩

theorem corr_wait_of_client (h : LinkSafe s) (hc : s.corr.client ≠ .none) : s.corr.phase = .wait := by
  cases hp : s.corr.phase with
  | idle => exact absurd (h.client_iff.2 hp) hc
  | wait => rfl

/-- In an upgrade that asks for no response the correlator is idle. -/
theorem corr_idle_of_upgrade (h : LinkSafe s) (ho : s.status.owner = .upgrade)
    (hp : s.upg.phase.waitsForCorr = false) : s.corr.phase = .idle ∧ s.corr.client = .none := by
  have client : s.corr.client = .none := by
    cases hc : s.corr.client with
    | none => rfl
    | hostOp op =>
      have waits := h.corr_wait_of_client (by simp [hc])
      have := h.exchange_iff.2 ⟨waits, by simp [hc, Client.isHost]⟩
      simp [ho] at this
    | upg =>
      have := h.corr_upg.1 hc
      simp [hp] at this
  exact ⟨h.client_iff.1 client, client⟩

/-- `LinkSafe` allows six uses of the link. -/
theorem linkUse (h : LinkSafe s) : LinkUse s.linkView := by
  unfold State.linkView
  rw [h.active_eq, h.session_eq, h.busy_eq]
  cases ho : s.status.owner with
  | none =>
    obtain ⟨ackr, phase⟩ := h.reader_idle (by simp [ho])
    obtain ⟨corr, client⟩ := h.corr_idle (by simp [ho]) (by simp [ho])
    rw [ackr, phase, corr, client]
    exact .free
  | stream =>
    obtain ⟨ackr, phase⟩ := h.reader_idle (by simp [ho])
    obtain ⟨corr, client⟩ := h.corr_idle (by simp [ho]) (by simp [ho])
    rw [ackr, phase, corr, client]
    exact .streams
  | exchange =>
    obtain ⟨ackr, phase⟩ := h.reader_idle (by simp [ho])
    obtain ⟨corr, host⟩ := h.exchange_iff.1 ho
    obtain ⟨op, client⟩ := Client.exists_hostOp host
    rw [ackr, phase, corr, client]
    exact .exchanges op
  | upgrade =>
    rcases UpgPhase.kinds (h.phase_iff.2 (h.upgrade_iff.1 ho)) with ⟨asks, reads⟩ | ⟨asks, reads⟩ | ⟨asks, reads, waits⟩
    · have client := h.corr_upg.2 asks
      rw [client, h.corr_wait_of_client (by simp [client]),
        WaitPhase.eq_idle (mt h.ackr_upg.1 (by simp [reads]))]
      exact .upgradeAsks asks
    · obtain ⟨corr, client⟩ := h.corr_idle_of_upgrade ho asks
      rw [corr, client, h.ackr_upg.2 reads]
      exact .upgradeReads reads
    · obtain ⟨corr, client⟩ := h.corr_idle_of_upgrade ho asks
      rw [corr, client, WaitPhase.eq_idle (mt h.ackr_upg.1 (by simp [reads]))]
      exact .upgradeWaits waits

theorem queueSafe (h : LinkSafe s) : QueueSafe s := ⟨h.odr_pos, h.queue_le, h.queue_empty⟩

end LinkSafe

/-- A phase that waits for an acknowledgement waits for nothing else. -/
theorem UpgPhase.only_reads {ph : UpgPhase} (h : ph.waitsForAckr = true) :
    ph ≠ .none ∧ ph.waitsForCorr = false ∧ ph.waitsForDeadline = false := by
  cases ph with
  | jiAck | back | jaAck => decide
  | none | q1 | q2 | w1 | w2 | be | bw | pj => cases h

theorem UpgPhase.only_asks {ph : UpgPhase} (h : ph.waitsForCorr = true) :
    ph ≠ .none ∧ ph.waitsForAckr = false ∧ ph.waitsForDeadline = false := by
  cases ph with
  | q1 | q2 => decide
  | none | w1 | w2 | jiAck | be | bw | back | pj | jaAck => cases h

theorem UpgPhase.only_waits {ph : UpgPhase} (h : ph.waitsForDeadline = true) :
    ph ≠ .none ∧ ph.waitsForCorr = false ∧ ph.waitsForAckr = false := by
  cases ph with
  | w1 | w2 | be | bw | pj => decide
  | none | q1 | q2 | jiAck | back | jaAck => cases h

/-- A state whose link is used in one of the six ways, its queue within its capacity, meets `LinkSafe`. -/
theorem linkSafe_of_linkUse (hq : QueueSafe s) (hu : LinkUse s.linkView) : LinkSafe s := by
  obtain ⟨odr_pos, queue_le, queue_empty⟩ := hq
  generalize hv : s.linkView = v at hu
  cases hu with
  | free | streams | exchanges =>
    simp only [State.linkView, LinkView.mk.injEq] at hv
    obtain ⟨ho, hb, ha, hc, hcl, hk, hs, hp⟩ := hv
    constructor <;> simp [*, Client.isHost, UpgPhase.waitsForCorr, UpgPhase.waitsForAckr]
  | upgradeAsks h =>
    have kind := UpgPhase.only_asks h
    simp only [State.linkView, LinkView.mk.injEq] at hv
    obtain ⟨ho, hb, ha, hc, hcl, hk, hs, hp⟩ := hv
    constructor <;> simp [*, Client.isHost]
  | upgradeReads h =>
    have kind := UpgPhase.only_reads h
    simp only [State.linkView, LinkView.mk.injEq] at hv
    obtain ⟨ho, hb, ha, hc, hcl, hk, hs, hp⟩ := hv
    constructor <;> simp [*]
  | upgradeWaits h =>
    have kind := UpgPhase.only_waits h
    simp only [State.linkView, LinkView.mk.injEq] at hv
    obtain ⟨ho, hb, ha, hc, hcl, hk, hs, hp⟩ := hv
    constructor <;> simp [*]

end Sys2Proof.Machine
end

section
/-! SUPPORT. How the moves change the use of the link, and the statements about it (10_state.md R61; 43_synchronizer.md
R204; 60_exceptions.md R372, R373). -/

namespace Sys2Proof.Machine

variable {s t : State} {v : LinkView}

/-! ## Which use it is -/

namespace LinkUse

theorem of_free (h : LinkUse v) (ho : v.owner = .none) :
    v = ⟨.none, false, false, .idle, .none, .idle, false, .none⟩ := by
  cases h with
  | free => rfl
  | streams | exchanges | upgradeAsks | upgradeReads | upgradeWaits => cases ho

theorem of_active (h : LinkUse v) (ha : v.active = true) :
    v = ⟨.stream, false, true, .idle, .none, .idle, false, .none⟩ := by
  cases h with
  | streams => rfl
  | free | exchanges | upgradeAsks | upgradeReads | upgradeWaits => cases ha

theorem of_host (h : LinkUse v) {op : ExchangeOp} (hc : v.client = .hostOp op) :
    v = ⟨.exchange, true, false, .wait, .hostOp op, .idle, false, .none⟩ := by
  cases h with
  | exchanges =>
    cases hc
    rfl
  | free | streams | upgradeAsks | upgradeReads | upgradeWaits => cases hc

theorem client_ne_none (h : LinkUse v) (hw : v.corrPhase = .wait) : v.client ≠ .none := by
  cases h with
  | exchanges | upgradeAsks => exact Client.noConfusion
  | free | streams | upgradeReads | upgradeWaits => cases hw

theorem of_asks (h : LinkUse v) (hc : v.client = .upg) : v.phase.waitsForCorr = true ∧
    v = ⟨.upgrade, true, false, .wait, .upg, .idle, true, v.phase⟩ := by
  cases h with
  | upgradeAsks hp => exact ⟨hp, rfl⟩
  | free | streams | exchanges | upgradeReads | upgradeWaits => cases hc

theorem of_reads (h : LinkUse v) (hw : v.ackrPhase = .wait) : v.phase.waitsForAckr = true ∧
    v = ⟨.upgrade, true, false, .idle, .none, .wait, true, v.phase⟩ := by
  cases h with
  | upgradeReads hp => exact ⟨hp, rfl⟩
  | free | streams | exchanges | upgradeAsks | upgradeWaits => cases hw

theorem of_waits (h : LinkUse v) (hp : v.phase.waitsForDeadline = true) :
    v = ⟨.upgrade, true, false, .idle, .none, .idle, true, v.phase⟩ := by
  cases h with
  | upgradeWaits => rfl
  | free | streams | exchanges => cases hp
  | upgradeAsks hk => exact absurd hp (by simp [(UpgPhase.only_asks hk).2.2])
  | upgradeReads hk => exact absurd hp (by simp [(UpgPhase.only_reads hk).2.2])

end LinkUse

/-! ## The upgrade's moves -/

/-- The link after a session has ended (45_upgrade.md R300). -/
def LinkView.released (v : LinkView) : LinkView :=
  { v with owner := .none, busy := false, ackrPhase := .idle, session := false, phase := .none }

/-- After a response or its timeout the session asks again, waits, or has failed (45_upgrade.md R294). -/
theorem deliverUpgrade_linkView (r : Option Bytes) (h : s.upg.phase.waitsForCorr = true) :
    (deliverUpgrade r s).linkView = { s.linkView with corrPhase := .wait, client := .upg, phase := .q2 } ∨
      (deliverUpgrade r s).linkView = { s.linkView with phase := .w1 } ∨
      (deliverUpgrade r s).linkView = s.linkView.released := by
  have hp : s.upg.phase = .q1 ∨ s.upg.phase = .q2 := by
    simpa only [UpgPhase.waitsForCorr, Bool.or_eq_true, beq_iff_eq] using h
  unfold deliverUpgrade
  rcases hp with hp | hp <;> rw [hp] <;> cases r
  · exact .inr (.inr rfl)
  · exact .inl rfl
  · exact .inr (.inr rfl)
  · exact .inr (.inl rfl)

/-- After an acknowledgement the session waits or has ended (45_upgrade.md R294). -/
theorem deliverAck_linkView (a : Bytes) (h : s.upg.phase.waitsForAckr = true) :
    (∃ ph : UpgPhase, ph.waitsForDeadline = true ∧ (deliverAck a s).linkView = { s.linkView with phase := ph }) ∨
      (deliverAck a s).linkView = s.linkView.released := by
  have hp : s.upg.phase = .jiAck ∨ s.upg.phase = .back ∨ s.upg.phase = .jaAck := by
    simpa only [UpgPhase.waitsForAckr, Bool.or_eq_true, beq_iff_eq, or_assoc] using h
  unfold deliverAck
  rcases hp with hp | hp | hp <;> rw [hp] <;> dsimp only
  · split
    · exact .inl ⟨.be, rfl, by simp [State.linkView]⟩
    · exact .inr (by simp [State.linkView, LinkView.released])
  · split
    · split
      · exact .inl ⟨.pj, rfl, by simp [State.linkView]⟩
      · exact .inl ⟨.bw, rfl, by simp [State.linkView]⟩
    · exact .inr (by simp [State.linkView, LinkView.released])
  · exact .inr (by simp [State.linkView, LinkView.released])

/-- At a deadline the session waits for the next one or for an acknowledgement (45_upgrade.md R294). -/
theorem upgStep_linkView (h : s.upg.phase.waitsForDeadline = true) :
    (∃ ph : UpgPhase, ph.waitsForDeadline = true ∧ (upgStep s).linkView = { s.linkView with phase := ph }) ∨
      ∃ ph : UpgPhase, ph.waitsForAckr = true ∧
        (upgStep s).linkView = { s.linkView with ackrPhase := .wait, phase := ph } := by
  unfold upgStep
  cases hp : s.upg.phase with
  | w1 => exact .inl ⟨.w2, rfl, by simp [State.linkView]⟩
  | w2 => exact .inr ⟨.jiAck, rfl, by simp [State.linkView]⟩
  | be => exact .inl ⟨.bw, rfl, by simp [State.linkView]⟩
  | bw => exact .inr ⟨.back, rfl, by simp [State.linkView]⟩
  | pj => exact .inr ⟨.jaAck, rfl, by simp [State.linkView]⟩
  | none | q1 | q2 | jiAck | back | jaAck =>
    rw [hp] at h
    cases h

theorem waitsForDeadline_of_upgEnabled (h : upgEnabled s = true) : s.upg.phase.waitsForDeadline = true := by
  simp only [upgEnabled, Bool.and_eq_true] at h
  exact h.1

namespace LinkUse

theorem deliverUpgrade (h : LinkUse s.linkView) (hc : s.corr.client = .upg) (r : Option Bytes) :
    LinkUse (deliverUpgrade r s.corrEnded).linkView := by
  obtain ⟨asks, hv⟩ := h.of_asks hc
  have ended : s.corrEnded.linkView = { s.linkView with corrPhase := .idle, client := .none } := rfl
  rcases deliverUpgrade_linkView (s := s.corrEnded) r asks with hd | hd | hd <;> rw [hd, ended, hv]
  · exact .upgradeAsks rfl
  · exact .upgradeWaits rfl
  · exact .free

theorem deliverAck (h : LinkUse s.linkView) (hw : s.ackr.phase = .wait) (a : Bytes) :
    LinkUse (deliverAck a s.ackrEnded).linkView := by
  obtain ⟨reads, hv⟩ := h.of_reads hw
  have ended : s.ackrEnded.linkView = { s.linkView with ackrPhase := .idle } := rfl
  rcases deliverAck_linkView (s := s.ackrEnded) a reads with ⟨ph, hp, hd⟩ | hd <;> rw [hd, ended, hv]
  · exact .upgradeWaits hp
  · exact .free

theorem upgStep (h : LinkUse s.linkView) (enabled : upgEnabled s = true) : LinkUse (upgStep s).linkView := by
  have waits := waitsForDeadline_of_upgEnabled enabled
  have hv := h.of_waits waits
  rcases upgStep_linkView waits with ⟨ph, hp, hd⟩ | ⟨ph, hp, hd⟩ <;> rw [hd, hv]
  · exact .upgradeWaits hp
  · exact .upgradeReads hp

/-- An iteration keeps the session, or frees the link. -/
theorem syncStep (h : LinkUse s.linkView) (enabled : syncEnabled s = true) : LinkUse (syncStep s).linkView := by
  simp only [syncEnabled, Bool.and_eq_true] at enabled
  have hv := h.of_active enabled.1
  have frame := syncStep_frame s
  simp only [Prod.mk.injEq] at frame
  obtain ⟨-, -, hc, hk, hu, -⟩ := frame
  rcases syncStep_cases s with ⟨hs, hst⟩ | ⟨hs, hst⟩
  · have e : (Machine.syncStep s).linkView = s.linkView := by simp only [State.linkView, hc, hk, hu, hst, hs.active]
    exact e ▸ h
  · have e : (Machine.syncStep s).linkView = { s.linkView with owner := .none, active := false } := by
      simp only [State.linkView, hc, hk, hu, hst, hs.active]
    rw [e, hv]
    exact .free

end LinkUse

/-! ## What every step keeps -/

theorem QueueSafe.of_eq (hq : QueueSafe s) (ho : t.odr = s.odr) (hs : t.stream = s.stream) : QueueSafe t := by
  obtain ⟨odr_pos, queue_le, queue_empty⟩ := hq
  rw [State.cap, ← ho, ← hs] at queue_le
  rw [← hs] at queue_empty
  exact ⟨ho ▸ odr_pos, queue_le, queue_empty⟩

theorem QueueSafe.of_streaming (hq : QueueSafe s) (h : t.streaming = s.streaming) : QueueSafe t :=
  hq.of_eq (congrArg (·.1) h) (congrArg (·.2.2.1) h)

/-- An iteration keeps the queue within the capacity, which is not 0 (10_state.md R39). -/
theorem QueueSafe.syncStep (hq : QueueSafe s) (enabled : syncEnabled s = true) : QueueSafe (syncStep s) := by
  have odr : (Machine.syncStep s).odr = s.odr := congrArg (·.1) (syncStep_frame s)
  have cap : (Machine.syncStep s).cap = s.cap := by rw [State.cap, odr, State.cap]
  have odr_pos : (Machine.syncStep s).odr ≠ 0#16 := by
    rw [odr]
    exact hq.odr_pos
  have pos : 0 < s.cap := by
    have : s.odr.toNat ≠ 0 := fun h => hq.odr_pos (BitVec.eq_of_toNat_eq h)
    unfold State.cap
    omega
  simp only [syncEnabled, Bool.and_eq_true] at enabled
  rcases syncStep_cases s with ⟨hs, -⟩ | ⟨hs, -⟩
  · refine ⟨odr_pos, ?_, fun hn => by simp [hs.active, enabled.1] at hn⟩
    rw [cap]
    exact hs.capacity pos hq.queue_le
  · exact ⟨odr_pos, by simp [hs.q], fun _ => hs.q⟩

/-- A move keeps the queue within its capacity. -/
theorem QueueSafe.move (hq : QueueSafe s) (h : Move s t) : QueueSafe t := by
  cases h with
  | keep => exact hq
  | capacity inactive pos =>
    have empty := hq.queue_empty inactive
    exact ⟨pos, by simp [empty], fun _ => empty⟩
  | fmLength | exchange | upgrade | hostDone | unclaimed => exact hq.of_eq rfl rfl
  | streamStart | streamStop => exact ⟨hq.odr_pos, Nat.zero_le _, fun _ => rfl⟩
  | pop queued =>
    obtain ⟨odr_pos, queue_le, queue_empty⟩ := hq
    rw [queued] at queue_le queue_empty
    exact ⟨odr_pos, (Nat.le_succ _).trans queue_le, fun hn => absurd (queue_empty hn) (List.cons_ne_nil _ _)⟩
  | reset => exact ⟨show (1 : BitVec 16) ≠ 0 by decide, Nat.zero_le _, fun _ => rfl⟩
  | poll enabled => exact hq.syncStep enabled
  | quietDone => exact hq.of_streaming (deliverUpgrade_streaming _ _)
  | acknowledged => exact hq.of_streaming (deliverAck_streaming _ _)
  | deadline => exact hq.of_streaming (upgStep_streaming _)

/-- A move leads from one use of the link to another. -/
theorem LinkUse.move (hu : LinkUse s.linkView) (h : Move s t) : LinkUse t.linkView := by
  cases h with
  | keep | capacity | fmLength | pop => exact hu
  | streamStart _ _ free =>
    show LinkUse { s.linkView with owner := .stream, active := true }
    rw [hu.of_free free]
    exact .streams
  | streamStop active =>
    show LinkUse { s.linkView with owner := .none, active := false }
    rw [hu.of_active active]
    exact .free
  | exchange op _ _ _ free =>
    show LinkUse { s.linkView with owner := .exchange, busy := true, corrPhase := .wait, client := .hostOp op }
    rw [hu.of_free free]
    exact .exchanges op
  | upgrade free =>
    show LinkUse { s.linkView with
      owner := .upgrade, busy := true, corrPhase := .wait, client := .upg, session := true, phase := .q1 }
    rw [hu.of_free free]
    exact .upgradeAsks rfl
  | reset => exact .free
  | poll enabled => exact hu.syncStep enabled
  | hostDone _ client =>
    show LinkUse { s.linkView with owner := .none, busy := false, corrPhase := .idle, client := .none }
    rw [hu.of_host client]
    exact .free
  | unclaimed waits client => exact absurd client (hu.client_ne_none waits)
  | quietDone r _ client => exact hu.deliverUpgrade client r
  | acknowledged a waits => exact hu.deliverAck waits a
  | deadline enabled => exact hu.upgStep enabled

theorem LinkSafe.of_control (h : t.control = s.control) (hs : LinkSafe s) : LinkSafe t := by
  have view : t.linkView = s.linkView := congrArg (fun c : Control =>
    LinkView.mk c.owner c.busy c.stream.active c.corrPhase c.client c.ackrPhase c.upg.session c.upg.phase) h
  exact linkSafe_of_linkUse (hs.queueSafe.of_streaming (streaming_of_control h)) (view ▸ hs.linkUse)

/-- Settles O50: every move keeps the queue's bound and leads from one use of the link to another. -/
theorem linkSafeKept : Obligations.LinkSafeKept :=
  fun _ _ hs h => step_keeps .of_control
    (fun hs hm => linkSafe_of_linkUse (hs.queueSafe.move hm) (hs.linkUse.move hm)) hs h

/-! ## One agent at a time -/

/-- The agent has something to wait for. -/
def LinkView.Engages (v : LinkView) : Agent → Prop
  | .sync => v.active = true
  | .corr => v.corrPhase = .wait
  | .ackr => v.ackrPhase = .wait
  | .upg => v.phase.waitsForDeadline = true

theorem engages_of_agentEnabled {a : Agent} (h : agentEnabled s a = true) : s.linkView.Engages a := by
  cases a with
  | sync => exact (Bool.and_eq_true_iff.1 h).1
  | corr => exact beq_iff_eq.1 (Bool.and_eq_true_iff.1 h).1
  | ackr => exact beq_iff_eq.1 (Bool.and_eq_true_iff.1 h).1
  | upg => exact waitsForDeadline_of_upgEnabled h

/-- Each use of the link engages one agent at most (60_exceptions.md R372). -/
theorem LinkUse.engages_unique (h : LinkUse v) : ∃ a, ∀ b, v.Engages b → b = a := by
  cases h with
  | free | streams =>
    refine ⟨.sync, fun b hb => ?_⟩
    cases b with
    | sync => rfl
    | corr | ackr | upg => cases hb
  | exchanges =>
    refine ⟨.corr, fun b hb => ?_⟩
    cases b with
    | corr => rfl
    | sync | ackr | upg => cases hb
  | upgradeAsks hp =>
    obtain ⟨-, -, waits⟩ := UpgPhase.only_asks hp
    refine ⟨.corr, fun b hb => ?_⟩
    cases b with
    | corr => rfl
    | sync | ackr => cases hb
    | upg => exact absurd (waits.symm.trans hb) Bool.false_ne_true
  | upgradeReads hp =>
    obtain ⟨-, -, waits⟩ := UpgPhase.only_reads hp
    refine ⟨.ackr, fun b hb => ?_⟩
    cases b with
    | ackr => rfl
    | sync | corr => cases hb
    | upg => exact absurd (waits.symm.trans hb) Bool.false_ne_true
  | upgradeWaits =>
    refine ⟨.upg, fun b hb => ?_⟩
    cases b with
    | upg => rfl
    | sync | corr | ackr => cases hb

/-- Settles O56: the use of the link engages one agent at most, and only an enabled agent is chosen or may be asked. -/
theorem oneAgentEnabled : Obligations.OneAgentEnabled := by
  refine ⟨fun s a b hs ha hb => ?_, fun s a ha => ⟨?_, fun hn => ?_⟩⟩
  · obtain ⟨c, only⟩ := hs.linkUse.engages_unique
    rw [only a (engages_of_agentEnabled ha), only b (engages_of_agentEnabled hb)]
  · simp [perform, scheduledAgent, ha]
  · have := agentEnabled_of_nextAgent hn
    simp [ha] at this

end Sys2Proof.Machine
end

section
/-! SUPPORT. What every step keeps of the upgrade session: the counters and the image, and with them what each stage
asks (10_state.md R45 to R48; 45_upgrade.md R290 to R300). -/

namespace Sys2Proof.Machine

variable {s t : State}

/-! ## The counters and the stages -/

/-- The image, the counters and the set_quiet payload of a session (20_memory.md R80, R83; 45_upgrade.md R290, R291,
R298). -/
structure Upgrading (s : State) : Prop where
  img_length : s.upg.img.length = s.upg.total.toNat
  total_aligned : s.upg.total.toNat % Config.padAlign = 0
  total_le : s.upg.total.toNat ≤ s.cfg.maxImage + 15
  written_le : s.upg.written.toNat ≤ s.upg.total.toNat
  progress_eq : s.upg.progress.toNat = 100 * s.upg.written.toNat / s.upg.total.toNat
  total_ne : s.upg.total ≠ 0
  quiet : s.cfg.quietPayload.isSome = true

/-- What the stages of a running session ask of `UPG_WRITTEN` and of the block in flight (45_upgrade.md R290, R292,
R293, R300). -/
def stageAsks (x : Upg) : Stage → Prop
  | .idle | .quietSet | .bootloaderEntered => x.written = 0
  | .writing => x.written.toNat % Config.chunkMax = 0 ∧ x.written.toNat < x.total.toNat ∧
      x.chunk = min Config.chunkMax (x.total.toNat - x.written.toNat)
  | .complete => x.written = x.total
  | .appResumed | .failed => False

/-- A running session is safe when its stage is the one its phase shows and has what it asks. -/
theorem Upgrading.upgradeSafe (hu : Upgrading s) (shown : s.upg.phase.stage = some s.upg.stage)
    (asks : stageAsks s.upg s.upg.stage) : UpgradeSafe s where
  img_length := hu.img_length
  total_aligned := hu.total_aligned
  total_le := hu.total_le
  written_le := hu.written_le
  progress_eq := hu.progress_eq
  stage_eq st hst := Option.some.inj (shown.symm.trans hst)
  stage_ended hp := by
    rw [hp] at shown
    cases shown
  fail_stage hf := by
    rw [hf] at asks
    exact asks.elim
  session_ready _ := ⟨hu.total_ne, hu.quiet⟩
  not_written hs := by
    rcases hs with hs | hs | hs <;> rw [hs] at asks <;> exact asks
  block_eq hs := by
    rw [hs] at asks
    exact asks
  all_written hs := by
    rcases hs with hs | hs <;> rw [hs] at asks
    · exact asks
    · exact asks.elim

/-- No phase shows a terminal stage (45_upgrade.md R294). -/
theorem UpgPhase.stage_running {ph : UpgPhase} {st : Stage} (h : ph.stage = some st) :
    st ≠ .appResumed ∧ st ≠ .failed := by
  cases ph <;> cases h <;> decide

namespace UpgradeSafe

/-- The invariant depends on the upgrade's fields and the parameters alone. -/
theorem of_upg (hs : UpgradeSafe s) (hu : t.upg = s.upg) (hc : t.cfg = s.cfg) : UpgradeSafe t := by
  obtain ⟨img_length, total_aligned, total_le, written_le, progress_eq, stage_eq, stage_ended, fail_stage,
    session_ready, not_written, block_eq, all_written⟩ := hs
  rw [← hu] at img_length total_aligned total_le written_le progress_eq stage_eq stage_ended
  rw [← hu] at fail_stage session_ready not_written block_eq all_written
  rw [← hc] at total_le session_ready
  exact ⟨img_length, total_aligned, total_le, written_le, progress_eq, stage_eq, stage_ended, fail_stage,
    session_ready, not_written, block_eq, all_written⟩

theorem upgrading (hs : UpgradeSafe s) (hp : s.upg.phase ≠ .none) : Upgrading s :=
  ⟨hs.img_length, hs.total_aligned, hs.total_le, hs.written_le, hs.progress_eq, (hs.session_ready hp).1,
    (hs.session_ready hp).2⟩

/-- The stage of a session in a phase that shows `st`, with what it asks. -/
theorem stage_and_asks (hs : UpgradeSafe s) {st : Stage} (hp : s.upg.phase.stage = some st) :
    s.upg.stage = st ∧ stageAsks s.upg st := by
  have e := hs.stage_eq st hp
  refine ⟨e, ?_⟩
  cases st with
  | idle => exact hs.not_written (.inl e)
  | quietSet => exact hs.not_written (.inr (.inl e))
  | bootloaderEntered => exact hs.not_written (.inr (.inr e))
  | writing => exact hs.block_eq e
  | complete => exact hs.all_written (.inl e)
  | appResumed => exact absurd rfl (UpgPhase.stage_running hp).1
  | failed => exact absurd rfl (UpgPhase.stage_running hp).2

/-- A phase gives way to another that shows the same stage. -/
theorem waits (hs : UpgradeSafe s) {st : Stage} {ph : UpgPhase} {d : Nat} (hp : s.upg.phase.stage = some st)
    (hph : ph.stage = some st) : UpgradeSafe { s with upg := { s.upg with phase := ph, deadline := d } } := by
  obtain ⟨e, asks⟩ := hs.stage_and_asks hp
  have running := hs.upgrading fun hn => by simp [hn, UpgPhase.stage] at hp
  exact Upgrading.upgradeSafe { running with } (hph.trans (congrArg some e.symm)) (e ▸ asks)

/-- Before the first block a session goes on to a stage before it. -/
theorem advances (hs : UpgradeSafe s) {ph : UpgPhase} {st : Stage} {d : Nat} (running : s.upg.phase ≠ .none)
    (zero : s.upg.written = 0) (hph : ph.stage = some st) (before : st = .quietSet ∨ st = .bootloaderEntered) :
    UpgradeSafe { s with upg := { s.upg with phase := ph, stage := st, deadline := d } } := by
  refine Upgrading.upgradeSafe { hs.upgrading running with } hph ?_
  rcases before with rfl | rfl <;> exact zero

/-- A session fails at the stages of R299. -/
theorem fails (hs : UpgradeSafe s) (e : ErrorCode)
    (at_stage : s.upg.stage = .idle ∨ s.upg.stage = .quietSet ∨ s.upg.stage = .writing) :
    UpgradeSafe (failUpgrade e s) where
  img_length := hs.img_length
  total_aligned := hs.total_aligned
  total_le := hs.total_le
  written_le := hs.written_le
  progress_eq := hs.progress_eq
  stage_eq st hst := by cases hst
  stage_ended _ := .inr (.inr rfl)
  fail_stage _ := at_stage
  session_ready hp := absurd rfl hp
  not_written h := by rcases h with h | h | h <;> cases h
  block_eq h := by cases h
  all_written h := by rcases h with h | h <;> cases h

/-- A session ends once the whole image is acknowledged (45_upgrade.md R300). -/
theorem completes (hs : UpgradeSafe s) (all : s.upg.written = s.upg.total) :
    UpgradeSafe (completeUpgrade (setStage .appResumed s)) where
  img_length := hs.img_length
  total_aligned := hs.total_aligned
  total_le := hs.total_le
  written_le := hs.written_le
  progress_eq := hs.progress_eq
  stage_eq st hst := by cases hst
  stage_ended _ := .inr (.inl rfl)
  fail_stage h := by cases h
  session_ready hp := absurd rfl hp
  not_written h := by rcases h with h | h | h <;> cases h
  block_eq h := by cases h
  all_written _ := all

theorem resetFor (cfg : Config) (linkOk : Bool) : UpgradeSafe (State.resetFor cfg linkOk) where
  img_length := rfl
  total_aligned := rfl
  total_le := Nat.zero_le _
  written_le := Nat.le_refl _
  progress_eq := (Nat.zero_div 0).symm
  stage_eq st hst := by cases hst
  stage_ended _ := .inl rfl
  fail_stage h := by cases h
  session_ready hp := absurd rfl hp
  not_written _ := rfl
  block_eq h := by cases h
  all_written _ := rfl

end UpgradeSafe

/-! ## The start of a session -/

/-- The padded image is the least multiple of 16 that holds it (45_upgrade.md R291). -/
theorem length_padImage (img : Bytes) : (padImage img).length % 16 = 0 ∧ img.length ≤ (padImage img).length ∧
    (padImage img).length ≤ img.length + 15 := by
  simp only [padImage, zeros, List.length_append, List.length_replicate, Config.padAlign]
  omega

/-- An image and its padding fit a 32-bit counter (00_scope.md R12). -/
theorem maxImage_le {c : Config} (h : c.wf = true) : c.maxImage ≤ 2 ^ 32 - 16 := by
  simp only [Config.wf, Bool.and_eq_true, decide_eq_true_eq] at h
  exact h.1.1.1.1.1.1.1.1.1.1.1.2

theorem UpgradeSafe.begins {img : Bytes} (hc : s.cfg.wf = true) (nonempty : img ≠ [])
    (le : img.length ≤ s.cfg.maxImage) (quiet : s.cfg.quietPayload.isSome = true) :
    UpgradeSafe (startQuiet ((beginSession img s).claimLink .upgrade true)) := by
  obtain ⟨aligned, ge, padded⟩ := length_padImage img
  have fits := maxImage_le hc
  have pos := List.length_pos_of_ne_nil nonempty
  have total : (BitVec.ofNat 32 (padImage img).length).toNat = (padImage img).length := by
    rw [BitVec.toNat_ofNat, Nat.mod_eq_of_lt (by omega)]
  refine Upgrading.upgradeSafe ⟨total.symm, ?_, ?_, Nat.zero_le _, (Nat.zero_div _).symm, fun h => ?_, quiet⟩ rfl rfl
  · show (BitVec.ofNat 32 (padImage img).length).toNat % 16 = 0
    rw [total, aligned]
  · show (BitVec.ofNat 32 (padImage img).length).toNat ≤ s.cfg.maxImage + 15
    omega
  · have : (BitVec.ofNat 32 (padImage img).length).toNat = 0 := congrArg BitVec.toNat h
    omega

/-! ## The block writes -/

/-- A block at the next offset of the image is sent (45_upgrade.md R292, R293). -/
theorem Upgrading.sendBlock {o : Nat} (hu : Upgrading s) (ho : o = s.upg.written.toNat)
    (aligned : o % Config.chunkMax = 0) (lt : o < s.upg.total.toNat) : UpgradeSafe (sendBlock o s) := by
  subst ho
  exact Upgrading.upgradeSafe { hu with } rfl ⟨aligned, lt, rfl⟩

/-- A percentage of at most 100 fits the 7 bits of `UPG_PROGRESS` (10_state.md R48). -/
theorem toNat_percent {w n : Nat} (h : w ≤ n) : (BitVec.ofNat 7 (100 * w / n)).toNat = 100 * w / n := by
  have : 100 * w / n ≤ 100 := Nat.div_le_of_le_mul (by rw [Nat.mul_comm n]; exact Nat.mul_le_mul_left 100 h)
  rw [BitVec.toNat_ofNat, Nat.mod_eq_of_lt (by omega)]

/-- An acknowledged block adds its length to `UPG_WRITTEN`, without wrapping (45_upgrade.md R298). -/
theorem written_recordBlock (asks : stageAsks s.upg .writing) :
    (recordBlock s).upg.written.toNat = s.upg.written.toNat + s.upg.chunk ∧
      s.upg.written.toNat + s.upg.chunk ≤ s.upg.total.toNat := by
  obtain ⟨-, lt, chunk⟩ := asks
  have := s.upg.total.isLt
  have le : s.upg.written.toNat + s.upg.chunk ≤ s.upg.total.toNat := by omega
  refine ⟨?_, le⟩
  show (s.upg.written + BitVec.ofNat 32 s.upg.chunk).toNat = _
  rw [BitVec.toNat_add, BitVec.toNat_ofNat, Nat.mod_eq_of_lt (a := s.upg.chunk) (by omega), Nat.mod_eq_of_lt (by omega)]

theorem Upgrading.recordBlock (hu : Upgrading s) (asks : stageAsks s.upg .writing) : Upgrading (recordBlock s) := by
  obtain ⟨written, le⟩ := written_recordBlock asks
  have written_le : (Machine.recordBlock s).upg.written.toNat ≤ s.upg.total.toNat := written ▸ le
  exact { hu with written_le := written_le, progress_eq := toNat_percent written_le }

/-- The block in flight is acknowledged: the last one completes the image, another leaves a whole number of blocks
written (45_upgrade.md R294, R297). -/
theorem UpgradeSafe.blockDone (hs : UpgradeSafe s) (hp : s.upg.phase = .back) :
    let r := recordBlock s
    UpgradeSafe (if r.upg.written = r.upg.total then waitUntil Config.preJaMs .pj (setStage .complete r)
      else sendBlock r.upg.written.toNat r) := by
  obtain ⟨-, asks⟩ := hs.stage_and_asks (st := .writing) (by rw [hp]; rfl)
  have recorded := (hs.upgrading (by simp [hp])).recordBlock asks
  obtain ⟨written, le⟩ := written_recordBlock asks
  dsimp only
  split
  · rename_i all
    exact Upgrading.upgradeSafe { recorded with } rfl all
  · rename_i more
    obtain ⟨aligned, -, chunk⟩ := asks
    have ne : (recordBlock s).upg.written.toNat ≠ s.upg.total.toNat := fun h => more (BitVec.eq_of_toNat_eq h)
    refine recorded.sendBlock rfl ?_ ?_
    · simp only [Config.chunkMax] at *
      omega
    · show (recordBlock s).upg.written.toNat < s.upg.total.toNat
      omega

/-! ## The rows of the session -/

namespace UpgradeSafe

/-- The rows U_Q1 and U_Q2 (45_upgrade.md R294). -/
theorem deliverUpgrade (hs : UpgradeSafe s) (r : Option Bytes) : UpgradeSafe (deliverUpgrade r s) := by
  unfold Machine.deliverUpgrade
  split
  · rename_i hp
    obtain ⟨-, zero⟩ := hs.stage_and_asks (st := .idle) (by rw [hp]; rfl)
    exact (hs.advances (ph := .q2) (d := s.upg.deadline) (by simp [hp]) zero rfl (.inl rfl)).of_upg rfl rfl
  · rename_i hp
    exact hs.fails _ (.inl (hs.stage_eq _ (by rw [hp]; rfl)))
  · rename_i hp
    exact hs.waits (st := .quietSet) (by rw [hp]; rfl) rfl
  · rename_i hp
    exact hs.fails _ (.inr (.inl (hs.stage_eq _ (by rw [hp]; rfl))))
  · exact hs

/-- The rows U_JIACK, U_BACK and U_JAACK (45_upgrade.md R294). -/
theorem deliverAck (hs : UpgradeSafe s) (a : Bytes) : UpgradeSafe (deliverAck a s) := by
  unfold Machine.deliverAck
  split
  · rename_i hp
    obtain ⟨shown, zero⟩ := hs.stage_and_asks (st := .quietSet) (by rw [hp]; rfl)
    split
    · exact hs.advances (by simp [hp]) zero rfl (.inr rfl)
    · exact hs.fails _ (.inr (.inl shown))
  · rename_i hp
    split
    · exact hs.blockDone hp
    · exact hs.fails _ (.inr (.inr (hs.stage_eq _ (by rw [hp]; rfl))))
  · rename_i hp
    exact hs.completes (hs.stage_and_asks (st := .complete) (by rw [hp]; rfl)).2
  · exact hs

/-- The rows of kind deadline (45_upgrade.md R294). -/
theorem upgStep (hs : UpgradeSafe s) : UpgradeSafe (upgStep s) := by
  unfold Machine.upgStep
  split
  · rename_i hp
    exact (hs.waits (st := .quietSet) (ph := .w2) (by rw [hp]; rfl) rfl).of_upg rfl rfl
  · rename_i hp
    exact (hs.waits (st := .quietSet) (ph := .jiAck) (d := s.upg.deadline) (by rw [hp]; rfl) rfl).of_upg rfl rfl
  · rename_i hp
    obtain ⟨-, zero⟩ := hs.stage_and_asks (st := .bootloaderEntered) (by rw [hp]; rfl)
    have running := hs.upgrading (by simp [hp])
    have pos : 0 < s.upg.total.toNat :=
      Nat.pos_of_ne_zero fun h => running.total_ne (BitVec.eq_of_toNat_eq h)
    have first : 0 = s.upg.written.toNat := (congrArg BitVec.toNat zero).symm
    exact Upgrading.sendBlock (s := s.switchBaud Config.baudBlock) { running with } first rfl pos
  · rename_i hp
    exact (hs.waits (st := .writing) (ph := .back) (d := s.upg.deadline) (by rw [hp]; rfl) rfl).of_upg rfl rfl
  · rename_i hp
    exact (hs.waits (st := .complete) (ph := .jaAck) (d := s.upg.deadline) (by rw [hp]; rfl) rfl).of_upg rfl rfl
  · exact hs

/-- A move keeps the invariant, under legal parameters. -/
theorem move (hc : s.cfg.wf = true) (hs : UpgradeSafe s) (h : Move s t) : UpgradeSafe t := by
  cases h with
  | keep | capacity | fmLength | streamStart | streamStop | pop | exchange | hostDone | unclaimed =>
    exact hs.of_upg rfl rfl
  | upgrade _ nonempty le quiet => exact begins hc nonempty le quiet
  | reset => exact resetFor _ _
  | poll =>
    have frame := syncStep_frame s
    simp only [Prod.mk.injEq] at frame
    obtain ⟨-, -, -, -, hu, hcfg⟩ := frame
    exact hs.of_upg hu hcfg
  | quietDone r => exact (hs.of_upg rfl rfl : UpgradeSafe s.corrEnded).deliverUpgrade r
  | acknowledged a => exact (hs.of_upg rfl rfl : UpgradeSafe s.ackrEnded).deliverAck a
  | deadline => exact hs.upgStep

end UpgradeSafe

/-- No move writes the parameters (00_scope.md R12). -/
theorem Move.cfg_eq (h : Move s t) : t.cfg = s.cfg := by
  cases h with
  | keep | capacity | fmLength | streamStart | streamStop | pop | exchange | upgrade | reset | hostDone
  | unclaimed => rfl
  | poll => exact (syncStep_blockStep s).cfg
  | quietDone r => exact (deliverUpgrade_blockStep r s.corrEnded).cfg
  | acknowledged a => exact (deliverAck_blockStep a s.ackrEnded).cfg
  | deadline => exact (upgStep_blockStep s).cfg

/-- The upgrade invariant with what it takes from `MemorySafe`: the parameters are legal. -/
def UpgradeKept (s : State) : Prop := s.cfg.wf = true ∧ UpgradeSafe s

theorem UpgradeKept.of_control (h : t.control = s.control) (hs : UpgradeKept s) : UpgradeKept t := by
  have hcfg : t.cfg = s.cfg := congrArg Control.cfg h
  exact ⟨hcfg ▸ hs.1, hs.2.of_upg (congrArg Control.upg h) hcfg⟩

theorem UpgradeKept.move (hs : UpgradeKept s) (h : Move s t) : UpgradeKept t :=
  ⟨h.cfg_eq ▸ hs.1, hs.2.move hs.1 h⟩

/-- Settles O53: every move keeps the counters, the stage and the block in agreement. -/
theorem upgradeSafeKept : Obligations.UpgradeSafeKept :=
  fun _ _ hm hs h => (step_keeps .of_control .move ⟨hm.cfg_wf, hs⟩ h : UpgradeKept _).2

end Sys2Proof.Machine
end

section
/-! SUPPORT. The laws of the two byte buffers beyond one space's own, and the statement about the host's byte accesses
(20_memory.md R81, R82, R84). -/

namespace Sys2Proof.Machine

variable {s t : State}

/-- A write lists no index but its own. -/
theorem Memory.mem_write {m : Memory} {a : Nat} {b : Byte} {c : Host.Cell} (h : c ∈ m.write a b) :
    c.1 = a ∨ c ∈ m := by
  induction m with
  | nil =>
    by_cases hb : b = 0#8
    · simp [Memory.write, hb] at h
    · simp only [Memory.write, hb, if_false, List.mem_singleton] at h
      exact .inl (congrArg Prod.fst h)
  | cons x m ih =>
    have added : c ∈ (a, b) :: x :: m → c.1 = a ∨ c ∈ x :: m := fun h =>
      (List.mem_cons.1 h).imp_left (congrArg Prod.fst)
    unfold Memory.write at h
    split at h
    · split at h
      · exact .inr h
      · exact added h
    · split at h
      · split at h
        · exact .inr (List.mem_cons_of_mem x h)
        · exact added (List.cons_subset_cons _ (List.subset_cons_self x m) h)
      · rcases List.mem_cons.1 h with rfl | h
        · exact .inr List.mem_cons_self
        · exact (ih h).imp_right (List.mem_cons_of_mem x)

/-- The byte of the argument at an index inside it. -/
theorem State.getElem?_arg {i : Nat} (h : i < s.hinLen.toNat) : s.arg[i]? = some (s.hin.read i) := by
  simp [State.arg, Memory.readBytes, h]

/-- What `HIN` reads after a host write of one byte (20_memory.md R81). -/
theorem hinByte_writeHin (hw : s.hin.wf = true) (i : Nat) (b : Byte) (j : Nat) :
    hinByte (writeHin i b s) j = if j = i ∧ i < s.cfg.hbufSize then b else hinByte s j := by
  by_cases hi : i < s.cfg.hbufSize
  · have e : writeHin i b s = { s with hin := s.hin.write i b } := if_pos hi
    rw [e]
    by_cases hj : j = i
    · simp [hinByte, hj, hi, Memory.read_write_same hw]
    · simp [hinByte, hj, Memory.read_write_other hw b hj]
  · have e : writeHin i b s = s := if_neg hi
    simp [e, hi]

/-- Settles O10, by the laws of a read after a write and of the argument. -/
theorem hostBufferBytes : Obligations.HostBufferBytes := by
  intro s hs
  refine ⟨fun i b => ⟨writeHin i b s, rfl, ?_, hinByte_writeHin hs.hin_wf i b⟩, fun _ _ => rfl, fun _ => rfl,
    fun _ => rfl, fun i hi => ⟨if_neg (Nat.not_lt.2 hi), if_neg (Nat.not_lt.2 hi)⟩, s.length_arg, fun i hi => ?_⟩
  · unfold writeHin
    split <;> rfl
  · rw [State.getElem?_arg hi, hinByte, if_pos (hi.trans_le hs.hinLen_le)]

end Sys2Proof.Machine
end

section
/-! SUPPORT. How long the results of the operations can be: a frame by its descriptor, the values of DECODE by their
layout, a response by its length byte (30_encoding.md R106; 42_registry.md R160; 46_decode.md R332, R340). -/

namespace Sys2Proof

/-! ## Legal layouts -/

theorem FieldKind.width_pos (k : FieldKind) : 0 < k.width := by cases k <;> decide

/-- Entries that do not overlap have different offsets. -/
theorem offsets_nodup {l : List FieldEntry} (h : entriesDisjoint l = true) : (l.map FieldEntry.off).Nodup := by
  induction l with
  | nil => exact List.nodup_nil
  | cons e l ih =>
    simp only [entriesDisjoint, Bool.and_eq_true, List.all_eq_true, Bool.or_eq_true, decide_eq_true_eq] at h
    obtain ⟨apart, disjoint⟩ := h
    refine List.nodup_cons.2 ⟨fun hmem => ?_, ih disjoint⟩
    obtain ⟨e', he', same⟩ := List.mem_map.1 hmem
    have := apart e' he'
    have := e.kind.width_pos
    have := e'.kind.width_pos
    omega

/-- A layout has at most one entry for each byte of its payload. -/
theorem length_le_of_layoutFits {size : Nat} {o : ByteOrder} {l : List FieldEntry} (h : layoutFits size o l = true) :
    l.length ≤ size := by
  simp only [layoutFits, Bool.and_eq_true] at h
  obtain ⟨⟨inside, disjoint⟩, -⟩ := h
  have offsets : l.map FieldEntry.off ⊆ List.range size := by
    intro i hi
    obtain ⟨e, he, rfl⟩ := List.mem_map.1 hi
    have fits := List.all_eq_true.1 inside e he
    have := e.kind.width_pos
    simp only [decide_eq_true_eq] at fits
    exact List.mem_range.2 (by omega)
  simpa using ((offsets_nodup disjoint).subperm offsets).length_le

theorem length_le_of_layoutLegal {t : Tag} {l : List FieldEntry} (h : layoutLegal t l = true) : l.length ≤ 38 := by
  obtain ⟨o, fits⟩ := layoutLegal_fits h
  have := length_le_of_layoutFits fits
  split at this <;> omega

namespace Machine

/-! ## Frames -/

/-- A valid frame has the length of its descriptor (42_registry.md R163). -/
theorem length_of_frameValid {t : Tag} {len : Nat} {f : Bytes} (h : frameValid t len f = true) :
    f.length = (descriptor t len).len := by
  simp only [frameValid, frameShapeOk, Bool.and_eq_true, beq_iff_eq] at h
  obtain ⟨⟨hlen, -⟩, -⟩ := h
  exact hlen

/-- No frame is longer than the longest FM frame (42_registry.md R160, R162). -/
theorem descriptor_len_le {n : Nat} (h : n ≤ 125) (t : Tag) : (descriptor t n).len ≤ 125 := by
  cases t <;> simp [descriptor, h]

theorem sync_length_le (t : Tag) (n : Nat) : (descriptor t n).sync.length ≤ 4 := by cases t <;> simp [descriptor]

/-! ## Layouts -/

/-- The FM layout has seven entries for each chip and one for each status field (46_decode.md R337). -/
theorem length_layoutFm (k : FmScale) (n : Nat) : (layoutFm k n).length = 7 * fmChips n + fmStatusFields n := by
  simp [layoutFm, fmChipEntries, List.length_flatMap, Nat.mul_comm]

/-- A legal FM length has at most four chips and three status fields (42_registry.md R162). -/
theorem fm_counts_le {n : Nat} (h : fmLegal n = true) : fmChips n ≤ 4 ∧ fmStatusFields n ≤ 3 := by
  simp only [fmLegal, Bool.and_eq_true, Bool.or_eq_true, decide_eq_true_eq, beq_iff_eq] at h
  simp only [fmStatusFields]
  omega

/-- A layout that the parameters configure is legal (00_scope.md R12). -/
theorem layoutLegal_of_fieldLayout {c : Config} {t : Tag} {n : Nat} {l : List FieldEntry} (hc : c.wf = true)
    (ht : t ≠ .s1 ∧ t ≠ .fm) (h : fieldLayout c t n = some l) : layoutLegal t l = true := by
  simp only [Config.wf, Bool.and_eq_true] at hc
  obtain ⟨⟨⟨⟨⟨⟨-, layoutS2⟩, layoutA1⟩, layoutA2⟩, layoutS3⟩, layoutAT⟩, -⟩ := hc
  have configured {o : Option (List FieldEntry)} {p : List FieldEntry → Bool} (hp : o.all p = true)
      (ho : o = some l) : p l = true := by
    rw [ho] at hp
    exact hp
  match t, ht, h with
  | .s1, ht, _ => exact absurd rfl ht.1
  | .fm, ht, _ => exact absurd rfl ht.2
  | .s2, _, h => exact configured layoutS2 h
  | .a1, _, h => exact configured layoutA1 h
  | .a2, _, h => exact configured layoutA2 h
  | .s3, _, h => exact configured layoutS3 h
  | .at, _, h => exact configured layoutAT h

/-- No layout in use has more than 38 entries. -/
theorem length_fieldLayout_le {c : Config} {t : Tag} {n : Nat} {l : List FieldEntry} (hc : c.wf = true)
    (hn : fmLegal n = true) (h : fieldLayout c t n = some l) : l.length ≤ 38 := by
  match t, h with
  | .s1, h =>
    cases h
    simp [layoutS1]
  | .fm, h =>
    obtain ⟨k, -, rfl⟩ := Option.map_eq_some_iff.1 h
    obtain ⟨chips, status⟩ := fm_counts_le hn
    rw [length_layoutFm]
    omega
  | .s2, h | .a1, h | .a2, h | .s3, h | .at, h =>
    exact length_le_of_layoutLegal (layoutLegal_of_fieldLayout hc (by decide) h)

/-- Each value of DECODE takes 8 bytes of its result (46_decode.md R340). -/
theorem length_flatMap_le64 (vs : List (BitVec 64)) : (vs.flatMap le64).length = 8 * vs.length := by
  simp [List.length_flatMap, le64, Nat.mul_comm]

/-! ## Responses -/

theorem length_slice_le_length (s : Bytes) (i j : Nat) : (slice s i j).length ≤ s.length := by
  rw [slice, List.length_take, List.length_drop]
  omega

/-- A slice of a response's payload is no longer than the response. -/
theorem length_slice_payload_le (resp : Bytes) (i j : Nat) :
    (slice (responsePayload resp) i j).length ≤ resp.length :=
  (length_slice_le_length _ _ _).trans (length_slice_le_length _ _ _)

end Machine
end Sys2Proof
end

section
/-! SUPPORT. Everything one step can do to `HIN` and `HOUT`, said once, and what every step keeps of them
(20_memory.md R80 to R82). -/

namespace Sys2Proof.Machine

variable {s t : State}

/-! ## The moves of the buffers -/

/-- The part of the state on which `MemorySafe` depends. -/
structure Buffers where
  hin : Memory
  hout : Memory
  hinLen : Word
  houtLen : Word
  cfg : Config

def State.buffers (s : State) : Buffers := ⟨s.hin, s.hout, s.hinLen, s.houtLen, s.cfg⟩

/-- What can happen to the buffers: a result in `HOUT`, a host write of a byte of `HIN` or of `HIN_LEN`, or RESET. -/
inductive BufferMove (x : Buffers) : Buffers → Prop where
  | keep : BufferMove x x
  | result {r : Bytes} (fits : r.length ≤ 1024) :
    BufferMove x { x with hout := Memory.ofBytes r, houtLen := BitVec.ofNat 32 r.length }
  | hinByte {i : Nat} (b : Byte) (inside : i < x.cfg.hbufSize) : BufferMove x { x with hin := x.hin.write i b }
  | hinLen {n : Nat} (le : n ≤ x.cfg.hbufSize) : BufferMove x { x with hinLen := BitVec.ofNat 32 n }
  | reset : BufferMove x ⟨[], [], 0, 0, x.cfg⟩

theorem BufferMove.of_eq {x y : Buffers} (h : y = x) : BufferMove x y := h ▸ .keep

namespace MemorySafe

theorem of_buffers (hs : MemorySafe s) (h : t.buffers = s.buffers) : MemorySafe t := by
  simp only [State.buffers, Buffers.mk.injEq] at h
  obtain ⟨hin, hout, hinLen, houtLen, cfg⟩ := h
  obtain ⟨hin_wf, hout_wf, hin_inside, hout_inside, hinLen_le, houtLen_le, cfg_wf⟩ := hs
  rw [← cfg] at hin_inside hinLen_le houtLen_le cfg_wf
  rw [← hin] at hin_wf hin_inside
  rw [← hout] at hout_wf hout_inside
  rw [← houtLen] at hout_inside houtLen_le
  rw [← hinLen] at hinLen_le
  exact ⟨hin_wf, hout_wf, hin_inside, hout_inside, hinLen_le, houtLen_le, cfg_wf⟩

/-- The smallest legal buffer holds every result. -/
theorem setHout (hs : MemorySafe s) {r : Bytes} (fits : r.length ≤ 1024) : MemorySafe (s.setHout r) := by
  have length : (s.setHout r).houtLen.toNat = r.length := by
    show (BitVec.ofNat 32 r.length).toNat = r.length
    rw [BitVec.toNat_ofNat, Nat.mod_eq_of_lt (by omega)]
  refine { hs with hout_wf := Memory.ofBytes_wf r, hout_inside := fun c hc => ?_, houtLen_le := ?_ }
  · have := Memory.ofBytesAt_inside r 0 c hc
    omega
  · rw [length]
    exact fits.trans (Config.hbufSize_ge hs.cfg_wf)

theorem hinByte (hs : MemorySafe s) {i : Nat} (b : Byte) (inside : i < s.cfg.hbufSize) :
    MemorySafe { s with hin := s.hin.write i b } where
  hin_wf := Memory.write_wf i b hs.hin_wf
  hout_wf := hs.hout_wf
  hin_inside c hc := (Memory.mem_write hc).elim (fun h => h ▸ inside) (hs.hin_inside c)
  hout_inside := hs.hout_inside
  hinLen_le := hs.hinLen_le
  houtLen_le := hs.houtLen_le
  cfg_wf := hs.cfg_wf

theorem hinLen (hs : MemorySafe s) {n : Nat} (le : n ≤ s.cfg.hbufSize) :
    MemorySafe { s with hinLen := BitVec.ofNat 32 n } :=
  { hs with hinLen_le := (BitVec.toNat_ofNat n 32 ▸ Nat.mod_le _ _).trans le }

theorem resetFor {c : Config} (hc : c.wf = true) (linkOk : Bool) : MemorySafe (State.resetFor c linkOk) where
  hin_wf := rfl
  hout_wf := rfl
  hin_inside _ h := absurd h List.not_mem_nil
  hout_inside _ h := absurd h List.not_mem_nil
  hinLen_le := Nat.zero_le _
  houtLen_le := Nat.zero_le _
  cfg_wf := hc

theorem move (hs : MemorySafe s) (h : BufferMove s.buffers t.buffers) : MemorySafe t := by
  generalize ht : t.buffers = y at h
  cases h with
  | keep => exact hs.of_buffers ht
  | result fits => exact (hs.setHout fits).of_buffers ht
  | hinByte b inside => exact (hs.hinByte b inside).of_buffers ht
  | hinLen le => exact (hs.hinLen le).of_buffers ht
  | reset => exact (resetFor hs.cfg_wf s.linkOk).of_buffers ht

end MemorySafe

/-! ## The shared operations -/

theorem issue_bufferMove {body : State → State} (hb : BufferMove s.buffers (body s.clearStatus).buffers) :
    BufferMove s.buffers (s.issue body).buffers :=
  State.issue_cases (p := fun t => BufferMove s.buffers t.buffers) .keep fun _ => hb

/-- An operation that leaves the buffers alone leaves them alone however it is issued. -/
theorem issue_keepsBuffers {body : State → State} (hb : ∀ s, (body s).buffers = s.buffers) (s : State) :
    BufferMove s.buffers (s.issue body).buffers :=
  issue_bufferMove (.of_eq (hb s.clearStatus))

theorem openLink_buffers {opc : Byte} {body : State → State} (hb : (body s).buffers = s.buffers) :
    (s.openLink opc body).buffers = s.buffers :=
  State.openLink_cases (p := fun t => t.buffers = s.buffers) (fun _ => rfl) fun _ _ => hb

theorem issueExchange_buffers (op : ExchangeOp) (speed : Option Word) (c : Code) (p : Bytes) (m : MatchMode)
    (s : State) : (issueExchange op speed c p m s).buffers = s.buffers :=
  openLink_buffers (by cases speed <;> rfl)

theorem issueReadFields_buffers (op : ExchangeOp) (c : Code) (s : State) :
    (issueReadFields op c s).buffers = s.buffers := by
  unfold issueReadFields
  split
  · exact issueExchange_buffers _ _ _ _ _ s
  · rfl

theorem issueWriteFields_buffers (op : ExchangeOp) (c : Code) (s : State) :
    (issueWriteFields op c s).buffers = s.buffers := by
  unfold issueWriteFields
  split
  · exact issueExchange_buffers _ _ _ _ _ s
  · rfl

theorem issueRegion_buffers (op : ExchangeOp) (speed : Word) (code : Option Code) (payload : Option Bytes)
    (s : State) : (issueRegion op speed code payload s).buffers = s.buffers := by
  unfold issueRegion
  split
  · exact issueExchange_buffers _ _ _ _ _ s
  · rfl

/-! ## The host operations -/

/-- What bounds the results of QPOP and DECODE: the frames queued, the FM length and the configured layouts. -/
structure ResultsBounded (s : State) : Prop where
  frames_le : ∀ f ∈ s.stream.q, f.length ≤ 125
  fm_legal : fmLegal s.fmLen.toNat = true
  cfg_wf : s.cfg.wf = true

/-- Frames are queued in a session only, whose length is its descriptor's (42_registry.md R161; 43_synchronizer.md
R194, R197). -/
theorem ResultsBounded.of_safe (hl : LinkSafe s) (hs : StreamSafe s) (hm : MemorySafe s) : ResultsBounded s where
  frames_le f hf := by
    have active : s.stream.active = true := by
      by_contra hn
      rw [hl.queue_empty (Bool.eq_false_iff.2 hn)] at hf
      exact absurd hf List.not_mem_nil
    have len_le : s.stream.len ≤ 125 :=
      hs.len_bound active ▸ descriptor_len_le (le_of_fmLegal hs.fm_legal) s.stream.tag
    rw [length_of_frameValid (hs.frames_valid f hf)]
    exact descriptor_len_le len_le s.stream.tag
  fm_legal := hs.fm_legal
  cfg_wf := hm.cfg_wf

theorem execCrc16_bufferMove (h : execCrc16 s = .next t) : BufferMove s.buffers t.buffers := by
  cases h
  exact issue_bufferMove (.result (r := be16 _) (show 2 ≤ 1024 by decide))

theorem execSum8_bufferMove (h : execSum8 s = .next t) : BufferMove s.buffers t.buffers := by
  cases h
  exact issue_bufferMove (.result (r := [_]) (show 1 ≤ 1024 by decide))

theorem execValidate_bufferMove {tag : Nat} (h : execValidate tag s = .next t) : BufferMove s.buffers t.buffers := by
  cases h
  refine issue_keepsBuffers (fun s => ?_) s
  split <;> rfl

theorem execDesc_bufferMove {tag : Nat} (h : execDesc tag s = .next t) : BufferMove s.buffers t.buffers := by
  cases h
  refine issue_bufferMove ?_
  split
  · exact .keep
  · exact .result ((sync_length_le _ _).trans (by decide))

theorem execFmSet_bufferMove {length : Nat} (h : execFmSet length s = .next t) :
    BufferMove s.buffers t.buffers := by
  cases h
  refine issue_keepsBuffers (fun s => ?_) s
  split
  · rfl
  · split <;> rfl

theorem execDecode_bufferMove (hs : ResultsBounded s) {tag : Nat} (h : execDecode tag s = .next t) :
    BufferMove s.buffers t.buffers := by
  cases h
  refine issue_bufferMove ?_
  split
  · exact .keep
  · dsimp only
    split
    · exact .keep
    · split
      · exact .keep
      · rename_i l layout
        refine .result ?_
        have := length_fieldLayout_le hs.cfg_wf hs.fm_legal layout
        rw [length_flatMap_le64, List.length_map]
        omega

theorem execStreamStart_bufferMove {tag : Nat} {watchdog : Bool} (h : execStreamStart tag watchdog s = .next t) :
    BufferMove s.buffers t.buffers := by
  cases h
  refine issue_keepsBuffers (fun s => ?_) s
  split
  · rfl
  · exact openLink_buffers rfl

theorem execStreamStop_bufferMove (h : execStreamStop s = .next t) : BufferMove s.buffers t.buffers := by
  cases h
  refine issue_keepsBuffers (fun s => ?_) s
  split <;> rfl

theorem execQpop_bufferMove (hs : ResultsBounded s) (h : execQpop s = .next t) :
    BufferMove s.buffers t.buffers := by
  cases h
  refine issue_bufferMove ?_
  split
  · exact .result (r := []) (Nat.zero_le _)
  · rename_i f rest queued
    have := hs.frames_le f (List.mem_of_mem_head? (congrArg List.head? queued))
    exact .result (r := f) (by omega)

theorem execSetQuiet_bufferMove (h : execSetQuiet s = .next t) : BufferMove s.buffers t.buffers := by
  cases h
  refine issue_keepsBuffers (fun s => ?_) s
  split
  · rfl
  · exact issueExchange_buffers _ _ _ _ _ s

theorem execLock_bufferMove {region : Nat} (h : execLock region s = .next t) : BufferMove s.buffers t.buffers := by
  cases h
  refine issue_keepsBuffers (fun s => ?_) s
  split
  · rfl
  · exact issueRegion_buffers _ _ _ _ s

theorem execUnlock_bufferMove {region : Nat} (h : execUnlock region s = .next t) :
    BufferMove s.buffers t.buffers := by
  cases h
  refine issue_keepsBuffers (fun s => ?_) s
  split
  · rfl
  · exact issueRegion_buffers _ _ _ _ s

theorem execUpgStart_bufferMove (h : execUpgStart s = .next t) : BufferMove s.buffers t.buffers := by
  cases h
  refine issue_keepsBuffers (fun s => ?_) s
  split
  · rfl
  · split
    · rfl
    · exact openLink_buffers rfl

theorem exec_bufferMove (hs : ResultsBounded s) {i : Instr} (h : exec i s = .next t) :
    BufferMove s.buffers t.buffers := by
  cases i with
  | crc16 => exact execCrc16_bufferMove h
  | sum8 => exact execSum8_bufferMove h
  | validate => exact execValidate_bufferMove h
  | desc => exact execDesc_bufferMove h
  | fmSet => exact execFmSet_bufferMove h
  | decode => exact execDecode_bufferMove hs h
  | streamStart => exact execStreamStart_bufferMove h
  | streamStop => exact execStreamStop_bufferMove h
  | qpop => exact execQpop_bufferMove hs h
  | getProductInfo => cases h; exact issue_keepsBuffers (issueExchange_buffers _ _ _ _ _) s
  | getFields => cases h; exact issue_keepsBuffers (issueReadFields_buffers _ _) s
  | readFields => cases h; exact issue_keepsBuffers (issueReadFields_buffers _ _) s
  | writeFieldsTemp => cases h; exact issue_keepsBuffers (issueWriteFields_buffers _ _) s
  | writeFieldsPerm => cases h; exact issue_keepsBuffers (issueWriteFields_buffers _ _) s
  | setQuiet => exact execSetQuiet_bufferMove h
  | restart => cases h; exact issue_keepsBuffers (issueExchange_buffers _ _ _ _ _) s
  | jumpBoot => cases h; exact issue_keepsBuffers (issueExchange_buffers _ _ _ _ _) s
  | jumpApp => cases h; exact issue_keepsBuffers (issueExchange_buffers _ _ _ _ _) s
  | lock => exact execLock_bufferMove h
  | unlock => exact execUnlock_bufferMove h
  | upgStart => exact execUpgStart_bufferMove h
  | reset => cases h; exact .reset

/-! ## The agents -/

theorem syncStep_buffers (s : State) : (syncStep s).buffers = s.buffers := by
  obtain ⟨rx, h, e, a, c, hu⟩ := s.scanned_frame
  rw [syncStep_eq, State.checked]
  rcases watchdogCheck_cases (!s.newFrames.isEmpty) s.scanned with ⟨hc, -⟩ | hc | ⟨hc, -⟩ | hc <;>
    rw [hc, hu] <;> rfl

/-- What a host operation keeps of a response is no longer than the response (44_correlator.md R259
to R261). -/
theorem onResponse_bufferMove (op : ExchangeOp) {resp : Bytes} (fits : resp.length ≤ 1024) (s : State) :
    BufferMove s.buffers (onResponse op resp s).buffers := by
  cases op with
  | getProductInfo =>
    unfold onResponse parseProduct
    dsimp only
    split
    · exact .keep
    · exact .result ((length_slice_payload_le resp _ _).trans fits)
  | getFields | readFields =>
    unfold onResponse parseFields
    dsimp only
    split
    · exact .keep
    · exact .result ((length_slice_payload_le resp _ _).trans fits)
  | writeFieldsTemp | writeFieldsPerm =>
    unfold onResponse parseWriteEcho
    dsimp only
    split
    · exact .keep
    · exact .result fits
  | setQuiet | restart | jumpBoot | jumpApp | lock | unlock => exact .result fits

theorem deliverUpgrade_buffers (r : Option Bytes) (s : State) : (deliverUpgrade r s).buffers = s.buffers := by
  unfold deliverUpgrade
  split <;> rfl

theorem deliver_bufferMove {r : Option Bytes} (fits : ∀ resp, r = some resp → resp.length ≤ 1024) (s : State) :
    BufferMove s.buffers (deliver r s).buffers := by
  cases hc : s.corr.client with
  | none =>
    unfold deliver
    rw [hc]
    exact .keep
  | hostOp op =>
    rw [deliver_hostOp hc]
    cases r with
    | none => exact .keep
    | some resp => exact onResponse_bufferMove op (fits resp rfl) s.corrEnded.releaseLink
  | upg =>
    rw [deliver_upg hc]
    exact .of_eq (deliverUpgrade_buffers r s.corrEnded)

/-- A response found has at most 255 bytes of payload and 7 around it (30_encoding.md R106). -/
theorem corrStep_bufferMove (s : State) : BufferMove s.buffers (corrStep s).buffers := by
  rw [corrStep_eq]
  split
  · rename_i p ld found
    obtain ⟨length, -, ld_le, -⟩ := State.response_of_found found
    refine deliver_bufferMove (fun resp hr => ?_) s.afterRead
    cases hr
    omega
  · split
    · exact deliver_bufferMove (by simp) s.afterRead
    · exact .keep

theorem deliverAck_buffers (a : Bytes) (s : State) : (deliverAck a s).buffers = s.buffers := by
  unfold deliverAck
  split
  · split <;> simp [State.buffers]
  · split
    · dsimp only
      split <;> simp [State.buffers]
    · simp [State.buffers]
  · simp [State.buffers]
  · rfl

theorem ackrStep_buffers (s : State) : (ackrStep s).buffers = s.buffers := by
  rw [ackrStep_eq]
  split
  · exact deliverAck_buffers _ s.ackrRead.ackrEnded
  · rfl

theorem upgStep_buffers (s : State) : (upgStep s).buffers = s.buffers := by
  unfold upgStep
  split <;> rfl

theorem agentStep_bufferMove (a : Agent) (s : State) : BufferMove s.buffers (agentStep s a).buffers := by
  cases a with
  | sync => exact .of_eq (syncStep_buffers s)
  | corr => exact corrStep_bufferMove s
  | ackr => exact .of_eq (ackrStep_buffers s)
  | upg => exact .of_eq (upgStep_buffers s)

theorem settle_bufferMove (s : State) : BufferMove s.buffers (settle s).buffers := by
  unfold settle
  split
  · exact agentStep_bufferMove _ s
  · exact .keep

theorem idleStep_bufferMove (s : State) : BufferMove s.buffers (idleStep s).buffers := by
  unfold idleStep
  split
  · exact agentStep_bufferMove _ s
  · exact .keep

/-! ## The host and the environment -/

theorem writeReg_bufferMove (hs : ResultsBounded s) {num : Byte} {v : Word} (h : writeReg num v s = .next t) :
    BufferMove s.buffers t.buffers := by
  unfold writeReg at h
  split at h
  · unfold writeCmd at h
    split at h
    · exact exec_bufferMove hs h
    · cases h
      exact issue_keepsBuffers (body := State.raise _ .illegalOp) (fun _ => rfl) s
  · cases h
    unfold writeHinLen
    split
    · exact .keep
    · exact .hinLen (Nat.min_le_right _ _)
  · cases h
    unfold writeBaud
    split <;> exact .keep
  · cases h
    unfold writeOdr
    split <;> exact .keep
  · cases h
    exact .keep

theorem writeHin_bufferMove (i : Nat) (b : Byte) (s : State) : BufferMove s.buffers (writeHin i b s).buffers := by
  unfold writeHin
  split
  · exact .hinByte b ‹_›
  · exact .keep

theorem tick_bufferMove {d : Nat} (h : tick d s = .next t) : BufferMove s.buffers t.buffers := by
  have hd : 0 < d := by
    rcases Nat.eq_zero_or_pos d with rfl | hd
    · cases h
    · exact hd
  cases ha : nextAgent s with
  | some a =>
    rw [tick_of_nextAgent hd ha] at h
    cases h
    exact agentStep_bufferMove a s
  | none =>
    obtain ⟨e, -, -, ht, -⟩ := tick_elapses hd ha
    rw [ht] at h
    cases h
    exact .keep

theorem perform_bufferMove (hs : ResultsBounded s) {a : Action} (h : perform a s = .next t) :
    BufferMove s.buffers t.buffers := by
  cases a with
  | regWrite => exact writeReg_bufferMove hs h
  | hinWrite i b => cases h; exact writeHin_bufferMove i b s
  | regRead | hinRead | houtWrite | houtRead | rx | link => cases h; exact .keep
  | tick => exact tick_bufferMove h
  | agent a =>
    by_cases ha : agentEnabled s a = true
    · rw [perform_agent ha] at h
      cases h
      exact agentStep_bufferMove a s
    · simp [perform, scheduledAgent, ha] at h
  | settle => cases h; exact settle_bufferMove s

theorem step_bufferMove (hs : ResultsBounded s) (h : step s = .next t) : BufferMove s.buffers t.buffers := by
  cases hc : s.schedule with
  | nil =>
    have e : step s = .next (idleStep s) := by
      unfold step
      rw [hc]
    rw [e] at h
    cases h
    exact idleStep_bufferMove s
  | cons a rest =>
    rw [step_of_schedule hc] at h
    exact perform_bufferMove (s := { s with schedule := rest }) { hs with } h

/-- Settles O52: every move of the buffers keeps them in form, and a step is such a move. -/
theorem memorySafeKept : Obligations.MemorySafeKept :=
  fun _ _ hl hs hm h => hm.move (step_bufferMove (.of_safe hl hs hm) h)

end Sys2Proof.Machine
end

section
/-! SUPPORT. The decoder and the encoder as inverses of each other: a word decodes to an operation exactly when the bits
the operation reads are its encoding (30_encoding.md R100 to R105, R122). -/

namespace Sys2Proof

/-! ## The bits an operation reads, byte by byte -/

/-- The bits of field A that an operation reads (30_encoding.md R105). -/
def Instr.readA : Instr → Byte
  | .validate _ | .desc _ | .decode _ | .streamStart _ _ | .lock _ | .unlock _ => 0xFF
  | _ => 0x00

/-- The bits of field B that an operation reads (30_encoding.md R105). -/
def Instr.readB : Instr → Byte
  | .fmSet _ => 0xFF
  | .streamStart _ _ => 0x01
  | _ => 0x00

theorem Instr.readMask_eq (i : Instr) : i.readMask = (0xFF : Byte) ++ i.readB ++ i.readA ++ (0xFF : Byte) := by
  have opcodeOnly : (0xFF0000FF : Word) = 0xFF#8 ++ 0x00#8 ++ 0x00#8 ++ 0xFF#8 := by decide
  have inA : (0xFF00FFFF : Word) = 0xFF#8 ++ 0x00#8 ++ 0xFF#8 ++ 0xFF#8 := by decide
  have inB : (0xFFFF00FF : Word) = 0xFF#8 ++ 0xFF#8 ++ 0x00#8 ++ 0xFF#8 := by decide
  have flagged : (0xFF01FFFF : Word) = 0xFF#8 ++ 0x01#8 ++ 0xFF#8 ++ 0xFF#8 := by decide
  cases i with
  | validate | desc | decode | lock | unlock => exact inA
  | fmSet => exact inB
  | streamStart => exact flagged
  | _ => exact opcodeOnly

/-- A word of four bytes under a mask of four bytes. -/
theorem append_and_append (r b a o r' b' a' o' : Byte) :
    (r ++ b ++ a ++ o) &&& (r' ++ b' ++ a' ++ o') = (r &&& r') ++ (b &&& b') ++ (a &&& a') ++ (o &&& o') := by
  simp only [BitVec.and_append]

/-- A byte under the mask of a byte read whole. -/
theorem and_whole (x : Byte) : x &&& 0xFF = x := BitVec.and_allOnes

theorem and_readMask (w : Word) (i : Instr) :
    w &&& i.readMask = fieldRsv w ++ (fieldB w &&& i.readB) ++ (fieldA w &&& i.readA) ++ fieldOpc w := by
  conv_lhs => rw [← fields_join w, i.readMask_eq, append_and_append, and_whole, and_whole]

/-- The bits an operation reads are its encoding when RSV is 0 and the other fields are the operation's. -/
theorem and_readMask_eq_encode {w : Word} {i : Instr} : w &&& i.readMask = encode i ↔
    fieldRsv w = 0 ∧ fieldB w &&& i.readB = i.argB ∧ fieldA w &&& i.readA = i.argA ∧ fieldOpc w = i.opcode := by
  rw [and_readMask]
  constructor
  · intro h
    obtain ⟨rsv, b, a, opc⟩ := fields_append (fieldRsv w) (fieldB w &&& i.readB) (fieldA w &&& i.readA) (fieldOpc w)
    obtain ⟨rsv', b', a', opc'⟩ := fields_encode i
    rw [h] at rsv b a opc
    exact ⟨rsv.symm.trans rsv', b.symm.trans b', a.symm.trans a', opc.symm.trans opc'⟩
  · rintro ⟨rsv, b, a, opc⟩
    rw [rsv, b, a, opc]
    rfl

/-! ## The opcode map in both directions -/

/-- What the map of R101 answers has the word's opcode and, in the bits it reads, the word's argument bytes. -/
theorem args_of_decodeOpcode {opc a b : Byte} {i : Instr} (h : decodeOpcode opc a b = .ok i) :
    b &&& i.readB = i.argB ∧ a &&& i.readA = i.argA ∧ opc = i.opcode := by
  have unread (x : Byte) : x &&& 0x00 = 0x00 := BitVec.and_zero
  have all (x : Byte) : x &&& 0xFF = BitVec.ofNat 8 x.toNat := by
    rw [and_whole, BitVec.ofNat_toNat, BitVec.setWidth_eq]
  have flag : ∀ x : Byte, x &&& 0x01 = if x.getLsbD 0 then 0x01 else 0x00 := by decide
  unfold decodeOpcode at h
  split at h <;> cases h <;>
    exact ⟨by simp only [Instr.readB, Instr.argB, unread, all, flag],
      by simp only [Instr.readA, Instr.argA, unread, all], BitVec.eq_of_toNat_eq ‹_›⟩

/-- A byte read whole, for an argument that fits its field. -/
theorem toNat_of_readWhole {x : Byte} {n : Nat} (fits : fitsByteField n = true) (h : x &&& 0xFF = BitVec.ofNat 8 n) :
    x.toNat = n := by
  have lt : n < 256 := of_decide_eq_true fits
  rw [← and_whole x, h, BitVec.toNat_ofNat, Nat.mod_eq_of_lt lt]

/-- The flag in B[0], read alone (43_synchronizer.md R190). -/
theorem getLsbD_of_readFlag {x : Byte} {f : Bool} (h : x &&& 0x01 = if f then 0x01 else 0x00) : x.getLsbD 0 = f := by
  revert x f
  decide

/-- An operation's opcode, with its arguments in the bits it reads, is the operation. -/
theorem decodeOpcode_of_args {a b : Byte} {i : Instr} (wf : i.WellFormed = true) (hb : b &&& i.readB = i.argB)
    (ha : a &&& i.readA = i.argA) : decodeOpcode i.opcode a b = .ok i := by
  cases i with
  | validate n | desc n | decode n | lock n | unlock n =>
    obtain rfl := toNat_of_readWhole wf ha
    rfl
  | fmSet n =>
    obtain rfl := toNat_of_readWhole wf hb
    rfl
  | streamStart n watchdog =>
    obtain rfl := toNat_of_readWhole wf ha
    obtain rfl := getLsbD_of_readFlag hb
    rfl
  | _ => rfl

/-- A word decodes to an operation exactly when the operation is well formed and the bits it reads are its encoding. -/
theorem decode_eq_ok_iff_encode {w : Word} {i : Instr} :
    decode w = .ok i ↔ i.WellFormed = true ∧ w &&& i.readMask = encode i := by
  rw [and_readMask_eq_encode]
  constructor
  · intro h
    obtain ⟨rsv, map⟩ := decode_eq_ok.1 h
    exact ⟨wellFormed_of_decode h, rsv, args_of_decodeOpcode map⟩
  · rintro ⟨wf, rsv, hb, ha, opc⟩
    exact decode_eq_ok.2 ⟨rsv, opc ▸ decodeOpcode_of_args wf hb ha⟩

/-- An encoding has bits only where its operation reads them (30_encoding.md R122). -/
theorem encode_and_readMask (i : Instr) : encode i &&& i.readMask = encode i := by
  have inside : i.argB &&& i.readB = i.argB ∧ i.argA &&& i.readA = i.argA := by
    have flag : ∀ f : Bool, (if f then 0x01 else 0x00 : Byte) &&& 0x01 = if f then 0x01 else 0x00 := by decide
    cases i with
    | validate | desc | decode | lock | unlock => exact ⟨BitVec.zero_and, and_whole _⟩
    | fmSet => exact ⟨and_whole _, BitVec.zero_and⟩
    | streamStart _ watchdog => exact ⟨flag watchdog, and_whole _⟩
    | _ => exact ⟨BitVec.zero_and, BitVec.zero_and⟩
  obtain ⟨rsv, b, a, opc⟩ := fields_encode i
  rw [and_readMask_eq_encode, rsv, b, a, opc]
  exact ⟨rfl, inside.1, inside.2, rfl⟩

/-- Settles O1: an encoding is what its operation reads of it. -/
theorem decodeEncodeAgree : Obligations.DecodeEncodeAgree :=
  fun i wf => decode_eq_ok_iff_encode.2 ⟨wf, encode_and_readMask i⟩

/-- Settles O2, by the bits that decide which operation a word is. -/
theorem decodedWordsAreTheirEncodings : Obligations.DecodedWordsAreTheirEncodings := by
  intro w i h
  obtain ⟨wf, read⟩ := decode_eq_ok_iff_encode.1 h
  exact ⟨wf, read.symm, fun v hv => decode_eq_ok_iff_encode.2 ⟨wf, hv.trans read⟩⟩

/-- Settles O4: each word is the encoding of the operation it names. -/
theorem assemblerWords : Obligations.AssemblerWords :=
  have named (i : Instr) (wf : i.WellFormed = true) : decode (encode i) = .ok i := decodeEncodeAgree i wf
  ⟨named (.streamStart 4 true) rfl, named (.fmSet 95) rfl, named .crc16 rfl, named (.validate 6) rfl, named .qpop rfl,
    named .getProductInfo rfl, named .jumpApp rfl, named (.lock 1) rfl, named (.unlock 2) rfl, named .upgStart rfl,
    named .reset rfl⟩

/-! ## Illegal words (30_encoding.md R102) -/

/-- The opcode is one of the reserved values of R102. -/
def ReservedOpcode (opc : Byte) : Prop :=
  opc = 0x00 ∨ (0x07 ≤ opc ∧ opc ≤ 0x0F) ∨ (0x13 ≤ opc ∧ opc ≤ 0x1F) ∨ (0x2B ≤ opc ∧ opc ≤ 0x2F) ∨
    (0x31 ≤ opc ∧ opc ≤ 0x3E) ∨ 0x40 ≤ opc

theorem Instr.not_reserved_opcode (i : Instr) : ¬ReservedOpcode i.opcode := by
  unfold ReservedOpcode
  cases i <;> simp only [opcode] <;> decide

/-- The map of R101 has no operation for exactly the reserved values. -/
theorem exists_decodeOpcode_eq_error {opc a b : Byte} :
    (∃ e, decodeOpcode opc a b = .error e) ↔ ReservedOpcode opc := by
  constructor
  · rintro ⟨e, h⟩
    unfold decodeOpcode at h
    unfold ReservedOpcode
    -- only the row for any other value answers an error
    split at h <;> cases h
    simp only [imp_false] at *
    bv_omega
  · intro reserved
    cases h : decodeOpcode opc a b with
    | ok i =>
      obtain ⟨-, -, opc_eq⟩ := args_of_decodeOpcode h
      exact absurd (opc_eq ▸ reserved) i.not_reserved_opcode
    | error e => exact ⟨e, rfl⟩

theorem exists_decode_eq_error {w : Word} :
    (∃ e, decode w = .error e) ↔ fieldRsv w ≠ 0 ∨ ReservedOpcode (fieldOpc w) := by
  unfold decode
  by_cases rsv : fieldRsv w = 0
  · rw [if_pos rsv, exists_decodeOpcode_eq_error, or_iff_right (not_not_intro rsv)]
  · rw [if_neg rsv]
    exact ⟨fun _ => .inl rsv, fun _ => ⟨_, rfl⟩⟩

namespace Machine

/-- An illegal word written to `CMD` (30_encoding.md R102, 60_exceptions.md R362). -/
theorem perform_illegalWord {w : Word} {e : DecodeError} (h : decode w = .error e) (s : State) :
    perform (.regWrite 0x00 w) s =
      .next (if s.status.busy then { s with status := { s.status with rej := true } }
        else s.ended (fieldOpc w) .illegalOp) := by
  have written : perform (.regWrite 0x00 w) s = .next (illegalOp (fieldOpc w) s) := by
    show writeCmd w s = _
    unfold writeCmd
    rw [h]
  rw [written]
  unfold illegalOp
  cases busy : s.status.busy with
  | true => rw [State.issue_busy busy, if_pos rfl]
  | false =>
    rw [State.issue_ready busy, if_neg Bool.false_ne_true]
    rfl

end Machine

/-- Settles O3: the words without an operation, and what the command port does with one. -/
theorem illegalWords : Obligations.IllegalWords :=
  fun _ => ⟨exists_decode_eq_error, fun s _ h => Machine.perform_illegalWord h s⟩

end Sys2Proof
end

section
/-! SUPPORT. Where the parts of a request stand, and the statement about it (30_encoding.md R106, R113). -/

namespace Sys2Proof.Machine

/-- The middle one of three parts is the slice between its ends. -/
theorem slice_append_middle {a b : Bytes} (d : Bytes) {i j : Nat} (hi : a.length = i) (hj : i + b.length = j) :
    slice (a ++ b ++ d) i j = b := by
  subst hi hj
  simp only [slice, List.append_assoc, List.drop_left, Nat.add_sub_cancel_left, List.take_left]

/-- A sequence written with its bytes most significant first has its value back (00_scope.md R14). -/
theorem beNat_be32 (v : Word) : beNat (be32 v) = v.toNat := by
  have lt := v.isLt
  simp only [beNat, be32, List.foldl_cons, List.foldl_nil, BitVec.extractLsb'_toNat, Nat.shiftRight_eq_div_pow]
  omega

/-- The header of an envelope: preamble, code and declared length (30_encoding.md R106). -/
def envelopeHeader (c : Code) (n : Nat) : Bytes := [0x55, 0x55, c.1, c.2, BitVec.ofNat 8 n]

/-- An envelope in its three parts. -/
theorem envelope_eq (c : Code) (p : Bytes) : envelope c p =
    envelopeHeader c p.length ++ p ++ be16 (crc16 (slice (envelope c p) 2 (5 + p.length))) := by
  have body : slice (envelope c p) 2 (5 + p.length) = codeBytes c ++ [BitVec.ofNat 8 p.length] ++ p :=
    slice_append_middle (a := preamble) _ rfl (by simp [codeBytes]; omega)
  rw [body]
  rfl

@[simp] theorem length_envelope (c : Code) (p : Bytes) : (envelope c p).length = p.length + 7 := by
  rw [envelope_eq]
  simp [envelopeHeader, be16]

theorem envelope_opening (c : Code) (p : Bytes) : slice (envelope c p) 0 4 = [0x55, 0x55, c.1, c.2] := rfl

theorem envelope_declared {c : Code} {p : Bytes} (h : p.length ≤ 255) :
    (envelope c p)[4]?.map (·.toNat) = some p.length :=
  congrArg some (Nat.mod_eq_of_lt (by omega : p.length < 2 ^ 8))

theorem envelope_payload (c : Code) (p : Bytes) : slice (envelope c p) 5 (5 + p.length) = p := by
  rw [envelope_eq]
  exact slice_append_middle _ rfl rfl

theorem envelope_crc (c : Code) (p : Bytes) : slice (envelope c p) (5 + p.length) (7 + p.length) =
    be16 (crc16 (slice (envelope c p) 2 (5 + p.length))) := by
  conv_lhs => rw [envelope_eq, ← List.append_nil (_ ++ be16 _)]
  exact slice_append_middle _ (by simp [envelopeHeader]; omega) (by simp [be16]; omega)

/-- What stands in the payload stands five bytes further on in the envelope. -/
theorem slice_envelope (c : Code) (p : Bytes) (i : Nat) {j : Nat} (h : j ≤ p.length) :
    slice (envelope c p) (5 + i) (5 + j) = slice p i j := by
  conv_rhs => rw [← envelope_payload c p]
  rw [slice_slice _ i (by omega)]

/-- The payload of a block write: the offset, the chunk's length and the chunk (30_encoding.md R113). -/
def blockPayload (o : Nat) (ch : Bytes) : Bytes := be32 (BitVec.ofNat 32 o) ++ [BitVec.ofNat 8 ch.length] ++ ch

theorem blockRequest_eq (o : Nat) (ch : Bytes) : blockRequest o ch = envelope codeWA (blockPayload o ch) := rfl

@[simp] theorem length_blockPayload (o : Nat) (ch : Bytes) : (blockPayload o ch).length = ch.length + 5 := by
  simp [blockPayload, be32]

theorem blockRequest_offset {o : Nat} (h : o < 2 ^ 32) (ch : Bytes) : be32At (blockRequest o ch) 5 = o := by
  have offset : slice (blockRequest o ch) 5 9 = be32 (BitVec.ofNat 32 o) := rfl
  unfold be32At
  rw [offset, beNat_be32, BitVec.toNat_ofNat, Nat.mod_eq_of_lt h]

theorem blockRequest_count {ch : Bytes} (o : Nat) (h : ch.length ≤ 192) :
    (blockRequest o ch)[9]?.map (·.toNat) = some ch.length :=
  congrArg some (Nat.mod_eq_of_lt (by omega : ch.length < 2 ^ 8))

theorem blockRequest_chunk (o : Nat) (ch : Bytes) : slice (blockRequest o ch) 10 (10 + ch.length) = ch := by
  have inside : 10 + ch.length = 5 + (5 + ch.length) := by omega
  rw [blockRequest_eq, inside, slice_envelope _ _ 5 (by rw [length_blockPayload, Nat.add_comm])]
  unfold blockPayload
  rw [← List.append_nil (_ ++ ch)]
  exact slice_append_middle _ rfl rfl

/-- Settles O44: the parts of an envelope, and of a block write as the envelope of its payload. -/
theorem envelopeLayout : Obligations.EnvelopeLayout := by
  refine ⟨fun c p h => ⟨length_envelope c p, envelope_opening c p, envelope_declared h, envelope_payload c p,
    envelope_crc c p⟩, fun o ch ho h => ?_⟩
  have whole := length_blockPayload o ch
  refine ⟨?_, envelope_opening _ _, ?_, blockRequest_offset ho ch, blockRequest_count o h, blockRequest_chunk o ch⟩
  · rw [blockRequest_eq, length_envelope, whole]
  · rw [blockRequest_eq, envelope_declared (by omega), whole]

end Sys2Proof.Machine
end

section
/-! SUPPORT. The exchange operations: the issue of those with a fixed request, and how an exchange of a host operation
goes on and ends (44_correlator.md R241 to R248, R254 to R256, R259). -/

namespace Sys2Proof.Machine

/-! ## Issue -/

/-- The opcode of an operation without arguments is all that its words share (30_encoding.md R101). -/
theorem encodes_of_decodeOpcode {opc : Byte} {i : Instr} (h : ∀ a b, decodeOpcode opc a b = .ok i) :
    encodes opc fun _ _ => i :=
  fun _ ho hr => decode_eq_ok.2 ⟨hr, ho ▸ h _ _⟩

/-- An operation that begins with the issue is dropped while `BUSY` is 1 (60_exceptions.md R362). -/
theorem droppedWhileBusy_of_issue {i : Instr} {body : State → State} (h : ∀ s, exec i s = .next (s.issue body)) :
    droppedWhileBusy i :=
  fun s busy => by rw [h, State.issue_busy busy]

/-- An operation that is the issue of one exchange at the present speed: its refusals and its request (44_correlator.md
R247). -/
theorem exec_issueExchange {i : Instr} {op : ExchangeOp} {c : Code} {p : Bytes} {m : MatchMode}
    (h : ∀ s, exec i s = .next (s.issue (issueExchange op none c p m))) (s : State) (ready : s.status.busy = false) :
    refusedByLink op.opcode i s ∧
      (s.status.owner = .none → s.linkOk = true → exec i s = .next (s.requested op m (envelope c p))) := by
  have issued : exec i s = .next (issueExchange op none c p m s.clearStatus) := by rw [h, State.issue_ready ready]
  exact ⟨refusedByLink_of issued, fun free up => by rw [issued, issueExchange_ready free up]⟩

/-- An operation that is the issue of one exchange, with its request written out. -/
theorem fixedExchange (i : Instr) (op : ExchangeOp) (c : Code) (p : Bytes) {req : Bytes} {m : MatchMode}
    (request : envelope c p = req) (issued : ∀ s, exec i s = .next (s.issue (issueExchange op none c p m)))
    (decoded : ∀ a b, decodeOpcode op.opcode a b = .ok i) :
    encodes op.opcode (fun _ _ => i) ∧ droppedWhileBusy i ∧ ∀ s : State, s.status.busy = false →
      refusedByLink op.opcode i s ∧
        (s.status.owner = .none → s.linkOk = true → exec i s = .next (s.requested op m req)) := by
  subst request
  exact ⟨encodes_of_decodeOpcode decoded, droppedWhileBusy_of_issue issued, exec_issueExchange issued⟩

/-- Settles O20: each of the four is the issue of one exchange, with its envelope computed. -/
theorem fixedExchangeOperations : Obligations.FixedExchangeOperations := by
  intro r hr
  simp only [List.mem_cons, List.not_mem_nil, or_false] at hr
  rcases hr with rfl | rfl | rfl | rfl <;> dsimp only
  · exact fixedExchange .getProductInfo .getProductInfo codeGP payloadID (by decide +kernel) (fun _ => rfl)
      fun _ _ => rfl
  · exact fixedExchange .restart .restart codeSR [] (by decide +kernel) (fun _ => rfl) fun _ _ => rfl
  · exact fixedExchange .jumpBoot .jumpBoot codeJI [] (by decide +kernel) (fun _ => rfl) fun _ _ => rfl
  · exact fixedExchange .jumpApp .jumpApp codeJA [] (by decide +kernel) (fun _ => rfl) fun _ _ => rfl

/-! ## Completion -/

/-- When a `CORR` step is enabled (44_correlator.md R241). -/
theorem agentEnabled_corr {s : State} :
    agentEnabled s .corr = true ↔ s.corr.phase = .wait ∧ (s.rxq ≠ [] ∨ s.corr.deadline ≤ s.now) := by
  simp [agentEnabled, corrEnabled]

/-- A response ends a host exchange with the operation's own handling, the link free again (44_correlator.md R246,
R259). -/
theorem corrStep_of_found {s : State} {op : ExchangeOp} {p ld : Nat} (client : s.corr.client = .hostOp op)
    (found : s.found = some (p, ld)) : corrStep s = onResponse op (s.response p ld) s.exchanged := by
  rw [corrStep_eq, found]
  exact deliver_hostOp (s := s.afterRead) client

/-- Without a response the step before the deadline keeps what it read (44_correlator.md R241). -/
theorem corrStep_of_pending {s : State} (missing : s.found = none) (early : s.now < s.corr.deadline) :
    corrStep s = s.afterRead := by
  rw [corrStep_eq, missing]
  exact if_neg (Nat.not_le.2 early)

/-- Without a response at the deadline a host exchange ends, and nothing is sent again (44_correlator.md R245, R259). -/
theorem corrStep_of_timeout {s : State} {op : ExchangeOp} (client : s.corr.client = .hostOp op)
    (missing : s.found = none) (due : s.corr.deadline ≤ s.now) :
    corrStep s = s.exchanged.completed op.opcode .responseTimeout := by
  rw [corrStep_eq, missing]
  exact (if_pos due).trans (deliver_hostOp (s := s.afterRead) client)

/-- The operations without a parse of their response (44_correlator.md R253 to R258). -/
theorem onResponse_plain {op : ExchangeOp} (h : op ∈ [.setQuiet, .restart, .jumpBoot, .jumpApp, .lock, .unlock])
    (resp : Bytes) (s : State) : onResponse op resp s = plainResponse op.opcode resp s := by
  simp only [List.mem_cons, List.not_mem_nil, or_false] at h
  rcases h with rfl | rfl | rfl | rfl | rfl | rfl <;> rfl

/-- What a response without a parse leaves (44_correlator.md R259). -/
theorem plainResponse_eq (opc : Byte) (resp : Bytes) (s : State) : plainResponse opc resp s =
    { s.completed opc .none with
      res0 := BitVec.ofNat 32 (declaredLength resp)
      houtLen := BitVec.ofNat 32 resp.length
      hout := Memory.ofBytes resp } := rfl

/-- A host exchange whose operation has no parse, completed by a match. -/
theorem exchange_completed {s : State} {op : ExchangeOp} {p ld : Nat} (enabled : agentEnabled s .corr = true)
    (client : s.corr.client = .hostOp op) (found : s.found = some (p, ld))
    (plain : op ∈ [.setQuiet, .restart, .jumpBoot, .jumpApp, .lock, .unlock]) :
    ∃ t, perform (.agent .corr) s = .next t ∧
      t = { s.exchanged.completed op.opcode .none with
        res0 := BitVec.ofNat 32 ld
        houtLen := BitVec.ofNat 32 (ld + 7)
        hout := t.hout } ∧
      houtHolds (s.response p ld) t ∧ (s.response p ld).length = ld + 7 := by
  obtain ⟨length, declared, -, -⟩ := State.response_of_found found
  have step : corrStep s = plainResponse op.opcode (s.response p ld) s.exchanged := by
    rw [corrStep_of_found client found, onResponse_plain plain]
  refine ⟨_, (perform_agent enabled).trans (congrArg _ step), ?_, houtHolds_of rfl, length⟩
  rw [plainResponse_eq, declared, length]

/-- Settles O41: the reads of a `CORR` step, and the three ways it can leave a host exchange. -/
theorem exchangeCompletion : Obligations.ExchangeCompletion := by
  refine ⟨fun s => agentEnabled_corr, rfl, fun s early => corrRead_of_lt early, fun s pos due => ?_,
    fun s op enabled client => ⟨fun p ld found plain => exchange_completed enabled client found plain,
      fun missing early => ?_, fun missing due => ?_⟩⟩
  · obtain ⟨j, reads, stops, before⟩ := corrRead_of_le pos due
    exact ⟨j, reads, stops.imp_left Option.isSome_iff_ne_none.1, before⟩
  · rw [perform_agent enabled, ← corrRead_of_lt early]
    exact congrArg _ (corrStep_of_pending missing early)
  · rw [perform_agent enabled]
    exact congrArg _ (corrStep_of_timeout client missing due)

end Sys2Proof.Machine
end

section
/-! SUPPORT. What one step sends: its `Tx` events are envelopes with a code of the block (30_encoding.md R108, R109). -/

namespace Sys2Proof

/-- The payloads that the parameters give fit an envelope (00_scope.md R12, 30_encoding.md R106). -/
theorem Config.payloads_fit {c : Config} (h : c.wf = true) :
    (∀ p, c.quietPayload = some p → p.length ≤ 255) ∧ ∀ r p, c.lockPayload.get r = some p → p.length ≤ 255 := by
  have fits {o : Option Bytes} (ho : o.all fitsEnvelope = true) (p : Bytes) (hp : o = some p) : p.length ≤ 255 := by
    subst hp
    exact of_decide_eq_true ho
  simp only [Config.wf, Bool.and_eq_true, and_assoc] at h
  obtain ⟨-, -, -, -, quiet, eeprom, app, boot, -⟩ := h
  refine ⟨fits quiet, fun r => ?_⟩
  cases r with
  | eeprom => exact fits eeprom
  | app => exact fits app
  | boot => exact fits boot

namespace Machine

/-! ## What may be sent, and a move that sends nothing else -/

/-- The codes of R109 that the block sends whatever its parameters are. -/
def ownCodes : List Code := [codeGP, codeGF, codeRF, codeSF, codeWF, codeSR, codeJI, codeJA, codeWA]

/-- A code the block may send: one of its own, or a configured lock or unlock code (30_encoding.md R109). -/
def MayUse (cfg : Config) (c : Code) : Prop :=
  c ∈ ownCodes ∨ ∃ r, cfg.lockCode.get r = some c ∨ cfg.unlockCode.get r = some c

/-- An envelope of at most 255 payload bytes with a code the block may send. -/
def MaySend (cfg : Config) (b : Bytes) : Prop := ∃ c p, p.length ≤ 255 ∧ b = envelope c p ∧ MayUse cfg c

/-- From `s` to `t` the history is only appended to, and every `Tx` event that comes is sent now and may be sent. -/
def Sends (s t : State) : Prop :=
  ∃ evs, t.hist = s.hist ++ evs ∧ ∀ b v n, .tx b v n ∈ evs → n = s.now ∧ MaySend s.cfg b

variable {s t u : State}

namespace Sends

/-- A move with no event. -/
theorem silent (h : t.hist = s.hist) : Sends s t := ⟨[], by rw [h, List.append_nil], nofun⟩

theorem refl (s : State) : Sends s s := silent rfl

/-- A move with one event that is no `Tx`. -/
theorem records {e : Event} (h : t.hist = s.hist ++ [e]) (he : ∀ b v n, e ≠ .tx b v n) : Sends s t :=
  ⟨[e], h, fun b v n hm => absurd (List.mem_singleton.1 hm).symm (he b v n)⟩

/-- A move that sends one byte sequence. -/
theorem transmits {b : Bytes} {v : Word} (h : t.hist = s.hist ++ [.tx b v s.now]) (hb : MaySend s.cfg b) :
    Sends s t := by
  refine ⟨_, h, fun b' v' n hm => ?_⟩
  cases List.mem_singleton.1 hm
  exact ⟨rfl, hb⟩

/-- Two moves of which the first takes no time and keeps the parameters. -/
theorem trans (h : Sends s t) (h' : Sends t u) (now : t.now = s.now) (cfg : t.cfg = s.cfg) : Sends s u := by
  obtain ⟨evs, hist, legal⟩ := h
  obtain ⟨evs', hist', legal'⟩ := h'
  rw [now, cfg] at legal'
  refine ⟨evs ++ evs', by rw [hist', hist, List.append_assoc], fun b v n hm => ?_⟩
  exact (List.mem_append.1 hm).elim (legal b v n) (legal' b v n)

/-- A move that goes one of two ways. -/
theorem ite {p : Prop} [Decidable p] (ht : Sends s t) (hu : Sends s u) : Sends s (if p then t else u) := by
  split
  · exact ht
  · exact hu

end Sends

/-! ## The shared operations -/

theorem raise_sends (opc : Byte) (e : ErrorCode) (s : State) : Sends s (s.raise opc e) := .records rfl nofun

theorem switchBaud_sends (v : Word) (s : State) : Sends s (s.switchBaud v) := .records rfl nofun

theorem startExchange_sends (cl : Client) {c : Code} {p : Bytes} (m : MatchMode) (use : MayUse s.cfg c)
    (fits : p.length ≤ 255) : Sends s (startExchange cl c p m s) :=
  .transmits rfl ⟨c, p, fits, rfl, use⟩

/-- The set_quiet request of an upgrade (45_upgrade.md R290, R294). -/
theorem startQuiet_sends (wf : s.cfg.wf = true) : Sends s (startQuiet s) := by
  refine startExchange_sends _ _ (.inl (by decide)) ?_
  cases quiet : s.cfg.quietPayload with
  | none => exact Nat.zero_le _
  | some p => exact (Config.payloads_fit wf).1 p quiet

/-- A block write carries the offset, the count and at most 192 bytes (30_encoding.md R113, 45_upgrade.md R293). -/
theorem sendBlock_sends (o : Nat) (s : State) : Sends s (sendBlock o s) := by
  refine .transmits rfl ⟨codeWA, _, ?_, rfl, .inl (by decide)⟩
  have chunk := length_slice_le s.upg.img o (o + min Config.chunkMax (s.upg.total.toNat - o))
  have chunkMax : Config.chunkMax = 192 := rfl
  simp only [List.length_append, be32, List.length_cons, List.length_nil]
  omega

theorem openLink_sends {opc : Byte} {body : State → State} (hb : Sends s (body s)) : Sends s (s.openLink opc body) :=
  State.openLink_cases (fun e => raise_sends opc e s) fun _ _ => hb

/-- The issue clears `STATUS`, which is nothing to the history. -/
theorem issue_sends {body : State → State} (hb : Sends s (body s.clearStatus)) : Sends s (s.issue body) :=
  State.issue_cases (.silent rfl) fun _ => hb

theorem issueExchange_sends (op : ExchangeOp) (speed : Option Word) {c : Code} {p : Bytes} (m : MatchMode)
    (use : MayUse s.cfg c) (fits : p.length ≤ 255) : Sends s (issueExchange op speed c p m s) := by
  refine openLink_sends ?_
  cases speed with
  | none => exact startExchange_sends (s := s.claimLink .exchange true) _ _ use fits
  | some v =>
    refine (switchBaud_sends v (s.claimLink .exchange true)).trans ?_ rfl rfl
    exact startExchange_sends _ _ use fits

theorem issueReadFields_sends (op : ExchangeOp) {c : Code} (use : MayUse s.cfg c) :
    Sends s (issueReadFields op c s) := by
  unfold issueReadFields
  split
  · rename_i ok
    obtain ⟨-, -, le⟩ := (idsArgOk_arg s).1 ok
    exact issueExchange_sends _ _ _ use (by rw [List.length_cons, s.length_arg]; omega)
  · exact raise_sends _ _ s

theorem issueWriteFields_sends (op : ExchangeOp) {c : Code} (use : MayUse s.cfg c) :
    Sends s (issueWriteFields op c s) := by
  unfold issueWriteFields
  split
  · rename_i ok
    obtain ⟨-, -, le⟩ := (pairsArgOk_arg s).1 (Bool.and_eq_true_iff.1 ok).1
    exact issueExchange_sends _ _ _ use (by rw [List.length_cons, s.length_arg]; omega)
  · exact raise_sends _ _ s

theorem issueRegion_sends (op : ExchangeOp) (speed : Word) {code : Option Code} {payload : Option Bytes}
    (use : ∀ c, code = some c → MayUse s.cfg c) (fits : ∀ p, payload = some p → p.length ≤ 255) :
    Sends s (issueRegion op speed code payload s) := by
  unfold issueRegion
  split
  · exact issueExchange_sends _ _ _ (use _ rfl) (fits _ rfl)
  · exact raise_sends _ _ s

/-! ## The host operations -/

theorem execValidate_sends {tag : Nat} (h : execValidate tag s = .next t) : Sends s t := by
  cases h
  refine issue_sends ?_
  split
  · exact raise_sends _ _ s.clearStatus
  · exact .records rfl nofun

theorem execDesc_sends {tag : Nat} (h : execDesc tag s = .next t) : Sends s t := by
  cases h
  refine issue_sends ?_
  split
  · exact raise_sends _ _ s.clearStatus
  · exact .records rfl nofun

theorem execFmSet_sends {length : Nat} (h : execFmSet length s = .next t) : Sends s t := by
  cases h
  have refused (e : ErrorCode) := raise_sends 0x05 e s.clearStatus
  exact issue_sends (.ite (refused .badArg) (.ite (refused .resourceOwned) (.records rfl nofun)))

theorem execDecode_sends {tag : Nat} (h : execDecode tag s = .next t) : Sends s t := by
  cases h
  refine issue_sends ?_
  split
  · exact raise_sends _ _ s.clearStatus
  · dsimp only
    split
    · exact raise_sends _ _ s.clearStatus
    · split
      · exact raise_sends _ _ s.clearStatus
      · exact .records rfl nofun

theorem execStreamStart_sends {tag : Nat} {watchdog : Bool} (h : execStreamStart tag watchdog s = .next t) :
    Sends s t := by
  cases h
  refine issue_sends ?_
  split
  · exact raise_sends _ _ s.clearStatus
  · exact openLink_sends (.records rfl nofun)

theorem execStreamStop_sends (h : execStreamStop s = .next t) : Sends s t := by
  cases h
  exact issue_sends (.ite (.records rfl nofun) (.records rfl nofun))

theorem execQpop_sends (h : execQpop s = .next t) : Sends s t := by
  cases h
  refine issue_sends ?_
  split
  · exact .records rfl nofun
  · rename_i f _ _
    have popped (u : State) : Sends u (u.emit (.pop f u.now)) := .records rfl nofun
    exact (popped s.clearStatus).trans (.records rfl nofun) rfl rfl

theorem execSetQuiet_sends (wf : s.cfg.wf = true) (h : execSetQuiet s = .next t) : Sends s t := by
  cases h
  refine issue_sends ?_
  split
  · exact raise_sends _ _ s.clearStatus
  · exact issueExchange_sends _ _ _ (.inl (by decide)) ((Config.payloads_fit wf).1 _ ‹_›)

theorem execLock_sends (wf : s.cfg.wf = true) {region : Nat} (h : execLock region s = .next t) : Sends s t := by
  cases h
  refine issue_sends ?_
  split
  · exact raise_sends _ _ s.clearStatus
  · rename_i r _
    exact issueRegion_sends _ _ (fun c hc => .inr ⟨r, .inl hc⟩) ((Config.payloads_fit wf).2 r)

/-- The key of UNLOCK has 8 bytes (00_scope.md R12). -/
theorem execUnlock_sends {region : Nat} (h : execUnlock region s = .next t) : Sends s t := by
  cases h
  refine issue_sends ?_
  split
  · exact raise_sends _ _ s.clearStatus
  · rename_i r _
    refine issueRegion_sends _ _ (fun c hc => .inr ⟨r, .inr hc⟩) fun p hp => ?_
    obtain ⟨key, -, rfl⟩ := Option.map_eq_some_iff.1 hp
    rw [Vector.length_toList]
    decide

theorem execUpgStart_sends (wf : s.cfg.wf = true) (h : execUpgStart s = .next t) : Sends s t := by
  cases h
  refine issue_sends ?_
  split
  · exact raise_sends _ _ s.clearStatus
  · split
    · exact raise_sends _ _ s.clearStatus
    · exact openLink_sends (startQuiet_sends (s := (beginSession s.arg s.clearStatus).claimLink .upgrade true) wf)

theorem exec_sends (wf : s.cfg.wf = true) {i : Instr} (h : exec i s = .next t) : Sends s t := by
  cases i with
  | crc16 | sum8 => cases h; exact issue_sends (.records rfl nofun)
  | validate => exact execValidate_sends h
  | desc => exact execDesc_sends h
  | fmSet => exact execFmSet_sends h
  | decode => exact execDecode_sends h
  | streamStart => exact execStreamStart_sends h
  | streamStop => exact execStreamStop_sends h
  | qpop => exact execQpop_sends h
  | getProductInfo => cases h; exact issue_sends (issueExchange_sends _ _ _ (.inl (by decide)) (by decide))
  | restart | jumpBoot | jumpApp =>
    cases h
    exact issue_sends (issueExchange_sends _ _ _ (.inl (by decide)) (by decide))
  | getFields | readFields => cases h; exact issue_sends (issueReadFields_sends _ (.inl (by decide)))
  | writeFieldsTemp | writeFieldsPerm => cases h; exact issue_sends (issueWriteFields_sends _ (.inl (by decide)))
  | setQuiet => exact execSetQuiet_sends wf h
  | lock => exact execLock_sends wf h
  | unlock => exact execUnlock_sends h
  | upgStart => exact execUpgStart_sends wf h
  | reset => cases h; exact .records rfl nofun

/-! ## The agents -/

theorem push_sends (f : Bytes) (s : State) : Sends s (push f s) := by
  rcases push_cases f s with h | ⟨g, rest, -, -, h⟩ <;> rw [h]
  · exact .records rfl nofun
  · exact ⟨[.evict g s.now, .push f s.now], rfl, by simp⟩

theorem pushAll_sends (fs : List Bytes) (s : State) : Sends s (pushAll fs s) := by
  induction fs generalizing s with
  | nil => exact .refl s
  | cons f fs ih =>
    have pushed := push_blockStep f s
    exact (push_sends f s).trans (ih (push f s)) pushed.now pushed.cfg

theorem watchdogCheck_sends (pushed : Bool) (s : State) : Sends s (watchdogCheck pushed s) := by
  rcases watchdogCheck_cases pushed s with ⟨h, -⟩ | h | ⟨h, -⟩ | h <;> rw [h]
  · exact .refl s
  · exact .silent rfl
  · exact .records rfl nofun
  · exact .records rfl nofun

theorem syncStep_sends (s : State) : Sends s (syncStep s) := by
  have read : BlockStep s (readLink s) := .silent rfl rfl
  have scanned : BlockStep s s.scanned := read.trans (scanAcc_blockStep _)
  have pushes : Sends s s.scanned := pushAll_sends _ _
  exact pushes.trans (watchdogCheck_sends _ s.scanned) scanned.now scanned.cfg

theorem onResponse_sends (op : ExchangeOp) (resp : Bytes) (s : State) : Sends s (onResponse op resp s) := by
  cases op with
  | getProductInfo | getFields | readFields | writeFieldsTemp | writeFieldsPerm =>
    exact .ite (raise_sends _ _ s) (.records rfl nofun)
  | setQuiet | restart | jumpBoot | jumpApp | lock | unlock => exact .records rfl nofun

theorem completeHostOp_sends (op : ExchangeOp) (r : Option Bytes) (s : State) : Sends s (completeHostOp op r s) := by
  cases r with
  | none => exact raise_sends _ _ s.releaseLink
  | some resp => exact onResponse_sends op resp s.releaseLink

theorem failUpgrade_sends (e : ErrorCode) (s : State) : Sends s (failUpgrade e s) := .records rfl nofun

/-- After the first set_quiet the second one is sent, at the bootloader's speed (45_upgrade.md R294). -/
theorem deliverUpgrade_sends (wf : s.cfg.wf = true) (r : Option Bytes) : Sends s (deliverUpgrade r s) := by
  unfold deliverUpgrade
  split
  · have requested : Sends _ (startQuiet ((setStage .quietSet s).switchBaud Config.baudBoot)) := startQuiet_sends wf
    exact (switchBaud_sends Config.baudBoot (setStage .quietSet s)).trans requested rfl rfl
  · exact failUpgrade_sends _ s
  · exact .silent rfl
  · exact failUpgrade_sends _ s
  · exact .refl s

theorem deliver_sends (wf : s.cfg.wf = true) (r : Option Bytes) : Sends s (deliver r s) := by
  cases hc : s.corr.client with
  | none =>
    unfold deliver
    rw [hc]
    exact .silent rfl
  | hostOp op =>
    rw [deliver_hostOp hc]
    exact completeHostOp_sends op r s.corrEnded
  | upg =>
    rw [deliver_upg hc]
    exact deliverUpgrade_sends (s := s.corrEnded) wf r

theorem corrStep_sends (wf : s.cfg.wf = true) : Sends s (corrStep s) := by
  rw [corrStep_eq]
  split
  · exact deliver_sends (s := s.afterRead) wf _
  · exact .ite (deliver_sends (s := s.afterRead) wf _) (.silent rfl)

/-- An acknowledged block is recorded before the next one is sent (45_upgrade.md R294, R297). -/
theorem deliverAck_sends (a : Bytes) (s : State) : Sends s (deliverAck a s) := by
  unfold deliverAck
  split
  · exact .ite (.silent rfl) (failUpgrade_sends _ s)
  · have recorded : Sends s (recordBlock s) := .records rfl nofun
    have next (o : Nat) : Sends s (sendBlock o (recordBlock s)) := recorded.trans (sendBlock_sends _ _) rfl rfl
    exact .ite (.ite recorded (next _)) (failUpgrade_sends _ s)
  · exact .records rfl nofun
  · exact .refl s

theorem ackrStep_sends (s : State) : Sends s (ackrStep s) := by
  rw [ackrStep_eq]
  exact .ite (deliverAck_sends _ s.ackrRead.ackrEnded) (.silent rfl)

theorem upgStep_sends (s : State) : Sends s (upgStep s) := by
  unfold upgStep
  split
  · exact .transmits rfl ⟨codeJI, [], by decide, rfl, .inl (by decide)⟩
  · exact .silent rfl
  · exact (switchBaud_sends _ s).trans (sendBlock_sends 0 _) rfl rfl
  · exact .silent rfl
  · exact .transmits rfl ⟨codeJA, [], by decide, rfl, .inl (by decide)⟩
  · exact .refl s

theorem agentStep_sends (wf : s.cfg.wf = true) (a : Agent) : Sends s (agentStep s a) := by
  cases a with
  | sync => exact syncStep_sends s
  | corr => exact corrStep_sends wf
  | ackr => exact ackrStep_sends s
  | upg => exact upgStep_sends s

theorem settle_sends (wf : s.cfg.wf = true) : Sends s (settle s) := by
  unfold settle
  split
  · exact agentStep_sends wf _
  · exact .refl s

theorem idleStep_sends (wf : s.cfg.wf = true) : Sends s (idleStep s) := by
  unfold idleStep
  split
  · exact agentStep_sends wf _
  · exact .refl s

/-! ## The host and the environment -/

theorem writeReg_sends (wf : s.cfg.wf = true) {num : Byte} {v : Word} (h : writeReg num v s = .next t) :
    Sends s t := by
  unfold writeReg at h
  split at h
  · unfold writeCmd at h
    split at h
    · exact exec_sends wf h
    · cases h
      exact issue_sends (raise_sends _ _ s.clearStatus)
  · cases h
    exact .ite (.refl s) (.silent rfl)
  · cases h
    exact .ite (.refl s) (switchBaud_sends v s)
  · cases h
    exact .ite (.refl s) (.silent rfl)
  · cases h
    exact .refl s

theorem tick_sends (wf : s.cfg.wf = true) {d : Nat} (h : tick d s = .next t) : Sends s t := by
  have hd : 0 < d := by
    rcases Nat.eq_zero_or_pos d with rfl | hd
    · cases h
    · exact hd
  cases ha : nextAgent s with
  | some a =>
    rw [tick_of_nextAgent hd ha] at h
    cases h
    exact agentStep_sends wf a
  | none =>
    obtain ⟨e, -, -, ht, -⟩ := tick_elapses hd ha
    rw [ht] at h
    cases h
    exact .silent rfl

theorem perform_sends (wf : s.cfg.wf = true) {a : Action} (h : perform a s = .next t) : Sends s t := by
  cases a with
  | regWrite => exact writeReg_sends wf h
  | hinWrite i b => cases h; exact .ite (.silent rfl) (.refl s)
  | regRead | hinRead | houtWrite | houtRead | rx | link => cases h; exact .silent rfl
  | tick => exact tick_sends wf h
  | agent a =>
    by_cases ha : agentEnabled s a = true
    · rw [perform_agent ha] at h
      cases h
      exact agentStep_sends wf a
    · simp [perform, scheduledAgent, ha] at h
  | settle => cases h; exact settle_sends wf

theorem step_sends (wf : s.cfg.wf = true) (h : step s = .next t) : Sends s t := by
  cases hs : s.schedule with
  | nil =>
    have e : step s = .next (idleStep s) := by
      unfold step
      rw [hs]
    rw [e] at h
    cases h
    exact idleStep_sends wf
  | cons a rest =>
    rw [step_of_schedule hs] at h
    exact perform_sends (s := { s with schedule := rest }) wf h

/-- Settles O58: a step sends nothing but what the block may send. -/
theorem onlyEnvelopesAreSent : Obligations.OnlyEnvelopesAreSent :=
  fun _ _ wf h => step_sends wf h

end Machine
end Sys2Proof
end

section
/-! SUPPORT. The two checksums: the register of `crc16` with one mask at the end, `sum8` as a sum, and the operations
CRC16 and SUM8 (41_crc.md R141 to R144). -/

namespace Sys2Proof.Machine

variable {s : State}

/-! ## The register of `crc16` -/

/-- A map between two registers that carries one round to the other carries any number of rounds. -/
theorem repeat_hom {α β : Type} {f : α → α} {g : β → β} {φ : α → β} (h : ∀ a, φ (f a) = g (φ a)) (n : Nat) (a : α) :
    φ (Nat.repeat f n a) = Nat.repeat g n (φ a) := by
  induction n with
  | zero => rfl
  | succ n ih => exact (h _).trans (congrArg g ih)

theorem ofNat_shiftLeft (w r k : Nat) : BitVec.ofNat w (r <<< k) = BitVec.ofNat w r <<< k :=
  BitVec.eq_of_toNat_eq (by simp [Nat.shiftLeft_eq])

/-- A round reads bit 15 only, and a left shift moves nothing down: it commutes with the mask (41_crc.md R141 (b)). -/
theorem ofNat_crcUnmaskedRound (r : Nat) : BitVec.ofNat 16 (crcUnmaskedRound r) = crcRound (BitVec.ofNat 16 r) := by
  have top : (BitVec.ofNat 16 r).msb = r.testBit 15 := by
    rw [BitVec.msb_eq_getLsbD_last, BitVec.getLsbD_ofNat]
    rfl
  rw [crcUnmaskedRound, crcRound, top]
  split
  · rw [BitVec.ofNat_xor, ofNat_shiftLeft]
  · exact ofNat_shiftLeft 16 r 1

/-- The mask after a byte sequence, in place of a mask in every round (41_crc.md R141 (b)). -/
theorem ofNat_crcUnmasked (s : Bytes) : BitVec.ofNat 16 (crcUnmasked s) = crc16 s := by
  refine (List.foldl_hom (BitVec.ofNat 16) (g₂ := crcByte) fun r b => ?_).symm
  have entered : BitVec.ofNat 16 (r ^^^ b.toNat <<< 8) = BitVec.ofNat 16 r ^^^ b.setWidth 16 <<< 8 := by
    rw [BitVec.ofNat_xor, ofNat_shiftLeft, BitVec.ofNat_toNat]
  rw [repeat_hom ofNat_crcUnmaskedRound, entered, crcByte]

theorem crc16_append (s u : Bytes) : crc16 (s ++ u) = crc16From (crc16 s) u := List.foldl_append

/-! ## The sum -/

/-- A sum continued from an accumulator wraps once at the end as it does at every byte (41_crc.md R142). -/
theorem toNat_foldl_add (s : Bytes) (a : Byte) :
    (s.foldl (· + ·) a).toNat = (a.toNat + (s.map (·.toNat)).sum) % 256 := by
  induction s generalizing a with
  | nil => simp [Nat.mod_eq_of_lt a.isLt]
  | cons b s ih =>
    rw [List.foldl_cons, ih, BitVec.toNat_add, List.map_cons, List.sum_cons, Nat.mod_add_mod, Nat.add_assoc]

theorem toNat_sum8 (s : Bytes) : (sum8 s).toNat = (s.map (·.toNat)).sum % 256 :=
  (toNat_foldl_add s 0).trans (congrArg (· % 256) (Nat.zero_add _))

/-- The order of the bytes is lost in the sum of their numbers (41_crc.md R142). -/
theorem sum8_perm {s u : Bytes} (h : s.Perm u) : sum8 s = sum8 u := by
  refine BitVec.eq_of_toNat_eq ?_
  rw [toNat_sum8, toNat_sum8, (h.map _).sum_nat]

/-- The check value of `crc16`: the CRC of the string "123456789" (41_crc.md R141 (d)). -/
theorem crc16_check : crc16 [0x31, 0x32, 0x33, 0x34, 0x35, 0x36, 0x37, 0x38, 0x39] = 0xE5CC := by decide +kernel

/-- Settles O28: the mask commutes with every round, and the sum of the numbers wraps once. -/
theorem checksumProperties : Obligations.ChecksumProperties := by
  refine ⟨rfl, fun s => ?_, crc16_append, crc16_check, toNat_sum8, fun _ _ => sum8_perm⟩
  rw [← ofNat_crcUnmasked, BitVec.toNat_ofNat]

/-! ## The operations -/

/-- An empty `HIN_LEN` is an empty argument (20_memory.md R81). -/
theorem State.arg_of_hinLen_zero (h : s.hinLen = 0) : s.arg = [] := by
  simp [State.arg, Memory.readBytes, h]

/-- What an operation leaves that delivers a word in `RES0` and a byte sequence in `HOUT`, both made from the argument
(41_crc.md R143, R144; 60_exceptions.md R361). -/
theorem exec_delivers {i : Instr} {opc : Byte} {word : Bytes → Word} {result : Bytes → Bytes}
    (issued : ∀ s, exec i s =
      .next (s.issue fun s => ((s.setRes0 (word s.arg)).setHout (result s.arg)).finish opc))
    (ready : s.status.busy = false) :
    exec i s = .next { s.ended opc .none with
      res0 := word s.arg
      houtLen := BitVec.ofNat 32 (result s.arg).length
      hout := Memory.ofBytes (result s.arg) } := by
  rw [issued, State.issue_ready ready]
  rfl

/-- Settles O11: CRC16 delivers the CRC of its argument. -/
theorem crc16Operation : Obligations.Crc16Operation := by
  have issued (s : State) : exec .crc16 s = .next (s.issue fun s =>
      ((s.setRes0 ((crc16 s.arg).setWidth 32)).setHout (be16 (crc16 s.arg))).finish 0x01) := rfl
  refine ⟨encodes_of_decodeOpcode fun _ _ => rfl, droppedWhileBusy_of_issue issued, fun s ready =>
    ⟨_, exec_delivers (word := fun a => (crc16 a).setWidth 32) (result := fun a => be16 (crc16 a)) issued ready, rfl,
      houtHolds_of rfl, fun empty => ?_, fun check => ?_⟩⟩
  · simp only [State.arg_of_hinLen_zero empty]
    rfl
  · simp only [check, crc16_check]
    rfl

/-- Settles O12: SUM8 delivers the sum of its argument. -/
theorem sum8Operation : Obligations.Sum8Operation := by
  have issued (s : State) : exec .sum8 s = .next (s.issue fun s =>
      ((s.setRes0 ((sum8 s.arg).setWidth 32)).setHout [sum8 s.arg]).finish 0x02) := rfl
  have ones : sum8 (List.replicate 256 0x01) = 0 :=
    BitVec.eq_of_toNat_eq (by rw [toNat_sum8, List.map_replicate, List.sum_replicate]; rfl)
  refine ⟨encodes_of_decodeOpcode fun _ _ => rfl, droppedWhileBusy_of_issue issued, fun s ready =>
    ⟨_, exec_delivers (word := fun a => (sum8 a).setWidth 32) (result := fun a => [sum8 a]) issued ready, rfl,
      houtHolds_of rfl, fun empty => ?_, fun wraps => ?_, fun wraps => ?_, fun ten => ?_⟩⟩
  · simp only [State.arg_of_hinLen_zero empty]
    rfl
  · simp only [wraps]
    rfl
  · simp only [wraps, ones]
    rfl
  · simp only [ten]
    rfl

end Sys2Proof.Machine
end

section
/-! SUPPORT. The packet registry: the legal FM lengths, the validity of a frame, what a changed byte does to it, and the
operations VALIDATE, DESC and FM_SET (42_registry.md R160 to R170). -/

namespace Sys2Proof.Machine

variable {s : State} {f : Bytes} {i : Nat} {b : Byte}

/-! ## The legal FM lengths -/

/-- The chips of a length are what it was made of (42_registry.md R162). -/
theorem fmChips_eq {n e : Nat} (he : e ≤ 1) : fmChips (11 + 28 * n + 2 * e) = n := by
  simp only [fmChips, Config.fmFixedOverhead]
  omega

/-- The status fields of a length are what it was made of (42_registry.md R162). -/
theorem fmStatusFields_eq {n e : Nat} (he : e ≤ 1) : fmStatusFields (11 + 28 * n + 2 * e) = 2 + e := by
  rw [fmStatusFields, fmChips_eq he]
  omega

/-- A legal length is that of 1 to 4 chips and 2 or 3 status fields (42_registry.md R162). -/
theorem fmLegal_iff {len : Nat} :
    fmLegal len = true ↔ ∃ n e, 1 ≤ n ∧ n ≤ 4 ∧ e ≤ 1 ∧ len = 11 + 28 * n + 2 * e := by
  simp only [fmLegal, Bool.and_eq_true, Bool.or_eq_true, decide_eq_true_eq, beq_iff_eq]
  constructor
  · rintro ⟨⟨pos, most⟩, two | three⟩
    · exact ⟨fmChips len, 0, pos, most, by omega, by omega⟩
    · exact ⟨fmChips len, 1, pos, most, by omega, by omega⟩
  · rintro ⟨n, e, pos, most, he, rfl⟩
    rw [fmChips_eq he]
    omega

/-- The legal set of 42_registry.md R162. -/
theorem fmLegal_iff_mem {len : Nat} : fmLegal len = true ↔ len ∈ [39, 41, 67, 69, 95, 97, 123, 125] := by
  simp only [fmLegal_iff, List.mem_cons, List.not_mem_nil, or_false]
  constructor
  · rintro ⟨n, e, pos, most, he, rfl⟩
    omega
  · intro listed
    exact ⟨(len - 11) / 28, (len - 11) % 28 / 2, by omega, by omega, by omega, by omega⟩

/-- Settles O30: a legal length is put together from its chips and status fields, and the model takes it apart again. -/
theorem fmLengths : Obligations.FmLengths := by
  refine fun len => ⟨fmLegal_iff_mem, fun legal => ?_⟩
  obtain ⟨n, e, pos, most, he, rfl⟩ := fmLegal_iff.1 legal
  rw [fmChips_eq he, fmStatusFields_eq he]
  omega

/-! ## A changed byte -/

/-- A fold whose step loses neither its accumulator nor its element tells two starts apart. -/
theorem foldl_injective {α β : Type} {g : α → β → α} (keeps : ∀ x, Function.Injective (g · x)) (l : List β) :
    Function.Injective fun a => l.foldl g a := by
  induction l with
  | nil => exact Function.injective_id
  | cons x l ih => exact ih.comp (keeps x)

/-- A fold whose step loses neither its accumulator nor its element shows one changed element. -/
theorem foldl_set_ne {α β : Type} {g : α → β → α} (keeps : ∀ x, Function.Injective (g · x))
    (reads : ∀ a, Function.Injective (g a)) {l : List β} {i : Nat} {y : β} (inside : i < l.length)
    (changed : l[i]? ≠ some y) (a : α) : (l.set i y).foldl g a ≠ l.foldl g a := by
  induction l generalizing i a with
  | nil => cases inside
  | cons x l ih =>
    cases i with
    | zero => exact fun same => changed (congrArg some (reads a (foldl_injective keeps l same)).symm)
    | succ i => exact ih (Nat.lt_of_succ_lt_succ inside) changed (g a x)

/-- A step that loses nothing loses nothing in any number of rounds. -/
theorem repeat_injective {α : Type} {g : α → α} (h : Function.Injective g) (n : Nat) :
    Function.Injective (Nat.repeat g n) := by
  induction n with
  | zero => exact Function.injective_id
  | succ n ih => exact h.comp ih

/-- The lowest bit after a round is the bit shifted out, since 0x1021 is odd (41_crc.md R140). -/
theorem getLsbD_zero_crcRound (r : BitVec 16) : (crcRound r).getLsbD 0 = r.msb := by
  unfold crcRound
  split <;> simp [*]

/-- A round can be undone: the bit shifted out says whether to take 0x1021 back, and comes back on top. -/
theorem crcRound_injective : Function.Injective crcRound := by
  intro r u same
  have top : r.msb = u.msb := by rw [← getLsbD_zero_crcRound, ← getLsbD_zero_crcRound, same]
  have shifted : r <<< 1 = u <<< 1 := by
    unfold crcRound at same
    rw [top] at same
    split at same
    · exact (BitVec.xor_left_inj _).1 same
    · exact same
  rw [BitVec.msb_eq_decide, BitVec.msb_eq_decide, decide_eq_decide] at top
  bv_omega

/-- The bytes of one register are told apart by the register (41_crc.md R140). -/
theorem crcByte_injective (r : BitVec 16) : Function.Injective (crcByte r) := by
  intro x y same
  have entered : x.setWidth 16 <<< 8 = y.setWidth 16 <<< 8 :=
    (BitVec.xor_right_inj _).1 (repeat_injective crcRound_injective 8 same)
  bv_omega

/-- The registers before one byte are told apart by the register after it (41_crc.md R140). -/
theorem crcByte_left_injective (x : Byte) : Function.Injective (crcByte · x) :=
  fun _ _ same => (BitVec.xor_left_inj _).1 (repeat_injective crcRound_injective 8 same)

/-- One changed byte changes the CRC (42_registry.md R170). -/
theorem crc16_set_ne (inside : i < f.length) (changed : f[i]? ≠ some b) : crc16 (f.set i b) ≠ crc16 f :=
  foldl_set_ne crcByte_left_injective crcByte_injective inside changed _

/-- One changed byte changes the sum (42_registry.md R165, R170). -/
theorem sum8_set_ne (inside : i < f.length) (changed : f[i]? ≠ some b) : sum8 (f.set i b) ≠ sum8 f :=
  foldl_set_ne add_left_injective add_right_injective inside changed _

/-- One changed byte changes the number (00_scope.md R14). -/
theorem beNat_set_ne (inside : i < f.length) (changed : f[i]? ≠ some b) : beNat (f.set i b) ≠ beNat f :=
  foldl_set_ne (g := fun n (c : Byte) => n * 256 + c.toNat) (fun x m n same => by dsimp only at same; omega)
    (fun n _ _ same => BitVec.eq_of_toNat_eq (Nat.add_left_cancel same)) inside changed 0

/-! ## A changed byte in a slice -/

/-- A slice that begins at or before a changed byte has the change, where it reaches that far. -/
theorem slice_set_of_le {j k : Nat} (h : j ≤ i) : slice (f.set i b) j k = (slice f j k).set (i - j) b := by
  rw [slice, List.drop_set, if_neg (Nat.not_lt.2 h), List.take_set, slice]

theorem slice_set_of_lt {j k : Nat} (h : i < j) : slice (f.set i b) j k = slice f j k := by
  rw [slice, List.drop_set_of_lt h, slice]

theorem slice_set_of_ge {j k : Nat} (h : k ≤ i) : slice (f.set i b) j k = slice f j k := by
  rw [slice_eq_drop_take, List.take_set_of_le h, slice_eq_drop_take]

theorem length_slice (f : Bytes) (j k : Nat) : (slice f j k).length = min (k - j) (f.length - j) := by simp [slice]

/-- The byte of a slice at a changed place was changed. -/
theorem getElem?_slice_ne {j k : Nat} (low : j ≤ i) (high : i < k) (changed : f[i]? ≠ some b) :
    (slice f j k)[i - j]? ≠ some b := by
  rwa [getElem?_slice, if_pos (by omega), Nat.add_sub_cancel' low]

/-- A value that shows one changed byte shows it in a slice. -/
theorem slice_set_ne {α : Type} {value : Bytes → α}
    (shows : ∀ {g : Bytes} {m : Nat}, m < g.length → g[m]? ≠ some b → value (g.set m b) ≠ value g) {j k : Nat}
    (inside : i < f.length) (low : j ≤ i) (high : i < k) (changed : f[i]? ≠ some b) :
    value (slice (f.set i b) j k) ≠ value (slice f j k) := by
  rw [slice_set_of_le low]
  exact shows (by rw [length_slice]; omega) (getElem?_slice_ne low high changed)

/-! ## A changed byte in a frame -/

/-- A sync byte that is changed is no longer the format's (42_registry.md R163). -/
theorem frameShapeOk_set {d : Descriptor} (ok : frameShapeOk d f = true) (inside : i < f.length)
    (sync : i < d.sync.length) (changed : f[i]? ≠ some b) : frameShapeOk d (f.set i b) = false := by
  simp only [frameShapeOk, Bool.and_eq_true, List.isPrefixOf_iff_prefix, List.prefix_iff_getElem?] at ok
  obtain ⟨-, held⟩ := ok
  rw [frameShapeOk, Bool.and_eq_false_iff]
  right
  rw [Bool.eq_false_iff, ne_eq, List.isPrefixOf_iff_prefix, List.prefix_iff_getElem?]
  intro still
  have same := still i sync
  rw [List.getElem?_set_self inside] at same
  exact changed ((held i sync).trans same.symm)

/-- A changed byte of the CRC's range changes the CRC and leaves the trailer; one of the trailer changes the trailer and
leaves the CRC (42_registry.md R164, R170). -/
theorem integrityOk_crc16_set (ok : integrityOk .crc16 f = true) (inside : i < f.length) (low : 2 ≤ i)
    (changed : f[i]? ≠ some b) : integrityOk .crc16 (f.set i b) = false := by
  simp only [integrityOk, beq_iff_eq, be16At] at ok
  simp only [integrityOk, beq_eq_false_iff_ne, be16At, List.length_set]
  rcases Nat.lt_or_ge i (f.length - 2) with body | trailer
  · rw [slice_set_of_lt body, ← ok, ne_eq, BitVec.toNat_inj]
    exact slice_set_ne crc16_set_ne inside low body changed
  · rw [slice_set_of_ge trailer, ok]
    exact (slice_set_ne beNat_set_ne inside trailer (by omega) changed).symm

/-- The same for the sum and its one trailer byte (42_registry.md R165, R170). -/
theorem integrityOk_sum8_set (ok : integrityOk .sum8 f = true) (inside : i < f.length) (low : 2 ≤ i)
    (changed : f[i]? ≠ some b) : integrityOk .sum8 (f.set i b) = false := by
  simp only [integrityOk, beq_iff_eq, Config.sum8First, List.getD_eq_getElem?_getD] at ok
  simp only [integrityOk, beq_eq_false_iff_ne, Config.sum8First, List.getD_eq_getElem?_getD, List.length_set]
  rcases Nat.lt_or_ge i (f.length - 1) with body | trailer
  · rw [List.getElem?_set_ne body.ne, ← ok]
    exact slice_set_ne sum8_set_ne inside low body changed
  · obtain rfl : i = f.length - 1 := by omega
    rw [slice_set_of_ge trailer, ok, List.getElem?_set_self inside]
    rw [List.getElem?_eq_getElem inside] at changed ⊢
    exact fun same => changed (congrArg some same)

/-- Every format but AT checks all bytes but the first two (42_registry.md R164, R165, R170). -/
theorem integrityOk_set {k : Integrity} (checked : k ≠ .none) (ok : integrityOk k f = true) (inside : i < f.length)
    (low : 2 ≤ i) (changed : f[i]? ≠ some b) : integrityOk k (f.set i b) = false := by
  cases k with
  | none => exact absurd rfl checked
  | crc16 => exact integrityOk_crc16_set ok inside low changed
  | sum8 => exact integrityOk_sum8_set ok inside low changed

/-- Only AT has no check (42_registry.md R160). -/
theorem descriptor_integrity_ne {t : Tag} (h : t ≠ .at) (n : Nat) : (descriptor t n).integrity ≠ .none := by
  match t, h with
  | .at, h => exact absurd rfl h
  | .s1, _ | .s2, _ | .a1, _ | .a2, _ | .fm, _ | .s3, _ => exact nofun

/-- The first two bytes are sync bytes in every format (42_registry.md R160). -/
theorem two_le_sync_length (t : Tag) (n : Nat) : 2 ≤ (descriptor t n).sync.length := by
  cases t <;> simp [descriptor]

/-- Settles O29: the first two bytes are held by the sync bytes, the others by the check. -/
theorem oneChangedByteIsDetected : Obligations.OneChangedByteIsDetected := by
  refine ⟨fun s i b => crc16_set_ne, fun t len f i b checked _ valid inside changed => ?_⟩
  rw [frameValid, Bool.and_eq_true] at valid
  obtain ⟨shape, ok⟩ := valid
  rw [frameValid, Bool.and_eq_false_iff]
  rcases Nat.lt_or_ge i 2 with early | low
  · exact .inl (frameShapeOk_set shape inside (early.trans_le (two_le_sync_length t len)) changed)
  · exact .inr (integrityOk_set (descriptor_integrity_ne checked len) ok inside low changed)

/-! ## The validity of a frame -/

/-- Length and sync bytes (42_registry.md R163). -/
theorem frameShapeOk_iff {d : Descriptor} :
    frameShapeOk d f = true ↔ f.length = d.len ∧ f.take d.sync.length = d.sync := by
  rw [frameShapeOk, Bool.and_eq_true, beq_iff_eq, List.isPrefixOf_iff_prefix, List.prefix_iff_eq_take,
    eq_comm (a := d.sync)]

/-- Two bytes as a number, the high byte first (00_scope.md R14). -/
theorem be16At_eq (inside : i + 2 ≤ f.length) : be16At f i = (f.getD i 0).toNat * 256 + (f.getD (i + 1) 0).toNat := by
  have pair : slice f i (i + 2) = [f.getD i 0, f.getD (i + 1) 0] := by
    rw [slice, Nat.add_sub_cancel_left, List.drop_eq_getElem_cons (by omega), List.drop_eq_getElem_cons (by omega),
      List.take_succ_cons, List.take_succ_cons, List.take_zero, List.getElem_eq_getD 0, List.getElem_eq_getD 0]
  rw [be16At, pair]
  simp [beNat]

/-- The CRC check (42_registry.md R164). -/
theorem integrityOk_crc16_iff (long : 2 ≤ f.length) : integrityOk .crc16 f = true ↔
    (crc16 ((f.take (f.length - 2)).drop 2)).toNat =
      (f.getD (f.length - 2) 0).toNat * 256 + (f.getD (f.length - 1) 0).toNat := by
  have last : f.length - 2 + 1 = f.length - 1 := by omega
  rw [integrityOk, beq_iff_eq, slice_eq_drop_take, be16At_eq (by omega), last]

/-- The sum check (42_registry.md R165). -/
theorem integrityOk_sum8_iff : integrityOk .sum8 f = true ↔
    (((f.take (f.length - 1)).drop 2).map (·.toNat)).sum % 256 = (f.getD (f.length - 1) 0).toNat := by
  rw [integrityOk, beq_iff_eq, ← BitVec.toNat_inj, toNat_sum8, slice_eq_drop_take, Config.sum8First]

/-- Settles O31: the shape gives the length that each check is written with. -/
theorem frameValidity : Obligations.FrameValidity := by
  intro t len f
  rw [frameValid, Bool.and_eq_true, frameShapeOk_iff, and_assoc]
  refine and_congr_right fun length => and_congr_right fun sync => ?_
  have long : 2 ≤ f.length := by
    have held := congrArg List.length sync
    have := two_le_sync_length t len
    rw [List.length_take] at held
    omega
  match t, length with
  | .at, _ => exact iff_of_true rfl trivial
  | .s3, (forty : f.length = 40) =>
    have check := integrityOk_sum8_iff (f := f)
    rw [forty] at check
    exact check
  | .s1, _ | .s2, _ | .a1, _ | .a2, _ | .fm, _ => exact integrityOk_crc16_iff long

/-! ## Operations with a tag -/

/-- The words of an operation with argument bytes (30_encoding.md R101). -/
theorem encodes_of_decodeOpcode_args {opc : Byte} {op : Byte → Byte → Instr}
    (h : ∀ a b, decodeOpcode opc a b = .ok (op a b)) : encodes opc op :=
  fun _ ho hr => decode_eq_ok.2 ⟨hr, ho ▸ h _ _⟩

/-- An operation with a tag refuses a code above 6 and else does what it does for the tag (30_encoding.md R103). -/
theorem exec_of_tag {i : Instr} {opc : Byte} {tag : Nat} {body : Tag → State → State}
    (issued : ∀ s, exec i s =
      .next (s.issue fun s => (tagOfCode tag).elim (s.raise opc .badArg) (body · s)))
    (ready : s.status.busy = false) :
    (7 ≤ tag → exec i s = .next (s.ended opc .badArg)) ∧
      (tag < 7 → ∃ t, tagCode t = tag ∧ exec i s = .next (body t s.clearStatus)) := by
  rw [issued, State.issue_ready ready]
  refine ⟨fun high => ?_, fun low => ?_⟩
  · rw [tagOfCode_of_ge high]
    rfl
  · obtain ⟨t, code, found⟩ := tagOfCode_of_lt low
    rw [found]
    exact ⟨t, code, rfl⟩

/-- The result of VALIDATE (42_registry.md R167). -/
def State.validated (t : Tag) (s : State) : State :=
  (s.setRes0 (if frameValid t s.fmLen.toNat s.arg then 1 else 0)).finish 0x03

theorem exec_validate (tag : Nat) (s : State) : exec (.validate tag) s =
    .next (s.issue fun s => (tagOfCode tag).elim (s.raise 0x03 .badArg) (s.validated ·)) := by
  change execValidate tag s = _
  unfold execValidate
  cases tagOfCode tag <;> rfl

/-- Settles O13: a rejected frame is a result, and the end of the operation the same. -/
theorem validateOperation : Obligations.ValidateOperation :=
  ⟨encodes_of_decodeOpcode_args fun _ _ => rfl, fun tag => droppedWhileBusy_of_issue (exec_validate tag),
    fun _ tag ready => exec_of_tag (exec_validate tag) ready⟩

/-! ## The registry's table (42_registry.md R160, R168), by tag code -/

theorem descriptor_len_eq (t : Tag) (n : Nat) :
    (descriptor t n).len = [31, 45, 39, 37, n, 40, 39].getD (tagCode t) 0 := by cases t <;> rfl

theorem descriptor_word_eq (t : Tag) (n : Nat) : (descriptor t n).word =
    [0x2541, 0x2549, 0x2541, 0x2541, 0x2545, 0x1336, 0x0334].getD (tagCode t) 0 := by
  have unread : (descriptor t n).word = (descriptor t 0).word := by cases t <;> rfl
  rw [unread]
  cases t <;> rfl

theorem descriptor_sync_eq (t : Tag) (n : Nat) : (descriptor t n).sync =
    [[0x55, 0x55, 0x53, 0x31], [0x55, 0x55, 0x53, 0x32], [0x55, 0x55, 0x41, 0x31], [0x55, 0x55, 0x41, 0x32],
      [0x55, 0x55, 0x46, 0x4D], [0x55, 0xAA, 0x24], [0xBD, 0xDB, 0x54]].getD (tagCode t) [] := by cases t <;> rfl

theorem ofNat_sync_length_eq (t : Tag) (n : Nat) :
    BitVec.ofNat 32 (descriptor t n).sync.length = [4, 4, 4, 4, 4, 3, 3].getD (tagCode t) 0 := by cases t <;> rfl

/-- The result of DESC (42_registry.md R168). -/
def State.described (d : Descriptor) (s : State) : State :=
  (((s.setRes0 (BitVec.ofNat 32 d.len)).setRes1 d.word).setHout d.sync).finish 0x04

theorem exec_desc (tag : Nat) (s : State) : exec (.desc tag) s = .next (s.issue fun s =>
    (tagOfCode tag).elim (s.raise 0x04 .badArg) fun t => s.described (descriptor t s.fmLen.toNat)) := by
  change execDesc tag s = _
  unfold execDesc
  cases tagOfCode tag <;> rfl

/-- What DESC leaves (42_registry.md R168; 60_exceptions.md R361). -/
theorem described_clearStatus (d : Descriptor) (s : State) : s.clearStatus.described d =
    { s.ended 0x04 .none with
      res0 := BitVec.ofNat 32 d.len
      res1 := d.word
      houtLen := BitVec.ofNat 32 d.sync.length
      hout := Memory.ofBytes d.sync } := rfl

/-- Settles O14: the descriptor's fields are the table's entries at the tag's code. -/
theorem descOperation : Obligations.DescOperation := by
  refine ⟨encodes_of_decodeOpcode_args fun _ _ => rfl, fun tag => droppedWhileBusy_of_issue (exec_desc tag),
    fun s tag ready => ?_⟩
  have ⟨refused, delivered⟩ := exec_of_tag (exec_desc tag) ready
  refine ⟨refused, fun low => ?_⟩
  obtain ⟨t, rfl, done⟩ := delivered low
  refine ⟨_, done, ?_, houtHolds_of (congrArg Memory.ofBytes (descriptor_sync_eq t s.fmLen.toNat))⟩
  rw [← descriptor_len_eq, ← descriptor_word_eq t s.fmLen.toNat, ← ofNat_sync_length_eq t s.fmLen.toNat]
  exact described_clearStatus _ s

/-! ## FM_SET (42_registry.md R169) -/

/-- What FM_SET does once it is issued, in the order of its refusals. -/
theorem exec_fmSet (ready : s.status.busy = false) (length : Nat) : exec (.fmSet length) s = .next (
    if fmLegal length = false then s.ended 0x05 .badArg
    else if s.stream.active = true then s.ended 0x05 .resourceOwned
    else { s.ended 0x05 .none with
      fmLen := BitVec.ofNat 8 length
      res0 := BitVec.ofNat 32 (fmChips length)
      res1 := BitVec.ofNat 32 (fmStatusFields length) }) := by
  have issued : exec (.fmSet length) s = .next (s.issue _) := rfl
  rw [issued, State.issue_ready ready]
  cases fmLegal length <;> rfl

/-- Settles O15: the chips and status fields are those the length was made of. -/
theorem fmSetOperation : Obligations.FmSetOperation := by
  refine ⟨encodes_of_decodeOpcode_args fun _ _ => rfl, fun _ => droppedWhileBusy_of_issue fun _ => rfl,
    fun s length ready => ?_⟩
  rw [exec_fmSet ready]
  refine ⟨fun illegal => ?_, fun legal active => ?_, fun n e pos most he made inactive => ?_⟩
  · rw [if_pos (Bool.eq_false_iff.2 (mt fmLegal_iff_mem.1 illegal))]
  · rw [if_neg (by simp [fmLegal_iff_mem.2 legal]), if_pos active]
  · have legal : fmLegal length = true := fmLegal_iff.2 ⟨n, e, pos, most, he, made⟩
    subst made
    rw [if_neg (by simp [legal]), if_neg (by simp [inactive]), fmChips_eq he, fmStatusFields_eq he]

end Sys2Proof.Machine
end

section
/-! SUPPORT. The scan as a loop without a bound, and a byte stream split into reads (43_synchronizer.md R194, R195,
R201). -/

namespace Sys2Proof.Machine

variable {t : Tag} {len p k : Nat} {acc : Bytes}

/-! ## One round of the scan -/

/-- The position of the whole candidate that a round of the scan tests, if there is one (43_synchronizer.md R194). -/
def candidate (t : Tag) (len : Nat) (acc : Bytes) : Option Nat :=
  (find (descriptor t len).sync acc).filter fun p => decide (len ≤ acc.length - p)

theorem candidate_eq_some :
    candidate t len acc = some p ↔ find (descriptor t len).sync acc = some p ∧ len ≤ acc.length - p := by
  simp [candidate]

/-- The sync bytes of a candidate stand inside the sequence. -/
theorem candidate_inside (h : candidate t len acc = some p) : p + (descriptor t len).sync.length ≤ acc.length := by
  have := sync_length_ge t len
  exact find_inside (List.ne_nil_of_length_pos (by omega)) (candidate_eq_some.1 h).1

/-- A round that goes on removes at least one byte (43_synchronizer.md R194, R195). -/
theorem length_drop_candidate (h : candidate t len acc = some p) (pos : 1 ≤ k) :
    (acc.drop (p + k)).length < acc.length := by
  have := candidate_inside h
  have := sync_length_ge t len
  rw [List.length_drop]
  omega

/-- A valid candidate is not empty. -/
theorem len_pos_of_frameValid_slice (h : frameValid t len (slice acc p (p + len)) = true) : 1 ≤ len := by
  have := length_pos_of_frameValid h
  have := length_slice_le acc p (p + len)
  omega

/-- The bound on the rounds of a scan is out of reach: the bytes left are as many rounds as the rest needs. -/
theorem scanLoop_drop (h : candidate t len acc = some p) (pos : 1 ≤ k) :
    scanLoop t len acc.length (acc.drop (p + k)) = scan t len (acc.drop (p + k)) :=
  scanLoop_fuel (length_drop_candidate h pos) (Nat.lt_succ_self _)

/-- Without a whole candidate the scan ends and keeps its bytes (43_synchronizer.md R194). -/
theorem scan_of_no_candidate (h : candidate t len acc = none) : scan t len acc = ⟨[], 0, acc⟩ := by
  rw [scan, scanLoop]
  split
  · rfl
  · split
    · rfl
    · rename_i found
      split
      · rfl
      · have whole := candidate_eq_some.2 ⟨found, Nat.le_of_not_lt ‹_›⟩
        rw [h] at whole
        cases whole

/-- A whole candidate is delivered and skipped when it is valid, and else counted, and the scan goes on
(43_synchronizer.md R194, R195). -/
theorem scan_of_candidate (h : candidate t len acc = some p) : scan t len acc =
    if frameValid t len (slice acc p (p + len)) then
      let r := scan t len (acc.drop (p + len))
      ⟨slice acc p (p + len) :: r.frames, r.fails, r.residue⟩
    else
      let r := scan t len (acc.drop (p + 1))
      ⟨r.frames, r.fails + 1, r.residue⟩ := by
  obtain ⟨found, whole⟩ := candidate_eq_some.1 h
  rw [scan, scanLoop, if_neg (by omega), found]
  dsimp only
  rw [if_neg (Nat.not_lt.2 whole)]
  split
  · rename_i valid
    rw [scanLoop_drop h (len_pos_of_frameValid_slice valid)]
  · rw [scanLoop_drop h le_rfl]

/-- Settles O32: every end of the loop is the lack of a whole candidate. -/
theorem scanEquation : Obligations.ScanEquation := by
  intro t len acc
  by_cases short : acc.length < len
  · rw [if_pos short, scan_of_no_candidate]
    refine Option.eq_none_iff_forall_not_mem.2 fun p h => ?_
    have := (candidate_eq_some.1 h).2
    omega
  rw [if_neg short]
  cases found : find (descriptor t len).sync acc with
  | none => exact scan_of_no_candidate (by rw [candidate, found]; rfl)
  | some p =>
    dsimp only
    by_cases cut : acc.length - p < len
    · rw [if_pos cut, scan_of_no_candidate]
      rw [candidate, found, Option.filter_some, if_neg (by simpa using cut)]
    · rw [if_neg cut]
      exact scan_of_candidate (candidate_eq_some.2 ⟨found, Nat.le_of_not_lt cut⟩)

/-! ## A stream split into reads -/

/-- The scan goes on with the bytes of another read after the residue (43_synchronizer.md R193, R201). -/
def ScanResult.resume (t : Tag) (len : Nat) (r : ScanResult) (b : Bytes) : ScanResult :=
  let n := scan t len (r.residue ++ b)
  ⟨r.frames ++ n.frames, r.fails + n.fails, n.residue⟩

/-- A pattern found in a sequence is found at the same place when bytes are appended. -/
theorem find_append {pat : Bytes} (inside : p + pat.length ≤ acc.length) (b : Bytes) (h : find pat acc = some p) :
    find pat (acc ++ b) = some p := by
  obtain ⟨-, here, before⟩ := firstSuffix_eq_some.1 h
  have same {j : Nat} (hj : j ≤ p) : pat.isPrefixOf ((acc ++ b).drop j) = pat.isPrefixOf (acc.drop j) := by
    rw [Bool.eq_iff_iff, List.isPrefixOf_iff_prefix, List.isPrefixOf_iff_prefix,
      List.drop_append_of_le_length (by omega)]
    exact ⟨fun h => List.prefix_of_prefix_length_le h (List.prefix_append _ _) (by rw [List.length_drop]; omega),
      fun h => h.trans (List.prefix_append _ _)⟩
  refine firstSuffix_eq_some.2 ⟨by rw [List.length_append]; omega, (same le_rfl).trans here, fun j hj => ?_⟩
  exact (same hj.le).trans (before j hj)

/-- A whole candidate stays the first when bytes are appended. -/
theorem candidate_append (h : candidate t len acc = some p) (b : Bytes) : candidate t len (acc ++ b) = some p := by
  have inside := candidate_inside h
  obtain ⟨found, whole⟩ := candidate_eq_some.1 h
  exact candidate_eq_some.2 ⟨find_append inside b found, by rw [List.length_append]; omega⟩

/-- Appended bytes do not reach into a slice. -/
theorem slice_append (h : k ≤ acc.length) (b : Bytes) (j : Nat) : slice (acc ++ b) j k = slice acc j k := by
  rw [slice_eq_drop_take, List.take_append_of_le_length h, slice_eq_drop_take]

/-- A scan interrupted at the end of its bytes goes on as if it had not been (43_synchronizer.md R201). -/
theorem scan_append (t : Tag) (len : Nat) (acc b : Bytes) :
    scan t len (acc ++ b) = (scan t len acc).resume t len b := by
  induction size : acc.length using Nat.strong_induction_on generalizing acc with
  | _ n ih =>
    subst size
    cases h : candidate t len acc with
    | none =>
      rw [scan_of_no_candidate h, ScanResult.resume]
      simp
    | some p =>
      have inside := candidate_inside h
      have := sync_length_ge t len
      have whole := (candidate_eq_some.1 h).2
      rw [scan_of_candidate h, scan_of_candidate (candidate_append h b), slice_append (by omega),
        List.drop_append_of_le_length (by omega), List.drop_append_of_le_length (by omega)]
      split
      · rename_i valid
        rw [ih _ (length_drop_candidate h (len_pos_of_frameValid_slice valid)) _ rfl]
        rfl
      · rw [ih _ (length_drop_candidate h le_rfl) _ rfl]
        simp only [ScanResult.resume, Nat.add_right_comm]

/-- The reads after those already scanned. -/
theorem foldl_resume (t : Tag) (len : Nat) (reads : List Bytes) (acc : Bytes) :
    reads.foldl (ScanResult.resume t len) (scan t len acc) = scan t len (acc ++ reads.flatten) := by
  induction reads generalizing acc with
  | nil => simp
  | cons b reads ih => rw [List.foldl_cons, ← scan_append, ih, List.flatten_cons, List.append_assoc]

/-- Settles O33: the scan of each read resumes the scan of those before it. -/
theorem scanChunking : Obligations.ScanChunking := by
  intro t len reads
  have start : scan t len [] = ⟨[], 0, []⟩ := by
    refine scan_of_no_candidate (Option.eq_none_iff_forall_not_mem.2 fun p h => ?_)
    have inside := candidate_inside h
    have := sync_length_ge t len
    rw [List.length_nil] at inside
    omega
  rw [← start]
  exact foldl_resume t len reads []

end Sys2Proof.Machine
end

section
/-! SUPPORT. The pushes of a scan on a bounded queue: what is kept, what is evicted, and the events of both
(43_synchronizer.md R196, R203). -/

namespace Sys2Proof.Machine

variable {cap now i : Nat} {line q fs rest : List Bytes} {f g : Bytes}

/-- The pushes of `fs` on the queue `q`, one after the other, each with room in the queue or on a full one
(43_synchronizer.md R196). -/
inductive Pushes (cap : Nat) : List Bytes → List Bytes → Prop
  | done {q : List Bytes} (within : q.length ≤ cap) : Pushes cap q []
  | room {q fs : List Bytes} {f : Bytes} (free : q.length < cap) (later : Pushes cap (q ++ [f]) fs) :
      Pushes cap q (f :: fs)
  | full {rest fs : List Bytes} {f g : Bytes} (held : (g :: rest).length = cap)
      (later : Pushes cap (rest ++ [f]) fs) : Pushes cap (g :: rest) (f :: fs)

/-- A queue that is within its capacity stays so. -/
theorem pushes_of_within (pos : 0 < cap) (within : q.length ≤ cap) (fs : List Bytes) : Pushes cap q fs := by
  induction fs generalizing q with
  | nil => exact .done within
  | cons f fs ih =>
    rcases within.lt_or_eq with free | held
    · exact .room free (ih (by rw [List.length_append]; exact free))
    · cases q with
      | nil => exact absurd held pos.ne
      | cons g rest => exact .full held (ih (by rw [List.length_append]; exact held.le))

/-! ## The events -/

/-- The events of the push of `f` at one time, where `line` lists the frames in arrival order, `f` at position `i`, and
`cap` of them are kept: the frame that `f` displaces stands `cap` positions before it (43_synchronizer.md R196). -/
def pushEvent (cap now : Nat) (line : List Bytes) (i : Nat) (f : Bytes) : List Event :=
  if cap ≤ i then [.evict (line.getD (i - cap) []) now, .push f now] else [.push f now]

/-- The events of the pushes of `fs` on the queue `q` (43_synchronizer.md R203). -/
def pushEvents (cap now : Nat) (q fs : List Bytes) : List Event :=
  fs.zipIdx.flatMap fun x => pushEvent cap now (q ++ fs) (q.length + x.2) x.1

/-- The frame that an event pushes. -/
def pushedFrame : Event → Option Bytes
  | .push f _ => some f
  | _ => none

/-- The frame that an event evicts. -/
def evictedFrame : Event → Option Bytes
  | .evict f _ => some f
  | _ => none

theorem pushEvents_cons : pushEvents cap now q (f :: fs) = pushEvent cap now (q ++ f :: fs) q.length f ++
    fs.zipIdx.flatMap fun x => pushEvent cap now (q ++ f :: fs) (q.length + 1 + x.2) x.1 := by
  rw [pushEvents, List.zipIdx_cons, List.flatMap_cons, List.zipIdx_succ, List.flatMap_map]
  simp only [Nat.add_assoc, Nat.add_comm 1, Nat.add_zero]

/-- A displaced frame is the same without the oldest of the line, when a later one is displaced. -/
theorem pushEvent_cons (h : cap ≤ i) : pushEvent cap now (g :: line) (i + 1) f = pushEvent cap now line i f := by
  rw [pushEvent, pushEvent, if_pos (Nat.le_add_right_of_le h), if_pos h, Nat.sub_add_comm h, List.getD_cons_succ]

/-- A push with room is one event. -/
theorem pushEvents_room (h : q.length < cap) :
    pushEvents cap now q (f :: fs) = .push f now :: pushEvents cap now (q ++ [f]) fs := by
  rw [pushEvents_cons, pushEvent, if_neg (Nat.not_le.2 h), pushEvents, List.append_assoc, List.length_append]
  rfl

/-- A push on a full queue is the eviction of its oldest frame and the push. -/
theorem pushEvents_full (h : (g :: rest).length = cap) : pushEvents cap now (g :: rest) (f :: fs) =
    .evict g now :: .push f now :: pushEvents cap now (rest ++ [f]) fs := by
  have size : (rest ++ [f]).length = cap := by simpa using h
  have later (x : Bytes × Nat) : pushEvent cap now (g :: rest ++ f :: fs) ((g :: rest).length + 1 + x.2) x.1 =
      pushEvent cap now (rest ++ [f] ++ fs) ((rest ++ [f]).length + x.2) x.1 := by
    rw [h, size, Nat.add_right_comm, List.cons_append, pushEvent_cons (Nat.le_add_right _ _), List.append_assoc]
    rfl
  rw [pushEvents_cons, funext later, pushEvent, if_pos h.ge, h, Nat.sub_self]
  rfl

/-- A push on a full queue leaves one frame more to evict than the pushes after it. -/
theorem length_append_full (h : (g :: rest).length = cap) :
    (g :: rest ++ f :: fs).length - cap = (rest ++ [f] ++ fs).length - cap + 1 := by
  simp only [← h, List.length_append, List.length_cons, List.length_nil]
  omega

/-- Every frame is pushed, in order. -/
theorem filterMap_pushedFrame (h : Pushes cap q fs) : (pushEvents cap now q fs).filterMap pushedFrame = fs := by
  induction h with
  | done => rfl
  | @room q fs f free _ ih =>
    rw [pushEvents_room free]
    exact congrArg (f :: ·) ih
  | @full rest fs f g held _ ih =>
    rw [pushEvents_full held]
    exact congrArg (f :: ·) ih

/-- The frames that arrived first are evicted, all but the newest `cap`, in order. -/
theorem filterMap_evictedFrame (h : Pushes cap q fs) :
    (pushEvents cap now q fs).filterMap evictedFrame = (q ++ fs).take ((q ++ fs).length - cap) := by
  induction h with
  | done within =>
    rw [List.append_nil, Nat.sub_eq_zero_of_le within]
    rfl
  | @room q fs f free _ ih =>
    rw [pushEvents_room free, List.append_cons q f fs]
    exact ih
  | @full rest fs f g held _ ih =>
    rw [pushEvents_full held, length_append_full held, List.cons_append, List.take_succ_cons,
      List.append_cons rest f fs]
    exact congrArg (g :: ·) ih

/-- An event for every frame pushed and one for every frame evicted. -/
theorem length_pushEvents (h : Pushes cap q fs) :
    (pushEvents cap now q fs).length = fs.length + ((q ++ fs).length - cap) := by
  induction h with
  | done within =>
    rw [List.append_nil, Nat.sub_eq_zero_of_le within]
    rfl
  | room free _ ih =>
    rw [pushEvents_room free, List.length_cons, ih, List.append_assoc, List.length_cons]
    exact Nat.add_right_comm _ _ _
  | full held _ ih =>
    rw [pushEvents_full held, List.length_cons, List.length_cons, ih, length_append_full held, List.length_cons]
    omega

/-! ## The queue -/

/-- What the pushes of a scan leave (43_synchronizer.md R196, R203). -/
theorem pushAll_eq {s : State} (h : Pushes s.cap s.stream.q fs) : pushAll fs s = { s with
    stream := { s.stream with
      q := (s.stream.q ++ fs).drop ((s.stream.q ++ fs).length - s.cap)
      evicted := s.stream.evicted + BitVec.ofNat 32 ((s.stream.q ++ fs).length - s.cap) }
    hist := s.hist ++ pushEvents s.cap s.now s.stream.q fs } := by
  generalize queued : s.stream.q = q, capacity : s.cap = cap at h
  induction h generalizing s with
  | done within =>
    subst queued capacity
    simp [pushAll, pushEvents, Nat.sub_eq_zero_of_le within]
  | @room q fs f free _ ih =>
    subst queued
    have pushed := push_room f (s := s) (.inr (free.trans_eq capacity.symm).ne)
    have later := ih (s := push f s) (by rw [pushed]) (by rw [pushed]; exact capacity)
    rw [pushAll, List.foldl_cons, ← pushAll, later, pushed, pushEvents_room free]
    simp
  | @full rest fs f g held _ ih =>
    have pushed := push_full f queued (by rw [queued, capacity, held])
    have later := ih (s := push f s) (by rw [pushed]) (by rw [pushed]; exact capacity)
    rw [pushAll, List.foldl_cons, ← pushAll, later, pushed, pushEvents_full held, length_append_full held]
    simp [BitVec.ofNat_add, BitVec.add_assoc, BitVec.add_comm 1#32]

/-- Settles O34: induction over the pushes, for the queue, for the events by kind, and for their number. -/
theorem pushEvictsOldest : Obligations.PushEvictsOldest := fun s fs pos within =>
  have h : Pushes s.cap s.stream.q fs := pushes_of_within pos within fs
  ⟨pushEvents s.cap s.now s.stream.q fs, pushAll_eq h, filterMap_pushedFrame h, filterMap_evictedFrame h,
    length_pushEvents h, rfl⟩

end Sys2Proof.Machine
end

section
/-! SUPPORT. One iteration of the synchronizer, without an armed watchdog and with one (43_synchronizer.md R192 to R194,
R198, R199). -/

namespace Sys2Proof.Machine

variable {s : State} {pushed : Bool}

/-! ## The watchdog check -/

/-- Without an armed watchdog there is no check (43_synchronizer.md R198). -/
theorem watchdogCheck_unarmed (off : (s.stream.wdEn && s.stream.wdArmed) = false) : watchdogCheck pushed s = s := by
  rw [watchdogCheck, off]
  rfl

/-- A pushed frame disarms the watchdog (43_synchronizer.md R198). -/
theorem watchdogCheck_pushed (on : (s.stream.wdEn && s.stream.wdArmed) = true) :
    watchdogCheck true s = { s with stream := { s.stream with wdArmed := false } } := by
  rw [watchdogCheck, on]
  rfl

/-- Inside its window the watchdog waits (43_synchronizer.md R198). -/
theorem watchdogCheck_waits (early : s.now - s.stream.wdStart < Config.wdTimeoutMs) : watchdogCheck false s = s := by
  rw [watchdogCheck, if_neg Bool.false_ne_true, if_neg (Nat.not_le.2 early), ite_self]

/-- At the end of its window the watchdog restarts the session while attempts and the link remain (43_synchronizer.md
R198). -/
theorem watchdogCheck_restarts (on : (s.stream.wdEn && s.stream.wdArmed) = true)
    (late : Config.wdTimeoutMs ≤ s.now - s.stream.wdStart) (remain : s.stream.wdAttempt.toNat < Config.wdAttempts)
    (link : s.linkOk = true) :
    watchdogCheck false s = watchdogRestart s := by
  rw [watchdogCheck, if_pos on, if_neg Bool.false_ne_true, if_pos late, if_pos ⟨remain, link⟩]

/-- At the end of its window the watchdog ends the session without attempts or without a link (43_synchronizer.md R198,
R199). -/
theorem watchdogCheck_fails (on : (s.stream.wdEn && s.stream.wdArmed) = true)
    (late : Config.wdTimeoutMs ≤ s.now - s.stream.wdStart)
    (ended : Config.wdAttempts ≤ s.stream.wdAttempt.toNat ∨ s.linkOk = false) :
    watchdogCheck false s = initFailure s := by
  rw [watchdogCheck, if_pos on, if_neg Bool.false_ne_true, if_pos late, if_neg]
  rintro ⟨remain, link⟩
  exact ended.elim (Nat.not_le.2 remain) fun down => Bool.false_ne_true (down.symm.trans link)

/-! ## The iteration -/

/-- An iteration runs in an active session whose time has come (43_synchronizer.md R192). -/
theorem syncEnabled_iff : syncEnabled s = true ↔ s.stream.active = true ∧ s.stream.nextPoll ≤ s.now := by
  rw [syncEnabled, Bool.and_eq_true, decide_eq_true_eq]

/-- The scan of an iteration: of what has accumulated and what is read (43_synchronizer.md R193, R194). -/
def State.scanResult (s : State) : ScanResult :=
  scan s.stream.tag s.stream.len (s.stream.acc ++ s.rxq.take s.cfg.nRead)

/-- The state after an iteration without an armed watchdog, but for the time of the next (43_synchronizer.md R193 to
R195). -/
theorem State.scanned_eq (s : State) : s.scanned = { pushAll s.scanResult.frames s with
    rxq := s.rxq.drop s.cfg.nRead
    stream := { (pushAll s.scanResult.frames s).stream with
      acc := s.scanResult.residue
      crcFail := s.stream.crcFail + BitVec.ofNat 32 s.scanResult.fails } } := scanAcc_readLink s

/-- The read and the scan leave the watchdog's switches. -/
theorem State.scanned_armed (s : State) :
    (s.scanned.stream.wdEn && s.scanned.stream.wdArmed) = (s.stream.wdEn && s.stream.wdArmed) := by
  obtain ⟨_, _, _, _, _, h⟩ := s.scanned_frame
  rw [h]

/-- An iteration reads, scans and checks the watchdog, and the next one waits 10 ms (43_synchronizer.md R192). -/
theorem perform_sync {t : State} (enabled : agentEnabled s .sync = true) (h : s.checked = t) :
    perform (.agent .sync) s = .next { t with stream := { t.stream with nextPoll := s.now + 10 } } := by
  have now : t.now = s.now := h ▸ (syncStep_blockStep s).now
  rw [perform_agent enabled, ← now, ← h]
  rfl

/-- Settles O35: without an armed watchdog an iteration ends with its scan. -/
theorem syncIteration : Obligations.SyncIteration := by
  refine fun s => ⟨syncEnabled_iff, fun enabled off => ⟨_, rfl, ?_⟩⟩
  have checked : s.checked = s.scanned := watchdogCheck_unarmed (s.scanned_armed.trans off)
  exact perform_sync enabled (checked.trans s.scanned_eq)

/-- An iteration that pushes a frame disarms the watchdog (43_synchronizer.md R198). -/
theorem State.checked_of_frames (on : (s.stream.wdEn && s.stream.wdArmed) = true) (h : s.scanResult.frames ≠ []) :
    s.checked = { s.scanned with stream := { s.scanned.stream with wdArmed := false } } := by
  have pushed : (!s.newFrames.isEmpty) = true := by simpa [State.newFrames, State.scanResult] using h
  rw [State.checked, pushed, watchdogCheck_pushed (s.scanned_armed.trans on)]

/-- An iteration that pushes no frame leaves the check to the watchdog's window (43_synchronizer.md R198). -/
theorem State.checked_of_silent (h : s.scanResult.frames = []) : s.checked = watchdogCheck false { s with
    rxq := s.rxq.drop s.cfg.nRead
    stream := { s.stream with
      acc := s.scanResult.residue
      crcFail := s.stream.crcFail + BitVec.ofNat 32 s.scanResult.fails } } := by
  have silent : (!s.newFrames.isEmpty) = false := by simpa [State.newFrames, State.scanResult] using h
  rw [State.checked, silent, State.scanned_eq, h]
  rfl

/-- The number of the next watchdog attempt (43_synchronizer.md R198). -/
theorem toNat_attempt_succ {k : BitVec 2} (h : k.toNat < 3) : (k + 1).toNat = k.toNat + 1 := by
  rw [BitVec.toNat_add]
  exact Nat.mod_eq_of_lt (Nat.succ_lt_succ h)

/-- Settles O36: each outcome of the check, after the scan of the iteration. -/
theorem watchdog : Obligations.Watchdog := by
  intro s enabled en armed
  have on : (s.stream.wdEn && s.stream.wdArmed) = true := by rw [en, armed]; rfl
  refine ⟨s.scanResult, rfl, fun frames => ?_, fun silent => ⟨_, rfl, fun early => ?_, fun late remain link => ?_,
    fun late ended => ?_⟩⟩
  · rw [perform_sync enabled (State.checked_of_frames on frames), State.scanned_eq]
  · exact perform_sync enabled ((State.checked_of_silent silent).trans (watchdogCheck_waits early))
  · rw [← toNat_attempt_succ remain]
    exact perform_sync enabled ((State.checked_of_silent silent).trans (watchdogCheck_restarts on late remain link))
  · exact perform_sync enabled ((State.checked_of_silent silent).trans (watchdogCheck_fails on late ended))

end Sys2Proof.Machine
end

section
/-! SUPPORT. The operations STREAM_START, STREAM_STOP and QPOP (43_synchronizer.md R190, R191, R197). -/

namespace Sys2Proof.Machine

variable {s : State}

/-! ## STREAM_START -/

theorem exec_streamStart (tag : Nat) (watchdog : Bool) (s : State) : exec (.streamStart tag watchdog) s =
    .next (s.issue fun s => (tagOfCode tag).elim (s.raise 0x10 .badArg) fun t =>
      s.openLink 0x10 (startStream t watchdog)) := by
  change execStreamStart tag watchdog s = _
  unfold execStreamStart
  cases tagOfCode tag <;> rfl

/-- The session that STREAM_START begins, with the claim of the link and the results (43_synchronizer.md R190). -/
theorem startStream_clearStatus (t : Tag) (watchdog : Bool) (s : State) :
    startStream t watchdog s.clearStatus =
      { s.ended 0x10 .none with
        status := ⟨s.status.busy, true, false, false, .none, .stream⟩
        res0 := BitVec.ofNat 32 (descriptor t s.fmLen.toNat).len
        res1 := BitVec.ofNat 32 s.cap
        rxq := []
        stream :=
          { active := true, tag := t, wdEn := watchdog, wdArmed := watchdog, wdAttempt := if watchdog then 1 else 0
            initFail := false, len := (descriptor t s.fmLen.toNat).len, nextPoll := s.now, wdStart := s.now, acc := []
            q := [], evicted := 0, crcFail := 0 } } := rfl

/-- Settles O17: the tag is checked before the link, and the session has the length of the tag's descriptor. -/
theorem streamStartOperation : Obligations.StreamStartOperation := by
  refine ⟨encodes_of_decodeOpcode_args fun _ _ => rfl,
    fun tag w => droppedWhileBusy_of_issue (exec_streamStart tag w), fun s tag w ready => ?_⟩
  have ⟨refused, tagged⟩ := exec_of_tag (exec_streamStart tag w) ready
  refine ⟨refused, fun low => ?_⟩
  obtain ⟨t, rfl, opened⟩ := tagged low
  refine ⟨refusedByLink_of opened, fun free link => ⟨t, rfl, ?_⟩⟩
  rw [opened, State.openLink_open (s := s.clearStatus) free link, startStream_clearStatus, ready,
    descriptor_len_eq]
  rfl

/-! ## STREAM_STOP -/

/-- What STREAM_STOP does once it is issued (43_synchronizer.md R191). -/
theorem exec_streamStop (ready : s.status.busy = false) : exec .streamStop s = .next (
    if s.stream.active = true then { s.ended 0x11 .none with
      status := ⟨s.status.busy, true, false, false, .none, .none⟩
      res0 := BitVec.ofNat 32 s.stream.q.length
      stream := { s.stream with active := false, wdArmed := false, q := [], acc := [] } }
    else { s.ended 0x11 .none with res0 := 0 }) := by
  have issued : exec .streamStop s = .next (s.issue _) := rfl
  rw [issued, State.issue_ready ready]
  rfl

/-- Settles O18: the two cases of a session and none. -/
theorem streamStopOperation : Obligations.StreamStopOperation := by
  refine ⟨encodes_of_decodeOpcode fun _ _ => rfl, droppedWhileBusy_of_issue fun _ => rfl, fun s ready => ?_⟩
  rw [exec_streamStop ready, ready]
  exact ⟨fun inactive => by rw [if_neg (by simp [inactive])], fun active => by rw [if_pos active]⟩

/-! ## QPOP -/

/-- QPOP on an empty queue (43_synchronizer.md R197). -/
theorem exec_qpop_empty (ready : s.status.busy = false) (empty : s.stream.q = []) : exec .qpop s =
    .next { s.ended 0x12 .none with res0 := 0, res1 := 0, houtLen := 0, hout := Memory.ofBytes [] } := by
  have issued : exec .qpop s = .next (s.issue _) := rfl
  rw [issued, State.issue_ready ready]
  dsimp only [State.clearStatus]
  rw [empty]
  rfl

/-- QPOP on a queue with an oldest frame (43_synchronizer.md R197). -/
theorem exec_qpop_cons (ready : s.status.busy = false) {f : Bytes} {rest : List Bytes}
    (queued : s.stream.q = f :: rest) : exec .qpop s =
    .next { s.ended 0x12 .none with
      res0 := BitVec.ofNat 32 f.length
      res1 := BitVec.ofNat 32 rest.length
      houtLen := BitVec.ofNat 32 f.length
      hout := Memory.ofBytes f
      stream := { s.stream with q := rest }
      hist := s.hist ++ [.pop f s.now, .done 0x12 .none s.now] } := by
  have issued : exec .qpop s = .next (s.issue _) := rfl
  rw [issued, State.issue_ready ready]
  dsimp only [State.clearStatus]
  rw [queued, List.append_cons]
  rfl

/-- Settles O19: the two cases of the queue. -/
theorem qpopOperation : Obligations.QpopOperation :=
  ⟨encodes_of_decodeOpcode fun _ _ => rfl, droppedWhileBusy_of_issue fun _ => rfl, fun _ ready =>
    ⟨fun empty => ⟨_, exec_qpop_empty ready empty, rfl, houtHolds_of rfl⟩,
      fun _ _ queued => ⟨_, exec_qpop_cons ready queued, rfl, houtHolds_of rfl⟩⟩⟩

end Sys2Proof.Machine
end

section
/-! SUPPORT. Where a response stands in a buffer: the header as a slice, and what of the buffer a match looks at
(44_correlator.md R242, R244, R262, R264). -/

namespace Sys2Proof.Machine

variable {gm : GpidMatch} {m : MatchMode} {req b : Bytes} {i p ld : Nat}

/-! ## The header -/

/-- A pattern opens the rest of a buffer exactly when it is the slice there. -/
theorem isPrefixOf_drop_iff {pat : Bytes} : pat.isPrefixOf (b.drop i) = true ↔ slice b i (i + pat.length) = pat := by
  rw [List.isPrefixOf_iff_prefix, List.prefix_iff_eq_take, slice, Nat.add_sub_cancel_left, eq_comm]

/-- The preamble and two bytes after it. -/
theorem preamble_isPrefixOf_drop_iff {w : Bytes} (two : w.length = 2) :
    (preamble ++ w).isPrefixOf (b.drop i) = true ↔ i + 4 ≤ b.length ∧ slice b i (i + 4) = [0x55, 0x55] ++ w := by
  have four : (preamble ++ w).length = 4 := by rw [List.length_append, two]; rfl
  rw [isPrefixOf_drop_iff, four]
  refine ⟨fun h => ⟨?_, h⟩, And.right⟩
  have length := (length_slice b i (i + 4)).symm.trans ((congrArg List.length h).trans four)
  omega

/-- The header of the standard mode (44_correlator.md R242). -/
theorem headerAt_std_iff (long : 4 ≤ req.length) : headerAt gm .std req (b.drop i) = true ↔
    i + 4 ≤ b.length ∧ slice b i (i + 4) = [0x55, 0x55] ++ slice req 2 4 :=
  preamble_isPrefixOf_drop_iff (by rw [length_slice]; omega)

/-- The header of GP/"ID" in the literal reading (44_correlator.md R242). -/
theorem headerAt_literal57_iff : headerAt .literal57 .gpid req (b.drop i) = true ↔
    i + 7 ≤ b.length ∧ slice b i (i + 2) = [0x55, 0x55] ∧ slice b (i + 5) (i + 7) = slice req 5 7 := by
  have window : slice (b.drop i) 5 7 = slice b (i + 5) (i + 7) := by
    rw [slice, slice, List.drop_drop, Nat.add_sub_add_left]
  have opening : preamble.isPrefixOf (b.drop i) = true ↔ slice b i (i + 2) = [0x55, 0x55] := isPrefixOf_drop_iff
  simp only [headerAt, Bool.and_eq_true, decide_eq_true_eq, beq_iff_eq, List.length_drop, window, opening, and_assoc]
  exact and_congr_left' (by omega)

/-- The header of GP/"ID" in the other reading (44_correlator.md R242). -/
theorem headerAt_tag23_iff (long : 7 ≤ req.length) : headerAt .tag23 .gpid req (b.drop i) = true ↔
    i + 4 ≤ b.length ∧ slice b i (i + 4) = [0x55, 0x55] ++ slice req 5 7 :=
  preamble_isPrefixOf_drop_iff (by rw [length_slice]; omega)

/-- A header is looked for in seven bytes at most. -/
theorem headerAt_take (rest : Bytes) : headerAt gm m req (rest.take 7) = headerAt gm m req rest := by
  have opening {w : Bytes} (two : w.length ≤ 2) : (preamble ++ w).isPrefixOf (rest.take 7) =
      (preamble ++ w).isPrefixOf rest := by
    have short : (preamble ++ w).length ≤ 7 := by simp [preamble]; omega
    rw [Bool.eq_iff_iff, List.isPrefixOf_iff_prefix, List.isPrefixOf_iff_prefix, List.prefix_take_iff,
      and_iff_left short]
  match m, gm with
  | .std, _ => exact opening (length_slice_le req 2 4)
  | .gpid, .tag23 => exact opening (length_slice_le req 5 7)
  | .gpid, .literal57 =>
    have window : slice (rest.take 7) 5 7 = slice rest 5 7 := by
      rw [slice_eq_drop_take, List.take_take, slice_eq_drop_take, Nat.min_self]
    have whole : 7 ≤ (rest.take 7).length ↔ 7 ≤ rest.length := by rw [List.length_take]; omega
    have here : preamble.isPrefixOf (rest.take 7) = preamble.isPrefixOf rest := opening (w := []) (by decide)
    simp only [headerAt, window, whole, here]

/-- Appended bytes do not change a header that has seven bytes to stand in. -/
theorem headerAt_drop_append (h : i + 7 ≤ b.length) (u : Bytes) :
    headerAt gm m req ((b ++ u).drop i) = headerAt gm m req (b.drop i) := by
  rw [← headerAt_take, List.drop_append_of_le_length (by omega),
    List.take_append_of_le_length (by rw [List.length_drop]; omega), headerAt_take]

/-! ## The match -/

/-- A match, position by position (44_correlator.md R242). -/
theorem correlate_eq_some_iff : correlate gm m req b = some (p, ld) ↔ headerAt gm m req (b.drop p) = true ∧
    (∀ q, q < p → headerAt gm m req (b.drop q) = false) ∧ (∃ x : Byte, b[p + 4]? = some x ∧ x.toNat = ld) ∧
      p + ld + 7 ≤ b.length := by
  rw [correlate_eq_some, firstSuffix_eq_some]
  constructor
  · rintro ⟨⟨-, here, before⟩, declared, inside⟩
    exact ⟨here, before, declared, inside⟩
  · rintro ⟨here, before, declared, inside⟩
    exact ⟨⟨by omega, here, before⟩, declared, inside⟩

/-- Settles O37: the header the statement asks for is the one `Correlate` looks for. -/
theorem correlateLeastHeader : Obligations.CorrelateLeastHeader := by
  intro gm mode req b header long spelled p ld
  have asked (i : Nat) : header i ↔ headerAt gm mode req (b.drop i) = true := by
    rw [spelled i]
    match mode, gm with
    | .std, _ => exact (headerAt_std_iff (by omega)).symm
    | .gpid, .literal57 => exact headerAt_literal57_iff.symm
    | .gpid, .tag23 => exact (headerAt_tag23_iff long).symm
  simp only [correlate_eq_some_iff, asked, Bool.not_eq_true]

/-- A match passes to a buffer that is no shorter, has the same headers up to its place and declares the same length. -/
theorem correlate_of_agree {b' : Bytes} (h : correlate gm m req b = some (p, ld)) (long : b.length ≤ b'.length)
    (headers : ∀ q, q ≤ p → headerAt gm m req (b'.drop q) = headerAt gm m req (b.drop q))
    (declares : b'[p + 4]? = b[p + 4]?) : correlate gm m req b' = some (p, ld) := by
  obtain ⟨here, before, declared, inside⟩ := correlate_eq_some_iff.1 h
  exact correlate_eq_some_iff.2 ⟨(headers p le_rfl).trans here, fun q hq => (headers q hq.le).trans (before q hq),
    declares ▸ declared, inside.trans long⟩

/-- A match lies inside its buffer. -/
theorem le_length_of_correlate (h : correlate gm m req b = some (p, ld)) : p + ld + 7 ≤ b.length := by
  obtain ⟨-, -, -, inside⟩ := correlate_eq_some_iff.1 h
  exact inside

/-- A match stays when bytes are appended (44_correlator.md R262). -/
theorem correlate_append (h : correlate gm m req b = some (p, ld)) (u : Bytes) :
    correlate gm m req (b ++ u) = some (p, ld) := by
  have inside := le_length_of_correlate h
  exact correlate_of_agree h (by rw [List.length_append]; omega)
    (fun q hq => headerAt_drop_append (by omega) u) (List.getElem?_append_left (by omega))

/-- A step at the deadline finds what is in all bytes that have arrived (44_correlator.md R262; log 20). -/
theorem State.found_of_due {s : State} (pos : 1 ≤ s.cfg.nRead) (due : s.corr.deadline ≤ s.now) :
    s.found = correlate s.cfg.gpidMatch s.corr.mode s.corr.req (s.corr.buf ++ s.rxq) := by
  obtain ⟨-, -, complete | exhausted, -⟩ := corrRead_of_le pos due
  · obtain ⟨⟨p, ld⟩, found⟩ := Option.isSome_iff_exists.1 complete
    have kept := correlate_append found (s.rxq.drop (corrRead s))
    rw [List.append_assoc, List.take_append_drop] at kept
    rw [found, kept]
  · rw [State.found, List.take_of_length_le exhausted]

/-- The response found is the same in all bytes that have arrived. -/
theorem State.response_of_all {s : State} (found : s.found = some (p, ld)) :
    s.response p ld = slice (s.corr.buf ++ s.rxq) p (p + ld + 7) := by
  conv_rhs => rw [← List.take_append_drop (corrRead s) s.rxq, ← List.append_assoc]
  exact (slice_append (le_length_of_correlate found) _ _).symm

/-- Settles O38: a match stays when bytes are appended, and a step at the deadline has read enough of them. -/
theorem correlateStable : Obligations.CorrelateStable :=
  ⟨fun _ _ _ _ u _ _ h => ⟨correlate_append h u, slice_append (le_length_of_correlate h) u _⟩,
    fun _ pos due => ⟨State.found_of_due pos due, fun _ _ => State.response_of_all⟩⟩

/-- A match at the first byte. -/
theorem correlate_eq_some_zero_iff : correlate gm m req b = some (0, ld) ↔ headerAt gm m req (b.drop 0) = true ∧
    (∃ x : Byte, b[4]? = some x ∧ x.toNat = ld) ∧ ld + 7 ≤ b.length := by
  simp [correlate_eq_some_iff]

/-- Settles O39: the window of the request is "ID", and the two readings look for it in different places. -/
theorem gpidCorrelation : Obligations.GpidCorrelation := by
  intro b x opening window declared length
  have asked : slice (envelope (0x47, 0x50) [0x49, 0x44]) 5 7 = [0x49, 0x44] := envelope_payload _ _
  have inside : 7 ≤ b.length := by omega
  have split : slice b 0 4 = slice b 0 2 ++ slice b 2 4 := List.take_add (i := 2) (j := 2)
  have whole : (∃ y : Byte, b[4]? = some y ∧ y.toNat = x.toNat) ∧ x.toNat + 7 ≤ b.length :=
    ⟨⟨x, declared, rfl⟩, length.ge⟩
  constructor
  · exact correlate_eq_some_zero_iff.2 ⟨headerAt_literal57_iff.2 ⟨by omega, opening, window.trans asked.symm⟩, whole⟩
  · rw [correlate_eq_some_zero_iff, and_iff_left whole, headerAt_tag23_iff (by simp), asked, Nat.zero_add, split,
      opening, List.append_cancel_left_eq, and_iff_right (by omega)]

/-- A changed byte does not change a header that ends before it. -/
theorem headerAt_std_drop_set (long : 4 ≤ req.length) {k : Nat} (h : i + 4 ≤ k) (x : Byte) :
    headerAt gm .std req ((b.set k x).drop i) = headerAt gm .std req (b.drop i) := by
  rw [Bool.eq_iff_iff, headerAt_std_iff long, headerAt_std_iff long, List.length_set, slice_set_of_ge h]

/-- A byte changed after the declared length of a match in the standard mode leaves the match. -/
theorem correlate_std_set (long : 4 ≤ req.length) (h : correlate gm .std req b = some (p, ld)) {k : Nat}
    (after : p + 5 ≤ k) (x : Byte) : correlate gm .std req (b.set k x) = some (p, ld) :=
  correlate_of_agree h (List.length_set ..).ge (fun _ _ => headerAt_std_drop_set long (by omega) x)
    (List.getElem?_set_ne (by omega))

/-- Settles O40: the two CRC bytes stand after the declared length. -/
theorem responseCrcIgnored : Obligations.ResponseCrcIgnored := fun _ _ _ _ _ x y long h =>
  correlate_std_set long (correlate_std_set long h (by omega) x) (by omega) y

end Sys2Proof.Machine
end

section
/-! SUPPORT. The issue of the exchange operations with an argument or a configured payload, and the speed switch of LOCK
and UNLOCK (44_correlator.md R247, R249 to R253, R257, R258). -/

namespace Sys2Proof.Machine

variable {s : State} {i : Instr} {op : ExchangeOp} {c : Code} {p : Bytes}

/-! ## The request -/

/-- An operation whose own checks have passed: the link's refusals, and its request at the speed it switches to
(44_correlator.md R247). -/
theorem exec_of_issueExchange {speed : Option Word} {m : MatchMode}
    (issued : exec i s = .next (issueExchange op speed c p m s.clearStatus)) : refusedByLink op.opcode i s ∧
      (s.status.owner = .none → s.linkOk = true →
        exec i s = .next ((speed.elim s s.atSpeed).requested op m (envelope c p))) := by
  refine ⟨refusedByLink_of issued, fun free up => ?_⟩
  rw [issued, issueExchange_ready free up]
  cases speed <;> rfl

/-! ## The field operations -/

/-- The issue of a field read with a bad argument (44_correlator.md R249). -/
theorem issueReadFields_bad (op : ExchangeOp) (c : Code) (bad : ¬idsArgOk s.arg = true) :
    issueReadFields op c s.clearStatus = s.ended op.opcode .badArg := if_neg bad

/-- The issue of a field read with a list of ids (44_correlator.md R249). -/
theorem issueReadFields_good (op : ExchangeOp) (c : Code) (good : idsArgOk s.arg = true) :
    issueReadFields op c s.clearStatus =
      issueExchange op none c ([BitVec.ofNat 8 (s.hinLen.toNat / 2)] ++ s.arg) .std s.clearStatus := by
  rw [← State.length_arg]
  exact if_pos good

/-- A field read: its word, its refusals and its request (44_correlator.md R249, R250). -/
theorem readFieldsOperation (i : Instr) (op : ExchangeOp) (c : Code)
    (issued : ∀ s, exec i s = .next (s.issue (issueReadFields op c)))
    (decoded : ∀ a b, decodeOpcode op.opcode a b = .ok i) :
    encodes op.opcode (fun _ _ => i) ∧ droppedWhileBusy i ∧ ∀ s : State, s.status.busy = false →
      (s.hinLen.toNat % 2 = 1 ∨ s.hinLen.toNat < 2 ∨ 126 < s.hinLen.toNat →
        exec i s = .next (s.ended op.opcode .badArg)) ∧
      (s.hinLen.toNat % 2 = 0 → 2 ≤ s.hinLen.toNat → s.hinLen.toNat ≤ 126 → refusedByLink op.opcode i s ∧
        (s.status.owner = .none → s.linkOk = true → exec i s =
          .next (s.requested op .std (envelope c ([BitVec.ofNat 8 (s.hinLen.toNat / 2)] ++ s.arg))))) := by
  refine ⟨encodes_of_decodeOpcode decoded, droppedWhileBusy_of_issue issued, fun s ready => ?_⟩
  have begun : exec i s = .next (issueReadFields op c s.clearStatus) := by rw [issued, State.issue_ready ready]
  refine ⟨fun bad => ?_, fun even least most => ?_⟩
  · rw [begun, issueReadFields_bad op c (mt (idsArgOk_arg s).1 (by omega))]
  · rw [issueReadFields_good op c ((idsArgOk_arg s).2 ⟨even, least, most⟩)] at begun
    exact exec_of_issueExchange begun

/-- Settles O21: both are field reads, with their own code. -/
theorem readFieldsOperations : Obligations.ReadFieldsOperations := by
  intro r hr
  simp only [List.mem_cons, List.not_mem_nil, or_false] at hr
  rcases hr with rfl | rfl <;> dsimp only
  · exact readFieldsOperation .getFields .getFields codeGF (fun _ => rfl) fun _ _ => rfl
  · exact readFieldsOperation .readFields .readFields codeRF (fun _ => rfl) fun _ _ => rfl

/-- A pair of the argument names the special field (44_correlator.md R251). -/
def State.NamesSpecial (s : State) : Prop :=
  ∃ id k, s.cfg.specialFieldId = some id ∧ 4 * k + 4 ≤ s.hinLen.toNat ∧ be16At s.arg (4 * k) = id.toNat

theorem namesField_arg (id : BitVec 16) (s : State) : namesField id s.arg = true ↔
    ∃ k, 4 * k + 4 ≤ s.hinLen.toNat ∧ be16At s.arg (4 * k) = id.toNat := by
  simp only [namesField, List.any_eq_true, List.mem_range, State.length_arg, beq_iff_eq]
  exact exists_congr fun k => and_congr_left' (by omega)

/-- What a field write checks of its argument (44_correlator.md R251). -/
theorem writeFieldsArg_ok_iff :
    (pairsArgOk s.arg && !(s.cfg.specialFieldId.any fun id => namesField id s.arg)) = true ↔
      pairsArgOk s.arg = true ∧ ¬s.NamesSpecial := by
  rw [Bool.and_eq_true, Bool.not_eq_true', ← Bool.not_eq_true]
  simp only [State.NamesSpecial, Option.any_eq_true, namesField_arg, exists_and_left]

/-- The issue of a field write with a bad argument (44_correlator.md R251). -/
theorem issueWriteFields_bad (op : ExchangeOp) (c : Code) (bad : pairsArgOk s.arg = true → s.NamesSpecial) :
    issueWriteFields op c s.clearStatus = s.ended op.opcode .badArg :=
  if_neg fun ok =>
    have ⟨pairs, unnamed⟩ := writeFieldsArg_ok_iff.1 ok
    unnamed (bad pairs)

/-- The issue of a field write with a list of pairs (44_correlator.md R251). -/
theorem issueWriteFields_good (op : ExchangeOp) (c : Code) (pairs : pairsArgOk s.arg = true)
    (unnamed : ¬s.NamesSpecial) : issueWriteFields op c s.clearStatus =
      issueExchange op none c ([BitVec.ofNat 8 (s.hinLen.toNat / 4)] ++ s.arg) .std s.clearStatus := by
  rw [← State.length_arg]
  exact if_pos (writeFieldsArg_ok_iff.2 ⟨pairs, unnamed⟩)

/-- A field write: its word, its refusals and its request (44_correlator.md R251, R252). -/
theorem writeFieldsOperation (i : Instr) (op : ExchangeOp) (c : Code)
    (issued : ∀ s, exec i s = .next (s.issue (issueWriteFields op c)))
    (decoded : ∀ a b, decodeOpcode op.opcode a b = .ok i) :
    encodes op.opcode (fun _ _ => i) ∧ droppedWhileBusy i ∧ ∀ s : State, s.status.busy = false →
      (s.hinLen.toNat % 4 ≠ 0 ∨ s.hinLen.toNat < 4 ∨ 252 < s.hinLen.toNat →
        exec i s = .next (s.ended op.opcode .badArg)) ∧
      (∀ id k, s.cfg.specialFieldId = some id → 4 * k + 4 ≤ s.hinLen.toNat → be16At s.arg (4 * k) = id.toNat →
        exec i s = .next (s.ended op.opcode .badArg)) ∧
      (s.hinLen.toNat % 4 = 0 → 4 ≤ s.hinLen.toNat → s.hinLen.toNat ≤ 252 →
        (∀ id k, s.cfg.specialFieldId = some id → 4 * k + 4 ≤ s.hinLen.toNat →
          be16At s.arg (4 * k) ≠ id.toNat) →
        refusedByLink op.opcode i s ∧
        (s.status.owner = .none → s.linkOk = true → exec i s =
          .next (s.requested op .std (envelope c ([BitVec.ofNat 8 (s.hinLen.toNat / 4)] ++ s.arg))))) := by
  refine ⟨encodes_of_decodeOpcode decoded, droppedWhileBusy_of_issue issued, fun s ready => ?_⟩
  have begun : exec i s = .next (issueWriteFields op c s.clearStatus) := by rw [issued, State.issue_ready ready]
  have refused (bad : pairsArgOk s.arg = true → s.NamesSpecial) : exec i s = .next (s.ended op.opcode .badArg) := by
    rw [begun, issueWriteFields_bad op c bad]
  refine ⟨fun bad => refused fun pairs => ?_, fun id k special inside named =>
    refused fun _ => ⟨id, k, special, inside, named⟩, fun fours least most unnamed => ?_⟩
  · have := (pairsArgOk_arg s).1 pairs
    omega
  · rw [issueWriteFields_good op c ((pairsArgOk_arg s).2 ⟨fours, least, most⟩)
      fun ⟨id, k, special, inside, named⟩ => unnamed id k special inside named] at begun
    exact exec_of_issueExchange begun

/-- Settles O22: both are field writes, with their own code. -/
theorem writeFieldsOperations : Obligations.WriteFieldsOperations := by
  intro r hr
  simp only [List.mem_cons, List.not_mem_nil, or_false] at hr
  rcases hr with rfl | rfl <;> dsimp only
  · exact writeFieldsOperation .writeFieldsTemp .writeFieldsTemp codeSF (fun _ => rfl) fun _ _ => rfl
  · exact writeFieldsOperation .writeFieldsPerm .writeFieldsPerm codeWF (fun _ => rfl) fun _ _ => rfl

/-! ## SET_QUIET -/

theorem exec_setQuiet (ready : s.status.busy = false) : exec .setQuiet s = .next (s.cfg.quietPayload.elim
    (s.ended 0x25 .notConfigured) fun p => issueExchange .setQuiet none codeSF p .std s.clearStatus) := by
  have issued : exec .setQuiet s = .next (s.issue _) := rfl
  rw [issued, State.issue_ready ready]
  dsimp only [State.clearStatus]
  cases s.cfg.quietPayload <;> rfl

/-- Settles O23: the payload is looked for before the link. -/
theorem setQuietOperation : Obligations.SetQuietOperation := by
  refine ⟨encodes_of_decodeOpcode fun _ _ => rfl, droppedWhileBusy_of_issue fun _ => rfl, fun s ready =>
    ⟨fun missing => ?_, fun p configured => exec_of_issueExchange (op := .setQuiet) (speed := none) ?_⟩⟩
  · rw [exec_setQuiet ready, missing]
    rfl
  · rw [exec_setQuiet ready, configured]
    rfl

/-! ## LOCK and UNLOCK -/

/-- The codes 0 to 2 name the regions in their order (30_encoding.md R104). -/
theorem regionOfCode_eq (region : Nat) : regionOfCode region = [Region.eeprom, .app, .boot][region]? := by
  match region with
  | 0 | 1 | 2 => rfl
  | n + 3 => exact regionOfCode_of_ge (Nat.le_add_left 3 n)

/-- The issue of LOCK and UNLOCK with a value of the region missing (44_correlator.md R257, R258). -/
theorem issueRegion_missing {code : Option Code} {payload : Option Bytes} (speed : Word)
    (missing : code = none ∨ payload = none) :
    issueRegion op speed code payload s.clearStatus = s.ended op.opcode .notConfigured := by
  obtain rfl | rfl := missing
  · rfl
  · cases code <;> rfl

/-- An operation with a region refuses a code above 2 and a region with a value missing, and else makes its request at
the region's speed (44_correlator.md R257, R258). -/
theorem exec_of_region {region : Nat} {speed : Region → Word} {code : Region → Option Code}
    {payload : Region → Option Bytes} (begun : exec i s = .next ((regionOfCode region).elim
      (s.ended op.opcode .badArg) fun r => issueRegion op (speed r) (code r) (payload r) s.clearStatus)) :
    (3 ≤ region → exec i s = .next (s.ended op.opcode .badArg)) ∧
      ∀ r, [Region.eeprom, .app, .boot][region]? = some r →
        (code r = none ∨ payload r = none → exec i s = .next (s.ended op.opcode .notConfigured)) ∧
        ∀ c p, code r = some c → payload r = some p → refusedByLink op.opcode i s ∧
          (s.status.owner = .none → s.linkOk = true →
            exec i s = .next ((s.atSpeed (speed r)).requested op .std (envelope c p))) := by
  refine ⟨fun high => ?_, fun r named => ?_⟩
  · rw [begun, regionOfCode_of_ge high]
    rfl
  · rw [regionOfCode_eq, named] at begun
    refine ⟨fun missing => begun.trans (congrArg _ (issueRegion_missing _ missing)), fun c p hc hp => ?_⟩
    rw [Option.elim_some, hc, hp] at begun
    exact exec_of_issueExchange (speed := some (speed r)) begun

theorem exec_lock (region : Nat) (ready : s.status.busy = false) : exec (.lock region) s =
    .next ((regionOfCode region).elim (s.ended 0x29 .badArg) fun r =>
      issueRegion .lock 230400 (s.cfg.lockCode.get r) (s.cfg.lockPayload.get r) s.clearStatus) := by
  have issued : exec (.lock region) s = .next (s.issue _) := rfl
  rw [issued, State.issue_ready ready]
  cases regionOfCode region <;> rfl

/-- Settles O24: the request goes out at 230400 whatever the region. -/
theorem lockOperation : Obligations.LockOperation :=
  ⟨encodes_of_decodeOpcode_args fun _ _ => rfl, fun _ => droppedWhileBusy_of_issue fun _ => rfl,
    fun _ region ready => exec_of_region (op := .lock) (speed := fun _ => 230400) (exec_lock region ready)⟩

theorem exec_unlock (region : Nat) (ready : s.status.busy = false) : exec (.unlock region) s =
    .next ((regionOfCode region).elim (s.ended 0x2A .badArg) fun r =>
      issueRegion .unlock (unlockSpeed r) (s.cfg.unlockCode.get r) (s.cfg.unlockKey.map (·.toList))
        s.clearStatus) := by
  have issued : exec (.unlock region) s = .next (s.issue _) := rfl
  rw [issued, State.issue_ready ready]
  cases regionOfCode region <;> rfl

/-- The EEPROM alone is unlocked at 115200 (44_correlator.md R258). -/
theorem unlockSpeed_eq (r : Region) : unlockSpeed r = if r = .eeprom then 115200 else 230400 := by cases r <;> rfl

/-- Settles O25: the request goes out at the region's speed, with the key for its payload. -/
theorem unlockOperation : Obligations.UnlockOperation := by
  refine ⟨encodes_of_decodeOpcode_args fun _ _ => rfl, fun _ => droppedWhileBusy_of_issue fun _ => rfl,
    fun s region ready => ?_⟩
  have ⟨refused, named⟩ := exec_of_region (op := .unlock) (exec_unlock region ready)
  refine ⟨refused, fun r found => ?_⟩
  have ⟨missing, configured⟩ := named r found
  rw [unlockSpeed_eq] at configured
  exact ⟨fun absent => missing (absent.imp_right fun keyless => by rw [keyless]; rfl), fun c k code key =>
    configured c k.toList code (by rw [key]; rfl)⟩

end Sys2Proof.Machine
end

section
/-! SUPPORT. The responses of the field operations and of GET_PRODUCT_INFO, and the two quiet exchanges of an upgrade
(44_correlator.md R246, R251, R252, R260, R261; 45_upgrade.md R294, R299). -/

namespace Sys2Proof.Machine

variable {s : State} {op : ExchangeOp} {resp payload : Bytes} {p ld c k : Nat}

/-! ## The payload of a response -/

/-- A match completes a host exchange with the operation's own handling (44_correlator.md R246, R259). -/
theorem perform_of_found (enabled : agentEnabled s .corr = true) (client : s.corr.client = .hostOp op)
    (found : s.found = some (p, ld)) :
    perform (.agent .corr) s = .next (onResponse op (s.response p ld) s.exchanged) :=
  (perform_agent enabled).trans (congrArg _ (corrStep_of_found client found))

/-- The payload of a response found has the declared length (44_correlator.md R243). -/
theorem length_payload_of_found (found : s.found = some (p, ld)) :
    (slice (s.response p ld) 5 (5 + ld)).length = ld := by
  obtain ⟨length, -⟩ := State.response_of_found found
  rw [length_slice, length]
  omega

/-- The bytes of a payload stand five bytes further on in the response. -/
theorem slice_payload (resp : Bytes) (i : Nat) {j : Nat} (h : j ≤ ld) :
    slice (slice resp 5 (5 + ld)) i j = slice resp (5 + i) (5 + j) := slice_slice resp i (by omega)

/-! ## The field operations -/

/-- What a response to a field read leaves (44_correlator.md R260). -/
theorem parseFields_eq (opc : Byte) (resp : Bytes) (s : State) : parseFields opc resp s =
    if declaredLength resp ≠ 1 + 4 * requestCount s.corr.req ∨
        ((responsePayload resp).getD 0 0).toNat ≠ requestCount s.corr.req then
      s.completed opc .malformedFieldResponse
    else { s.completed opc .none with
      res0 := BitVec.ofNat 32 (requestCount s.corr.req)
      res1 := 0
      houtLen := BitVec.ofNat 32
        (slice (responsePayload resp) 1 (1 + 4 * requestCount s.corr.req)).length
      hout := Memory.ofBytes (slice (responsePayload resp) 1 (1 + 4 * requestCount s.corr.req)) } := rfl

/-- What a response to a field write leaves (44_correlator.md R251). -/
theorem parseWriteEcho_eq (opc : Byte) (resp : Bytes) (s : State) : parseWriteEcho opc resp s =
    if declaredLength resp ≠ 1 + 2 * requestCount s.corr.req then s.completed opc .malformedFieldResponse
    else { s.completed opc .none with
      res0 := BitVec.ofNat 32 (requestCount s.corr.req)
      houtLen := BitVec.ofNat 32 resp.length
      hout := Memory.ofBytes resp } := rfl

theorem onResponse_readFields (h : op ∈ [.getFields, .readFields]) (resp : Bytes) (s : State) :
    onResponse op resp s = parseFields op.opcode resp s := by
  simp only [List.mem_cons, List.not_mem_nil, or_false] at h
  rcases h with rfl | rfl <;> rfl

theorem onResponse_writeFields (h : op ∈ [.writeFieldsTemp, .writeFieldsPerm]) (resp : Bytes) (s : State) :
    onResponse op resp s = parseWriteEcho op.opcode resp s := by
  simp only [List.mem_cons, List.not_mem_nil, or_false] at h
  rcases h with rfl | rfl <;> rfl

/-- The count byte of a field response, in the payload and in the response. -/
theorem getD_payload_zero (resp : Bytes) (h : 1 ≤ ld) : (slice resp 5 (5 + ld)).getD 0 0 = resp.getD 5 0 := by
  rw [List.getD_eq_getElem?_getD, getElem?_slice, if_pos (by omega), List.getD_eq_getElem?_getD]

/-- Settles O42: a field response is checked for its length and its count, or for its length alone. -/
theorem fieldResponses : Obligations.FieldResponses := by
  intro s op p ld c enabled client found count
  obtain ⟨length, declared, -, carried⟩ := State.response_of_found found
  have asked : requestCount s.exchanged.corr.req = c := count
  rw [perform_of_found enabled client found]
  refine ⟨fun read => ?_, fun write => ?_⟩
  · rw [onResponse_readFields read, parseFields_eq, asked, declared, carried]
    refine ⟨fun bad => ?_, fun long counted => ?_⟩
    · rw [if_pos]
      by_cases long : ld = 1 + 4 * c
      · rw [getD_payload_zero _ (by omega)]
        exact bad
      · exact .inl long
    · have values : slice (slice (s.response p ld) 5 (5 + ld)) 1 (1 + 4 * c) =
          slice (s.response p ld) 6 (6 + 4 * c) := by
        rw [slice_payload _ _ long.ge, ← Nat.add_assoc]
      have size : (slice (s.response p ld) 6 (6 + 4 * c)).length = 4 * c := by
        rw [length_slice, length]
        omega
      rw [if_neg (by rw [getD_payload_zero _ (by omega)]; omega), values, size]
      exact ⟨_, rfl, rfl, houtHolds_of rfl⟩
  · rw [onResponse_writeFields write, parseWriteEcho_eq, asked, declared, length]
    refine ⟨fun bad => by rw [if_pos bad], fun long => ?_⟩
    rw [if_neg (not_not.2 long)]
    exact ⟨_, rfl, rfl, houtHolds_of rfl⟩

/-! ## GET_PRODUCT_INFO -/

/-- What a response to GET_PRODUCT_INFO leaves (44_correlator.md R261). -/
theorem parseProduct_eq (opc : Byte) (resp : Bytes) (s : State) : parseProduct opc resp s =
    if declaredLength resp < 4 then s.completed opc .malformedFieldResponse
    else { s.completed opc .none with
      res0 := BitVec.ofNat 32 (be32At (responsePayload resp) 0)
      res1 := BitVec.ofNat 32 (stringEnd (responsePayload resp) - 4)
      houtLen := BitVec.ofNat 32 (slice (responsePayload resp) 4 (stringEnd (responsePayload resp))).length
      hout := Memory.ofBytes (slice (responsePayload resp) 4 (stringEnd (responsePayload resp))) } := rfl

/-- Four bytes as a number, the high byte first (00_scope.md R14). -/
theorem be32At_zero_eq (long : 4 ≤ payload.length) : be32At payload 0 =
    ((payload.getD 0 0).toNat * 256 + (payload.getD 1 0).toNat) * 65536 + (payload.getD 2 0).toNat * 256 +
      (payload.getD 3 0).toNat := by
  match payload, long with
  | a :: b :: c :: d :: _, _ =>
    simp only [be32At, slice, beNat, List.drop_zero, Nat.zero_add, Nat.sub_zero, List.take_succ_cons, List.take_zero,
      List.foldl_cons, List.foldl_nil, List.getD_cons_zero, List.getD_cons_succ]
    omega

/-- The string ends at the first NUL after the serial number, or with the payload (44_correlator.md R261). -/
theorem stringEnd_eq (low : 4 ≤ k) (before : ∀ j, 4 ≤ j → j < k → payload[j]? ≠ some 0)
    (ends : k = payload.length ∨ payload[k]? = some 0) : stringEnd payload = k := by
  unfold stringEnd
  cases found : (payload.drop 4).idxOf? 0 with
  | none =>
    obtain whole | nul := ends
    · exact whole.symm
    · rw [List.idxOf?_eq_none_iff] at found
      rw [← Nat.add_sub_cancel' low, ← List.getElem?_drop] at nul
      exact absurd (List.mem_of_getElem? nul) found
  | some j =>
    change j + 4 = k
    obtain ⟨short, nul, first⟩ := List.idxOf?_eq_some_iff.1 found
    rw [List.length_drop] at short
    have nul : payload[j + 4]? = some 0 := by
      rw [Nat.add_comm, ← List.getElem?_drop, List.getElem?_eq_some_iff]
      exact ⟨_, nul⟩
    refine le_antisymm (Nat.le_of_not_lt fun late => ?_) (Nat.le_of_not_lt fun early => before _ (by omega) early nul)
    obtain whole | here := ends
    · omega
    · refine first (k - 4) (by omega) (Option.some.inj ?_)
      rw [← List.getElem?_eq_getElem, List.getElem?_drop, Nat.add_sub_cancel' low, here]

/-- Settles O43: the serial number and the string of a payload with room for them. -/
theorem productResponse : Obligations.ProductResponse := by
  rintro s p ld payload enabled client found rfl
  obtain ⟨-, declared, -, carried⟩ := State.response_of_found found
  have length := length_payload_of_found found
  have handled : onResponse .getProductInfo (s.response p ld) s.exchanged =
      parseProduct 0x20 (s.response p ld) s.exchanged := rfl
  rw [perform_of_found enabled client found, handled, parseProduct_eq, declared, carried]
  refine ⟨fun short => by rw [if_pos short], fun k long low inside before ends => ?_⟩
  have string : (slice (slice (s.response p ld) 5 (5 + ld)) 4 k).length = k - 4 := by
    rw [length_slice, length]
    omega
  rw [if_neg (Nat.not_lt.2 long), be32At_zero_eq (long.trans length.ge),
    stringEnd_eq low before (ends.imp_left fun whole => whole.trans length.symm), string]
  exact ⟨_, rfl, rfl, houtHolds_of rfl⟩

/-! ## The quiet exchanges of an upgrade -/

/-- The state in which an exchange of an upgrade has ended and its result is to be handled (44_correlator.md R246;
log 8). -/
theorem corrEnded_afterRead (s : State) : s.afterRead.corrEnded = { s with
    rxq := s.rxq.drop (corrRead s)
    corr := { s.corr with phase := .idle, buf := s.corr.buf ++ s.rxq.take (corrRead s), client := .none } } := rfl

/-- A correlated response ends an exchange of an upgrade, whatever it holds (45_upgrade.md R294). -/
theorem corrStep_of_found_upg (client : s.corr.client = .upg) (found : s.found.isSome = true) :
    ∃ resp, corrStep s = deliverUpgrade (some resp) s.afterRead.corrEnded := by
  obtain ⟨⟨p, ld⟩, found⟩ := Option.isSome_iff_exists.1 found
  refine ⟨s.response p ld, ?_⟩
  rw [corrStep_eq, found]
  exact deliver_upg (s := s.afterRead) client

/-- No response at the deadline ends an exchange of an upgrade (45_upgrade.md R294). -/
theorem corrStep_of_timeout_upg (client : s.corr.client = .upg) (missing : s.found = none)
    (due : s.corr.deadline ≤ s.now) : corrStep s = deliverUpgrade none s.afterRead.corrEnded := by
  rw [corrStep_eq, missing]
  exact (if_pos due).trans (deliver_upg (s := s.afterRead) client)

/-- The row U_Q1 on a response: the speed switch and the second request (45_upgrade.md R294). -/
theorem deliverUpgrade_q1 {q : Bytes} (phase : s.upg.phase = .q1) (quiet : s.cfg.quietPayload = some q) (resp : Bytes) :
    deliverUpgrade (some resp) s = { s with
      baud := 230400
      rxq := []
      corr :=
        { phase := .wait, req := envelope (0x53, 0x46) q, mode := .std, deadline := s.now + 3000, buf := []
          client := .upg }
      upg := { s.upg with stage := .quietSet, phase := .q2 }
      hist := s.hist ++ [.baud 230400 s.now, .tx (envelope (0x53, 0x46) q) 230400 s.now] } := by
  have payload : q = s.cfg.quietPayload.getD [] := by rw [quiet, Option.getD_some]
  unfold deliverUpgrade
  rw [payload, List.append_cons, phase]
  rfl

/-- The row U_Q2 on a response: the wait before `JI` (45_upgrade.md R294). -/
theorem deliverUpgrade_q2 (phase : s.upg.phase = .q2) (resp : Bytes) : deliverUpgrade (some resp) s =
    { s with upg := { s.upg with deadline := s.now + 2000, phase := .w1 } } := by
  unfold deliverUpgrade
  rw [phase]
  rfl

/-- The rows U_Q1 and U_Q2 on a timeout: each phase's own error (45_upgrade.md R294, R299). -/
theorem deliverUpgrade_timeout {e : ErrorCode} (row : s.upg.phase = .q1 ∧ e = .responseTimeout ∨
    s.upg.phase = .q2 ∧ e = .bootloaderEntryFailed) : deliverUpgrade none s = failUpgrade e s := by
  unfold deliverUpgrade
  obtain ⟨phase, rfl⟩ | ⟨phase, rfl⟩ := row <;> rw [phase]

/-- What a failed upgrade leaves (45_upgrade.md R299, R300). -/
theorem failUpgrade_eq (e : ErrorCode) (s : State) : failUpgrade e s = { s with
    status := { s.status with busy := false, done := true, err := true, errcode := e, owner := .none }
    ackr := { s.ackr with phase := .idle }
    upg := { s.upg with failStage := s.upg.stage, stage := .failed, session := false, phase := .none }
    hist := s.hist ++ [.done 0x30 e s.now] } := rfl

/-- Settles O47: the row of the phase, on the state in which the exchange has ended. -/
theorem upgradeQuietPhases : Obligations.UpgradeQuietPhases := by
  rintro s base q enabled client quiet ended
  rw [← corrEnded_afterRead] at ended
  subst ended
  rw [perform_agent enabled]
  refine ⟨fun phase found => ?_, fun phase found => ?_, fun missing early => ?_, fun e row missing due => ?_⟩
  · obtain ⟨resp, step⟩ := corrStep_of_found_upg client found
    exact congrArg _ (step.trans (deliverUpgrade_q1 (s := s.afterRead.corrEnded) phase quiet resp))
  · obtain ⟨resp, step⟩ := corrStep_of_found_upg client found
    exact congrArg _ (step.trans (deliverUpgrade_q2 (s := s.afterRead.corrEnded) phase resp))
  · rw [← corrRead_of_lt early]
    exact congrArg _ (corrStep_of_pending missing early)
  · refine congrArg _ ((corrStep_of_timeout_upg client missing due).trans ?_)
    exact (deliverUpgrade_timeout (s := s.afterRead.corrEnded) row).trans (failUpgrade_eq e _)

end Sys2Proof.Machine
end

section
/-! SUPPORT. The firmware upgrade: the padded image, the start of a session, the phases that wait for a deadline, and
the acknowledgements (45_upgrade.md R290 to R300). -/

namespace Sys2Proof.Machine

variable {s : State} {a : Bytes}

/-! ## The padded image -/

/-- An aligned image takes no padding (45_upgrade.md R291). -/
theorem padImage_of_aligned {img : Bytes} (aligned : img.length % 16 = 0) : padImage img = img := by
  have unpadded : (Config.padAlign - img.length % Config.padAlign) % Config.padAlign = 0 := by
    simp only [Config.padAlign]
    omega
  rw [padImage, unpadded]
  exact List.append_nil img

/-- Settles O45: the zeros after the image fill it up to the next multiple of 16. -/
theorem paddedImage : Obligations.PaddedImage := by
  intro img
  obtain ⟨aligned, ge, le⟩ := length_padImage img
  refine ⟨List.take_left, fun b hb => ?_, aligned, ge, le, padImage_of_aligned, fun n hn hle => by omega⟩
  rw [padImage, List.drop_left] at hb
  exact List.eq_of_mem_replicate hb

/-! ## The start of a session -/

/-- The checks of UPG_START in their order, on a block that is not busy (45_upgrade.md R290). -/
theorem exec_upgStart (ready : s.status.busy = false) : exec .upgStart s = .next (
    if s.hinLen = 0 ∨ s.cfg.maxImage < s.hinLen.toNat then s.ended 0x30 .badArg
    else s.cfg.quietPayload.elim (s.ended 0x30 .notConfigured) fun _ =>
      s.clearStatus.openLink 0x30 fun s => startQuiet ((beginSession s.arg s).claimLink .upgrade true)) := by
  have issued : exec .upgStart s = .next (s.issue _) := rfl
  rw [issued, State.issue_ready ready]
  dsimp only [State.clearStatus]
  cases s.cfg.quietPayload <;> rfl

/-- Settles O26: the image is looked at before the payload, and the payload before the link. -/
theorem upgStartOperation : Obligations.UpgStartOperation := by
  refine ⟨encodes_of_decodeOpcode fun _ _ => rfl, droppedWhileBusy_of_issue fun _ => rfl, fun s ready => ?_⟩
  have empty : s.hinLen = 0 ↔ s.hinLen.toNat = 0 := BitVec.toNat_inj.symm
  have begun := exec_upgStart ready
  simp only [empty] at begun
  refine ⟨fun bad => by rw [begun, if_pos bad], fun nonempty fits => ?_⟩
  rw [if_neg (not_or.2 ⟨nonempty, Nat.not_lt.2 fits⟩)] at begun
  refine ⟨fun missing => by rw [begun, missing]; rfl, fun p configured => ?_⟩
  rw [configured, Option.elim_some] at begun
  refine ⟨refusedByLink_of begun, fun free up => ?_⟩
  have payload : p = s.cfg.quietPayload.getD [] := by rw [configured, Option.getD_some]
  rw [begun, State.openLink_open (s := s.clearStatus) free up, payload]
  rfl

/-! ## The phases that wait for a deadline -/

theorem waitsForDeadline_iff (ph : UpgPhase) : ph.waitsForDeadline = true ↔
    ph = .w1 ∨ ph = .w2 ∨ ph = .be ∨ ph = .bw ∨ ph = .pj := by
  cases ph <;> decide

/-- When a `UPG` step is enabled (45_upgrade.md R294). -/
theorem agentEnabled_upg : agentEnabled s .upg = true ↔
    (s.upg.phase = .w1 ∨ s.upg.phase = .w2 ∨ s.upg.phase = .be ∨ s.upg.phase = .bw ∨ s.upg.phase = .pj) ∧
      s.upg.deadline ≤ s.now := by
  simp only [agentEnabled, upgEnabled, Bool.and_eq_true, decide_eq_true_eq, waitsForDeadline_iff]

/-- A `UPG` step whose deadline has come is the row of its phase (45_upgrade.md R294). -/
theorem perform_upg {ph : UpgPhase} (due : s.upg.deadline ≤ s.now) (phase : s.upg.phase = ph)
    (waits : ph.waitsForDeadline = true) : perform (.agent .upg) s = .next (upgStep s) :=
  perform_agent (agentEnabled_upg.2 ⟨(waitsForDeadline_iff _).1 (phase ▸ waits), due⟩)

theorem upgStep_w1 (phase : s.upg.phase = .w1) :
    upgStep s = waitUntil Config.postJiMs .w2 (s.flushIn.transmit (envelope codeJI [])) := by
  unfold upgStep
  rw [phase]

theorem upgStep_w2 (phase : s.upg.phase = .w2) : upgStep s = setPhase .jiAck (startAck Config.jiAckLen s) := by
  unfold upgStep
  rw [phase]

theorem upgStep_be (phase : s.upg.phase = .be) : upgStep s = sendBlock 0 (s.switchBaud Config.baudBlock) := by
  unfold upgStep
  rw [phase]

theorem upgStep_bw (phase : s.upg.phase = .bw) : upgStep s = setPhase .back (startAck Config.waAckLen s) := by
  unfold upgStep
  rw [phase]

theorem upgStep_pj (phase : s.upg.phase = .pj) : upgStep s =
    setPhase .jaAck (startAck Config.jaAckLen (s.flushIn.transmit (envelope codeJA []))) := by
  unfold upgStep
  rw [phase]

/-- The request to enter the bootloader, with its CRC (30_encoding.md R106, R109). -/
theorem envelope_codeJI : envelope codeJI [] = [0x55, 0x55, 0x4A, 0x49, 0x00, 0x7C, 0x34] := by decide +kernel

/-- The request to resume the application, with its CRC (30_encoding.md R106, R109). -/
theorem envelope_codeJA : envelope codeJA [] = [0x55, 0x55, 0x4A, 0x41, 0x00, 0xF5, 0x9D] := by decide +kernel

theorem slice_add (b : Bytes) (o n : Nat) : slice b o (o + n) = (b.drop o).take n := by
  rw [slice, Nat.add_sub_cancel_left]

/-- What the sending of a block leaves (45_upgrade.md R293). -/
theorem sendBlock_eq {o n : Nat} (count : n = min 192 (s.upg.total.toNat - o)) : sendBlock o s = { s with
    rxq := []
    upg := { s.upg with
      chunk := n
      stage := .writing
      deadline := s.now + (if o = 0 then 26000 else 100)
      phase := .bw }
    hist := s.hist ++ [.tx (blockRequest o ((s.upg.img.drop o).take n)) s.baud s.now] } := by
  rw [← slice_add, count]
  rfl

/-- Settles O46: the row of each phase whose deadline has come. -/
theorem upgradeTimedPhases : Obligations.UpgradeTimedPhases := by
  refine ⟨fun s => agentEnabled_upg, fun s o n => sendBlock_eq, fun s due =>
    ⟨fun phase => ?_, fun phase => ?_, fun phase => ?_, fun phase => ?_, fun phase => ?_⟩⟩
  · rw [perform_upg due phase rfl, upgStep_w1 phase, envelope_codeJI]
    rfl
  · rw [perform_upg due phase rfl, upgStep_w2 phase]
    rfl
  · rw [perform_upg due phase rfl, upgStep_be phase, List.append_cons s.hist (.baud 57600 s.now)]
    exact congrArg _ (sendBlock_eq (s := s.switchBaud 57600) (o := 0) rfl)
  · rw [perform_upg due phase rfl, upgStep_bw phase]
    rfl
  · rw [perform_upg due phase rfl, upgStep_pj phase, envelope_codeJA]
    rfl

/-! ## The acknowledgements -/

/-- When an `ACKR` step is enabled (45_upgrade.md R295). -/
theorem agentEnabled_ackr :
    agentEnabled s .ackr = true ↔ s.ackr.phase = .wait ∧ (s.rxq ≠ [] ∨ s.ackr.deadline ≤ s.now) := by
  simp [agentEnabled, ackrEnabled]

/-- An acknowledgement that is short before the deadline is kept, and the reader waits on (45_upgrade.md R295). -/
theorem ackrStep_of_short (short : s.ackrRead.ackr.buf.length ≠ s.ackr.need) (early : s.now < s.ackr.deadline) :
    ackrStep s = s.ackrRead := by
  rw [ackrStep_eq]
  exact if_neg (not_or.2 ⟨short, Nat.not_le.2 early⟩)

/-- A whole acknowledgement, or what has come at the deadline, ends the read (45_upgrade.md R295). -/
theorem ackrStep_of_ended (ended : s.ackrRead.ackr.buf.length = s.ackr.need ∨ s.ackr.deadline ≤ s.now) :
    ackrStep s = deliverAck s.ackrRead.ackr.buf s.ackrRead.ackrEnded := by
  rw [ackrStep_eq]
  exact if_pos ended

/-- What an acknowledgement is accepted by: its length and its first four bytes (45_upgrade.md R296, R297). -/
theorem ackOk_iff {n : Nat} {c : Code} :
    ackOk n c a = true ↔ a.length = n ∧ a.take 4 = [0x55, 0x55, c.1, c.2] := by
  rw [ackOk, Bool.and_eq_true, beq_iff_eq, List.isPrefixOf_iff_prefix, List.prefix_iff_eq_take, eq_comm (b := a.take _)]
  rfl

theorem jiOk_iff : jiOk a = true ↔ a.length = 7 ∧ a.take 4 = [0x55, 0x55, 0x4A, 0x49] := ackOk_iff

theorem waOk_iff : waOk a = true ↔ a.length = 12 ∧ a.take 4 = [0x55, 0x55, 0x57, 0x41] := ackOk_iff

/-- The row U_JIACK (45_upgrade.md R294). -/
theorem deliverAck_jiAck (phase : s.upg.phase = .jiAck) : deliverAck a s =
    if jiOk a then waitUntil 0 .be (setStage .bootloaderEntered s) else failUpgrade .bootloaderEntryFailed s := by
  unfold deliverAck
  rw [phase]

/-- The row U_BACK (45_upgrade.md R294). -/
theorem deliverAck_back (phase : s.upg.phase = .back) : deliverAck a s =
    if waOk a then
      if (recordBlock s).upg.written = s.upg.total then
        waitUntil Config.preJaMs .pj (setStage .complete (recordBlock s))
      else sendBlock (recordBlock s).upg.written.toNat (recordBlock s)
    else failUpgrade .blockWriteFailed s := by
  unfold deliverAck
  rw [phase]
  rfl

/-- The row U_JAACK, whatever came (45_upgrade.md R294). -/
theorem deliverAck_jaAck (phase : s.upg.phase = .jaAck) :
    deliverAck a s = completeUpgrade (setStage .appResumed s) := by
  unfold deliverAck
  rw [phase]

/-- A right JI acknowledgement enters the bootloader (45_upgrade.md R294, R296). -/
theorem deliverAck_entered (phase : s.upg.phase = .jiAck) (length : a.length = 7)
    (opening : a.take 4 = [0x55, 0x55, 0x4A, 0x49]) :
    deliverAck a s = waitUntil 0 .be (setStage .bootloaderEntered s) := by
  rw [deliverAck_jiAck phase, if_pos (jiOk_iff.2 ⟨length, opening⟩)]

/-- A right WA acknowledgement counts the block, and the session goes on by what is written (45_upgrade.md R294,
R297). -/
theorem deliverAck_counted (phase : s.upg.phase = .back) (length : a.length = 12)
    (opening : a.take 4 = [0x55, 0x55, 0x57, 0x41]) : deliverAck a s =
    if (recordBlock s).upg.written = s.upg.total then waitUntil Config.preJaMs .pj (setStage .complete (recordBlock s))
    else sendBlock (recordBlock s).upg.written.toNat (recordBlock s) := by
  rw [deliverAck_back phase, if_pos (waOk_iff.2 ⟨length, opening⟩)]

/-- A short or wrong acknowledgement fails the session with its phase's own error (45_upgrade.md R294, R299). -/
theorem deliverAck_wrong {e : ErrorCode}
    (row : s.upg.phase = .jiAck ∧ ¬(a.length = 7 ∧ a.take 4 = [0x55, 0x55, 0x4A, 0x49]) ∧ e = .bootloaderEntryFailed ∨
      s.upg.phase = .back ∧ ¬(a.length = 12 ∧ a.take 4 = [0x55, 0x55, 0x57, 0x41]) ∧ e = .blockWriteFailed) :
    deliverAck a s = failUpgrade e s := by
  obtain ⟨phase, wrong, rfl⟩ | ⟨phase, wrong, rfl⟩ := row
  · rw [deliverAck_jiAck phase, if_neg (mt jiOk_iff.1 wrong)]
  · rw [deliverAck_back phase, if_neg (mt waOk_iff.1 wrong)]

/-- Settles O48: the row of the phase, on the state in which the read has ended. -/
theorem upgradeAckPhases : Obligations.UpgradeAckPhases := by
  refine ⟨fun s => agentEnabled_ackr, ?_⟩
  rintro s base a enabled rfl rfl
  rw [perform_agent enabled]
  refine ⟨fun short early => congrArg _ (ackrStep_of_short short early), fun ended => ?_⟩
  have delivered : agentStep s .ackr = deliverAck s.ackrRead.ackr.buf s.ackrRead.ackrEnded := ackrStep_of_ended ended
  refine ⟨fun phase length opening => ?_, fun phase length opening w pct hw hpct => ?_, fun phase => ?_,
    fun e row => ?_⟩
  · exact congrArg _ (delivered.trans (deliverAck_entered phase length opening))
  · have counted := delivered.trans (deliverAck_counted phase length opening)
    subst hw hpct
    exact ⟨fun last => congrArg _ (counted.trans (if_pos last)), fun more => congrArg _ (counted.trans (if_neg more))⟩
  · exact congrArg _ (delivered.trans (deliverAck_jaAck phase))
  · refine congrArg _ (delivered.trans ?_)
    exact (deliverAck_wrong (s := s.ackrRead.ackrEnded) row).trans (failUpgrade_eq e _)

end Sys2Proof.Machine
end

section
/-! SUPPORT. The values of DECODE: the arithmetic of the scale steps, the numbers of the raw fields, and the operation
itself (46_decode.md R330 to R332, R340). -/

namespace Sys2Proof.Machine

/-! ## Signs and classes of operands -/

theorem signFactor_mul (a b : Bool) : signFactor a * signFactor b = signFactor (a != b) := by
  cases a <;> cases b <;> simp [signFactor]

theorem signFactor_div (a b : Bool) : signFactor a / signFactor b = signFactor (a != b) := by
  cases a <;> cases b <;> simp [signFactor]

theorem signFactor_ne_zero (a : Bool) : signFactor a ≠ 0 := by cases a <;> simp [signFactor]

theorem classify64_of_isNan64 {x : BitVec 64} (h : isNan64 x) : classify64 x = .nan := by
  obtain ⟨top, fraction⟩ := h
  rw [classify64, classifyFields, if_pos top, if_neg fraction]

theorem classify64_of_isInf64 {x : BitVec 64} (h : isInf64 x.msb x) : classify64 x = .inf x.msb := by
  obtain ⟨-, top, fraction⟩ := h
  rw [classify64, classifyFields, if_pos top, if_pos fraction]

/-- A finite encoding is classified as its number, with a mantissa that is 0 exactly for the zeros. -/
theorem classify64_of_isFinite64 {x : BitVec 64} (h : isFinite64 x) : ∃ (m : Nat) (e : ℤ),
    classify64 x = .finite x.msb m e ∧ value64 x = signFactor x.msb * (m * 2 ^ e) ∧ (m = 0 ↔ value64 x = 0) := by
  obtain ⟨-, top, -⟩ | ⟨-, -, top, -⟩ | ⟨m, e, cls, -, val⟩ := classify64_cases x
  · exact absurd top h
  · exact absurd top h
  · refine ⟨m, e, cls, val, ?_⟩
    have power : (2 : ℚ) ^ e ≠ 0 := by positivity
    simp [val, signFactor_ne_zero, power]

/-! ## The scale steps (46_decode.md R332) -/

/-- The product of two finite numbers is rounded once (log 15). -/
theorem mul64_rounds64 {x c : BitVec 64} (hx : isFinite64 x) (hc : isFinite64 c) :
    rounds64 (value64 x * value64 c) (x.msb != c.msb) (mul64 x c) := by
  obtain ⟨m, e, clsX, valX, -⟩ := classify64_of_isFinite64 hx
  obtain ⟨k, j, clsC, valC, -⟩ := classify64_of_isFinite64 hc
  have product : value64 x * value64 c =
      signFactor (x.msb != c.msb) * (((m * k : Nat) : ℚ) / ((1 : Nat) : ℚ) * 2 ^ (e + j)) := by
    rw [valX, valC, ← signFactor_mul, zpow_add₀ two_ne_zero]
    push_cast
    ring
  rw [product, mul64, clsX, clsC]
  exact roundScaled_rounds64 _ _ _ _ one_pos

/-- The quotient of two finite numbers is rounded once (log 15). -/
theorem div64_rounds64 {x c : BitVec 64} (hx : isFinite64 x) (hc : isFinite64 c) (nonzero : value64 c ≠ 0) :
    rounds64 (value64 x / value64 c) (x.msb != c.msb) (div64 x c) := by
  obtain ⟨m, e, clsX, valX, -⟩ := classify64_of_isFinite64 hx
  obtain ⟨k, j, clsC, valC, zeroC⟩ := classify64_of_isFinite64 hc
  have divisor : k ≠ 0 := mt zeroC.1 nonzero
  have quotient : value64 x / value64 c = signFactor (x.msb != c.msb) * ((m : ℚ) / k * 2 ^ (e - j)) := by
    rw [valX, valC, ← signFactor_div, zpow_sub₀ two_ne_zero, mul_div_mul_comm, mul_div_mul_comm]
  rw [quotient, div64, clsX, clsC]
  dsimp only
  rw [if_neg divisor]
  exact roundScaled_rounds64 _ _ _ _ (Nat.pos_of_ne_zero divisor)

/-- Infinity times infinity, or times a number other than 0, is an infinity (log 15). -/
theorem mul64_isInf64 {x c : BitVec 64} (h : isInf64 x.msb x ∧ (isInf64 c.msb c ∨ isFinite64 c ∧ value64 c ≠ 0) ∨
    isFinite64 x ∧ value64 x ≠ 0 ∧ isInf64 c.msb c) : isInf64 (x.msb != c.msb) (mul64 x c) := by
  rw [mul64]
  obtain ⟨hx, hc | ⟨hc, nonzero⟩⟩ | ⟨hx, nonzero, hc⟩ := h
  · rw [classify64_of_isInf64 hx, classify64_of_isInf64 hc]
    exact isInf64_withSign _
  · obtain ⟨k, j, cls, -, zero⟩ := classify64_of_isFinite64 hc
    rw [classify64_of_isInf64 hx, cls]
    dsimp only
    rw [if_neg (mt zero.1 nonzero)]
    exact isInf64_withSign _
  · obtain ⟨m, e, cls, -, zero⟩ := classify64_of_isFinite64 hx
    rw [cls, classify64_of_isInf64 hc]
    dsimp only
    rw [if_neg (mt zero.1 nonzero)]
    exact isInf64_withSign _

/-- A NaN operand, and infinity times 0, give a NaN (log 12, log 15). -/
theorem mul64_isNan64 {x c : BitVec 64} (h : isNan64 x ∨ isNan64 c ∨
    isInf64 x.msb x ∧ isFinite64 c ∧ value64 c = 0 ∨ isFinite64 x ∧ value64 x = 0 ∧ isInf64 c.msb c) :
    isNan64 (mul64 x c) := by
  rw [mul64]
  obtain hx | hc | ⟨hx, hc, zeroC⟩ | ⟨hx, zeroX, hc⟩ := h
  · rw [classify64_of_isNan64 hx]
    exact isNan64_nanWith _
  · rw [classify64_of_isNan64 hc]
    cases classify64 x <;> exact isNan64_nanWith _
  · obtain ⟨k, j, cls, -, zero⟩ := classify64_of_isFinite64 hc
    rw [classify64_of_isInf64 hx, cls]
    dsimp only
    rw [if_pos (zero.2 zeroC)]
    exact isNan64_nanWith _
  · obtain ⟨m, e, cls, -, zero⟩ := classify64_of_isFinite64 hx
    rw [cls, classify64_of_isInf64 hc]
    dsimp only
    rw [if_pos (zero.2 zeroX)]
    exact isNan64_nanWith _

/-- A number divided by an infinity is a zero with the sign of the quotient (log 15). -/
theorem div64_of_inf_divisor {x c : BitVec 64} (hx : isFinite64 x) (hc : isInf64 c.msb c) :
    isFinite64 (div64 x c) ∧ value64 (div64 x c) = 0 ∧ (div64 x c).msb = (x.msb != c.msb) := by
  obtain ⟨m, e, cls, -, -⟩ := classify64_of_isFinite64 hx
  rw [div64, cls, classify64_of_isInf64 hc]
  obtain ⟨finite, value⟩ := value64_withSign (x.msb != c.msb) 0 0 (by norm_num) (.inl rfl) (by norm_num)
  obtain ⟨sign, -⟩ := withSign_fields (x.msb != c.msb) 0 (by norm_num)
  exact ⟨finite, by simpa using value, sign⟩

/-- Infinity divided by a number, and a number other than 0 divided by 0, are infinities (log 15). -/
theorem div64_isInf64 {x c : BitVec 64} (hc : isFinite64 c)
    (h : isInf64 x.msb x ∨ isFinite64 x ∧ value64 x ≠ 0 ∧ value64 c = 0) : isInf64 (x.msb != c.msb) (div64 x c) := by
  obtain ⟨k, j, clsC, -, zeroC⟩ := classify64_of_isFinite64 hc
  rw [div64, clsC]
  obtain hx | ⟨hx, nonzero, zero⟩ := h
  · rw [classify64_of_isInf64 hx]
    exact isInf64_withSign _
  · obtain ⟨m, e, clsX, -, zeroX⟩ := classify64_of_isFinite64 hx
    rw [clsX]
    dsimp only
    rw [if_pos (zeroC.2 zero), if_neg (mt zeroX.1 nonzero)]
    exact isInf64_withSign _

/-- A NaN operand, infinity by infinity, and 0 by 0 give a NaN (log 12, log 15). -/
theorem div64_isNan64 {x c : BitVec 64} (h : isNan64 x ∨ isNan64 c ∨ isInf64 x.msb x ∧ isInf64 c.msb c ∨
    isFinite64 x ∧ isFinite64 c ∧ value64 x = 0 ∧ value64 c = 0) : isNan64 (div64 x c) := by
  rw [div64]
  obtain hx | hc | ⟨hx, hc⟩ | ⟨hx, hc, zeroX, zeroC⟩ := h
  · rw [classify64_of_isNan64 hx]
    exact isNan64_nanWith _
  · rw [classify64_of_isNan64 hc]
    cases classify64 x <;> exact isNan64_nanWith _
  · rw [classify64_of_isInf64 hx, classify64_of_isInf64 hc]
    exact isNan64_nanWith _
  · obtain ⟨m, e, clsX, -, zx⟩ := classify64_of_isFinite64 hx
    obtain ⟨k, j, clsC, -, zc⟩ := classify64_of_isFinite64 hc
    rw [clsX, clsC]
    dsimp only
    rw [if_pos (zc.2 zeroC), if_pos (zx.2 zeroX)]
    exact isNan64_nanWith _

/-- A scale step is its exact product or quotient, rounded once (46_decode.md R332). -/
theorem scaledBy_scaleStep (op : ScaleOp) (x c : BitVec 64) : scaledBy op x c (scaleStep x (op, c)) := by
  cases op with
  | mul => exact And.intro mul64_rounds64 (And.intro mul64_isInf64 mul64_isNan64)
  | div =>
    exact And.intro div64_rounds64
      (And.intro div64_of_inf_divisor (And.intro (fun h => div64_isInf64 h.1 h.2) div64_isNan64))

/-! ## The raw values (46_decode.md R332) -/

/-- A number of at most 53 bits in the range of the binary64 numbers is delivered exactly. -/
theorem roundScaled_exact (neg : Bool) {m : Nat} {e : ℤ} (bits : m < 2 ^ 53) (low : -1074 ≤ e) (high : e ≤ 970) :
    (roundScaled neg m 1 e).msb = neg ∧ isFinite64 (roundScaled neg m 1 e) ∧
      value64 (roundScaled neg m 1 e) = signFactor neg * (m * 2 ^ e) := by
  have scaled : ((m * 2 ^ e.toNat : Nat) : ℚ) / ((1 * 2 ^ (-e).toNat : Nat) : ℚ) = m * 2 ^ e := by
    have h := scaled_quotient m 1 one_pos (-e)
    rwa [neg_neg, Nat.cast_one, div_one] at h
  refine roundRational_exact neg (by positivity) m e scaled bits low ?_
  have bits' : (m : ℚ) ≤ 2 ^ 53 := by exact_mod_cast bits.le
  have power : (2 : ℚ) ^ e ≤ 2 ^ (971 - 1 : ℤ) := zpow_le_zpow_right₀ (by norm_num) high
  rw [zpow_sub_one₀ two_ne_zero] at power
  have unit : (0 : ℚ) < 2 ^ (971 : ℤ) := by positivity
  calc ((m * 2 ^ e.toNat : Nat) : ℚ) / ((1 * 2 ^ (-e).toNat : Nat) : ℚ) = m * 2 ^ e := scaled
    _ ≤ 2 ^ 53 * (2 ^ (971 : ℤ) * 2⁻¹) := by gcongr
    _ < (2 ^ 53 - 1 / 2) * 2 ^ (971 : ℤ) := by
      generalize (2 : ℚ) ^ (971 : ℤ) = u at unit ⊢
      linarith
    _ = 2 ^ 1024 - 2 ^ 970 := overflow_bound.symm

/-- An integer below 2^53 in magnitude is delivered exactly. -/
theorem ofInt64_exact {i : ℤ} (h : i.natAbs < 2 ^ 53) :
    isFinite64 (ofInt64 i) ∧ value64 (ofInt64 i) = i ∧ (ofInt64 i).msb = decide (i < 0) := by
  have scaled : ofInt64 i = roundScaled (decide (i < 0)) i.natAbs 1 0 := by simp [ofInt64, roundScaled]
  obtain ⟨sign, finite, value⟩ := roundScaled_exact (decide (i < 0)) h (e := 0) (by norm_num) (by norm_num)
  rw [scaled]
  refine ⟨finite, value.trans ?_, sign⟩
  rw [zpow_zero, mul_one, Nat.cast_natAbs, signFactor]
  rcases lt_or_ge i 0 with negative | nonnegative
  · simp [negative, abs_of_neg negative]
  · simp [nonnegative.not_gt, abs_of_nonneg nonnegative]

/-- The fields of a binary32 encoding (46_decode.md R332). -/
theorem classify32_ofNat {n : Nat} (h : n < 2 ^ 32) : classify32 (BitVec.ofNat 32 n) =
    classifyFields 23 255 127 (decide (2 ^ 31 ≤ n)) (n / 2 ^ 23 % 2 ^ 8) (n % 2 ^ 23) := by
  have whole : (BitVec.ofNat 32 n).toNat = n := by rw [BitVec.toNat_ofNat, Nat.mod_eq_of_lt h]
  rw [classify32, BitVec.msb_eq_decide, BitVec.extractLsb'_toNat, BitVec.extractLsb'_toNat, whole,
    Nat.shiftRight_eq_div_pow, Nat.shiftRight_eq_div_pow, pow_zero, Nat.div_one]

/-- A binary32 is converted exactly; of a NaN only that it is one (46_decode.md R332; log 12). -/
theorem widen32_widens32 {n : Nat} (h : n < 2 ^ 32) : widens32 n (widen32 (BitVec.ofNat 32 n)) := by
  have fraction : n % 2 ^ 23 < 2 ^ 23 := Nat.mod_lt _ (by norm_num)
  have exponent : n / 2 ^ 23 % 2 ^ 8 < 2 ^ 8 := Nat.mod_lt _ (by norm_num)
  rw [widens32, widen32, classify32_ofNat h, classifyFields]
  generalize n / 2 ^ 23 % 2 ^ 8 = k at exponent ⊢
  generalize n % 2 ^ 23 = f at fraction ⊢
  have sign : signFactor (decide (2 ^ 31 ≤ n)) = if 2 ^ 31 ≤ n then -1 else 1 := by simp [signFactor]
  rw [← sign]
  by_cases top : k = 255
  · rw [if_pos top, if_pos top]
    by_cases zero : f = 0
    · rw [if_pos zero, if_pos zero]
      exact isInf64_withSign _
    · rw [if_neg zero, if_neg zero]
      exact isNan64_nanWith _
  · rw [if_neg top, if_neg top]
    by_cases subnormal : k = 0
    · rw [if_pos subnormal, if_pos subnormal]
      exact roundScaled_exact _ (by omega) (by norm_num) (by norm_num)
    · rw [if_neg subnormal, if_neg subnormal]
      have unit : (k : ℤ) - (127 : Nat) - (23 : Nat) = k - 150 := by push_cast; ring
      have mantissa : ((2 ^ 23 + f : Nat) : ℚ) = 2 ^ 23 + f := by push_cast; rfl
      rw [unit, ← mantissa]
      exact roundScaled_exact _ (by omega) (by omega) (by omega)

/-- The bytes of a field as a number, written as the rule of its order (46_decode.md R332). -/
theorem orderedNat_eq (o : ByteOrder) (b : Bytes) : orderedNat o b =
    (match o with | .be => b | .le => b.reverse).foldl (fun (a : Nat) (x : Byte) => 256 * a + x.toNat) 0 := by
  cases o <;> simp only [orderedNat, leNat, beNat, Nat.mul_comm]

/-- A byte more is a factor of 256 more (00_scope.md R14). -/
theorem beNat_lt (b : Bytes) : beNat b < 256 ^ b.length := by
  induction b using List.reverseRecOn with
  | nil => simp [beNat]
  | append_singleton b x ih =>
    have byte := x.isLt
    rw [beNat, List.foldl_append, List.length_append, List.length_singleton, pow_succ]
    change beNat b * 256 + x.toNat < _
    omega

theorem orderedNat_lt (o : ByteOrder) (b : Bytes) : orderedNat o b < 256 ^ b.length := by
  cases o with
  | be => exact beNat_lt b
  | le => exact (beNat_lt b.reverse).trans_eq (by rw [List.length_reverse])

/-- No field holds more than 32 bits (46_decode.md R332). -/
theorem orderedNat_slice_lt (o : ByteOrder) (p : Bytes) (off : Nat) (k : FieldKind) :
    orderedNat o (slice p off (off + k.width)) < 2 ^ 32 := by
  have short : (slice p off (off + k.width)).length ≤ 4 := by
    have := length_slice_le p off (off + k.width)
    cases k <;> simp only [FieldKind.width] at this ⊢ <;> omega
  calc orderedNat o _ < 256 ^ _ := orderedNat_lt _ _
    _ ≤ 256 ^ 4 := Nat.pow_le_pow_right (by norm_num) short
    _ = 2 ^ 32 := by norm_num

/-- The value of an integer field is its number (46_decode.md R332). -/
theorem rawValue_eq_ofInt64 {k : FieldKind} (h : k ≠ .f32) (n : Nat) : rawValue k n = ofInt64 (rawNumber k n) := by
  match k, h with
  | .f32, h => exact absurd rfl h
  | .i16, _ | .u16, _ | .i32, _ | .u32, _ => rfl

theorem natAbs_rawNumber_lt (k : FieldKind) {n : Nat} (h : n < 2 ^ 32) : (rawNumber k n).natAbs < 2 ^ 53 := by
  unfold rawNumber
  split
  · split <;> omega
  · split <;> omega
  · omega

/-- The unscaled value of a field: the widened binary32, or exactly the number of its bytes (46_decode.md R332). -/
theorem rawValue_exact (k : FieldKind) {n : Nat} (h : n < 2 ^ 32) :
    if k = .f32 then widens32 n (rawValue k n) else
      isFinite64 (rawValue k n) ∧ value64 (rawValue k n) = rawNumber k n ∧
        (rawValue k n).msb = decide (rawNumber k n < 0) := by
  split
  · subst k
    exact widen32_widens32 h
  · rw [rawValue_eq_ofInt64 ‹_›]
    exact ofInt64_exact (natAbs_rawNumber_lt k h)

/-- A field without a scale has its raw value (46_decode.md R332). -/
theorem fieldValue_of_unscaled {e : FieldEntry} (h : e.scale = []) (p : Bytes) :
    fieldValue e p = rawValue e.kind (orderedNat e.order (slice p e.off (e.off + e.kind.width))) := by
  rw [fieldValue, h]
  rfl

/-- The last step of a scale is taken on the value of the steps before it (46_decode.md R332). -/
theorem fieldValue_of_scale_append {e : FieldEntry} {sc : Scale} {st : ScaleStep} (h : e.scale = sc ++ [st])
    (p : Bytes) : fieldValue e p = scaleStep (fieldValue { e with scale := sc } p) st := by
  rw [fieldValue, h, applyScale, List.foldl_append]
  rfl

/-! ## DECODE (46_decode.md R330, R340) -/

theorem frameShapeOk_iff_prefix {d : Descriptor} {f : Bytes} :
    frameShapeOk d f = true ↔ f.length = d.len ∧ d.sync <+: f := by
  rw [frameShapeOk, Bool.and_eq_true, beq_iff_eq, List.isPrefixOf_iff_prefix]

/-- The payload of a frame of each format, by tag code (46_decode.md R331). -/
theorem framePayload_eq (t : Tag) (n : Nat) (f : Bytes) : framePayload (descriptor t n) f =
    slice f ([5, 5, 5, 5, 5, 3, 3].getD (tagCode t) 0) ([29, 43, 37, 35, n - 2, 39, 39].getD (tagCode t) 0) := by
  cases t <;> rfl

/-- The length of the payload of each format, by tag code (46_decode.md R331). -/
theorem length_framePayload {t : Tag} {n : Nat} {f : Bytes} (h : f.length = (descriptor t n).len) :
    (framePayload (descriptor t n) f).length = [24, 38, 32, 30, n - 7, 36, 36].getD (tagCode t) 0 := by
  rw [framePayload, length_slice, h]
  cases t <;> simp only [descriptor, tagCode, List.getD_cons_zero, List.getD_cons_succ] <;> omega

/-- The result of DECODE on a payload with a layout (46_decode.md R330, R340). -/
def State.decoded (l : List FieldEntry) (p : Bytes) (s : State) : State :=
  let vs := l.map fun e => fieldValue e p
  (((s.setHout (vs.flatMap le64)).setRes0 (BitVec.ofNat 32 vs.length)).setRes1 (BitVec.ofNat 32 p.length)).finish 0x06

/-- What DECODE does for a tag, in the order of its refusals (46_decode.md R330). -/
def State.decodeAs (t : Tag) (s : State) : State :=
  if frameShapeOk (descriptor t s.fmLen.toNat) s.arg = false then s.raise 0x06 .badArg
  else (fieldLayout s.cfg t s.fmLen.toNat).elim (s.raise 0x06 .notConfigured) fun l =>
    s.decoded l (framePayload (descriptor t s.fmLen.toNat) s.arg)

theorem exec_decode (tag : Nat) (s : State) : exec (.decode tag) s =
    .next (s.issue fun s => (tagOfCode tag).elim (s.raise 0x06 .badArg) (s.decodeAs ·)) := by
  change execDecode tag s = _
  unfold execDecode
  congr 2
  funext s
  cases tagOfCode tag with
  | none => rfl
  | some t =>
    simp only [Option.elim_some, State.decodeAs, Bool.not_eq_true']
    cases fieldLayout s.cfg t s.fmLen.toNat <;> rfl

/-- A frame of the wrong length or sync bytes is refused (46_decode.md R330). -/
theorem decodeAs_of_wrong_shape {t : Tag} {s : State}
    (h : ¬(s.arg.length = (descriptor t s.fmLen.toNat).len ∧ (descriptor t s.fmLen.toNat).sync <+: s.arg)) :
    s.clearStatus.decodeAs t = s.ended 0x06 .badArg :=
  if_pos (Bool.eq_false_iff.2 (mt frameShapeOk_iff_prefix.1 h))

/-- A frame of the right shape is decoded by its layout, if there is one (46_decode.md R330). -/
theorem decodeAs_of_shape {t : Tag} {s : State} (length : s.arg.length = (descriptor t s.fmLen.toNat).len)
    (sync : (descriptor t s.fmLen.toNat).sync <+: s.arg) : s.clearStatus.decodeAs t =
    (fieldLayout s.cfg t s.fmLen.toNat).elim (s.ended 0x06 .notConfigured) fun l =>
      s.clearStatus.decoded l (framePayload (descriptor t s.fmLen.toNat) s.arg) := by
  have shape : ¬frameShapeOk (descriptor t s.fmLen.toNat) s.arg = false := by
    rw [frameShapeOk_iff_prefix.2 ⟨length, sync⟩]
    exact Bool.noConfusion
  exact if_neg shape

/-- What DECODE leaves (46_decode.md R340; 60_exceptions.md R361). -/
theorem decoded_clearStatus (l : List FieldEntry) (p : Bytes) (s : State) : s.clearStatus.decoded l p =
    { s.ended 0x06 .none with
      res0 := BitVec.ofNat 32 l.length
      res1 := BitVec.ofNat 32 p.length
      houtLen := BitVec.ofNat 32 (8 * l.length)
      hout := Memory.ofBytes (l.flatMap fun e => le64 (fieldValue e p)) } := by
  rw [State.decoded, State.setHout, length_flatMap_le64, List.length_map, List.flatMap_map]
  rfl

/-- Settles O16: the operation by the tag, the shape of the frame and the layout; the values by the raw number and by
the last scale step. -/
theorem decodeOperation : Obligations.DecodeOperation := by
  refine ⟨encodes_of_decodeOpcode_args fun _ _ => rfl, fun tag => droppedWhileBusy_of_issue (exec_decode tag),
    fun s tag ready => ?_, fun e p b n field number => ⟨fun unscaled => ?_, fun sc op c scaled => ?_⟩⟩
  · have ⟨refused, delivered⟩ := exec_of_tag (exec_decode tag) ready
    refine ⟨refused, fun low => ?_⟩
    obtain ⟨t, rfl, done⟩ := delivered low
    refine ⟨t, rfl, fun wrong => done.trans (congrArg _ (decodeAs_of_wrong_shape wrong)), fun length sync => ?_⟩
    rw [decodeAs_of_shape length sync] at done
    refine ⟨fun absent => ?_, fun l layout => ?_⟩
    · rw [done, absent]
      rfl
    · rw [layout] at done
      refine ⟨_, done, ?_⟩
      rw [← framePayload_eq, ← length_framePayload length, Option.elim_some, decoded_clearStatus]
      exact ⟨rfl, houtHolds_of rfl⟩
  · have bytes : b = slice p e.off (e.off + e.kind.width) := field.trans (by cases e.kind <;> rfl)
    have whole : n = orderedNat e.order (slice p e.off (e.off + e.kind.width)) :=
      bytes ▸ number.trans (orderedNat_eq e.order b).symm
    rw [fieldValue_of_unscaled unscaled, ← whole]
    exact rawValue_exact e.kind (whole ▸ orderedNat_slice_lt _ _ _ _)
  · rw [fieldValue_of_scale_append scaled]
    exact scaledBy_scaleStep op _ c

end Sys2Proof.Machine
end

section
/-! SUPPORT. The layouts of the formats: what a legal configuration gives, the S1 layout and its example, and the FM
layout (46_decode.md R333 to R342). -/

namespace Sys2Proof

/-! ## Layouts in rising order -/

/-- An entry ends at or before the offset of another. -/
def FieldEntry.Before (e e' : FieldEntry) : Prop := e.off + e.kind.width ≤ e'.off

/-- A layout in which each entry ends before the ones after it begin has no overlap (46_decode.md R340). -/
theorem entriesDisjoint_of_rising {l : List FieldEntry} (h : l.Pairwise FieldEntry.Before) :
    entriesDisjoint l = true := by
  induction h with
  | nil => rfl
  | cons first _ ih =>
    simp only [entriesDisjoint, Bool.and_eq_true, List.all_eq_true, Bool.or_eq_true, decide_eq_true_eq]
    exact ⟨fun e' he' => .inl (first e' he'), ih⟩

theorem layoutFits_iff {size : Nat} {o : ByteOrder} {l : List FieldEntry} : layoutFits size o l = true ↔
    entriesInside size l = true ∧ entriesDisjoint l = true ∧ ∀ e ∈ l, e.order = o := by
  simp only [layoutFits, entriesOrdered, Bool.and_eq_true, List.all_eq_true, beq_iff_eq, and_assoc]

/-- An S2 layout is two integers and then floats (46_decode.md R334). -/
theorem kinds_of_layoutFitsS2 {l : List FieldEntry} (h : layoutFitsS2 l = true) :
    2 ≤ l.length ∧ ∀ (i : Nat) (e : FieldEntry), l[i]? = some e → (e.kind = .f32 ↔ 2 ≤ i) := by
  simp only [layoutFitsS2, Bool.and_eq_true, decide_eq_true_eq, List.all_eq_true, bne_iff_ne, beq_iff_eq] at h
  obtain ⟨⟨⟨-, two⟩, integers⟩, floats⟩ := h
  refine ⟨two, fun i e found => ?_⟩
  rcases Nat.lt_or_ge i 2 with header | rest
  · have taken : (l.take 2)[i]? = some e := by rw [List.getElem?_take, if_pos header, found]
    exact iff_of_false (integers e (List.mem_of_getElem? taken)) (by omega)
  · have dropped : (l.drop 2)[i - 2]? = some e := by rw [List.getElem?_drop, Nat.add_sub_cancel' rest, found]
    exact iff_of_true (floats e (List.mem_of_getElem? dropped)) rest

namespace Machine

/-! ## Orders and scales of the formats -/

/-- The byte order of the fields of each format (46_decode.md R333 to R339). -/
def fieldOrder (t : Tag) : ByteOrder := match t with | .s1 | .a1 | .a2 => .be | .s2 | .fm | .s3 | .at => .le

/-- The scales of the spec as the constants' encodings: 360 / 65536 (R335, R336); 0.000001 and 0.1, 0.000001, 0.008
(R338); 300, 12 and 200 / 32768, 0.001 (R339). -/
def specScales : List (Tag × Quantity × Scale) :=
  [(.a1, .angle, [(.mul, 0x4076800000000000), (.div, 0x40F0000000000000)]),
    (.a2, .angle, [(.mul, 0x4076800000000000), (.div, 0x40F0000000000000)]),
    (.s3, .acceleration, [(.mul, 0x3EB0C6F7A0B5ED8D), (.mul, 0x3FB999999999999A)]),
    (.s3, .rate, [(.mul, 0x3EB0C6F7A0B5ED8D)]), (.s3, .temperature, [(.mul, 0x3F80624DD2F1A9FC)]),
    (.at, .rate, [(.mul, 0x4072C00000000000), (.div, 0x40E0000000000000)]),
    (.at, .acceleration, [(.mul, 0x4028000000000000), (.div, 0x40E0000000000000)]),
    (.at, .temperature, [(.mul, 0x4069000000000000), (.div, 0x40E0000000000000)]),
    (.at, .timeOfWeek, [(.mul, 0x3F50624DD2F1A9FC)])]

/-- Each listed constant is the binary64 nearest to its literal (46_decode.md R332). -/
theorem formatScale_of_mem_specScales : ∀ r ∈ specScales, formatScale r.1 r.2.1 = some r.2.2 := by decide +kernel

theorem scaleAccel_eq : scaleAccel = [(.mul, 0x4034000000000000), (.div, 0x40F0000000000000)] := by decide +kernel

theorem scaleRate_eq : scaleRate = [(.mul, 0x4093B00000000000), (.div, 0x40F0000000000000)] := by decide +kernel

theorem scaleTimer_eq : scaleTimer = [(.mul, 0x402E849E8815E397)] := by decide +kernel

/-- A format without scales of the spec asks nothing of its entries' scales. -/
theorem scalesFit_of_formatScale_none {t : Tag} (h : ∀ q, formatScale t q = none) (l : List FieldEntry) :
    scalesFit t l = true := by
  simp [scalesFit, h]

/-! ## The FM layout (46_decode.md R337) -/

/-- The status entry at place `j` after `n` chip blocks (46_decode.md R337). -/
def fmStatusEntry (n j : Nat) : FieldEntry := ⟨"status", .other, 28 * n + 2 * j, .u16, .le, []⟩

theorem layoutFm_eq (k : FmScale) (len : Nat) : layoutFm k len =
    ((List.range (fmChips len)).flatMap fun i => fmChipEntries k (28 * i)) ++
      (List.range (fmStatusFields len)).map (fmStatusEntry (fmChips len)) := rfl

theorem length_fmChipEntries (k : FmScale) (o : Nat) : (fmChipEntries k o).length = 7 := rfl

/-- The entries of a chip block are little-endian and lie in its 28 bytes. -/
theorem within_of_mem_fmChipEntries {k : FmScale} {o : Nat} {e : FieldEntry} (h : e ∈ fmChipEntries k o) :
    o ≤ e.off ∧ e.off + e.kind.width ≤ o + 28 ∧ e.order = .le := by
  simp only [fmChipEntries, List.mem_cons, List.not_mem_nil, or_false] at h
  rcases h with rfl | rfl | rfl | rfl | rfl | rfl | rfl <;> simp [FieldKind.width]

theorem fmChipEntries_rising (k : FmScale) (o : Nat) : (fmChipEntries k o).Pairwise FieldEntry.Before := by
  simp [fmChipEntries, FieldEntry.Before, FieldKind.width]

theorem fmStatusEntries_rising (n m : Nat) : ((List.range m).map (fmStatusEntry n)).Pairwise FieldEntry.Before := by
  refine List.pairwise_map.2 (List.pairwise_lt_range.imp fun {i j} less => ?_)
  simp only [FieldEntry.Before, fmStatusEntry, FieldKind.width]
  omega

/-- The chip blocks stand one after the other, and the status fields after them. -/
theorem layoutFm_rising (k : FmScale) (len : Nat) : (layoutFm k len).Pairwise FieldEntry.Before := by
  rw [layoutFm_eq, List.pairwise_append, List.pairwise_flatMap]
  refine ⟨⟨fun i _ => fmChipEntries_rising k _, List.pairwise_lt_range.imp fun {i j} less e he e' he' => ?_⟩,
    fmStatusEntries_rising _ _, fun e he e' he' => ?_⟩
  · obtain ⟨-, ends, -⟩ := within_of_mem_fmChipEntries he
    obtain ⟨begins, -, -⟩ := within_of_mem_fmChipEntries he'
    unfold FieldEntry.Before
    omega
  · obtain ⟨i, chip, mem⟩ := List.mem_flatMap.1 he
    obtain ⟨j, -, rfl⟩ := List.mem_map.1 he'
    obtain ⟨-, ends, -⟩ := within_of_mem_fmChipEntries mem
    have := List.mem_range.1 chip
    simp only [FieldEntry.Before, fmStatusEntry]
    omega

/-- The entries of an FM layout are little-endian and end at the last status field. -/
theorem within_of_mem_layoutFm {k : FmScale} {len : Nat} {e : FieldEntry} (h : e ∈ layoutFm k len) :
    e.off + e.kind.width ≤ 28 * fmChips len + 2 * fmStatusFields len ∧ e.order = .le := by
  rw [layoutFm_eq, List.mem_append] at h
  obtain chips | status := h
  · obtain ⟨i, chip, mem⟩ := List.mem_flatMap.1 chips
    obtain ⟨-, ends, order⟩ := within_of_mem_fmChipEntries mem
    have := List.mem_range.1 chip
    exact ⟨by omega, order⟩
  · obtain ⟨j, field, rfl⟩ := List.mem_map.1 status
    have := List.mem_range.1 field
    simp only [fmStatusEntry, FieldKind.width]
    exact ⟨by omega, trivial⟩

/-- The FM layout of a legal length fills the payload (42_registry.md R162). -/
theorem layoutFits_layoutFm {len : Nat} (legal : fmLegal len = true) (k : FmScale) :
    layoutFits (len - 7) .le (layoutFm k len) = true := by
  have payload : 28 * fmChips len + 2 * fmStatusFields len = len - 7 := by
    obtain ⟨n, e, -, -, he, rfl⟩ := fmLegal_iff.1 legal
    rw [fmChips_eq he, fmStatusFields_eq he]
    omega
  refine layoutFits_iff.2 ⟨List.all_eq_true.2 fun e he => decide_eq_true ?_,
    entriesDisjoint_of_rising (layoutFm_rising k len), fun e he => (within_of_mem_layoutFm he).2⟩
  exact payload ▸ (within_of_mem_layoutFm he).1

theorem length_flatMap_range {α : Type} {f : Nat → List α} {w : Nat} (blocks : ∀ i, (f i).length = w) (n : Nat) :
    ((List.range n).flatMap f).length = w * n := by
  simp [List.length_flatMap, blocks, Nat.mul_comm]

/-- The block at place `i` of blocks of the same length. -/
theorem take_drop_flatMap_range {α : Type} {f : Nat → List α} {w : Nat} (blocks : ∀ i, (f i).length = w) {i n : Nat}
    (h : i < n) (rest : List α) : ((((List.range n).flatMap f ++ rest).drop (w * i)).take w) = f i := by
  induction n generalizing rest with
  | zero => omega
  | succ n ih =>
    rw [List.range_succ, List.flatMap_append, List.flatMap_singleton, List.append_assoc]
    rcases Nat.lt_succ_iff_lt_or_eq.1 h with before | rfl
    · exact ih before _
    · rw [List.drop_left' (length_flatMap_range blocks i), List.take_left' (blocks i)]

theorem layoutFm_chip (k : FmScale) {len i : Nat} (h : i < fmChips len) :
    ((layoutFm k len).drop (7 * i)).take 7 = fmChipEntries k (28 * i) :=
  take_drop_flatMap_range (fun i => length_fmChipEntries k (28 * i)) h _

theorem layoutFm_status (k : FmScale) {len j : Nat} (h : j < fmStatusFields len) :
    (layoutFm k len)[7 * fmChips len + j]? = some (fmStatusEntry (fmChips len) j) := by
  have chips : ((List.range (fmChips len)).flatMap fun i => fmChipEntries k (28 * i)).length = 7 * fmChips len :=
    length_flatMap_range (fun i => length_fmChipEntries k (28 * i)) _
  rw [layoutFm_eq, List.getElem?_append_right (by omega), chips, Nat.add_sub_cancel_left, List.getElem?_map,
    List.getElem?_range h]
  rfl

/-! ## The S1 layout (46_decode.md R333, R342) -/

/-- The accelerations and rates of S1. -/
def s1Motion : List FieldEntry :=
  [⟨"xAccel", .acceleration, 0, .i16, .be, scaleAccel⟩, ⟨"yAccel", .acceleration, 2, .i16, .be, scaleAccel⟩,
    ⟨"zAccel", .acceleration, 4, .i16, .be, scaleAccel⟩, ⟨"xRate", .rate, 6, .i16, .be, scaleRate⟩,
    ⟨"yRate", .rate, 8, .i16, .be, scaleRate⟩, ⟨"zRate", .rate, 10, .i16, .be, scaleRate⟩]

/-- The temperatures of S1, with their configured scale. -/
def s1Temperatures (temp : Scale) : List FieldEntry :=
  [⟨"xRateTemp", .temperature, 12, .i16, .be, temp⟩, ⟨"yRateTemp", .temperature, 14, .i16, .be, temp⟩,
    ⟨"zRateTemp", .temperature, 16, .i16, .be, temp⟩, ⟨"boardTemp", .temperature, 18, .i16, .be, temp⟩]

/-- The timer and the status word of S1. -/
def s1Trailing : List FieldEntry :=
  [⟨"timer", .other, 20, .u16, .be, scaleTimer⟩, ⟨"BITstatus", .other, 22, .u16, .be, []⟩]

theorem layoutS1_eq (c : Config) :
    layoutS1 c = s1Motion ++ s1Temperatures (c.s1TempScale.getD []) ++ s1Trailing := rfl

/-- The twelve entries of S1 fill its payload in rising order. -/
theorem layoutFits_layoutS1 (c : Config) : layoutFits 24 .be (layoutS1 c) = true := by
  refine layoutFits_iff.2 ⟨?_, entriesDisjoint_of_rising ?_, ?_⟩
  · simp [entriesInside, layoutS1, FieldKind.width]
  · simp [layoutS1, FieldEntry.Before, FieldKind.width]
  · simp [layoutS1]

/-- The payload of the example of 46_decode.md R342: raw 0x4000, nine zeros, 100 and 0x1234. -/
def s1Example : Bytes := [0x40, 0x00] ++ List.replicate 18 0x00 ++ [0x00, 0x64, 0x12, 0x34]

theorem s1Motion_example :
    s1Motion.map (fieldValue · s1Example) = 0x4014000000000000 :: List.replicate 5 0x0000000000000000 := by
  decide +kernel

theorem s1Trailing_example :
    s1Trailing.map (fieldValue · s1Example) = [0x4097D79BDA5119CE, 0x40B2340000000000] := by
  decide +kernel

/-- A scale is taken on the unscaled value (46_decode.md R332). -/
theorem fieldValue_rescaled {e : FieldEntry} (h : e.scale = []) (sc : Scale) (p : Bytes) :
    fieldValue { e with scale := sc } p = applyScale sc (fieldValue e p) := by
  rw [fieldValue_of_unscaled h]
  rfl

theorem s1Temperatures_eq (temp : Scale) :
    s1Temperatures temp = (s1Temperatures []).map fun e => { e with scale := temp } := rfl

/-- The unscaled temperatures of the example are +0.0. -/
theorem s1Temperatures_example_unscaled :
    ∀ e ∈ s1Temperatures [], e.scale = [] ∧ fieldValue e s1Example = 0x0000000000000000 := by
  decide +kernel

/-- A scale that takes +0.0 to +0.0 leaves the temperatures of the example +0.0 (log 22). -/
theorem s1Temperatures_example {temp : Scale} (kept : keepsZero temp = true) :
    (s1Temperatures temp).map (fieldValue · s1Example) = List.replicate 4 0x0000000000000000 := by
  refine List.map_eq_replicate_iff.2 fun e he => ?_
  rw [s1Temperatures_eq] at he
  obtain ⟨e, mem, rfl⟩ := List.mem_map.1 he
  obtain ⟨unscaled, zero⟩ := s1Temperatures_example_unscaled e mem
  rw [fieldValue_rescaled unscaled, zero]
  exact beq_iff_eq.1 kept

/-- The scale of the S1 temperatures, configured or not, takes +0.0 to +0.0 (log 22). -/
theorem keepsZero_s1TempScale {c : Config} (h : c.wf = true) : keepsZero (c.s1TempScale.getD []) = true := by
  simp only [Config.wf, Bool.and_eq_true] at h
  obtain ⟨-, kept⟩ := h
  cases scale : c.s1TempScale with
  | none => rfl
  | some sc =>
    rw [scale] at kept
    exact kept

/-! ## The layouts in use -/

/-- A layout in use fits the payload of its format, in the format's byte order and with its scales (46_decode.md R333 to
R340). -/
theorem fits_of_fieldLayout {c : Config} {t : Tag} {len : Nat} {l : List FieldEntry} (hc : c.wf = true)
    (legal : fmLegal len = true) (h : fieldLayout c t len = some l) :
    layoutFits ((descriptor t len).len - (descriptor t len).headerLen - (descriptor t len).trailerLen)
      (fieldOrder t) l = true ∧ scalesFit t l = true := by
  match t, h with
  | .s1, h =>
    cases h
    exact ⟨layoutFits_layoutS1 c, scalesFit_of_formatScale_none (fun _ => rfl) _⟩
  | .fm, h =>
    obtain ⟨k, -, rfl⟩ := Option.map_eq_some_iff.1 h
    exact ⟨layoutFits_layoutFm legal k, scalesFit_of_formatScale_none (fun _ => rfl) _⟩
  | .s2, h =>
    have lay := layoutLegal_of_fieldLayout hc (by decide) h
    simp only [layoutLegal, layoutFitsS2, Bool.and_eq_true] at lay
    obtain ⟨⟨⟨fits, -⟩, -⟩, -⟩ := lay
    exact ⟨fits, scalesFit_of_formatScale_none (fun _ => rfl) _⟩
  | .a1, h | .a2, h | .s3, h | .at, h =>
    exact (Bool.and_eq_true _ _).mp (layoutLegal_of_fieldLayout hc (by decide) h)

/-- Settles O49: what fits gives the bound, the places, the orders and the scales; the S1 and FM layouts are written out
from their parts. -/
theorem decodeBound : Obligations.DecodeBound := by
  refine ⟨fun c t len l hc legal layout => ?_, fun c len l hc layout => ?_, fun c len => ?_,
    fun c k len n sf scale hn hsf => ?_, fun c len l hc layout => ?_⟩
  · obtain ⟨fits, scales⟩ := fits_of_fieldLayout hc legal layout
    obtain ⟨inside, disjoint, ordered⟩ := layoutFits_iff.1 fits
    have bound := length_fieldLayout_le hc legal layout
    exact ⟨by omega, inside, disjoint, fun e he => ⟨(ordered e he).trans (by cases t <;> rfl), fun sc listed =>
      scale_of_scalesFit scales he (formatScale_of_mem_specScales _ listed)⟩⟩
  · exact kinds_of_layoutFitsS2 (layoutLegal_of_fieldLayout hc (by decide) layout)
  · refine ⟨rfl, rfl, rfl, rfl, rfl, fun absent => congrArg (Option.map _) absent, scaleAccel, scaleRate, _, rfl,
      scaleAccel_eq, scaleRate_eq, ?_⟩
    rw [← scaleTimer_eq]
    rfl
  · subst hn hsf
    exact ⟨layoutFm k len, congrArg (Option.map _) scale, length_layoutFm k len, fun i => layoutFm_chip k,
      fun j => layoutFm_status k⟩
  · cases layout
    change (layoutS1 c).map (fieldValue · s1Example) = _
    rw [layoutS1_eq, List.map_append, List.map_append, s1Motion_example,
      s1Temperatures_example (keepsZero_s1TempScale hc), s1Trailing_example]
    rfl

end Machine
end Sys2Proof
end

section
/-! SUPPORT. A command word while `BUSY` is 1, and the statement about it (60_exceptions.md R362). -/

namespace Sys2Proof.Machine

/-- Every operation but RESET begins with the issue (60_exceptions.md R361, 70_reset_and_hazards.md R401). -/
theorem exec_eq_issue {i : Instr} (hi : i ≠ .reset) : ∃ body, ∀ s, exec i s = .next (s.issue body) := by
  cases i with
  | reset => exact absurd rfl hi
  | _ => exact ⟨_, fun _ => rfl⟩

theorem droppedWhileBusy_of_ne_reset {i : Instr} (hi : i ≠ .reset) : droppedWhileBusy i :=
  have ⟨_, issued⟩ := exec_eq_issue hi
  droppedWhileBusy_of_issue issued

/-- A RESET word has RESET's opcode and RSV 0; its other fields are not read (30_encoding.md R101, R105). -/
theorem decode_eq_ok_reset {w : Word} : decode w = .ok .reset ↔ fieldOpc w = 0x3F ∧ fieldRsv w = 0 := by
  constructor
  · intro h
    obtain ⟨rsv, map⟩ := decode_eq_ok.1 h
    obtain ⟨-, -, opc⟩ := args_of_decodeOpcode map
    exact ⟨opc, rsv⟩
  · rintro ⟨opc, rsv⟩
    exact encodes_of_decodeOpcode (fun _ _ => rfl) w opc rsv

/-- Settles O6: a word of another operation meets the issue, and so does one of none. -/
theorem busyDropsCommands : Obligations.BusyDropsCommands := by
  refine fun s w busy => ⟨fun word => perform_command (decode_eq_ok_reset.2 word), fun other => ?_⟩
  cases h : decode w with
  | ok i =>
    have hi : i ≠ .reset := fun hi => other (decode_eq_ok_reset.1 (hi ▸ h))
    rw [perform_command h, droppedWhileBusy_of_ne_reset hi s busy]
  | error e => rw [perform_illegalWord h, if_pos busy]

end Sys2Proof.Machine
end

section
/-! SUPPORT. Everything an agent's step can do to what the agents and the passage of time look at, said once
(43_synchronizer.md R192 to R199; 44_correlator.md R241, R246; 45_upgrade.md R294, R295). -/

namespace Sys2Proof.Machine

variable {s t : State}

/-- What the agents and the passage of time look at. -/
def State.waiting (s : State) : Nat × Bytes × Stream × Corr × Ackr × Upg × List Action :=
  (s.now, s.rxq, s.stream, s.corr, s.ackr, s.upg, s.schedule)

/-! ## The correlator -/

theorem onResponse_waiting (op : ExchangeOp) (resp : Bytes) (s : State) :
    (onResponse op resp s).waiting = s.waiting := by
  cases op with
  | getProductInfo => unfold onResponse parseProduct; dsimp only; split <;> rfl
  | getFields | readFields => unfold onResponse parseFields; dsimp only; split <;> rfl
  | writeFieldsTemp | writeFieldsPerm => unfold onResponse parseWriteEcho; dsimp only; split <;> rfl
  | setQuiet | restart | jumpBoot | jumpApp | lock | unlock => rfl

theorem completeHostOp_waiting (op : ExchangeOp) (r : Option Bytes) (s : State) :
    (completeHostOp op r s).waiting = s.waiting := by
  cases r with
  | none => rfl
  | some resp => exact onResponse_waiting op resp s.releaseLink

/-- Every way the upgrade can take the end of its exchange (45_upgrade.md R294). -/
theorem deliverUpgrade_cases (r : Option Bytes) (s : State) :
    deliverUpgrade r s = s ∨
    deliverUpgrade r s = setPhase .q2 (startQuiet ((setStage .quietSet s).switchBaud Config.baudBoot)) ∨
    deliverUpgrade r s = waitUntil Config.preJiMs .w1 s ∨
    ∃ e, deliverUpgrade r s = failUpgrade e s := by
  unfold deliverUpgrade
  split
  · exact .inr (.inl rfl)
  · exact .inr (.inr (.inr ⟨_, rfl⟩))
  · exact .inr (.inr (.inl rfl))
  · exact .inr (.inr (.inr ⟨_, rfl⟩))
  · exact .inl rfl

/-- A delivery ends the exchange, and only the upgrade goes on from there (44_correlator.md R246). -/
theorem deliver_cases (r : Option Bytes) (s : State) :
    (deliver r s).waiting = s.corrEnded.waiting ∨ deliver r s = deliverUpgrade r s.corrEnded := by
  cases hc : s.corr.client with
  | none =>
    unfold deliver
    rw [hc]
    exact .inl rfl
  | hostOp op =>
    rw [deliver_hostOp hc]
    exact .inl (completeHostOp_waiting op r s.corrEnded)
  | upg => exact .inr (deliver_upg hc)

/-- A `CORR` step keeps what it read while the deadline is to come, or delivers (44_correlator.md R241). -/
theorem corrStep_cases (s : State) :
    corrStep s = s.afterRead ∧ s.now < s.corr.deadline ∨ ∃ r, corrStep s = deliver r s.afterRead := by
  rw [corrStep_eq]
  split
  · exact .inr ⟨_, rfl⟩
  · split
    · exact .inr ⟨_, rfl⟩
    · exact .inl ⟨rfl, Nat.lt_of_not_le ‹_›⟩

/-! ## The acknowledgement reader -/

/-- Every way the upgrade can take an acknowledgement (45_upgrade.md R294). -/
theorem deliverAck_cases (a : Bytes) (s : State) :
    deliverAck a s = s ∨
    deliverAck a s = waitUntil 0 .be (setStage .bootloaderEntered s) ∨
    deliverAck a s = waitUntil Config.preJaMs .pj (setStage .complete (recordBlock s)) ∨
    (∃ o, deliverAck a s = sendBlock o (recordBlock s)) ∨
    (∃ e, deliverAck a s = failUpgrade e s) ∨
    deliverAck a s = completeUpgrade (setStage .appResumed s) := by
  cases phase : s.upg.phase with
  | jiAck =>
    rw [deliverAck_jiAck phase]
    split
    · exact .inr (.inl rfl)
    · exact .inr (.inr (.inr (.inr (.inl ⟨_, rfl⟩))))
  | back =>
    rw [deliverAck_back phase]
    split
    · split
      · exact .inr (.inr (.inl rfl))
      · exact .inr (.inr (.inr (.inl ⟨_, rfl⟩)))
    · exact .inr (.inr (.inr (.inr (.inl ⟨_, rfl⟩))))
  | jaAck => exact .inr (.inr (.inr (.inr (.inr (deliverAck_jaAck phase)))))
  | none | q1 | q2 | w1 | w2 | be | bw | pj =>
    unfold deliverAck
    rw [phase]
    exact .inl rfl

/-- An `ACKR` step keeps what it read while the acknowledgement is short and the deadline is to come, or delivers
(45_upgrade.md R295). -/
theorem ackrStep_cases (s : State) :
    ackrStep s = s.ackrRead ∧ s.ackrRead.ackr.buf.length ≠ s.ackr.need ∧ s.now < s.ackr.deadline ∨
      ∃ a, ackrStep s = deliverAck a s.ackrRead.ackrEnded := by
  rw [ackrStep_eq]
  split
  · exact .inr ⟨_, rfl⟩
  · rename_i short
    rw [not_or, Nat.not_le] at short
    exact .inl ⟨rfl, short⟩

/-! ## The synchronizer -/

/-- While the watchdog stays armed, its window goes on or starts again (43_synchronizer.md R198). -/
theorem watchdogCheck_armed {pushed : Bool} (enabled : (watchdogCheck pushed s).stream.wdEn = true)
    (armed : (watchdogCheck pushed s).stream.wdArmed = true) :
    watchdogCheck pushed s = s ∧ s.now - s.stream.wdStart < Config.wdTimeoutMs ∨
      (watchdogCheck pushed s).stream.wdStart = s.now := by
  revert enabled armed
  unfold watchdogCheck
  split
  · split
    · exact fun _ armed => absurd armed Bool.false_ne_true
    · split
      · split
        · exact fun _ _ => .inr rfl
        · exact fun _ armed => absurd armed Bool.false_ne_true
      · exact fun _ _ => .inl ⟨rfl, Nat.lt_of_not_le ‹_›⟩
  · exact fun enabled armed => absurd (Bool.and_eq_true_iff.2 ⟨enabled, armed⟩) ‹_›

/-- A watchdog check brings no bytes, and leaves what is still to happen at the block's boundary. -/
theorem watchdogCheck_boundary (pushed : Bool) (s : State) :
    (watchdogCheck pushed s).schedule = s.schedule ∧ (watchdogCheck pushed s).rxq.length ≤ s.rxq.length := by
  rcases watchdogCheck_cases pushed s with ⟨h, -⟩ | h | ⟨h, -⟩ | h <;> rw [h]
  · exact ⟨rfl, Nat.le_refl _⟩
  · exact ⟨rfl, Nat.le_refl _⟩
  · exact ⟨rfl, Nat.zero_le _⟩
  · exact ⟨rfl, Nat.le_refl _⟩

theorem syncStep_now (s : State) : (syncStep s).now = s.now := (syncStep_blockStep s).now

theorem syncStep_nextPoll (s : State) : (syncStep s).stream.nextPoll = s.now + Config.pollMs :=
  congrArg (· + Config.pollMs) (syncStep_now s)

theorem syncStep_rxq_le (s : State) : (syncStep s).rxq.length ≤ s.rxq.length := by
  have checked : s.checked.rxq.length ≤ s.scanned.rxq.length := (watchdogCheck_boundary _ _).2
  rw [syncStep_eq]
  refine checked.trans ?_
  rw [State.scanned_eq, List.length_drop]
  exact Nat.sub_le _ _

theorem syncStep_schedule (s : State) : (syncStep s).schedule = s.schedule := by
  obtain ⟨_, _, _, _, _, h⟩ := s.scanned_frame
  have checked : s.checked.schedule = s.scanned.schedule := (watchdogCheck_boundary _ _).1
  rw [syncStep_eq]
  exact checked.trans (by rw [h])

/-- An iteration that leaves the watchdog armed goes on in its window, or starts it again (43_synchronizer.md R198). -/
theorem syncStep_window (enabled : (syncStep s).stream.wdEn = true) (armed : (syncStep s).stream.wdArmed = true) :
    (syncStep s).stream.wdStart = s.stream.wdStart ∧ s.now - s.stream.wdStart < Config.wdTimeoutMs ∧
        s.stream.wdEn = true ∧ s.stream.wdArmed = true ∨
      (syncStep s).stream.wdStart = s.now := by
  obtain ⟨_, _, _, _, _, scanned⟩ := s.scanned_frame
  rw [syncStep_eq, State.checked] at enabled armed ⊢
  rcases watchdogCheck_armed enabled armed with ⟨same, early⟩ | restarted
  · rw [same, scanned] at enabled armed ⊢
    rw [scanned] at early
    exact .inl ⟨rfl, early, enabled, armed⟩
  · exact .inr (restarted.trans (by rw [scanned]))

/-- What an iteration leaves to the other agents. -/
theorem syncStep_others (s : State) :
    (syncStep s).corr = s.corr ∧ (syncStep s).ackr = s.ackr ∧ (syncStep s).upg = s.upg := by
  have frame := syncStep_frame s
  simp only [Prod.mk.injEq] at frame
  obtain ⟨-, -, hc, hk, hu, -⟩ := frame
  exact ⟨hc, hk, hu⟩

end Sys2Proof.Machine
end

section
/-! SUPPORT. What every step keeps of the deadlines that wait, and the statement about it (60_exceptions.md R370, R373;
70_reset_and_hazards.md R412). -/

namespace Sys2Proof.Machine

variable {s t : State}

/-- The deadlines that wait, each with its condition (60_exceptions.md R370, R373). -/
theorem mem_deadlines {x : Nat} : x ∈ deadlines s ↔
    (s.stream.active = true ∧ x = s.stream.nextPoll) ∨
    (s.stream.wdArmed = true ∧ x = s.stream.wdStart + Config.wdTimeoutMs) ∨
    (s.corr.phase = .wait ∧ x = s.corr.deadline) ∨ (s.ackr.phase = .wait ∧ x = s.ackr.deadline) ∨
    (s.upg.phase.waitsForDeadline = true ∧ x = s.upg.deadline) := by
  simp only [deadlines, List.mem_append, or_assoc, List.mem_ite_nil_right, List.mem_singleton]

namespace TimeSafe

/-- The invariant depends on what the agents and time look at alone. -/
theorem of_waiting (hs : TimeSafe s) (h : t.waiting = s.waiting) : TimeSafe t := by
  simp only [State.waiting, Prod.mk.injEq] at h
  obtain ⟨now, -, stream, corr, ackr, upg, -⟩ := h
  obtain ⟨hpoll, hwatchdog, hcorr, hackr, hupg⟩ := hs
  constructor
  · rwa [now, stream]
  · rwa [stream]
  · rwa [now, corr]
  · rwa [now, ackr]
  · rwa [now, upg]

/-! ## The shared operations -/

theorem issue (hs : TimeSafe s) {body : State → State} (hb : ∀ {s}, TimeSafe s → TimeSafe (body s)) :
    TimeSafe (s.issue body) :=
  State.issue_cases { hs with } fun _ => hb { hs with }

theorem openLink (hs : TimeSafe s) {opc : Byte} {body : State → State} (hb : TimeSafe (body s)) :
    TimeSafe (s.openLink opc body) :=
  State.openLink_cases (fun _ => { hs with }) fun _ _ => hb

/-- A request waits 3000 ms from now (44_correlator.md R240). -/
theorem startExchange (hs : TimeSafe s) (cl : Client) (c : Code) (p : Bytes) (m : MatchMode) :
    TimeSafe (startExchange cl c p m s) :=
  { hs with corr := fun _ => ⟨Nat.le_add_right _ _, Nat.le_refl _⟩ }

theorem issueExchange (hs : TimeSafe s) (op : ExchangeOp) (speed : Option Word) (c : Code) (p : Bytes)
    (m : MatchMode) : TimeSafe (issueExchange op speed c p m s) := by
  have claimed : TimeSafe (s.claimLink .exchange true) := { hs with }
  refine hs.openLink ?_
  cases speed with
  | none => exact claimed.startExchange _ _ _ _
  | some v =>
    have switched : TimeSafe ((s.claimLink .exchange true).switchBaud v) := { hs with }
    exact switched.startExchange _ _ _ _

theorem issueReadFields (hs : TimeSafe s) (op : ExchangeOp) (c : Code) : TimeSafe (issueReadFields op c s) := by
  unfold Machine.issueReadFields
  split
  · exact hs.issueExchange _ _ _ _ _
  · exact { hs with }

theorem issueWriteFields (hs : TimeSafe s) (op : ExchangeOp) (c : Code) : TimeSafe (issueWriteFields op c s) := by
  unfold Machine.issueWriteFields
  split
  · exact hs.issueExchange _ _ _ _ _
  · exact { hs with }

theorem issueRegion (hs : TimeSafe s) (op : ExchangeOp) (speed : Word) (code : Option Code)
    (payload : Option Bytes) : TimeSafe (issueRegion op speed code payload s) := by
  unfold Machine.issueRegion
  split
  · exact hs.issueExchange _ _ _ _ _
  · exact { hs with }

/-- A session's first iteration is due at once, at the start of its watchdog window (43_synchronizer.md R190). -/
theorem startStream (hs : TimeSafe s) (t : Tag) (watchdog : Bool) : TimeSafe (startStream t watchdog s) :=
  { hs with
    poll := fun _ => ⟨Nat.le_refl _, Nat.le_add_right _ _⟩
    watchdog := fun _ _ _ => ⟨0, by decide, rfl⟩ }

/-- An upgrade begins with an exchange (45_upgrade.md R290). -/
theorem beginUpgrade (hs : TimeSafe s) (img : Bytes) :
    TimeSafe (startQuiet ((beginSession img s).claimLink .upgrade true)) := by
  have begun : TimeSafe ((beginSession img s).claimLink .upgrade true) :=
    { hs with upg := fun waits => absurd waits Bool.false_ne_true }
  exact begun.startExchange _ _ _ _

theorem resetFor (cfg : Config) (linkOk : Bool) : TimeSafe (State.resetFor cfg linkOk) where
  poll active := absurd active Bool.false_ne_true
  watchdog active := absurd active Bool.false_ne_true
  corr waits := by cases waits
  ackr waits := by cases waits
  upg waits := absurd waits Bool.false_ne_true

/-! ## The host operations -/

theorem exec (hs : TimeSafe s) {i : Instr} (h : exec i s = .next t) : TimeSafe t := by
  cases i with
  | crc16 | sum8 => cases h; exact hs.issue fun hs => { hs with }
  | validate | desc | qpop =>
    cases h
    refine hs.issue fun hs => ?_
    split <;> exact { hs with }
  | fmSet =>
    cases h
    refine hs.issue fun hs => ?_
    split
    · exact { hs with }
    · split <;> exact { hs with }
  | decode =>
    cases h
    refine hs.issue fun hs => ?_
    split
    · exact { hs with }
    · dsimp only
      split
      · exact { hs with }
      · split <;> exact { hs with }
  | streamStart _ watchdog =>
    cases h
    refine hs.issue fun hs => ?_
    split
    · exact { hs with }
    · exact hs.openLink (hs.startStream _ watchdog)
  | streamStop =>
    cases h
    refine hs.issue fun hs => ?_
    split
    · exact { hs with
        poll := fun active => absurd active Bool.false_ne_true
        watchdog := fun active => absurd active Bool.false_ne_true }
    · exact { hs with }
  | getProductInfo | restart | jumpBoot | jumpApp => cases h; exact hs.issue fun hs => hs.issueExchange _ _ _ _ _
  | getFields | readFields => cases h; exact hs.issue fun hs => hs.issueReadFields _ _
  | writeFieldsTemp | writeFieldsPerm => cases h; exact hs.issue fun hs => hs.issueWriteFields _ _
  | setQuiet =>
    cases h
    refine hs.issue fun hs => ?_
    split
    · exact { hs with }
    · exact hs.issueExchange _ _ _ _ _
  | lock | unlock =>
    cases h
    refine hs.issue fun hs => ?_
    split
    · exact { hs with }
    · exact hs.issueRegion _ _ _ _
  | upgStart =>
    cases h
    refine hs.issue fun hs => ?_
    split
    · exact { hs with }
    · split
      · exact { hs with }
      · exact hs.openLink (hs.beginUpgrade _)
  | reset => cases h; exact { resetFor s.cfg s.linkOk with }

/-! ## The agents -/

/-- An enabled iteration runs at its time, so the window it leaves armed is not over before the next one
(43_synchronizer.md R192, R198). -/
theorem syncStep (hs : TimeSafe s) (enabled : syncEnabled s = true) : TimeSafe (syncStep s) := by
  obtain ⟨active, due⟩ := syncEnabled_iff.1 enabled
  obtain ⟨corr, ackr, upg⟩ := syncStep_others s
  constructor
  · intro _
    rw [syncStep_now, syncStep_nextPoll]
    exact ⟨Nat.le_add_right _ _, Nat.le_refl _⟩
  · intro _ enabled armed
    rw [syncStep_nextPoll]
    rcases syncStep_window enabled armed with ⟨start, early, enabled, armed⟩ | start <;> rw [start]
    · obtain ⟨k, -, at_k⟩ := hs.watchdog active enabled armed
      obtain ⟨not_past, -⟩ := hs.poll active
      refine ⟨k + 1, ?_, ?_⟩ <;> simp only [Config.pollMs, Config.wdTimeoutMs] at * <;> omega
    · exact ⟨1, by decide, by rw [Nat.one_mul]⟩
  · rw [syncStep_now, corr]
    exact hs.corr
  · rw [syncStep_now, ackr]
    exact hs.ackr
  · rw [syncStep_now, upg]
    exact hs.upg

theorem corrEnded (hs : TimeSafe s) : TimeSafe s.corrEnded := { hs with corr := fun waits => by cases waits }

/-- A wait of the upgrade that starts now, within the longest of R294. -/
theorem waitUntil (hs : TimeSafe s) {d : Nat} (le : d ≤ Config.eraseMs) (ph : UpgPhase) :
    TimeSafe (waitUntil d ph s) :=
  { hs with upg := fun _ => ⟨Nat.le_add_right _ _, Nat.add_le_add_left le _⟩ }

/-- The reader's wait starts now, with nothing read (45_upgrade.md R295). -/
theorem startAck (hs : TimeSafe s) {n : Nat} (pos : 0 < n) : TimeSafe (startAck n s) :=
  { hs with ackr := fun _ => ⟨Nat.le_add_right _ _, Nat.le_refl _, pos⟩ }

theorem setPhase (hs : TimeSafe s) {ph : UpgPhase} (h : ph.waitsForDeadline = false) : TimeSafe (setPhase ph s) :=
  { hs with upg := fun waits => absurd (h.symm.trans waits) Bool.false_ne_true }

theorem setStage (hs : TimeSafe s) (st : Stage) : TimeSafe (setStage st s) := { hs with }

theorem recordBlock (hs : TimeSafe s) : TimeSafe (recordBlock s) := { hs with }

/-- The wait after a block is the longest for the first, which erases (45_upgrade.md R293). -/
theorem sendBlock (hs : TimeSafe s) (o : Nat) : TimeSafe (sendBlock o s) := by
  have wait : (if o = 0 then Config.eraseMs else Config.blockMs) ≤ Config.eraseMs := by split <;> decide
  obtain ⟨poll, watchdog, corr, ackr, -⟩ := hs
  constructor <;> simp only [sendBlock_now, sendBlock_stream, sendBlock_corr, sendBlock_ackr, sendBlock_upg]
  · exact poll
  · exact watchdog
  · exact corr
  · exact ackr
  · exact fun _ => ⟨Nat.le_add_right _ _, Nat.add_le_add_left wait _⟩

theorem endSession (hs : TimeSafe s) : TimeSafe (endSession s) :=
  { hs with
    ackr := fun waits => by cases waits
    upg := fun waits => absurd waits Bool.false_ne_true }

theorem failUpgrade (hs : TimeSafe s) (e : ErrorCode) : TimeSafe (failUpgrade e s) := { hs.endSession with }

theorem deliverUpgrade (hs : TimeSafe s) (r : Option Bytes) : TimeSafe (deliverUpgrade r s) := by
  rcases deliverUpgrade_cases r s with h | h | h | ⟨e, h⟩ <;> rw [h]
  · exact hs
  · have switched : TimeSafe ((Machine.setStage .quietSet s).switchBaud Config.baudBoot) := { hs with }
    exact (switched.startExchange _ _ _ _).setPhase rfl
  · exact hs.waitUntil (by decide) _
  · exact hs.failUpgrade e

theorem deliver (hs : TimeSafe s) (r : Option Bytes) : TimeSafe (deliver r s) := by
  rcases deliver_cases r s with h | h
  · exact hs.corrEnded.of_waiting h
  · exact h ▸ hs.corrEnded.deliverUpgrade r

theorem corrStep (hs : TimeSafe s) : TimeSafe (corrStep s) := by
  have read : TimeSafe s.afterRead := { hs with }
  rcases corrStep_cases s with ⟨h, -⟩ | ⟨r, h⟩ <;> rw [h]
  · exact read
  · exact read.deliver r

theorem deliverAck (hs : TimeSafe s) (a : Bytes) : TimeSafe (deliverAck a s) := by
  rcases deliverAck_cases a s with h | h | h | ⟨o, h⟩ | ⟨e, h⟩ | h <;> rw [h]
  · exact hs
  · exact (hs.setStage _).waitUntil (by decide) _
  · exact (hs.recordBlock.setStage _).waitUntil (by decide) _
  · exact hs.recordBlock.sendBlock o
  · exact hs.failUpgrade e
  · exact { hs.endSession with }

/-- A reader that waits on has read less than it needs (45_upgrade.md R295). -/
theorem ackrRead (hs : TimeSafe s) (short : s.ackrRead.ackr.buf.length ≠ s.ackr.need) : TimeSafe s.ackrRead := by
  refine { hs with ackr := fun waits => ?_ }
  obtain ⟨not_past, window, before⟩ := hs.ackr waits
  refine ⟨not_past, window, Nat.lt_of_le_of_ne ?_ short⟩
  simp only [State.ackrRead, List.length_append, List.length_take]
  omega

theorem ackrStep (hs : TimeSafe s) : TimeSafe (ackrStep s) := by
  rcases ackrStep_cases s with ⟨h, short, -⟩ | ⟨a, h⟩ <;> rw [h]
  · exact hs.ackrRead short
  · have ended : TimeSafe s.ackrRead.ackrEnded := { hs with ackr := fun waits => by cases waits }
    exact ended.deliverAck a

theorem upgStep (hs : TimeSafe s) : TimeSafe (upgStep s) := by
  have sent (b : Bytes) : TimeSafe (s.flushIn.transmit b) := { hs with }
  have switched : TimeSafe (s.switchBaud Config.baudBlock) := { hs with }
  unfold Machine.upgStep
  split
  · exact (sent _).waitUntil (by decide) _
  · exact (hs.startAck (by decide)).setPhase rfl
  · exact switched.sendBlock 0
  · exact (hs.startAck (by decide)).setPhase rfl
  · exact ((sent _).startAck (by decide)).setPhase rfl
  · exact hs

theorem agentStep (hs : TimeSafe s) {a : Agent} (enabled : agentEnabled s a = true) : TimeSafe (agentStep s a) := by
  cases a with
  | sync => exact hs.syncStep enabled
  | corr => exact hs.corrStep
  | ackr => exact hs.ackrStep
  | upg => exact hs.upgStep

theorem idleStep (hs : TimeSafe s) : TimeSafe (idleStep s) := by
  unfold Machine.idleStep
  split
  · exact hs.agentStep (agentEnabled_of_nextAgent ‹_›)
  · exact hs

theorem settle (hs : TimeSafe s) : TimeSafe (settle s) := by
  unfold Machine.settle
  split
  · exact { hs.agentStep (agentEnabled_of_nextAgent ‹_›) with }
  · exact hs

/-! ## The host and the passage of time -/

theorem writeReg (hs : TimeSafe s) {num : Byte} {v : Word} (h : writeReg num v s = .next t) : TimeSafe t := by
  unfold Machine.writeReg at h
  split at h
  · unfold writeCmd at h
    split at h
    · exact hs.exec h
    · cases h
      exact hs.issue fun hs => { hs with }
  · cases h
    unfold writeHinLen
    split <;> exact { hs with }
  · cases h
    unfold writeBaud
    split <;> exact { hs with }
  · cases h
    unfold writeOdr
    split <;> exact { hs with }
  · cases h
    exact hs

/-- With no agent enabled every waiting deadline is still to come, and time stops at the first of them. -/
theorem elapse (hs : TimeSafe s) {d e : Nat} (idle : nextAgent s = none)
    (before : ∀ x ∈ deadlines s, s.now < x → s.now + e ≤ x) : TimeSafe (elapse d e s) := by
  have disabled := nextAgent_eq_none.1 idle
  -- a deadline whose agent is not enabled lies ahead, and after the step still in its window
  have kept {a : Agent} {x w : Nat} (waits : x ∈ deadlines s) (due : x ≤ s.now → agentEnabled s a = true)
      (window : x ≤ s.now + w) : s.now + e ≤ x ∧ x ≤ s.now + e + w := by
    have ahead : s.now < x := Nat.lt_of_not_le fun h => Bool.eq_false_iff.1 (disabled a) (due h)
    exact ⟨before x waits ahead, by omega⟩
  constructor
  · intro active
    exact kept (a := .sync) (mem_deadlines.2 (.inl ⟨active, rfl⟩)) (fun due => syncEnabled_iff.2 ⟨active, due⟩)
      (hs.poll active).2
  · exact hs.watchdog
  · intro waits
    exact kept (a := .corr) (mem_deadlines.2 (.inr (.inr (.inl ⟨waits, rfl⟩))))
      (fun due => agentEnabled_corr.2 ⟨waits, .inr due⟩) (hs.corr waits).2
  · intro waits
    obtain ⟨-, window, short⟩ := hs.ackr waits
    obtain ⟨not_past, window⟩ := kept (a := .ackr) (mem_deadlines.2 (.inr (.inr (.inr (.inl ⟨waits, rfl⟩)))))
      (fun due => agentEnabled_ackr.2 ⟨waits, .inr due⟩) window
    exact ⟨not_past, window, short⟩
  · intro waits
    exact kept (a := .upg) (mem_deadlines.2 (.inr (.inr (.inr (.inr ⟨waits, rfl⟩)))))
      (fun due => agentEnabled_upg.2 ⟨(waitsForDeadline_iff _).1 waits, due⟩) (hs.upg waits).2

theorem tick (hs : TimeSafe s) {d : Nat} (h : tick d s = .next t) : TimeSafe t := by
  have hd : 0 < d := by
    rcases Nat.eq_zero_or_pos d with rfl | hd
    · cases h
    · exact hd
  cases ha : nextAgent s with
  | some a =>
    rw [tick_of_nextAgent hd ha] at h
    cases h
    exact { hs.agentStep (agentEnabled_of_nextAgent ha) with }
  | none =>
    obtain ⟨e, -, -, ht, before, -⟩ := tick_elapses hd ha
    rw [ht] at h
    cases h
    exact hs.elapse ha before

theorem perform (hs : TimeSafe s) {a : Action} (h : perform a s = .next t) : TimeSafe t := by
  cases a with
  | regWrite => exact hs.writeReg h
  | hinWrite i b => cases h; unfold writeHin; split <;> exact { hs with }
  | regRead | hinRead | houtWrite | houtRead | rx | link => cases h; exact { hs with }
  | tick => exact hs.tick h
  | agent a =>
    by_cases ha : agentEnabled s a = true
    · rw [perform_agent ha] at h
      cases h
      exact hs.agentStep ha
    · simp [Machine.perform, scheduledAgent, ha] at h
  | settle => cases h; exact hs.settle

end TimeSafe

/-- With an empty schedule the block moves alone (70_reset_and_hazards.md R403, R413). -/
theorem step_of_empty_schedule (h : s.schedule = []) : step s = .next (idleStep s) := by
  unfold step
  rw [h]

/-- Settles O54: time stops at every deadline that waits, and every other move of an agent or the host starts its
deadlines anew. -/
theorem timeSafeKept : Obligations.TimeSafeKept := by
  intro s t hs h
  cases hsch : s.schedule with
  | nil =>
    rw [step_of_empty_schedule hsch] at h
    cases h
    exact hs.idleStep
  | cons a rest =>
    rw [step_of_schedule hsch] at h
    exact TimeSafe.perform (s := { s with schedule := rest }) { hs with } h

end Sys2Proof.Machine
end

section
/-! SUPPORT. How many steps the agents can take before each of them waits for a byte or for time, and the statement
about them (60_exceptions.md R373; 70_reset_and_hazards.md R413). -/

namespace Sys2Proof.Machine

variable {s t : State}

/-! ## The agents' steps leave the boundary alone -/

theorem deliverUpgrade_schedule (r : Option Bytes) (s : State) : (deliverUpgrade r s).schedule = s.schedule := by
  rcases deliverUpgrade_cases r s with h | h | h | ⟨_, h⟩ <;> rw [h] <;> rfl

theorem deliver_schedule (r : Option Bytes) (s : State) : (deliver r s).schedule = s.schedule := by
  rcases deliver_cases r s with h | h
  · simp only [State.waiting, Prod.mk.injEq] at h
    obtain ⟨-, -, -, -, -, -, schedule⟩ := h
    exact schedule
  · rw [h, deliverUpgrade_schedule]
    rfl

theorem corrStep_schedule (s : State) : (corrStep s).schedule = s.schedule := by
  rcases corrStep_cases s with ⟨h, -⟩ | ⟨r, h⟩ <;> rw [h]
  · rfl
  · exact deliver_schedule r s.afterRead

theorem deliverAck_schedule (a : Bytes) (s : State) : (deliverAck a s).schedule = s.schedule := by
  rcases deliverAck_cases a s with h | h | h | ⟨_, h⟩ | ⟨_, h⟩ | h <;> simp [h]

theorem ackrStep_schedule (s : State) : (ackrStep s).schedule = s.schedule := by
  rcases ackrStep_cases s with ⟨h, -⟩ | ⟨a, h⟩ <;> rw [h]
  · rfl
  · exact deliverAck_schedule a s.ackrRead.ackrEnded

theorem upgStep_schedule (s : State) : (upgStep s).schedule = s.schedule := by
  unfold upgStep
  split <;> rfl

theorem agentStep_schedule (a : Agent) (s : State) : (agentStep s a).schedule = s.schedule := by
  cases a with
  | sync => exact syncStep_schedule s
  | corr => exact corrStep_schedule s
  | ackr => exact ackrStep_schedule s
  | upg => exact upgStep_schedule s

theorem idleStep_schedule (s : State) : (idleStep s).schedule = s.schedule := by
  unfold idleStep
  split
  · exact agentStep_schedule _ s
  · rfl

theorem settleFor_schedule (n : Nat) (s : State) : (settleFor n s).schedule = s.schedule := by
  induction n generalizing s with
  | zero => rfl
  | succ n ih => rw [settleFor_succ, ih, idleStep_schedule]

/-! ## The steps left -/

/-- How many steps a due deadline of the upgrade can bring: its own; where it starts a reader, that reader's last; and
the `UPG` step that an acknowledgement of JI brings at once (45_upgrade.md R294). -/
def UpgPhase.stepsLeft : UpgPhase → Nat
  | .be => 1
  | .w1 | .w2 | .bw | .pj => 3
  | .none | .q1 | .q2 | .jiAck | .back | .jaAck => 0

/-- The iteration that is due (43_synchronizer.md R192). -/
def Stream.stepsLeft (now : Nat) (x : Stream) : Nat := if x.active = true ∧ x.nextPoll ≤ now then 1 else 0

/-- The step that ends an exchange at its deadline (44_correlator.md R241). -/
def Corr.stepsLeft (now : Nat) (c : Corr) : Nat := if c.phase = .wait ∧ c.deadline ≤ now then 1 else 0

/-- The reader's last step, and the `UPG` step that its acknowledgement can bring at once (45_upgrade.md R294, R295). -/
def Ackr.stepsLeft (a : Ackr) : Nat := if a.phase = .wait then 2 else 0

/-- The steps that a due deadline of the upgrade can bring. -/
def Upg.stepsLeft (now : Nat) (u : Upg) : Nat := if u.deadline ≤ now then u.phase.stepsLeft else 0

/-- A bound on the agents' steps before none is enabled, with no new bytes: one for each byte that waits, and what the
agents can bring besides. Every step of an enabled agent lowers it. -/
def State.stepsLeft (s : State) : Nat :=
  s.rxq.length + (s.stream.stepsLeft s.now + s.corr.stepsLeft s.now + s.ackr.stepsLeft + s.upg.stepsLeft s.now)

theorem stepsLeft_of_waiting (h : t.waiting = s.waiting) : t.stepsLeft = s.stepsLeft := by
  simp only [State.waiting, Prod.mk.injEq] at h
  obtain ⟨now, rxq, stream, corr, ackr, upg, -⟩ := h
  simp only [State.stepsLeft, now, rxq, stream, corr, ackr, upg]

/-- An iteration that is not due brings no step. -/
theorem Stream.stepsLeft_of_lt {now : Nat} {x : Stream} (h : now < x.nextPoll) : x.stepsLeft now = 0 :=
  if_neg fun due => Nat.not_le.2 h due.2

theorem Stream.stepsLeft_le (now : Nat) (x : Stream) : x.stepsLeft now ≤ 1 := by
  unfold stepsLeft
  split <;> omega

theorem Corr.stepsLeft_le (now : Nat) (c : Corr) : c.stepsLeft now ≤ 1 := by
  unfold stepsLeft
  split <;> omega

theorem Corr.stepsLeft_of_lt {now : Nat} {c : Corr} (h : now < c.deadline) : c.stepsLeft now = 0 :=
  if_neg fun due => Nat.not_le.2 h due.2

theorem Corr.stepsLeft_of_due {now : Nat} {c : Corr} (waits : c.phase = .wait) (due : c.deadline ≤ now) :
    c.stepsLeft now = 1 := if_pos ⟨waits, due⟩

theorem Corr.stepsLeft_of_idle {now : Nat} {c : Corr} (h : c.phase = .idle) : c.stepsLeft now = 0 :=
  if_neg fun due => by simp [h] at due

theorem Ackr.stepsLeft_of_wait {a : Ackr} (h : a.phase = .wait) : a.stepsLeft = 2 := if_pos h

theorem Ackr.stepsLeft_of_idle {a : Ackr} (h : a.phase = .idle) : a.stepsLeft = 0 := if_neg (by simp [h])

theorem Ackr.stepsLeft_le (a : Ackr) : a.stepsLeft ≤ 2 := by
  unfold stepsLeft
  split <;> omega

theorem Upg.stepsLeft_of_lt {now : Nat} {u : Upg} (h : now < u.deadline) : u.stepsLeft now = 0 :=
  if_neg (Nat.not_le.2 h)

theorem Upg.stepsLeft_of_due {now : Nat} {u : Upg} (h : u.deadline ≤ now) : u.stepsLeft now = u.phase.stepsLeft :=
  if_pos h

theorem UpgPhase.stepsLeft_le (ph : UpgPhase) : ph.stepsLeft ≤ 3 := by cases ph <;> decide

/-- A phase that waits for no deadline brings no step of its own (45_upgrade.md R294). -/
theorem Upg.stepsLeft_of_phase {now : Nat} {u : Upg} (h : u.phase.waitsForDeadline = false) : u.stepsLeft now = 0 := by
  have none_left : u.phase.stepsLeft = 0 := by
    revert h
    cases u.phase <;> decide
  rw [stepsLeft, none_left, ite_self]

theorem Upg.stepsLeft_le (now : Nat) (u : Upg) : u.stepsLeft now ≤ u.phase.stepsLeft := by
  unfold stepsLeft
  split
  · exact Nat.le_refl _
  · exact Nat.zero_le _

/-- One agent at most has a use of the link, and only it brings steps besides those that read (60_exceptions.md
R372). -/
theorem LinkSafe.stepsLeft_le (h : LinkSafe s) : s.stepsLeft ≤ s.rxq.length + 3 := by
  obtain ⟨a, only⟩ := h.linkUse.engages_unique
  have sync (other : a ≠ .sync) : s.stream.stepsLeft s.now = 0 := if_neg fun due => other (only .sync due.1).symm
  have corr (other : a ≠ .corr) : s.corr.stepsLeft s.now = 0 := if_neg fun due => other (only .corr due.1).symm
  have ackr (other : a ≠ .ackr) : s.ackr.stepsLeft = 0 := if_neg fun waits => other (only .ackr waits).symm
  have upg (other : a ≠ .upg) : s.upg.stepsLeft s.now = 0 :=
    Upg.stepsLeft_of_phase (Bool.eq_false_iff.2 fun waits => other (only .upg waits).symm)
  unfold State.stepsLeft
  cases a with
  | sync =>
    have := s.stream.stepsLeft_le s.now
    simp only [corr, ackr, upg, ne_eq, reduceCtorEq, not_false_eq_true]
    omega
  | corr =>
    have := s.corr.stepsLeft_le s.now
    simp only [sync, ackr, upg, ne_eq, reduceCtorEq, not_false_eq_true]
    omega
  | ackr =>
    have := s.ackr.stepsLeft_le
    simp only [sync, corr, upg, ne_eq, reduceCtorEq, not_false_eq_true]
    omega
  | upg =>
    have := s.upg.stepsLeft_le s.now
    have := s.upg.phase.stepsLeft_le
    simp only [sync, corr, ackr, ne_eq, reduceCtorEq, not_false_eq_true]
    omega

/-! ## Every step lowers the bound -/

theorem syncStep_stepsLeft (enabled : syncEnabled s = true) : (syncStep s).stepsLeft < s.stepsLeft := by
  obtain ⟨corr, ackr, upg⟩ := syncStep_others s
  have polled : (syncStep s).stream.stepsLeft s.now = 0 := by
    refine Stream.stepsLeft_of_lt ?_
    rw [syncStep_nextPoll]
    exact Nat.lt_add_of_pos_right (by decide)
  have due : s.stream.stepsLeft s.now = 1 := if_pos (syncEnabled_iff.1 enabled)
  have rxq := syncStep_rxq_le s
  simp only [State.stepsLeft, syncStep_now, corr, ackr, upg, polled, due]
  omega

/-- A move that brings the other agents neither a byte nor a step adds at most what the upgrade has left after it. -/
theorem stepsLeft_le_add {k : Nat} (same : t.now = s.now ∧ t.stream = s.stream) (rxq : t.rxq.length ≤ s.rxq.length)
    (corr : t.corr.stepsLeft t.now ≤ s.corr.stepsLeft s.now) (ackr : t.ackr.stepsLeft ≤ s.ackr.stepsLeft)
    (upg : t.upg.stepsLeft t.now ≤ k) : t.stepsLeft ≤ s.stepsLeft + k := by
  obtain ⟨now, stream⟩ := same
  rw [now] at corr upg
  simp only [State.stepsLeft, now, stream]
  omega

theorem waitUntil_stepsLeft {d : Nat} (ph : UpgPhase) {k : Nat} (h : 0 < d ∨ ph.stepsLeft ≤ k) (s : State) :
    (waitUntil d ph s).stepsLeft ≤ s.stepsLeft + k := by
  refine stepsLeft_le_add ⟨rfl, rfl⟩ (Nat.le_refl _) (Nat.le_refl _) (Nat.le_refl _) ?_
  rcases h with pos | few
  · exact (Upg.stepsLeft_of_lt (Nat.lt_add_of_pos_right pos)).trans_le (Nat.zero_le k)
  · exact (Upg.stepsLeft_le _ _).trans few

/-- The end of a session brings no step. -/
theorem endSession_stepsLeft (s : State) : (endSession s).stepsLeft ≤ s.stepsLeft :=
  stepsLeft_le_add (k := 0) ⟨rfl, rfl⟩ (Nat.le_refl _) (Nat.le_refl _)
    ((Ackr.stepsLeft_of_idle rfl).trans_le (Nat.zero_le _)) (Upg.stepsLeft_of_phase rfl).le

/-- The end of an exchange leaves the upgrade a request or a wait that is not due yet. -/
theorem deliverUpgrade_stepsLeft (r : Option Bytes) (s : State) : (deliverUpgrade r s).stepsLeft ≤ s.stepsLeft := by
  rcases deliverUpgrade_cases r s with h | h | h | ⟨e, h⟩ <;> rw [h]
  · refine stepsLeft_le_add (k := 0) ⟨rfl, rfl⟩ (Nat.zero_le _) ?_ (Nat.le_refl _) (Upg.stepsLeft_of_phase rfl).le
    exact (Corr.stepsLeft_of_lt (Nat.lt_add_of_pos_right (by decide))).trans_le (Nat.zero_le _)
  · exact waitUntil_stepsLeft (k := 0) _ (.inl (by decide)) s
  · exact endSession_stepsLeft s

/-- A delivery brings no step besides those of an idle correlator. -/
theorem deliver_stepsLeft (r : Option Bytes) (s : State) : (deliver r s).stepsLeft ≤ s.corrEnded.stepsLeft := by
  rcases deliver_cases r s with h | h
  · exact (stepsLeft_of_waiting h).le
  · exact h ▸ deliverUpgrade_stepsLeft r s.corrEnded

theorem corrEnded_stepsLeft (s : State) : s.corrEnded.stepsLeft + s.corr.stepsLeft s.now = s.stepsLeft := by
  have idle : s.corrEnded.corr.stepsLeft s.now = 0 := Corr.stepsLeft_of_idle rfl
  have ended : s.corrEnded.stepsLeft = s.rxq.length +
    (s.stream.stepsLeft s.now + s.corrEnded.corr.stepsLeft s.now + s.ackr.stepsLeft + s.upg.stepsLeft s.now) := rfl
  rw [ended, idle, State.stepsLeft]
  omega

theorem ackrEnded_stepsLeft (s : State) : s.ackrEnded.stepsLeft + s.ackr.stepsLeft = s.stepsLeft := by
  have idle : s.ackrEnded.ackr.stepsLeft = 0 := Ackr.stepsLeft_of_idle rfl
  have ended : s.ackrEnded.stepsLeft = s.rxq.length +
    (s.stream.stepsLeft s.now + s.corr.stepsLeft s.now + s.ackrEnded.ackr.stepsLeft + s.upg.stepsLeft s.now) := rfl
  rw [ended, idle, State.stepsLeft]
  omega

/-- A read lowers the bound by the bytes read, when it changes what an agent has read and no more. -/
theorem stepsLeft_of_read {n : Nat} (read : t.stepsLeft = (s.rxq.drop n).length +
      (s.stream.stepsLeft s.now + s.corr.stepsLeft s.now + s.ackr.stepsLeft + s.upg.stepsLeft s.now)) :
    t.stepsLeft + min n s.rxq.length = s.stepsLeft := by
  rw [read, List.length_drop, State.stepsLeft]
  omega

theorem afterRead_stepsLeft (s : State) : s.afterRead.stepsLeft + min (corrRead s) s.rxq.length = s.stepsLeft :=
  stepsLeft_of_read rfl

theorem ackrRead_stepsLeft (s : State) :
    s.ackrRead.stepsLeft + min (s.ackr.need - s.ackr.buf.length) s.rxq.length = s.stepsLeft :=
  stepsLeft_of_read rfl

/-- A `CORR` step reads a byte, or ends the exchange at its deadline (44_correlator.md R241). -/
theorem corrStep_stepsLeft (reads : 1 ≤ s.cfg.nRead) (enabled : agentEnabled s .corr = true) :
    (corrStep s).stepsLeft < s.stepsLeft := by
  obtain ⟨waits, bytes⟩ := agentEnabled_corr.1 enabled
  rw [← List.length_pos_iff] at bytes
  have some_read : 1 ≤ corrRead s := reads.trans (nRead_le_corrRead reads)
  have read := afterRead_stepsLeft s
  rcases corrStep_cases s with ⟨h, early⟩ | ⟨r, h⟩ <;> rw [h]
  · omega
  · have delivered := deliver_stepsLeft r s.afterRead
    have ended : s.afterRead.corrEnded.stepsLeft + s.corr.stepsLeft s.now = s.afterRead.stepsLeft :=
      corrEnded_stepsLeft s.afterRead
    rcases bytes with bytes | due
    · omega
    · have last := Corr.stepsLeft_of_due waits due
      omega

theorem setStage_stepsLeft (st : Stage) (s : State) : (setStage st s).stepsLeft = s.stepsLeft := rfl

/-- A block acknowledged leaves the steps as they are. -/
theorem recordBlock_stepsLeft (s : State) : (recordBlock s).stepsLeft = s.stepsLeft := rfl

/-- A block sent leaves a wait that is not due yet. -/
theorem sendBlock_upg_stepsLeft (o : Nat) (s : State) : (sendBlock o s).upg.stepsLeft s.now = 0 := by
  have later : 0 < if o = 0 then Config.eraseMs else Config.blockMs := by split <;> decide
  rw [sendBlock_upg]
  exact Upg.stepsLeft_of_lt (Nat.lt_add_of_pos_right later)

theorem sendBlock_stepsLeft (o : Nat) (s : State) : (sendBlock o s).stepsLeft ≤ s.stepsLeft :=
  stepsLeft_le_add (k := 0) ⟨sendBlock_now s o, sendBlock_stream s o⟩ (by simp) (by simp) (by simp)
    (by simp [sendBlock_upg_stepsLeft, -sendBlock_upg])

/-- An acknowledgement leaves the upgrade the erasure of the first block at once, or a wait that is not due yet. -/
theorem deliverAck_stepsLeft (a : Bytes) (s : State) : (deliverAck a s).stepsLeft ≤ s.stepsLeft + 1 := by
  rcases deliverAck_cases a s with h | h | h | ⟨o, h⟩ | ⟨e, h⟩ | h <;> rw [h]
  · exact Nat.le_add_right _ _
  · rw [← setStage_stepsLeft .bootloaderEntered s]
    exact waitUntil_stepsLeft .be (.inr (Nat.le_refl _)) _
  · refine (waitUntil_stepsLeft (k := 1) .pj (.inl (by decide)) _).trans_eq ?_
    rw [setStage_stepsLeft, recordBlock_stepsLeft]
  · refine (sendBlock_stepsLeft o _).trans ?_
    rw [recordBlock_stepsLeft]
    exact Nat.le_add_right _ _
  · exact (endSession_stepsLeft s).trans (Nat.le_add_right _ _)
  · exact (endSession_stepsLeft s).trans (Nat.le_add_right _ _)

/-- An `ACKR` step reads a byte that it needs, or ends (45_upgrade.md R295). -/
theorem ackrStep_stepsLeft (hs : TimeSafe s) (enabled : agentEnabled s .ackr = true) :
    (ackrStep s).stepsLeft < s.stepsLeft := by
  obtain ⟨waits, bytes⟩ := agentEnabled_ackr.1 enabled
  rw [← List.length_pos_iff] at bytes
  obtain ⟨-, -, needs⟩ := hs.ackr waits
  have read := ackrRead_stepsLeft s
  rcases ackrStep_cases s with ⟨h, -, early⟩ | ⟨a, h⟩ <;> rw [h]
  · omega
  · have delivered := deliverAck_stepsLeft a s.ackrRead.ackrEnded
    have ended : s.ackrRead.ackrEnded.stepsLeft + s.ackr.stepsLeft = s.ackrRead.stepsLeft :=
      ackrEnded_stepsLeft s.ackrRead
    have reader := Ackr.stepsLeft_of_wait waits
    omega

theorem stepsLeft_lt_of_upg (same : t.now = s.now ∧ t.stream = s.stream ∧ t.corr = s.corr)
    (rxq : t.rxq.length ≤ s.rxq.length)
    (fewer : t.ackr.stepsLeft + t.upg.stepsLeft t.now < s.ackr.stepsLeft + s.upg.stepsLeft s.now) :
    t.stepsLeft < s.stepsLeft := by
  obtain ⟨now, stream, corr⟩ := same
  rw [now] at fewer
  simp only [State.stepsLeft, now, stream, corr]
  omega

/-- A `UPG` step at its deadline leaves a wait that is not due yet, or a reader. -/
theorem upgStep_stepsLeft (enabled : agentEnabled s .upg = true) : (upgStep s).stepsLeft < s.stepsLeft := by
  obtain ⟨phase, due⟩ := agentEnabled_upg.1 enabled
  have own := Upg.stepsLeft_of_due due
  -- a step to a wait that is not due yet
  have waits {t : State} (same : t.now = s.now ∧ t.stream = s.stream ∧ t.corr = s.corr) (flushed : t.rxq = [])
      (ackr : t.ackr = s.ackr) (later : t.upg.stepsLeft t.now = 0) (pos : 0 < s.upg.phase.stepsLeft) :
      t.stepsLeft < s.stepsLeft :=
    stepsLeft_lt_of_upg same (by simp [flushed]) (by rw [ackr, later, own]; omega)
  -- a step to the reader
  have reads {t : State} (same : t.now = s.now ∧ t.stream = s.stream ∧ t.corr = s.corr)
      (rxq : t.rxq.length ≤ s.rxq.length) (phase : t.upg.phase.waitsForDeadline = false)
      (three : s.upg.phase.stepsLeft = 3) : t.stepsLeft < s.stepsLeft := by
    have := t.ackr.stepsLeft_le
    exact stepsLeft_lt_of_upg same rxq (by rw [Upg.stepsLeft_of_phase phase, own]; omega)
  rcases phase with phase | phase | phase | phase | phase
  · rw [upgStep_w1 phase]
    exact waits ⟨rfl, rfl, rfl⟩ rfl rfl (Upg.stepsLeft_of_lt (Nat.lt_add_of_pos_right (by decide)))
      (by rw [phase]; decide)
  · rw [upgStep_w2 phase]
    exact reads ⟨rfl, rfl, rfl⟩ (Nat.le_refl _) rfl (by rw [phase]; rfl)
  · rw [upgStep_be phase]
    exact waits (by simp) (by simp) (by simp) (sendBlock_upg_stepsLeft 0 _) (by rw [phase]; decide)
  · rw [upgStep_bw phase]
    exact reads ⟨rfl, rfl, rfl⟩ (Nat.le_refl _) rfl (by rw [phase]; rfl)
  · rw [upgStep_pj phase]
    exact reads ⟨rfl, rfl, rfl⟩ (Nat.zero_le _) rfl (by rw [phase]; rfl)

theorem agentStep_stepsLeft (hs : TimeSafe s) (reads : 1 ≤ s.cfg.nRead) {a : Agent}
    (enabled : agentEnabled s a = true) : (agentStep s a).stepsLeft < s.stepsLeft := by
  cases a with
  | sync => exact syncStep_stepsLeft enabled
  | corr => exact corrStep_stepsLeft reads enabled
  | ackr => exact ackrStep_stepsLeft hs enabled
  | upg => exact upgStep_stepsLeft enabled

/-! ## The agents run out -/

theorem settle_of_nextAgent {a : Agent} (h : nextAgent s = some a) :
    perform .settle s = .next (postpone .settle (agentStep s a)) := by
  simp only [perform, settle, h]

theorem settle_of_none (h : nextAgent s = none) : perform .settle s = .next s := by
  simp only [perform, settle, h]

theorem idleStep_of_nextAgent {a : Agent} (h : nextAgent s = some a) : idleStep s = agentStep s a := by
  simp only [idleStep, h]

theorem idleStep_of_none (h : nextAgent s = none) : idleStep s = s := by
  simp only [idleStep, h]

/-- With no new bytes no agent is enabled after as many steps as the bound says. -/
theorem exists_nextAgent_settleFor_eq_none (hs : TimeSafe s) (reads : 1 ≤ s.cfg.nRead) :
    ∃ n, n ≤ s.stepsLeft ∧ nextAgent (settleFor n s) = none := by
  induction hm : s.stepsLeft using Nat.strong_induction_on generalizing s with
  | h m ih =>
    cases h : nextAgent s with
    | none => exact ⟨0, Nat.zero_le _, h⟩
    | some a =>
      have enabled := agentEnabled_of_nextAgent h
      have lower := agentStep_stepsLeft hs reads enabled
      have cfg := (agentStep_blockStep a s).cfg
      obtain ⟨n, le, ended⟩ := ih _ (hm ▸ lower) (hs.agentStep enabled) (cfg ▸ reads) rfl
      exact ⟨n + 1, by omega, by rwa [settleFor_succ, idleStep_of_nextAgent h]⟩

/-- Settles O59: the choice of the agent gives what settling and an idle step do, and each agent's step lowers a bound
that is at most three above the bytes that wait. -/
theorem agentStepsRunOut : Obligations.AgentStepsRunOut := by
  refine ⟨fun s => ⟨fun _ => agentEnabled_of_nextAgent, nextAgent_eq_none, fun a h => ⟨settle_of_nextAgent h, ?_⟩,
    fun h => ⟨settle_of_none h, ?_⟩⟩, fun s link time legal => ⟨fun empty n => ?_, ?_⟩⟩
  · exact fun empty => by rw [step_of_empty_schedule empty, idleStep_of_nextAgent h]
  · exact fun empty => by rw [step_of_empty_schedule empty, idleStep_of_none h]
  · exact step_of_empty_schedule ((settleFor_schedule n s).trans empty)
  · obtain ⟨n, le, ended⟩ := exists_nextAgent_settleFor_eq_none time (Config.nRead_pos legal)
    have bound := link.stepsLeft_le
    exact ⟨n, by omega, ended⟩

end Sys2Proof.Machine
end

section
/-! SUPPORT. What RESET leaves, and the statements about it (70_reset_and_hazards.md R400, R401, R402, R403). -/

namespace Sys2Proof.Machine

variable {s : State}

/-! ## The operation -/

/-- Settles O27: RESET's words decode to it, and it does not look at `BUSY` or anything else before it acts. -/
theorem resetOperation : Obligations.ResetOperation :=
  ⟨fun _ opc rsv => decode_eq_ok_reset.2 ⟨opc, rsv⟩, fun _ => rfl⟩

/-! ## The state after reset -/

/-- The empty queue of R401 is within the capacity that `ODR` = 1 gives. -/
theorem QueueSafe.resetFor (cfg : Config) (linkOk : Bool) : QueueSafe (State.resetFor cfg linkOk) where
  odr_pos := show (1 : BitVec 16) ≠ 0 by decide
  queue_le := Nat.zero_le _
  queue_empty _ := rfl

/-- After reset nobody uses the link. -/
theorem LinkSafe.resetFor (cfg : Config) (linkOk : Bool) : LinkSafe (State.resetFor cfg linkOk) :=
  linkSafe_of_linkUse (.resetFor cfg linkOk) .free

/-- While the link has no owner every agent is idle (43_synchronizer.md R204, 60_exceptions.md R372). -/
theorem LinkSafe.agentEnabled_of_free (hs : LinkSafe s) (free : s.status.owner = .none) (a : Agent) :
    agentEnabled s a = false := by
  refine Bool.eq_false_iff.2 fun enabled => ?_
  have engaged := engages_of_agentEnabled enabled
  rw [hs.linkUse.of_free free] at engaged
  cases a with
  | sync | corr | ackr | upg => cases engaged

/-- Settles O55: each invariant holds after reset for all legal parameters, and so for the unknown ones; the link is
free, so no agent has a step to take. -/
theorem resetIsSafe : Obligations.ResetIsSafe :=
  have link : LinkSafe State.reset := .resetFor _ _
  ⟨link, .resetFor _ _, .resetFor Config.machine_wf _, .resetFor _ _, .resetFor _ _, rfl, rfl,
    link.agentEnabled_of_free rfl⟩

end Sys2Proof.Machine
end
